-- ==== Sys2Proof/Word.lean ====
section
/-! DEFINITION. The word types of the ALC-1606: bytes on the links, gate counts, and the numbers of
entries, gates and lines. Times are whole numbers of ticks (spec 00, Conventions). -/

namespace Sys2Proof

/-- One byte of a frame (R1). -/
abbrev Byte := BitVec 8

/-- A gate node's 24-bit free-running count (R24, R34). -/
abbrev Count := BitVec 24

/-- A race time or a duration, in ticks of 10 µs. -/
abbrev Ticks := Nat

/-- An entry of the race. Entry number n of the manual (1 to 16) is index n - 1. -/
abbrev Entry := Fin 16

/-- A gate slot. Gate id g of the manual (1 to 32) is index g - 1. -/
abbrev GateId := Fin 32

/-- A timing line, 0 to 4. -/
abbrev Line := Fin 5

end Sys2Proof
end

