-- ==== Sys2Proof/Config.lean ====
section
/-! DEFINITION. What is fixed for the part: the constants of the manual, and the values it leaves open,
which are opaque so that nothing can be proved of them. -/

namespace Sys2Proof.Config

/-- The race clock stops and holds at this value (R21). -/
def clockMax : Nat := 4294967295

/-- The race clock raises the clock-limit event here (R21). -/
def clockLimit : Nat := 4200000000

/-- Ticks in a second (spec 00, Conventions). -/
def second : Nat := 100000

/-- A beacon round closes this long after its send time (R31). -/
def roundLength : Nat := 5000

/-- A gate older than this is UNALIGNED at a boundary (R38). -/
def alignmentLimit : Nat := 6000000

/-- Ticks between two beats (R193). -/
def beatPeriod : Nat := 12500

/-- Ticks a port waits for the next byte of a frame (R4). -/
def byteGap : Nat := 100

/-- The longest body of a frame (R2). -/
def maxBody : Nat := 60

/-- Capacity of each pass-through queue (R11). -/
def passCapacity : Nat := 8

/-- Capacity of the drive queue (R12). -/
def driveCapacity : Nat := 2

/-- Capacity of the reply queue (R14). -/
def replyCapacity : Nat := 4

/-- Capacity of the record queue (R15). -/
def recordCapacity : Nat := 64

/-- Capacity of an owed-penalty queue (R152). -/
def owedCapacity : Nat := 4

/-- Capacity of the neutral-period list (R119). -/
def periodCapacity : Nat := 32

/-- Capacity of a recent-progress ring (R79). -/
def ringCapacity : Nat := 10

/-- The most paired line-lanes the gate table may hold (R26). -/
def pairedLimit : Nat := 12

/-- FREE VALUE, log entry 2. Where among `n` later events an event due at the same tick is taken: the
manual lets events that fall together come in any order. The first argument is the number of draws
made so far. -/
opaque sameTickSlot : Nat → Nat → Nat

/-- FREE VALUE, log entry 13. The car code a merged crossing carries into a STRAY record when its held
report and its partner report carry different codes (R54 and R60 state none). -/
opaque mergedCode : Byte → Byte → Byte

end Sys2Proof.Config
end

