-- ==== Sys2Proof/Syntax.lean ====
section
/-! DEFINITION. The commands of the part: one constructor for each row of spec/opcode_table.json, with the
operands the frame or the request carries. A request row carries its tag and its argument bytes, so that a
wrong length or a wrong value is a command too (R185). ISSUE, DRILL and RESTART have two rows each, which
the argument bytes tell apart; log entry 20 says which row carries bytes that fit neither. -/

namespace Sys2Proof

/-- The two ports of the part (R1). -/
inductive Port where
  | station
  | track
  deriving DecidableEq, Repr

/-- One entry of a DRIVE frame (R6): at the station port the first byte is a controller number, at the
track port it is a car code. -/
structure DriveEntry where
  first : Byte
  throttle : Byte
  change : Byte
  deriving DecidableEq, Repr

/-- The commands and events that the part takes, each whole and indivisible (spec 95). -/
inductive Instr where
  /-- POWER_ON_RESET (R20). -/
  | powerOnReset
  /-- RSTN_FALL (R19). -/
  | rstnFall
  /-- RSTN_RELEASE (R132). -/
  | rstnRelease
  /-- BYTE_GAP_TIMEOUT (R4). -/
  | byteGapTimeout (port : Port)
  /-- XING_RECEIVED (R45). -/
  | xingReceived (gate code : Byte) (count : Count) (arrival : Ticks)
  /-- BEACON_REPLY (R33). -/
  | beaconReply (gate number : Byte) (count : Count) (arrival : Ticks)
  /-- MARSHAL_BUTTON (R128). -/
  | marshalButton (gate : Byte) (arrival : Ticks)
  /-- TRACK_PASS_THROUGH (R9). -/
  | trackPassThrough (ftype : Byte) (body : List Byte)
  /-- DRIVE_FRAME (R172). -/
  | driveFrame (entries : List DriveEntry) (arrival : Ticks)
  /-- STATION_BEAC_LAMP_DISCARD (R10). -/
  | stationBeacLampDiscard (ftype : Byte) (body : List Byte)
  /-- STATION_PASS_THROUGH (R10). -/
  | stationPassThrough (ftype : Byte) (body : List Byte)
  /-- STATION_TRANSMIT_DONE (R17). -/
  | stationTransmitDone
  /-- TRACK_TRANSMIT_DONE (R18). -/
  | trackTransmitDone
  /-- BEACON_BOUNDARY (R23). -/
  | beaconBoundary
  /-- BEACON_ROUND_CLOSE (R32). -/
  | beaconRoundClose
  /-- CLOCK_LIMIT (R21). -/
  | clockLimit
  /-- RACE_CLOCK_STOP (R21). -/
  | raceClockStop
  /-- PAIR_DEADLINE (R55). -/
  | pairDeadline (entry : Entry)
  /-- DRILL_CROSSING_DUE (R64). -/
  | drillCrossingDue (entry : Entry)
  /-- OVERDUE_EXPIRY (R88). -/
  | overdueExpiry (entry : Entry)
  /-- COUNTDOWN_STEP_END (R114). -/
  | countdownStepEnd
  /-- RANDOM_HOLD_END (R115). -/
  | randomHoldEnd
  /-- HEAT_CLOCK_EXPIRY (R121). -/
  | heatClockExpiry
  /-- GRACE_EXPIRY (R123). -/
  | graceExpiry
  /-- BEAT (R193). -/
  | beat
  /-- UNKNOWN_REQUEST (R185). -/
  | unknownRequest (tag code : Byte) (args : List Byte)
  /-- SET_TIMING (R188). -/
  | setTiming (tag : Byte) (args : List Byte)
  /-- SET_HEAT (R130). -/
  | setHeat (tag : Byte) (args : List Byte)
  /-- SET_FUEL (R182). -/
  | setFuel (tag : Byte) (args : List Byte)
  /-- SET_SEED (R131). -/
  | setSeed (tag : Byte) (args : List Byte)
  /-- SET_ATTN_MASK (R191). -/
  | setAttnMask (tag : Byte) (args : List Byte)
  /-- WRITE_GATE (R25). -/
  | writeGate (tag : Byte) (args : List Byte)
  /-- WRITE_LINE (R177). -/
  | writeLine (tag : Byte) (args : List Byte)
  /-- WRITE_ENTRY (R170). -/
  | writeEntry (tag : Byte) (args : List Byte)
  /-- WRITE_RULE (R138). -/
  | writeRule (tag : Byte) (args : List Byte)
  /-- READ_GATE (R27). -/
  | readGate (tag : Byte) (args : List Byte)
  /-- READ_LINE (R178). -/
  | readLine (tag : Byte) (args : List Byte)
  /-- READ_ENTRY (R171). -/
  | readEntry (tag : Byte) (args : List Byte)
  /-- READ_RULE (R139). -/
  | readRule (tag : Byte) (args : List Byte)
  /-- READ_CAR (R93). -/
  | readCar (tag : Byte) (args : List Byte)
  /-- READ_OWED (R166). -/
  | readOwed (tag : Byte) (args : List Byte)
  /-- READ_ORDER (R106). -/
  | readOrder (tag : Byte) (args : List Byte)
  /-- STATUS (R194). -/
  | status (tag : Byte) (args : List Byte)
  /-- ARM (R112). -/
  | arm (tag : Byte) (args : List Byte)
  /-- START (R113). -/
  | start (tag : Byte) (args : List Byte)
  /-- CAUTION (R116). -/
  | caution (tag : Byte) (args : List Byte)
  /-- GREEN (R116). -/
  | green (tag : Byte) (args : List Byte)
  /-- HOLD (R117). -/
  | hold (tag : Byte) (args : List Byte)
  /-- RESUME (R118). -/
  | resume (tag : Byte) (args : List Byte)
  /-- ABORT (R125). -/
  | abort (tag : Byte) (args : List Byte)
  /-- DISMISS (R126). -/
  | dismiss (tag : Byte) (args : List Byte)
  /-- ISSUE_COUNTED (R150). -/
  | issueCounted (tag : Byte) (args : List Byte)
  /-- ISSUE_DIRECT (R150). -/
  | issueDirect (tag : Byte) (args : List Byte)
  /-- WAIVE (R165). -/
  | waive (tag : Byte) (args : List Byte)
  /-- RETIRE (R94). -/
  | retire (tag : Byte) (args : List Byte)
  /-- CLEAR_BEST (R83). -/
  | clearBest (tag : Byte) (args : List Byte)
  /-- DRILL_ON (R61). -/
  | drillOn (tag : Byte) (args : List Byte)
  /-- DRILL_OFF (R61). -/
  | drillOff (tag : Byte) (args : List Byte)
  /-- CLEAR_EVENTS (R190). -/
  | clearEvents (tag : Byte) (args : List Byte)
  /-- RESTART_RACE (R196). -/
  | restartRace (tag : Byte) (args : List Byte)
  /-- RESTART_ALL (R197). -/
  | restartAll (tag : Byte) (args : List Byte)
  /-- FRAME_CHECK_FAILED (R3). -/
  | frameCheckFailed (port : Port)
  /-- LENGTH_ABOVE_60 (R2). -/
  | lengthAbove60 (port : Port)
  /-- MALFORMED_FRAME (R7). -/
  | malformedFrame (port : Port)
  deriving DecidableEq, Repr

end Sys2Proof
end

