-- ==== Sys2Proof/WellFormed.lean ====
section
/-! DEFINITION. Which commands the links can deliver: operands in the ranges of the frame layouts (R6, R7),
times the race clock can show (R21), and for rows that share a frame type the bytes that tell them apart. -/

namespace Sys2Proof

/-- A gate id byte names a gate, 1 to 32 (R6). -/
def gateInRange (g : Byte) : Bool := 1 ≤ g.toNat && g.toNat ≤ 32

/-- A car code byte is 0 to 15, or 31 for a code the gate could not read (R6). -/
def codeInRange (c : Byte) : Bool := c.toNat ≤ 15 || c.toNat == 31

/-- The shape R6 gives a DRIVE frame: 1 to 16 entries. -/
def driveInRange (es : List DriveEntry) : Bool := 1 ≤ es.length && es.length ≤ 16

/-- A race time fits the 32-bit clock (R21). -/
def timeInRange (t : Ticks) : Bool := t ≤ Config.clockMax

/-- A body fits the envelope (R2). -/
def bodyInRange (b : List Byte) : Bool := b.length ≤ Config.maxBody

/-- A request's argument part fits the body behind tag and code (R7). -/
def argsInRange (a : List Byte) : Bool := a.length + 2 ≤ Config.maxBody

/-- The type values of section 1.3. -/
def typeXing : Byte := 0x11
def typeGstat : Byte := 0x12
def typeDrive : Byte := 0x21
def typeBeac : Byte := 0x22
def typeLamp : Byte := 0x23
def typeMgmt : Byte := 0x31
def typeRply : Byte := 0x32
def typeRec : Byte := 0x33

/-- The request codes of the index in spec file 10. -/
def knownCodes : List Nat :=
  [0x01, 0x02, 0x03, 0x04, 0x05, 0x10, 0x11, 0x12, 0x13, 0x20, 0x21, 0x22, 0x23, 0x24, 0x25, 0x26, 0x27,
   0x30, 0x31, 0x32, 0x33, 0x34, 0x35, 0x36, 0x37, 0x40, 0x41, 0x42, 0x43, 0x44, 0x50, 0x51]

/-- The argument bytes of an ISSUE name the direct mode: its third byte is 1 (R149). -/
def issueIsDirect (args : List Byte) : Bool := args.getD 2 0 == 1

/-- The one argument byte of a DRILL is 0 for OFF (R61). -/
def drillIsOff (args : List Byte) : Bool := args == [0]

/-- The one argument byte of a RESTART is 1 for ALL (R196). -/
def restartIsAll (args : List Byte) : Bool := args == [1]

/-- A command the links can deliver. -/
def WellFormed : Instr → Bool
  | .xingReceived gate code _ arrival => gateInRange gate && codeInRange code && timeInRange arrival
  | .beaconReply gate _ _ arrival => gateInRange gate && timeInRange arrival
  | .marshalButton gate arrival => gateInRange gate && timeInRange arrival
  | .trackPassThrough ftype body => bodyInRange body && ftype != typeXing && ftype != typeGstat
  | .driveFrame es arrival => driveInRange es && timeInRange arrival
  | .stationBeacLampDiscard ftype body => bodyInRange body && (ftype == typeBeac || ftype == typeLamp)
  | .stationPassThrough ftype body =>
    bodyInRange body && ftype != typeDrive && ftype != typeMgmt && ftype != typeBeac && ftype != typeLamp
  | .unknownRequest _ code args => argsInRange args && !(knownCodes.contains code.toNat)
  | .setTiming _ args => argsInRange args
  | .setHeat _ args => argsInRange args
  | .setFuel _ args => argsInRange args
  | .setSeed _ args => argsInRange args
  | .setAttnMask _ args => argsInRange args
  | .writeGate _ args => argsInRange args
  | .writeLine _ args => argsInRange args
  | .writeEntry _ args => argsInRange args
  | .writeRule _ args => argsInRange args
  | .readGate _ args => argsInRange args
  | .readLine _ args => argsInRange args
  | .readEntry _ args => argsInRange args
  | .readRule _ args => argsInRange args
  | .readCar _ args => argsInRange args
  | .readOwed _ args => argsInRange args
  | .readOrder _ args => argsInRange args
  | .status _ args => argsInRange args
  | .arm _ args => argsInRange args
  | .start _ args => argsInRange args
  | .caution _ args => argsInRange args
  | .green _ args => argsInRange args
  | .hold _ args => argsInRange args
  | .resume _ args => argsInRange args
  | .abort _ args => argsInRange args
  | .dismiss _ args => argsInRange args
  | .issueCounted _ args => argsInRange args && !(issueIsDirect args)
  | .issueDirect _ args => argsInRange args && issueIsDirect args
  | .waive _ args => argsInRange args
  | .retire _ args => argsInRange args
  | .clearBest _ args => argsInRange args
  | .drillOn _ args => argsInRange args && !(drillIsOff args)
  | .drillOff _ args => argsInRange args && drillIsOff args
  | .clearEvents _ args => argsInRange args
  | .restartRace _ args => argsInRange args && !(restartIsAll args)
  | .restartAll _ args => argsInRange args && restartIsAll args
  | .powerOnReset => true
  | .rstnFall => true
  | .rstnRelease => true
  | .byteGapTimeout _ => true
  | .stationTransmitDone => true
  | .trackTransmitDone => true
  | .beaconBoundary => true
  | .beaconRoundClose => true
  | .clockLimit => true
  | .raceClockStop => true
  | .pairDeadline _ => true
  | .drillCrossingDue _ => true
  | .overdueExpiry _ => true
  | .countdownStepEnd => true
  | .randomHoldEnd => true
  | .heatClockExpiry => true
  | .graceExpiry => true
  | .beat => true
  | .frameCheckFailed _ => true
  | .lengthAbove60 _ => true
  | .malformedFrame _ => true

end Sys2Proof
end

