-- ==== Sys2Proof/Decode.lean ====
section
/-! DEFINITION. From a good frame to the command it is: classification by port and type (R9, R10), the
layouts of the consumed frames (R6, R7) and the request index of spec file 10; and back. The opcode table
gives no row any bits, so decodeTableWord refuses every word. -/

namespace Sys2Proof

/-- The entries of a DRIVE body behind its count byte, three bytes each (R6). -/
def driveEntries : List Byte → Option (List DriveEntry)
  | [] => some []
  | a :: b :: c :: rest => (driveEntries rest).map (⟨a, b, c⟩ :: ·)
  | _ => none

/-- The request that a good MGMT frame with this code carries (index of spec file 10, R61, R149, R196). -/
def requestOf (tag code : Byte) (args : List Byte) : Instr :=
  match code.toNat with
  | 0x01 => .setTiming tag args
  | 0x02 => .setHeat tag args
  | 0x03 => .setFuel tag args
  | 0x04 => .setSeed tag args
  | 0x05 => .setAttnMask tag args
  | 0x10 => .writeGate tag args
  | 0x11 => .writeLine tag args
  | 0x12 => .writeEntry tag args
  | 0x13 => .writeRule tag args
  | 0x20 => .readGate tag args
  | 0x21 => .readLine tag args
  | 0x22 => .readEntry tag args
  | 0x23 => .readRule tag args
  | 0x24 => .readCar tag args
  | 0x25 => .readOwed tag args
  | 0x26 => .readOrder tag args
  | 0x27 => .status tag args
  | 0x30 => .arm tag args
  | 0x31 => .start tag args
  | 0x32 => .caution tag args
  | 0x33 => .green tag args
  | 0x34 => .hold tag args
  | 0x35 => .resume tag args
  | 0x36 => .abort tag args
  | 0x37 => .dismiss tag args
  | 0x40 => if issueIsDirect args then .issueDirect tag args else .issueCounted tag args
  | 0x41 => .waive tag args
  | 0x42 => .retire tag args
  | 0x43 => .clearBest tag args
  | 0x44 => if drillIsOff args then .drillOff tag args else .drillOn tag args
  | 0x50 => .clearEvents tag args
  | 0x51 => if restartIsAll args then .restartAll tag args else .restartRace tag args
  | _ => .unknownRequest tag code args

/-- An XING body: gate id, car code, gate count (R6). -/
def xingOf (arrival : Ticks) : List Byte → Instr
  | [g, c, hi, mid, lo] =>
    if gateInRange g && codeInRange c then .xingReceived g c (hi ++ mid ++ lo) arrival else .malformedFrame .track
  | _ => .malformedFrame .track

/-- A GSTAT body: a beacon reply (kind 1) or a marshal button (kind 2); anything else is malformed (R6). -/
def gstatOf (arrival : Ticks) : List Byte → Instr
  | [g, k, n, hi, mid, lo] =>
    if gateInRange g && k == 1 then .beaconReply g n (hi ++ mid ++ lo) arrival else .malformedFrame .track
  | [g, k] => if gateInRange g && k == 2 then .marshalButton g arrival else .malformedFrame .track
  | _ => .malformedFrame .track

/-- A DRIVE body: a count m of 1 to 16 and 3m bytes (R6). -/
def driveOf (arrival : Ticks) : List Byte → Instr
  | m :: rest =>
    match driveEntries rest with
    | some es =>
      if driveInRange es && es.length == m.toNat then .driveFrame es arrival else .malformedFrame .station
    | none => .malformedFrame .station
  | [] => .malformedFrame .station

/-- An MGMT body: tag, request code, arguments (R7). -/
def mgmtOf : List Byte → Instr
  | tag :: code :: args => requestOf tag code args
  | _ => .malformedFrame .station

/-- Classification of a good frame at its port (R9, R10). -/
def commandOf (port : Port) (arrival : Ticks) (ftype : Byte) (body : List Byte) : Instr :=
  match port with
  | .track =>
    if ftype = typeXing then xingOf arrival body
    else if ftype = typeGstat then gstatOf arrival body
    else .trackPassThrough ftype body
  | .station =>
    if ftype = typeDrive then driveOf arrival body
    else if ftype = typeMgmt then mgmtOf body
    else if ftype = typeBeac ∨ ftype = typeLamp then .stationBeacLampDiscard ftype body
    else .stationPassThrough ftype body

/-- The code the request index gives a request row. -/
def requestCode : Instr → Option (Byte × Byte × List Byte)
  | .unknownRequest tag code args => some (tag, code, args)
  | .setTiming tag args => some (tag, 0x01, args)
  | .setHeat tag args => some (tag, 0x02, args)
  | .setFuel tag args => some (tag, 0x03, args)
  | .setSeed tag args => some (tag, 0x04, args)
  | .setAttnMask tag args => some (tag, 0x05, args)
  | .writeGate tag args => some (tag, 0x10, args)
  | .writeLine tag args => some (tag, 0x11, args)
  | .writeEntry tag args => some (tag, 0x12, args)
  | .writeRule tag args => some (tag, 0x13, args)
  | .readGate tag args => some (tag, 0x20, args)
  | .readLine tag args => some (tag, 0x21, args)
  | .readEntry tag args => some (tag, 0x22, args)
  | .readRule tag args => some (tag, 0x23, args)
  | .readCar tag args => some (tag, 0x24, args)
  | .readOwed tag args => some (tag, 0x25, args)
  | .readOrder tag args => some (tag, 0x26, args)
  | .status tag args => some (tag, 0x27, args)
  | .arm tag args => some (tag, 0x30, args)
  | .start tag args => some (tag, 0x31, args)
  | .caution tag args => some (tag, 0x32, args)
  | .green tag args => some (tag, 0x33, args)
  | .hold tag args => some (tag, 0x34, args)
  | .resume tag args => some (tag, 0x35, args)
  | .abort tag args => some (tag, 0x36, args)
  | .dismiss tag args => some (tag, 0x37, args)
  | .issueCounted tag args => some (tag, 0x40, args)
  | .issueDirect tag args => some (tag, 0x40, args)
  | .waive tag args => some (tag, 0x41, args)
  | .retire tag args => some (tag, 0x42, args)
  | .clearBest tag args => some (tag, 0x43, args)
  | .drillOn tag args => some (tag, 0x44, args)
  | .drillOff tag args => some (tag, 0x44, args)
  | .clearEvents tag args => some (tag, 0x50, args)
  | .restartRace tag args => some (tag, 0x51, args)
  | .restartAll tag args => some (tag, 0x51, args)
  | _ => none

/-- The three bytes of a gate count, high byte first (R5). -/
def countBytes (n : Count) : List Byte :=
  [n.extractLsb' 16 8, n.extractLsb' 8 8, n.extractLsb' 0 8]

/-- The bytes of one drive entry (R6). -/
def DriveEntry.bytes (e : DriveEntry) : List Byte := [e.first, e.throttle, e.change]

/-- The body of a DRIVE frame: the count and three bytes an entry (R6). -/
def driveBody (es : List DriveEntry) : List Byte :=
  BitVec.ofNat 8 es.length :: (es.map DriveEntry.bytes).flatten

/-- The frame that brings a command: its port, its type and its body. Commands no frame brings have none. -/
def frameOf : Instr → Option (Port × Byte × List Byte)
  | .xingReceived gate code count _ => some (.track, typeXing, gate :: code :: countBytes count)
  | .beaconReply gate number count _ => some (.track, typeGstat, gate :: 1 :: number :: countBytes count)
  | .marshalButton gate _ => some (.track, typeGstat, [gate, 2])
  | .trackPassThrough ftype body => some (.track, ftype, body)
  | .driveFrame es _ => some (.station, typeDrive, driveBody es)
  | .stationBeacLampDiscard ftype body => some (.station, ftype, body)
  | .stationPassThrough ftype body => some (.station, ftype, body)
  | i => (requestCode i).map fun r => (.station, typeMgmt, r.1 :: r.2.1 :: r.2.2)

/-- The arrival time a frame command carries, where it carries one. -/
def arrivalOf : Instr → Option Ticks
  | .xingReceived _ _ _ arrival => some arrival
  | .beaconReply _ _ _ arrival => some arrival
  | .marshalButton _ arrival => some arrival
  | .driveFrame _ arrival => some arrival
  | _ => none

/-- The command a word of the opcode table spells: none, because no row of the table gives any bits. -/
def decodeTableWord (_nbits _w : Nat) : Option Instr := none

end Sys2Proof
end

