-- ==== Sys2Proof/Machine/Types.lean ====
section
/-! DEFINITION. The enumerations and records of the manual: what tables, queues, contexts and records hold. -/

namespace Sys2Proof.Machine

/-- Session states (R5, R111). -/
inductive SessionState where
  | idle | armed | countdown | green | caution | held | chequered | closed
  deriving DecidableEq, Repr

/-- Car states (R5, R68). -/
inductive CarState where
  | unused | grid | running | inPit | offTrack | finished | retired
  deriving DecidableEq, Repr

/-- The seven incident kinds (R5, section 7.1). -/
inductive IncidentKind where
  | jumpStart | cautionPass | changeFoul | pitShort | lineMiss | offTrack | unserved
  deriving DecidableEq, Repr

/-- Sanctions (R5, R136). -/
inductive Sanction where
  | note | timeAdd | lapDeduct | driveThrough | stopGo | blackFlag
  deriving DecidableEq, Repr

/-- Call classes (R5, R140). -/
inductive CallClass where
  | warning | penalty
  deriving DecidableEq, Repr

/-- Serve outcomes (R5, R167). -/
inductive ServeOutcome where
  | served | short | unserved | waived | converted
  deriving DecidableEq, Repr

/-- Fuel conditions of a FUEL record (R5, R181). -/
inductive FuelCondition where
  | low | out | recovered
  deriving DecidableEq, Repr

/-- Fuel states of a car (R68, R181). -/
inductive FuelState where
  | normal | low | out
  deriving DecidableEq, Repr

/-- Gate conditions of a GATE record (R5, R39). -/
inductive GateCondition where
  | alignedFull | trimClamped | stale | unaligned
  deriving DecidableEq, Repr

/-- Stray reasons (R5, R60). -/
inductive StrayReason where
  | unknownCar | unattributed | order | laneOff | gateUnused | notInHeat
  deriving DecidableEq, Repr

/-- Lamp states (R5, R127). -/
inductive LampState where
  | dark | red | green | yellow | redHold | chequer
  deriving DecidableEq, Repr

/-- Results of a request (R5, R186). -/
inductive Result where
  | ok | adjusted | badValue | badIndex | conflict | wrongState | notAligned | noEntries | unknown
  deriving DecidableEq, Repr

/-- Causes of a move of the session (R129). -/
inductive Cause where
  | request | button | lightsOut | lapsDone | timeUp | allFinished | graceUp | abortRequest | clockLimit
  | lineReset
  deriving DecidableEq, Repr

/-- Groups of the event summary (R7, R189). -/
inductive Group where
  | link | gate | stray | call | marshal | fuel | session | records
  deriving DecidableEq, Repr

/-- Gate roles (R24). -/
inductive GateRole where
  | unused | line | pitEntry | pitExit
  deriving DecidableEq, Repr

/-- Pair positions (R24). -/
inductive PairPosition where
  | primary | secondary
  deriving DecidableEq, Repr

/-- Zone modes (section 9.4). -/
inductive ZoneMode where
  | openZone | veto | watch
  deriving DecidableEq, Repr

/-- Drill modes (section 3.7). -/
inductive DrillMode where
  | off | fixed | ramp | scatter
  deriving DecidableEq, Repr

/-- RACE_KIND (R130). -/
inductive RaceKind where
  | laps | time
  deriving DecidableEq, Repr

/-- MARSHAL_ACTION (R128, R130). -/
inductive MarshalAction where
  | nothing | caution | hold
  deriving DecidableEq, Repr

/-- The phase of a countdown (R111, R114). -/
inductive CountPhase where
  | steps | hold
  deriving DecidableEq, Repr

/-- A frame: its type and its body. The check bytes are those R3 computes over them; a good frame's
received check is that value (log entry 28). -/
structure Frame where
  ftype : Byte
  body : List Byte
  deriving DecidableEq, Repr

/-- The receive assembler's states (section 1.2). -/
inductive AsmState where
  | hunt | type | length | body | check
  deriving DecidableEq, Repr

/-- A receive assembler with its frame buffer (R2). -/
structure Assembler where
  state : AsmState
  arrival : Ticks
  ftype : Byte
  length : Nat
  body : List Byte
  checkHigh : Option Byte
  deriving DecidableEq, Repr

/-- A byte now arriving on a link: its value, the race clock at its first bit, the ticks it still takes. -/
structure ArrivingByte where
  value : Byte
  start : Ticks
  left : Nat
  deriving DecidableEq, Repr

/-- A port's receive side (R1, R2, R4): the assembler, the byte on the wire, the ticks since the last byte
ended, and the MODEL's own field `coming`, the bytes the outside world will send, each with the idle ticks
before it (log entry 6). -/
structure Receiver where
  asm : Assembler
  current : Option ArrivingByte
  gap : Nat
  coming : List (Nat × Byte)
  deriving DecidableEq, Repr

/-- A frame in transmission and the ticks it still takes (R1, R16). -/
structure Transmission where
  frame : Frame
  remaining : Nat
  deriving DecidableEq, Repr

/-- A LAMP frame in the slot (R13): its lamp state and its red count (R6). -/
structure Lamp where
  state : LampState
  red : Nat
  deriving DecidableEq, Repr

/-- An RPLY frame (R7). -/
structure Reply where
  tag : Byte
  result : Result
  summary : Byte
  body : List Byte
  deriving DecidableEq, Repr

/-- The flags of a LAP record (R8, R84). -/
structure LapFlags where
  counted : Bool
  neutralized : Bool
  lowConf : Bool
  inferred : Bool
  drill : Bool
  viaPit : Bool
  newBest : Bool
  deriving DecidableEq, Repr

/-- What the order unit computes at a placement (R103 to R105). -/
structure Standing where
  position : Nat
  gap : Option Ticks
  lapsDown : Nat
  deriving DecidableEq, Repr

/-- The body of a LAP record (R84). -/
structure LapBody where
  number : Nat
  time : Option Ticks
  flags : LapFlags
  missed : Nat
  splits : List (Line × Ticks)
  standing : Standing
  fuel : Option Nat
  deriving DecidableEq, Repr

/-- The body of a CALL record (R146). -/
structure CallBody where
  kind : IncidentKind
  cls : CallClass
  number : Nat
  sanction : Sanction
  amount : Nat
  converted : Bool
  deadlineLap : Option Nat
  deriving DecidableEq, Repr

/-- The body of a FINISH record (R109). -/
structure FinishBody where
  rank : Nat
  adjustedLaps : Nat
  lines : Nat
  adjustedTime : Nat
  penaltySeconds : Nat
  deductions : Nat
  disqualified : Bool
  deriving DecidableEq, Repr

/-- The ten record bodies (R8). -/
inductive RecordBody where
  | lap (b : LapBody)
  | sector (line : Line) (lane : Nat) (split : Option Ticks) (spanned : Nat)
  | call (b : CallBody)
  | serve (outcome : ServeOutcome) (sanction : Sanction) (stationary : Option Ticks)
  | overdue (line : Line)
  | button (gate : Nat)
  | fuel (condition : FuelCondition) (level : Nat)
  | session (state : SessionState) (cause : Cause) (heatClock : Ticks)
  | gate (condition : GateCondition) (error : Option Int)
  | stray (code : Byte) (reason : StrayReason)
  | finish (b : FinishBody)
  deriving DecidableEq, Repr

/-- A REC frame (R8): the subject byte's number, the race time, the body. -/
structure Record where
  subject : Nat
  time : Ticks
  body : RecordBody
  deriving DecidableEq, Repr

/-- A gate's reference: ref_time, ref_count and last alignment time, present together (R24). -/
structure Reference where
  time : Ticks
  count : Count
  aligned : Ticks
  deriving DecidableEq, Repr

/-- The alignment state of a slot with the fields that are present in it (R24). -/
inductive Alignment where
  | unaligned
  | aligned (ref : Reference)
  | stale (ref : Reference)
  deriving DecidableEq, Repr

/-- One slot of the gate table (R24). -/
structure GateSlot where
  role : GateRole
  line : Line
  lane : Nat
  position : PairPosition
  hop : Nat
  alignment : Alignment
  strikes : Nat
  unpaired : Nat
  deriving DecidableEq, Repr

/-- An open beacon round (R31). -/
structure Round where
  number : Byte
  sent : Ticks
  closes : Ticks
  replied : List GateId
  deriving DecidableEq, Repr

/-- A pending pair (R52), with the car code of the report it holds. -/
structure PendingPair where
  entry : Entry
  code : Byte
  line : Line
  lane : Nat
  gate : GateId
  time : Ticks
  arrival : Ticks
  lowConf : Bool
  inferred : Bool
  deadline : Ticks
  deriving DecidableEq, Repr

/-- A drill car's schedule (R62, R63): lap index n, L_n, whether the launch is still due, the next line,
the ticks remaining. -/
structure DrillSchedule where
  lap : Nat
  lapTime : Ticks
  launchDue : Bool
  nextLine : Line
  remaining : Ticks
  deriving DecidableEq, Repr

/-- The last accepted crossing of a context (R68); gate 0 stands for the drill. -/
structure LastCrossing where
  time : Ticks
  line : Line
  lane : Nat
  gate : Nat
  role : GateRole
  deriving DecidableEq, Repr

/-- The current-lap flags of a context (R68). -/
structure LapMarks where
  neutral : Bool
  lowConf : Bool
  inferred : Bool
  drill : Bool
  deriving DecidableEq, Repr

/-- An overdue deadline, running to a race time or suspended with its remaining ticks (R68, R87). -/
inductive Deadline where
  | due (time : Ticks)
  | suspended (remaining : Ticks)
  deriving DecidableEq, Repr

/-- A pit-transit record (R68, R153). -/
structure Transit where
  entered : Ticks
  stationary : Ticks
  service : Bool
  deriving DecidableEq, Repr

/-- An owed entry (R143, R152). -/
structure Owed where
  kind : IncidentKind
  sanction : Sanction
  amount : Nat
  issueLap : Nat
  deadlineLap : Nat
  fallback : Nat
  enforce : Bool
  inService : Bool
  deriving DecidableEq, Repr

/-- A car context (R68). -/
structure Context where
  state : CarState
  disqualified : Bool
  laps : Nat
  expected : Line
  crossed : List Line
  missed : Nat
  last : Option LastCrossing
  lapStart : Option Ticks
  marks : LapMarks
  splits : List (Line × Ticks)
  lastLap : Option Ticks
  bestLap : Option Ticks
  progress : Nat
  progressTime : Option Ticks
  ring : List (Nat × Ticks)
  deadline : Option Deadline
  transit : Option Transit
  fuel : Nat
  fuelState : FuelState
  counts : Vector Nat 7
  penaltySeconds : Nat
  deductions : Nat
  jumpFlagged : Bool
  owed : List Owed
  charged : List Entry
  finishTime : Option Ticks
  deriving DecidableEq, Repr

/-- The countdown of a session (R111). -/
structure Countdown where
  phase : CountPhase
  red : Nat
  hold : Ticks
  remaining : Ticks
  deriving DecidableEq, Repr

/-- A neutral period (R119). -/
structure Period where
  start : Ticks
  stop : Option Ticks
  deriving DecidableEq, Repr

/-- A row of the penalty rule table (R136); an absent allowance is UNLIMITED. -/
structure Rule where
  allowance : Option Nat
  sanction : Sanction
  amount : Nat
  window : Nat
  fallback : Nat
  enforce : Bool
  attention : Bool
  deriving DecidableEq, Repr

/-- A row of the entry table (R169); the entry is mapped while the controller is present. -/
structure EntryRow where
  controller : Option Nat
  code : Byte
  weight : Nat
  drillMode : DrillMode
  drillLap : Ticks
  drillStep : Ticks
  drillLane : Nat
  deriving DecidableEq, Repr

/-- A row of the line table (R177). -/
structure LineRow where
  overdue : Ticks
  mode : ZoneMode
  minSector : Ticks
  deriving DecidableEq, Repr

/-- The fifteen settings of SET_TIMING (R188). LANES_ENABLED keeps the byte of R5: lane k is the bit of
weight 2^(k-1). -/
structure TimingSettings where
  beaconIvl : Nat
  trimLimit : Nat
  lagMax : Nat
  lineHoldoff : Nat
  pairWindow : Nat
  missTol : Nat
  lines : Nat
  mirror : Bool
  startHold : Bool
  jumpLevel : Nat
  cautionCap : Nat
  cautionClose : Bool
  pitCap : Nat
  lanesEnabled : Byte
  lockout : Bool
  deriving DecidableEq, Repr

/-- The eight heat settings (R130). -/
structure HeatSettings where
  raceKind : RaceKind
  raceLaps : Nat
  heatLen : Nat
  countSteps : Nat
  stepIvl : Nat
  randomMax : Nat
  finishGrace : Nat
  marshalAction : MarshalAction
  deriving DecidableEq, Repr

/-- The four fuel settings (R182). -/
structure FuelSettings where
  cap : Nat
  warn : Nat
  limp : Nat
  refuel : Nat
  deriving DecidableEq, Repr

end Sys2Proof.Machine
end

