-- ==== Sys2Proof/Machine/Defaults.lean ====
section
/-! DEFINITION. The power-on values of tables, settings and contexts, each from the table of its rule. -/

namespace Sys2Proof.Machine

/-- The SET_TIMING settings after power-on (R188). -/
def defaultTiming : TimingSettings where
  beaconIvl := 100000
  trimLimit := 20
  lagMax := 2000
  lineHoldoff := 50000
  pairWindow := 200
  missTol := 1
  lines := 1
  mirror := false
  startHold := true
  jumpLevel := 8
  cautionCap := 20
  cautionClose := true
  pitCap := 24
  lanesEnabled := 3
  lockout := true

/-- The heat settings after power-on (R130). -/
def defaultHeat : HeatSettings where
  raceKind := .laps
  raceLaps := 20
  heatLen := 300
  countSteps := 5
  stepIvl := 100000
  randomMax := 100000
  finishGrace := 30
  marshalAction := .hold

/-- The fuel settings after power-on (R182). -/
def defaultFuel : FuelSettings where
  cap := 0
  warn := 0
  limp := 12
  refuel := 100

/-- A gate slot after power-on (R24). -/
def defaultSlot : GateSlot where
  role := .unused
  line := 0
  lane := 1
  position := .primary
  hop := 0
  alignment := .unaligned
  strikes := 0
  unpaired := 0

/-- An entry row after power-on (R169). -/
def defaultEntryRow : EntryRow where
  controller := none
  code := 0
  weight := 1
  drillMode := .off
  drillLap := 1000000
  drillStep := 0
  drillLane := 1

/-- A line row after power-on (R177). -/
def defaultLineRow : LineRow where
  overdue := 0
  mode := .openZone
  minSector := 0

/-- The penalty rule table after power-on, in kind order (R137). -/
def defaultRules : Vector Rule 7 :=
  #v[⟨some 0, .stopGo, 5, 3, 10, true, true⟩,
     ⟨some 0, .driveThrough, 0, 3, 15, false, true⟩,
     ⟨some 2, .timeAdd, 5, 3, 10, false, false⟩,
     ⟨some 0, .note, 0, 3, 10, false, false⟩,
     ⟨some 2, .timeAdd, 10, 3, 10, false, true⟩,
     ⟨none, .note, 0, 3, 10, false, false⟩,
     ⟨some 0, .timeAdd, 30, 3, 10, false, true⟩]

/-- A context with the values of R68's last column but for its state and fuel. -/
def freshContext (state : CarState) (fuel : Nat) : Context where
  state := state
  disqualified := false
  laps := 0
  expected := 0
  crossed := []
  missed := 0
  last := none
  lapStart := none
  marks := ⟨false, false, false, false⟩
  splits := []
  lastLap := none
  bestLap := none
  progress := 0
  progressTime := none
  ring := []
  deadline := none
  transit := none
  fuel := fuel
  fuelState := .normal
  counts := Vector.replicate 7 0
  penaltySeconds := 0
  deductions := 0
  jumpFlagged := false
  owed := []
  charged := []
  finishTime := none

/-- An UNUSED context (R68, R69). -/
def unusedContext : Context := freshContext .unused 0

/-- An assembler in HUNT with an empty frame buffer (R20; log entry 24 for the buffer). -/
def idleAssembler : Assembler where
  state := .hunt
  arrival := 0
  ftype := 0
  length := 0
  body := []
  checkHigh := none

/-- A receiver in HUNT with nothing on the wire (R20). -/
def idleReceiver : Receiver where
  asm := idleAssembler
  current := none
  gap := 0
  coming := []

/-- The power-on seed of the LFSR (R66). -/
def defaultSeed : BitVec 16 := 0xACE1

/-- The power-on attention mask: GATE, CALL, MARSHAL and RECORDS (R191). -/
def defaultMask : Byte := 154

end Sys2Proof.Machine
end

