-- ==== Sys2Proof/Machine/State.lean ====
section
/-! DEFINITION. The state of the part, one structure for each block of spec 00 that keeps state, and the
state after power-on reset. -/

namespace Sys2Proof.Machine

/-- The link unit (file 01). -/
structure Link where
  stationRx : Receiver
  trackRx : Receiver
  up : List Frame
  down : List Frame
  drive : List (List DriveEntry)
  lamp : Option Lamp
  replies : List Reply
  records : List Record
  stationTx : Option Transmission
  trackTx : Option Transmission
  stationBad : Nat
  trackBad : Nat
  deriving DecidableEq, Repr

/-- The clock and alignment unit (file 02). -/
structure Clock where
  now : Ticks
  gates : Vector GateSlot 32
  balance : Int
  round : Option Round
  number : Byte
  deriving DecidableEq, Repr

/-- The crossing resolver (file 03). -/
structure Resolver where
  pairs : List PendingPair
  drillOn : Bool
  drills : Vector (Option DrillSchedule) 16
  lfsr : BitVec 16
  deriving DecidableEq, Repr

/-- The order unit (file 05). -/
structure Order where
  list : List Entry
  snapshot : Option (List Entry)
  deriving DecidableEq, Repr

/-- The session controller (file 06). -/
structure Session where
  state : SessionState
  heldFrom : Option SessionState
  aborted : Bool
  countdown : Option Countdown
  greenTime : Option Ticks
  heatClock : Ticks
  grace : Option Ticks
  periods : List Period
  heatLines : Nat
  deriving DecidableEq, Repr

/-- The penalty engine (file 07). -/
structure Penalty where
  rules : Vector Rule 7
  stopSet : List Entry
  deriving DecidableEq, Repr

/-- The pit service unit's own state (R153). -/
structure Pit where
  marks : Vector (Option Ticks) 16
  holds : Vector Bool 16
  deriving DecidableEq, Repr

/-- The throttle gate (file 09). -/
structure Throttle where
  entries : Vector EntryRow 16
  lines : Vector LineRow 5
  zoneOverride : Bool
  deriving DecidableEq, Repr

/-- Management (file 10). -/
structure Mgmt where
  summary : Byte
  mask : Byte
  beatTimer : Ticks
  beatFlag : Bool
  beatInhibit : Bool
  deriving DecidableEq, Repr

/-- All settings (R130, R182, R188). -/
structure Settings where
  timing : TimingSettings
  heat : HeatSettings
  fuel : FuelSettings
  deriving DecidableEq, Repr

/-- The part. `rstnLow` is the level of the RSTN line (R195). `pending`, the waiting commands first in
first out, and `choices`, the number of same-tick places drawn (log entry 2), are the model's own. -/
structure State where
  link : Link
  clock : Clock
  resolver : Resolver
  contexts : Vector Context 16
  order : Order
  session : Session
  penalty : Penalty
  pit : Pit
  throttle : Throttle
  mgmt : Mgmt
  settings : Settings
  rstnLow : Bool
  choices : Nat
  pending : List Instr
  deriving DecidableEq, Repr

/-- The part stops on no command (R4, R60, R185), so there is no fault: no constructor, raised by nothing. -/
inductive Fault where
  deriving DecidableEq, Repr

/-- Refusals of the model. -/
inductive Refusal where
  /-- Raised by an arm of exec whose command has no meaning yet; stopping there is safe. No arm does. -/
  | notModelled (mnemonic : String)
  deriving DecidableEq, Repr

/-- The link unit after power-on reset (R20). -/
def Link.reset : Link where
  stationRx := idleReceiver
  trackRx := idleReceiver
  up := []
  down := []
  drive := []
  lamp := none
  replies := []
  records := []
  stationTx := none
  trackTx := none
  stationBad := 0
  trackBad := 0

/-- The clock and alignment unit after power-on reset (R44). -/
def Clock.reset : Clock where
  now := 0
  gates := Vector.replicate 32 defaultSlot
  balance := 0
  round := none
  number := 0

/-- The crossing resolver after power-on reset (R67). -/
def Resolver.reset : Resolver where
  pairs := []
  drillOn := false
  drills := Vector.replicate 16 none
  lfsr := defaultSeed

/-- The order unit after power-on reset (R110). -/
def Order.reset : Order where
  list := []
  snapshot := none

/-- The session controller after power-on reset (R111, R133). -/
def Session.reset : Session where
  state := .idle
  heldFrom := none
  aborted := false
  countdown := none
  greenTime := none
  heatClock := 0
  grace := none
  periods := []
  heatLines := 1

/-- The penalty engine after power-on reset (R151). -/
def Penalty.reset : Penalty where
  rules := defaultRules
  stopSet := []

/-- The pit service unit after power-on reset (R168). -/
def Pit.reset : Pit where
  marks := Vector.replicate 16 none
  holds := Vector.replicate 16 false

/-- The throttle gate after power-on reset (R184). -/
def Throttle.reset : Throttle where
  entries := Vector.replicate 16 defaultEntryRow
  lines := Vector.replicate 5 defaultLineRow
  zoneOverride := false

/-- Management after power-on reset (R189, R191, R193). -/
def Mgmt.reset : Mgmt where
  summary := 0
  mask := defaultMask
  beatTimer := 0
  beatFlag := false
  beatInhibit := true

/-- The settings after power-on reset (R130, R182, R188). -/
def Settings.reset : Settings where
  timing := defaultTiming
  heat := defaultHeat
  fuel := defaultFuel

/-- The part after power-on reset, before the LAMP DARK of R127 goes out (log entry 5). -/
def State.reset : State where
  link := Link.reset
  clock := Clock.reset
  resolver := Resolver.reset
  contexts := Vector.replicate 16 unusedContext
  order := Order.reset
  session := Session.reset
  penalty := Penalty.reset
  pit := Pit.reset
  throttle := Throttle.reset
  mgmt := Mgmt.reset
  settings := Settings.reset
  rstnLow := false
  choices := 0
  pending := []

end Sys2Proof.Machine
end

