-- ==== Sys2Proof/Machine/Codec.lean ====
section
/-! DEFINITION. Bytes on the wire: the check of R3, the field encodings of R5, and the frames the part builds
(R6 to R8). -/

namespace Sys2Proof.Machine

/-- One bit into the check register: generator x^16 + x^12 + x^5 + 1 (R3). -/
def crcBit (reg : BitVec 16) (bit : Bool) : BitVec 16 :=
  if (reg.msb ^^ bit) then (reg <<< 1) ^^^ 0x1021 else reg <<< 1

/-- One byte into the check register, most significant bit first (R3). -/
def crcByte (reg : BitVec 16) (b : Byte) : BitVec 16 :=
  [7, 6, 5, 4, 3, 2, 1, 0].foldl (fun r i => crcBit r (b.getLsbD i)) reg

/-- The check over a list of bytes: register preset to all ones, no final inversion (R3). -/
def crc16 (bytes : List Byte) : BitVec 16 := bytes.foldl crcByte 0xFFFF

/-- The bytes the check of a frame covers: type, length, body (R3). -/
def Frame.covered (f : Frame) : List Byte := f.ftype :: BitVec.ofNat 8 f.body.length :: f.body

/-- The check of a frame. -/
def Frame.check (f : Frame) : BitVec 16 := crc16 f.covered

/-- A frame on the wire: start marker, type, length, body, check high byte first (section 1.3). -/
def Frame.wire (f : Frame) : List Byte :=
  0xA5 :: (f.covered ++ [f.check.extractLsb' 8 8, f.check.extractLsb' 0 8])

/-- Ticks one byte occupies on a port's link (R1). -/
def byteTicks : Port → Nat
  | .station => 1
  | .track => 2

/-- Ticks a frame occupies on a port's link: n + 5 bytes (R1). -/
def frameTicks (port : Port) (f : Frame) : Nat := (f.body.length + 5) * byteTicks port

/-! ### Field encodings (R5) -/

/-- A small number: one byte. -/
def u8 (n : Nat) : List Byte := [BitVec.ofNat 8 n]

/-- Two bytes, high byte first. -/
def u16 (n : Nat) : List Byte := [BitVec.ofNat 8 (n / 256), BitVec.ofNat 8 n]

/-- Four bytes, high byte first. -/
def u32 (n : Nat) : List Byte :=
  [BitVec.ofNat 8 (n / 16777216), BitVec.ofNat 8 (n / 65536), BitVec.ofNat 8 (n / 256), BitVec.ofNat 8 n]

/-- A signed tick error: four bytes, two's complement. -/
def i32 (z : Int) : List Byte := u32 (BitVec.ofInt 32 z).toNat

/-- Yes or no. -/
def yesNo (b : Bool) : List Byte := [if b then 1 else 0]

/-- An optional field: a presence byte, then the value when present. -/
def optField {α : Type} (enc : α → List Byte) : Option α → List Byte
  | none => [0]
  | some a => 1 :: enc a

/-- A list of varying length: a count byte, then the items. -/
def listField {α : Type} (enc : α → List Byte) (l : List α) : List Byte :=
  BitVec.ofNat 8 l.length :: (l.map enc).flatten

/-- The number of an entry, 1 to 16. -/
def entryNumber (e : Entry) : Nat := e.val + 1

/-- The id of a gate, 1 to 32. -/
def gateNumber (g : GateId) : Nat := g.val + 1

/-! ### Enumeration codes (R5, and the lists of R24, R129, R130, R169, R177 by position) -/

def SessionState.code : SessionState → Byte
  | .idle => 0 | .armed => 1 | .countdown => 2 | .green => 3 | .caution => 4 | .held => 5
  | .chequered => 6 | .closed => 7

def CarState.code : CarState → Byte
  | .unused => 0 | .grid => 1 | .running => 2 | .inPit => 3 | .offTrack => 4 | .finished => 5
  | .retired => 6

def IncidentKind.code : IncidentKind → Byte
  | .jumpStart => 0 | .cautionPass => 1 | .changeFoul => 2 | .pitShort => 3 | .lineMiss => 4
  | .offTrack => 5 | .unserved => 6

def Sanction.code : Sanction → Byte
  | .note => 0 | .timeAdd => 1 | .lapDeduct => 2 | .driveThrough => 3 | .stopGo => 4 | .blackFlag => 5

def CallClass.code : CallClass → Byte
  | .warning => 0 | .penalty => 1

def ServeOutcome.code : ServeOutcome → Byte
  | .served => 0 | .short => 1 | .unserved => 2 | .waived => 3 | .converted => 4

def FuelCondition.code : FuelCondition → Byte
  | .low => 0 | .out => 1 | .recovered => 2

def FuelState.code : FuelState → Byte
  | .normal => 0 | .low => 1 | .out => 2

def GateCondition.code : GateCondition → Byte
  | .alignedFull => 0 | .trimClamped => 1 | .stale => 2 | .unaligned => 3

def StrayReason.code : StrayReason → Byte
  | .unknownCar => 0 | .unattributed => 1 | .order => 2 | .laneOff => 3 | .gateUnused => 4
  | .notInHeat => 5

def LampState.code : LampState → Byte
  | .dark => 0 | .red => 1 | .green => 2 | .yellow => 3 | .redHold => 4 | .chequer => 5

def Result.code : Result → Byte
  | .ok => 0 | .adjusted => 1 | .badValue => 2 | .badIndex => 3 | .conflict => 4 | .wrongState => 5
  | .notAligned => 6 | .noEntries => 7 | .unknown => 8

def Cause.code : Cause → Byte
  | .request => 0 | .button => 1 | .lightsOut => 2 | .lapsDone => 3 | .timeUp => 4 | .allFinished => 5
  | .graceUp => 6 | .abortRequest => 7 | .clockLimit => 8 | .lineReset => 9

def GateRole.code : GateRole → Byte
  | .unused => 0 | .line => 1 | .pitEntry => 2 | .pitExit => 3

def PairPosition.code : PairPosition → Byte
  | .primary => 0 | .secondary => 1

/-- The code of an alignment state, in the order of R24. -/
def Alignment.code : Alignment → Byte
  | .unaligned => 0 | .aligned _ => 1 | .stale _ => 2

def ZoneMode.code : ZoneMode → Byte
  | .openZone => 0 | .veto => 1 | .watch => 2

def DrillMode.code : DrillMode → Byte
  | .off => 0 | .fixed => 1 | .ramp => 2 | .scatter => 3

def RaceKind.code : RaceKind → Byte
  | .laps => 0 | .time => 1

def MarshalAction.code : MarshalAction → Byte
  | .nothing => 0 | .caution => 1 | .hold => 2

/-! ### Frames the part builds (R6 to R8) -/

/-- A BEAC frame carries the beacon number (R6). -/
def beaconFrame (number : Byte) : Frame := ⟨typeBeac, [number]⟩

/-- A LAMP frame carries the lamp state and the red count (R6). -/
def Lamp.frame (l : Lamp) : Frame := ⟨typeLamp, l.state.code :: u8 l.red⟩

/-- An edited DRIVE frame (R6, R172). -/
def driveFrameOf (es : List DriveEntry) : Frame := ⟨typeDrive, driveBody es⟩

/-- An RPLY frame (R7). -/
def Reply.frame (r : Reply) : Frame := ⟨typeRply, r.tag :: r.result.code :: r.summary :: r.body⟩

/-- The flags byte of a LAP record (R8). -/
def LapFlags.byte (f : LapFlags) : Byte :=
  (if f.counted then 1 else 0) ||| (if f.neutralized then 2 else 0) ||| (if f.lowConf then 4 else 0) |||
  (if f.inferred then 8 else 0) ||| (if f.drill then 16 else 0) ||| (if f.viaPit then 32 else 0) |||
  (if f.newBest then 64 else 0)

/-- The kind byte of a record (R8). -/
def RecordBody.kind : RecordBody → Byte
  | .lap _ => 1
  | .sector .. => 2
  | .call _ => 3
  | .serve .. => 4
  | .overdue _ => 5
  | .button _ => 5
  | .fuel .. => 6
  | .session .. => 7
  | .gate .. => 8
  | .stray .. => 9
  | .finish _ => 10

/-- The body fields of a record behind its header (R8). -/
def RecordBody.fields : RecordBody → List Byte
  | .lap b =>
    u16 b.number ++ optField u32 b.time ++ [b.flags.byte] ++ u8 b.missed ++
    listField (fun p : Line × Ticks => u8 p.1.val ++ u32 p.2) b.splits ++ u8 b.standing.position ++
    optField u32 b.standing.gap ++ u16 b.standing.lapsDown ++ optField u16 b.fuel
  | .sector line lane split spanned => u8 line.val ++ u8 lane ++ optField u32 split ++ u8 spanned
  | .call b =>
    [b.kind.code, b.cls.code] ++ u8 b.number ++ [b.sanction.code] ++ u8 b.amount ++ yesNo b.converted ++
    optField u16 b.deadlineLap
  | .serve outcome sanction stationary => [outcome.code, sanction.code] ++ optField u32 stationary
  | .overdue line => 0 :: u8 line.val
  | .button g => 1 :: u8 g
  | .fuel condition level => condition.code :: u16 level
  | .session state cause heatClock => [state.code, cause.code] ++ u32 heatClock
  | .gate condition error => condition.code :: optField i32 error
  | .stray code reason => [code, reason.code]
  | .finish b =>
    u8 b.rank ++ u16 b.adjustedLaps ++ u8 b.lines ++ u32 b.adjustedTime ++ u16 b.penaltySeconds ++
    u8 b.deductions ++ yesNo b.disqualified

/-- A REC frame: kind, subject, race time, body (R8). -/
def Record.frame (r : Record) : Frame :=
  ⟨typeRec, r.body.kind :: (u8 r.subject ++ u32 r.time ++ r.body.fields)⟩

/-- The record is a SECTOR record, the first kind to go when the record queue is full (R15). -/
def Record.isSector (r : Record) : Bool :=
  match r.body with
  | .sector .. => true
  | _ => false

end Sys2Proof.Machine
end

