-- ==== Sys2Proof/Machine/Operands.lean ====
section
/-! DEFINITION. Reading the arguments of a request (R5, R185): numbers high byte first, indexes, codes, and
bringing a number to the nearer bound of its range (R187). -/

namespace Sys2Proof.Machine

/-- The one-byte number at a place of the argument part. -/
def arg8 (args : List Byte) (i : Nat) : Nat := (args.getD i 0).toNat

/-- The two-byte number at a place, high byte first. -/
def arg16 (args : List Byte) (i : Nat) : Nat := arg8 args i * 256 + arg8 args (i + 1)

/-- The four-byte number at a place, high byte first. -/
def arg32 (args : List Byte) (i : Nat) : Nat := arg16 args i * 65536 + arg16 args (i + 2)

/-- A yes/no byte: 0 or 1, any other value is none. -/
def argBool (args : List Byte) (i : Nat) : Option Bool :=
  if arg8 args i = 0 then some false else if arg8 args i = 1 then some true else none

/-- An entry number 1 to 16. -/
def entryOf (n : Nat) : Option Entry := if h : 1 ≤ n ∧ n ≤ 16 then some ⟨n - 1, by omega⟩ else none

/-- A gate id 1 to 32. -/
def gateOf (n : Nat) : Option GateId := if h : 1 ≤ n ∧ n ≤ 32 then some ⟨n - 1, by omega⟩ else none

/-- A line 0 to 4. -/
def lineOf (n : Nat) : Option Line := if h : n < 5 then some ⟨n, h⟩ else none

/-- An incident kind by its code (R5). -/
def kindOf : Nat → Option IncidentKind
  | 0 => some .jumpStart
  | 1 => some .cautionPass
  | 2 => some .changeFoul
  | 3 => some .pitShort
  | 4 => some .lineMiss
  | 5 => some .offTrack
  | 6 => some .unserved
  | _ => none

/-- A sanction by its code (R5). -/
def sanctionOf : Nat → Option Sanction
  | 0 => some .note
  | 1 => some .timeAdd
  | 2 => some .lapDeduct
  | 3 => some .driveThrough
  | 4 => some .stopGo
  | 5 => some .blackFlag
  | _ => none

/-- A gate role by its code (R24). -/
def roleOf : Nat → Option GateRole
  | 0 => some .unused
  | 1 => some .line
  | 2 => some .pitEntry
  | 3 => some .pitExit
  | _ => none

/-- A pair position by its code (R24). -/
def positionOf : Nat → Option PairPosition
  | 0 => some .primary
  | 1 => some .secondary
  | _ => none

/-- A zone mode by its code (R177). -/
def zoneModeOf : Nat → Option ZoneMode
  | 0 => some .openZone
  | 1 => some .veto
  | 2 => some .watch
  | _ => none

/-- A drill mode by its code (R170). -/
def drillModeOf : Nat → Option DrillMode
  | 0 => some .off
  | 1 => some .fixed
  | 2 => some .ramp
  | 3 => some .scatter
  | _ => none

/-- RACE_KIND by its code (R130). -/
def raceKindOf : Nat → Option RaceKind
  | 0 => some .laps
  | 1 => some .time
  | _ => none

/-- MARSHAL_ACTION by its code (R130). -/
def marshalActionOf : Nat → Option MarshalAction
  | 0 => some .nothing
  | 1 => some .caution
  | 2 => some .hold
  | _ => none

/-- An allowance byte: 0, 1, 2, 4, 8, 16, or 255 for UNLIMITED (R138). -/
def allowanceOf (n : Nat) : Option (Option Nat) :=
  if n = 255 then some none
  else if n = 0 ∨ n = 1 ∨ n = 2 ∨ n = 4 ∨ n = 8 ∨ n = 16 then some (some n)
  else none

/-- The byte of an allowance (R138). -/
def allowanceByte : Option Nat → List Byte
  | none => [255]
  | some n => u8 n

/-- A number brought to the nearer bound of its range (R187). -/
def clamp (lo hi n : Nat) : Nat := max lo (min hi n)

/-- The place of an incident kind in a list of seven. -/
def kindIndex : IncidentKind → Fin 7
  | .jumpStart => 0
  | .cautionPass => 1
  | .changeFoul => 2
  | .pitShort => 3
  | .lineMiss => 4
  | .offTrack => 5
  | .unserved => 6

/-- Every entry in ascending number. -/
def allEntries : List Entry := [0, 1, 2, 3, 4, 5, 6, 7, 8, 9, 10, 11, 12, 13, 14, 15]

/-- Every gate in ascending id. -/
def allGates : List GateId :=
  [0, 1, 2, 3, 4, 5, 6, 7, 8, 9, 10, 11, 12, 13, 14, 15, 16, 17, 18, 19, 20, 21, 22, 23, 24, 25, 26, 27,
   28, 29, 30, 31]

/-- Every lane of the track. -/
def allLanes : List Nat := [1, 2, 3, 4, 5, 6]

/-- Lane k is a member of a set of lanes: the bit of weight 2^(k-1) (R5). -/
def laneIn (set : Byte) (lane : Nat) : Bool := 1 ≤ lane && set.getLsbD (lane - 1)

/-- The line after a line in the cycle 1, 2, …, LINES-1, 0 (R75). -/
def nextLine (lines : Nat) (j : Line) : Line :=
  if h : j.val + 1 < lines ∧ j.val + 1 < 5 then ⟨j.val + 1, h.2⟩ else 0

/-- The lines passed over going forward from line k up to but not including line j, `fuel` of them at the
most (R75). -/
def missedFrom (lines : Nat) (j : Line) : Nat → Line → List Line
  | 0, _ => []
  | fuel + 1, k => if k = j then [] else k :: missedFrom lines j fuel (nextLine lines k)

/-- The missed lines of a crossing of line j with expected line k (R75): at most LINES-1 of them. -/
def missedLines (lines : Nat) (k j : Line) : List Line := missedFrom lines j (lines - 1) k

end Sys2Proof.Machine
end

