-- ==== Sys2Proof/Machine/Flags.lean ====
section
/-! DEFINITION. The event summary and ATTN (R189, R192), and the bad-frame counts (R4). -/

namespace Sys2Proof.Machine

/-- The bit of a group in the summary byte (R7). -/
def groupBit : Group → Byte
  | .link => 1
  | .gate => 2
  | .stray => 4
  | .call => 8
  | .marshal => 16
  | .fuel => 32
  | .session => 64
  | .records => 128

/-- A group joins the event summary (R189). -/
def setGroup (g : Group) (s : State) : State :=
  { s with mgmt := { s.mgmt with summary := s.mgmt.summary ||| groupBit g } }

/-- A group is in the event summary. -/
def groupSet (g : Group) (s : State) : Bool := s.mgmt.summary &&& groupBit g != 0

/-- ATTN is asserted while a group is both in the summary and in the attention mask (R192). -/
def attnAsserted (s : State) : Bool := s.mgmt.summary &&& s.mgmt.mask != 0

/-- A count that stays at its upper bound (spec 00, Numbers). -/
def saturate (bound n : Nat) : Nat := min bound n

/-- A bad frame at a port: the count rises, saturating at 255, and LINK is set (R4). -/
def badFrame (port : Port) (s : State) : State :=
  setGroup .link <|
    match port with
    | .station => { s with link := { s.link with stationBad := saturate 255 (s.link.stationBad + 1) } }
    | .track => { s with link := { s.link with trackBad := saturate 255 (s.link.trackBad + 1) } }

end Sys2Proof.Machine
end

