-- ==== Sys2Proof/Machine/Ops.lean ====
section
/-! DEFINITION. The shared operations over the holding places, the transmitters, the contexts and the
tables. A frame, a reply or a record offered at an idle transmitter is chosen there and then; a beacon that
becomes available inside an event is chosen when the event ends (`settle`): log entry 4. -/

namespace Sys2Proof.Machine

/-! ### Transmitters (R16 to R18) -/

/-- A frame whose transmission begins now (R16). -/
def transmit (port : Port) (f : Frame) : Transmission := ⟨f, frameTicks port f⟩

/-- The station transmitter's choice: reply, upward pass-through, record (R17). It is made when the
transmitter is idle and RSTN is high (R16, R19). -/
def chooseStation (s : State) : State :=
  if s.rstnLow || s.link.stationTx.isSome then s
  else
    match s.link.replies, s.link.up, s.link.records with
    | r :: rest, _, _ =>
      { s with link := { s.link with replies := rest, stationTx := some (transmit .station r.frame) } }
    | [], f :: rest, _ =>
      { s with link := { s.link with up := rest, stationTx := some (transmit .station f) } }
    | [], [], r :: rest =>
      { s with link := { s.link with records := rest, stationTx := some (transmit .station r.frame) } }
    | [], [], [] => s

/-- The beacon the alignment unit offers the track transmitter (R30). -/
inductive BeaconOffer where
  | forced | due | early
  deriving DecidableEq, Repr

/-- The session states in which an early beacon may go (R30). -/
def quietSession : SessionState → Bool
  | .idle | .armed | .held | .closed => true
  | _ => false

/-- At most one kind of beacon is on offer at a choice (R30). -/
def beaconOffer (s : State) : Option BeaconOffer :=
  if s.clock.round.isSome then none
  else if s.clock.balance = 8 then some .forced
  else if 1 ≤ s.clock.balance then (if s.link.drive.isEmpty then some .due else none)
  else if -8 < s.clock.balance && s.link.drive.isEmpty && s.link.lamp.isNone && s.link.down.isEmpty &&
      quietSession s.session.state then some .early
  else none

/-- A beacon is chosen: the number advances, B falls, a round opens, the BEAC frame goes out (R31). -/
def sendBeacon (s : State) : State :=
  let number := s.clock.number + 1
  { s with
    clock := { s.clock with
      number := number
      balance := s.clock.balance - 1
      round := some ⟨number, s.clock.now, s.clock.now + Config.roundLength, []⟩ }
    link := { s.link with trackTx := some (transmit .track (beaconFrame number)) } }

/-- The track transmitter's choice: forced beacon, drive, lamp, due beacon, downward pass-through, early
beacon (R18), when it is idle and RSTN is high (R16, R19). -/
def chooseTrack (s : State) : State :=
  if s.rstnLow || s.link.trackTx.isSome then s
  else if beaconOffer s = some .forced then sendBeacon s
  else
    match s.link.drive, s.link.lamp with
    | d :: rest, _ =>
      { s with link := { s.link with drive := rest, trackTx := some (transmit .track (driveFrameOf d)) } }
    | [], some l =>
      { s with link := { s.link with lamp := none, trackTx := some (transmit .track l.frame) } }
    | [], none =>
      if beaconOffer s = some .due then sendBeacon s
      else
        match s.link.down with
        | f :: rest =>
          { s with link := { s.link with down := rest, trackTx := some (transmit .track f) } }
        | [] => if beaconOffer s = some .early then sendBeacon s else s

/-- The choices of an event's end (R16, R30; log entry 4). -/
def settle (s : State) : State := chooseStation (chooseTrack s)

/-- A command's work is done: the choices of its end are made, and the part goes on. No command of the part
stops it. -/
def complete (s : State) : Host.Outcome State Fault Refusal := .next (settle s)

/-! ### Holding places (R11 to R15); while RSTN is low every offer is discarded (R19) -/

/-- A frame is offered to the upward pass-through queue (R11). -/
def offerUp (f : Frame) (s : State) : State :=
  if s.rstnLow then s
  else if s.link.up.length < Config.passCapacity then
    chooseStation { s with link := { s.link with up := s.link.up ++ [f] } }
  else setGroup .link s

/-- A frame is offered to the downward pass-through queue (R11). -/
def offerDown (f : Frame) (s : State) : State :=
  if s.rstnLow then s
  else if s.link.down.length < Config.passCapacity then
    chooseTrack { s with link := { s.link with down := s.link.down ++ [f] } }
  else setGroup .link s

/-- An edited frame is offered to the drive queue; a full queue drops its oldest (R12). -/
def offerDrive (es : List DriveEntry) (s : State) : State :=
  if s.rstnLow then s
  else if s.link.drive.length < Config.driveCapacity then
    chooseTrack { s with link := { s.link with drive := s.link.drive ++ [es] } }
  else
    chooseTrack (setGroup .link { s with link := { s.link with drive := s.link.drive.drop 1 ++ [es] } })

/-- A LAMP frame fills or replaces the lamp slot (R13). -/
def issueLamp (l : Lamp) (s : State) : State :=
  if s.rstnLow then s else chooseTrack { s with link := { s.link with lamp := some l } }

/-- A reply joins the tail of the reply queue (R14). -/
def pushReply (r : Reply) (s : State) : State :=
  if s.rstnLow then s else chooseStation { s with link := { s.link with replies := s.link.replies ++ [r] } }

/-- The queue without its oldest SECTOR record (R15). -/
def dropSector : List Record → List Record
  | [] => []
  | r :: rest => if r.isSector then rest else r :: dropSector rest

/-- The record queue after a record is emitted into it (R15). -/
def joinRecords (q : List Record) (r : Record) : List Record :=
  if q.length < Config.recordCapacity then q ++ [r]
  else if q.any Record.isSector then dropSector q ++ [r]
  else q

/-- A record is emitted; one lost at a full queue sets RECORDS (R15). -/
def emit (r : Record) (s : State) : State :=
  if s.rstnLow then s
  else if s.link.records.length < Config.recordCapacity then
    chooseStation { s with link := { s.link with records := joinRecords s.link.records r } }
  else
    chooseStation (setGroup .records { s with link := { s.link with records := joinRecords s.link.records r } })

/-! ### Contexts and tables -/

/-- The context of an entry (R68). -/
def ctx (s : State) (e : Entry) : Context := s.contexts[e]

/-- The context of an entry is replaced. -/
def setCtx (e : Entry) (c : Context) (s : State) : State := { s with contexts := s.contexts.set e c }

/-- The context of an entry is changed. -/
def updCtx (e : Entry) (f : Context → Context) (s : State) : State := setCtx e (f (ctx s e)) s

/-- Every context is changed. -/
def updAllCtx (f : Context → Context) (s : State) : State := { s with contexts := s.contexts.map f }

/-- The slot of a gate (R24). -/
def gate (s : State) (g : GateId) : GateSlot := s.clock.gates[g]

/-- The slot of a gate is replaced. -/
def setGate (g : GateId) (slot : GateSlot) (s : State) : State :=
  { s with clock := { s.clock with gates := s.clock.gates.set g slot } }

/-- The row of an entry (R169). -/
def entryRow (s : State) (e : Entry) : EntryRow := s.throttle.entries[e]

/-- The row of a line (R177). -/
def lineRow (s : State) (j : Line) : LineRow := s.throttle.lines[j]

/-- The penalty rule of a kind (R136). -/
def ruleOf (s : State) (k : IncidentKind) : Rule := s.penalty.rules[kindIndex k]

/-- The incident count of a kind (R140). -/
def countOf (c : Context) (k : IncidentKind) : Nat := c.counts[kindIndex k]

/-- An entry is mapped while its controller number is present (R169). -/
def mapped (s : State) (e : Entry) : Bool := (entryRow s e).controller.isSome

/-- The stationary mark of an entry is set (R153). -/
def setMark (e : Entry) (m : Option Ticks) (s : State) : State :=
  { s with pit := { s.pit with marks := s.pit.marks.set e m } }

/-- The enforced hold of an entry is set (R153). -/
def setHold (e : Entry) (b : Bool) (s : State) : State :=
  { s with pit := { s.pit with holds := s.pit.holds.set e b } }

/-- The session state. -/
def sessionState (s : State) : SessionState := s.session.state

/-- The LINES setting (R188). -/
def lines (s : State) : Nat := s.settings.timing.lines

/-- A line-lane has a LINE slot of the given position (R26). -/
def hasLineGate (s : State) (line : Line) (lane : Nat) (pos : PairPosition) : Bool :=
  allGates.any fun g =>
    (gate s g).role == .line && (gate s g).line == line && (gate s g).lane == lane && (gate s g).position == pos

/-- A line-lane is paired when it has a PRIMARY and a SECONDARY LINE slot (R26). -/
def isPaired (s : State) (line : Line) (lane : Nat) : Bool :=
  hasLineGate s line lane .primary && hasLineGate s line lane .secondary

/-- The LINE gate of a line-lane with a given position, where it has one. -/
def lineGate (s : State) (line : Line) (lane : Nat) (pos : PairPosition) : Option GateId :=
  allGates.find? fun g =>
    (gate s g).role == .line && (gate s g).line == line && (gate s g).lane == lane && (gate s g).position == pos

end Sys2Proof.Machine
end

