-- ==== Sys2Proof/Machine/Clock.lean ====
section
/-! DEFINITION. Gate alignment and the conversion of gate counts (file 02). -/

namespace Sys2Proof.Machine

/-- The signed count difference from R to Gb (R34). -/
def signedDiff (r gb : Count) : Int :=
  let d := (gb - r).toNat
  if 8388608 ≤ d then (d : Int) - 16777216 else d

/-- A GATE record for a gate; every condition but ALIGNED_FULL sets the GATE group (R39). -/
def emitGate (g : GateId) (time : Ticks) (condition : GateCondition) (error : Option Int) (s : State) : State :=
  let s := emit ⟨gateNumber g, time, .gate condition error⟩ s
  if condition = .alignedFull then s else setGroup .gate s

/-- A slot made UNALIGNED with the strike count 0, as ARM does (R22). -/
def armSlot (slot : GateSlot) : GateSlot :=
  if slot.role = .unused then slot else { slot with alignment := .unaligned, strikes := 0 }

/-- A slot made UNALIGNED with its strike count kept, as the release of a line reset does (R43). -/
def unalignSlot (slot : GateSlot) : GateSlot :=
  if slot.role = .unused then slot else { slot with alignment := .unaligned }

/-- Every slot is changed. -/
def updAllGates (f : GateSlot → GateSlot) (s : State) : State :=
  { s with clock := { s.clock with gates := s.clock.gates.map f } }

/-- A full alignment from a reply in a round with send time `sent` (R35). DESIGN CHOICE, log entry 30: a sum S + h
above 4,294,967,295 is stored as it is, since R35 gives it no bound. -/
def fullAlign (g : GateId) (sent : Ticks) (count : Count) (arrival : Ticks) (s : State) : State :=
  let slot := gate s g
  emitGate g arrival .alignedFull none
    (setGate g { slot with alignment := .aligned ⟨sent + slot.hop, count, sent⟩, strikes := 0 } s)

/-- A gate is demoted: UNALIGNED, strike count 3, a GATE UNALIGNED record with the error (R37; log entry
11 for a demotion by range). -/
def demote (g : GateId) (error : Int) (arrival : Ticks) (s : State) : State :=
  emitGate g arrival .unaligned (some error) (setGate g { gate s g with alignment := .unaligned, strikes := 3 } s)

/-- The predicted reference time of a trim: ref_time + d (R36, steps 1 and 2). -/
def predicted (ref : Reference) (count : Count) : Int := ref.time + signedDiff ref.count count

/-- The correction of a trim: the error brought into the range of TRIM_LIMIT (R36, step 4). -/
def correction (limit : Nat) (error : Int) : Int := max (-(limit : Int)) (min (limit : Int) error)

/-- A trim alignment (R36) and what a strike leads to (R37). -/
def trimAlign (g : GateId) (ref : Reference) (sent : Ticks) (count : Count) (arrival : Ticks) (s : State) : State :=
  let slot := gate s g
  let error : Int := ((sent + slot.hop : Nat) : Int) - predicted ref count
  let time : Int := predicted ref count + correction s.settings.timing.trimLimit error
  if time < 0 ∨ (Config.clockMax : Int) < time then demote g error arrival s
  else
    let aligned : Alignment := .aligned ⟨time.toNat, count, sent⟩
    if correction s.settings.timing.trimLimit error = error then
      setGate g { slot with alignment := aligned, strikes := 0 } s
    else if 3 ≤ slot.strikes + 1 then demote g error arrival s
    else
      emitGate g arrival .trimClamped (some error)
        (setGate g { slot with alignment := aligned, strikes := slot.strikes + 1 } s)

/-- A beacon reply that the open round takes: the gate id joins the round's set and the slot is aligned
according to its alignment state (R33). -/
def applyReply (g : GateId) (round : Round) (count : Count) (arrival : Ticks) (s : State) : State :=
  let s := { s with clock := { s.clock with round := some { round with replied := round.replied ++ [g] } } }
  match (gate s g).alignment with
  | .unaligned => fullAlign g round.sent count arrival s
  | .aligned ref => trimAlign g ref round.sent count arrival s
  | .stale ref => trimAlign g ref round.sent count arrival s

/-- A beacon reply is applied if a round is open, its number matches, the slot is in use and the gate has
not replied in it; otherwise it is discarded (R33). -/
def beaconReply (g : GateId) (number : Byte) (count : Count) (arrival : Ticks) (s : State) : State :=
  match s.clock.round with
  | none => s
  | some round =>
    if round.number = number ∧ (gate s g).role ≠ .unused ∧ ¬ g ∈ round.replied then
      applyReply g round count arrival s
    else s

/-- The ageing check of one slot at a boundary (R38). -/
def ageGate (s : State) (g : GateId) : State :=
  let slot := gate s g
  match slot.alignment with
  | .unaligned => s
  | .aligned ref =>
    if Config.alignmentLimit < s.clock.now - ref.aligned then
      emitGate g s.clock.now .unaligned none (setGate g { slot with alignment := .unaligned } s)
    else if 9 * s.settings.timing.beaconIvl < s.clock.now - ref.aligned then
      emitGate g s.clock.now .stale none (setGate g { slot with alignment := .stale ref } s)
    else s
  | .stale ref =>
    if Config.alignmentLimit < s.clock.now - ref.aligned then
      emitGate g s.clock.now .unaligned none (setGate g { slot with alignment := .unaligned } s)
    else s

/-- The ageing check of the gate table, in ascending gate id (R38). -/
def ageGates (s : State) : State := allGates.foldl ageGate s

/-- The beacon balance rises by 1 at a boundary, and stays at +8 (R29). -/
def raiseBalance (s : State) : State :=
  { s with clock := { s.clock with balance := if s.clock.balance = 8 then 8 else s.clock.balance + 1 } }

/-- A count converted to race time before the clamp, with the low-confidence flag (R40, R41). -/
def rawTime (slot : GateSlot) (count : Count) (arrival : Ticks) : Int × Bool :=
  match slot.alignment with
  | .aligned ref => (ref.time + signedDiff ref.count count, false)
  | .stale ref => (ref.time + signedDiff ref.count count, true)
  | .unaligned => ((arrival : Int) - slot.hop, true)

/-- The lower bound of the window behind an arrival (R42, R57). -/
def windowLow (lagMax : Nat) (arrival : Ticks) : Ticks := arrival - lagMax

/-- A time put through the window behind an arrival, and whether it was moved (R42, R57). -/
def intoWindow (lagMax : Nat) (arrival : Ticks) (t : Int) : Ticks × Bool :=
  if (arrival : Int) < t then (arrival, true)
  else if t < windowLow lagMax arrival then (windowLow lagMax arrival, true)
  else (t.toNat, false)

/-- Conversion of a gate count: the race time and the low-confidence flag, which a clamped time always
carries (R40 to R42, R47). -/
def convert (s : State) (slot : GateSlot) (count : Count) (arrival : Ticks) : Ticks × Bool :=
  let raw := rawTime slot count arrival
  let w := intoWindow s.settings.timing.lagMax arrival raw.1
  (w.1, raw.2 || w.2)

end Sys2Proof.Machine
end

