-- ==== Sys2Proof/Machine/Order.lean ====
section
/-! DEFINITION. The running-order list, the figures of a placement, and the classification (file 05). -/

namespace Sys2Proof.Machine

/-- The group of an entry: 0 in the race, 1 retired, 2 disqualified (R95, R107). -/
def groupOf (s : State) (e : Entry) : Nat :=
  if (ctx s e).disqualified then 2 else if (ctx s e).state = .retired then 1 else 0

/-- An optional time stands before another: earlier first, an absent time last. `none` means a tie. -/
def timeBefore : Option Ticks → Option Ticks → Option Bool
  | some a, some b => if a = b then none else some (a < b)
  | some _, none => some true
  | none, some _ => some false
  | none, none => none

/-- Entry b stands ahead of entry a in the running order (R95). A disqualified car stays ahead of one that
joins the third group after it. -/
def ranksAhead (s : State) (b a : Entry) : Bool :=
  if groupOf s b ≠ groupOf s a then groupOf s b < groupOf s a
  else if groupOf s b = 2 then true
  else if (ctx s b).progress ≠ (ctx s a).progress then (ctx s a).progress < (ctx s b).progress
  else (timeBefore (ctx s b).progressTime (ctx s a).progressTime).getD (b < a)

/-- An entry put into a list at the place its rank gives (R97). -/
def insertBy (ahead : Entry → Entry → Bool) (e : Entry) : List Entry → List Entry
  | [] => [e]
  | b :: rest => if ahead b e then b :: insertBy ahead e rest else e :: b :: rest

/-- A placement: the entry is taken out and put back where it now belongs (R97, R98). -/
def place (e : Entry) (s : State) : State :=
  { s with order := { s.order with list := insertBy (ranksAhead s) e (s.order.list.erase e) } }

/-- A disqualified car goes to the tail of the list (R99). -/
def moveToTail (e : Entry) (s : State) : State :=
  { s with order := { s.order with list := s.order.list.erase e ++ [e] } }

/-- The newest time at which a ring shows progress p (R104). -/
def newestAt (ring : List (Nat × Ticks)) (p : Nat) : Option Ticks :=
  (ring.reverse.find? fun q => q.1 == p).map Prod.snd

/-- Position, gap and laps down of an entry as the list stands (R103 to R105). -/
def standing (s : State) (e : Entry) : Standing :=
  let i := s.order.list.idxOf e
  let c := ctx s e
  { position := i + 1
    gap :=
      if i = 0 then none
      else (s.order.list[i - 1]?).bind fun b =>
        (newestAt (ctx s b).ring c.progress).map fun t => c.progressTime.getD 0 - t
    lapsDown := ((s.order.list.head?.map fun h => (ctx s h).progress).getD 0 - c.progress) / lines s }

/-- Counted laps less the deductions, not below 0 (R108). -/
def adjustedLaps (c : Context) : Nat := c.laps - c.deductions

/-- Lines in the current lap, by the heat LINES recorded at ARM (R108). -/
def linesInLap (s : State) (c : Context) : Nat := c.progress - c.laps * s.session.heatLines

/-- Progress time plus the time penalties; absent for a car that never launched (R108). -/
def adjustedTime (c : Context) : Option Nat := c.progressTime.map (· + Config.second * c.penaltySeconds)

/-- Entry b is classified ahead of entry a of the same group (R107). -/
def classedAhead (s : State) (b a : Entry) : Bool :=
  let cb := ctx s b
  let ca := ctx s a
  if adjustedLaps cb ≠ adjustedLaps ca then adjustedLaps ca < adjustedLaps cb
  else if linesInLap s cb ≠ linesInLap s ca then linesInLap s ca < linesInLap s cb
  else (timeBefore (adjustedTime cb) (adjustedTime ca)).getD (b < a)

/-- A list of entries put into classification order. -/
def classSort (s : State) : List Entry → List Entry
  | [] => []
  | e :: rest => insertBy (classedAhead s) e (classSort s rest)

/-- The entries of a group with a context in use, in ascending number. -/
def groupMembers (s : State) (g : Nat) : List Entry :=
  allEntries.filter fun e => (ctx s e).state != .unused && groupOf s e == g

/-- The classification, first place first (R107). -/
def classification (s : State) : List Entry :=
  classSort s (groupMembers s 0) ++ classSort s (groupMembers s 1) ++
  s.order.list.filter fun e => groupOf s e == 2

/-- The FINISH body of an entry at a rank (R108, R109). -/
def finishBody (s : State) (rank : Nat) (e : Entry) : FinishBody :=
  let c := ctx s e
  { rank := rank
    adjustedLaps := adjustedLaps c
    lines := linesInLap s c
    adjustedTime := min Config.clockMax ((adjustedTime c).getD Config.clockMax)
    penaltySeconds := c.penaltySeconds
    deductions := c.deductions
    disqualified := c.disqualified }

/-- FINISH records for a list of entries, from a rank on. -/
def finishRecords (s : State) : Nat → List Entry → List Record
  | _, [] => []
  | rank, e :: rest =>
    ⟨entryNumber e, s.clock.now, .finish (finishBody s rank e)⟩ :: finishRecords s (rank + 1) rest

/-- The FINISH records of a heat that was not aborted, in rank order (R109). -/
def emitFinish (s : State) : State := (finishRecords s 1 (classification s)).foldl (fun t r => emit r t) s

/-- The caution-order snapshot is taken and every charged set emptied (R100). -/
def takeSnapshot (s : State) : State :=
  updAllCtx (fun c => { c with charged := [] }) { s with order := { s.order with snapshot := some s.order.list } }

/-- The snapshot is discarded (R100). -/
def dropSnapshot (s : State) : State := { s with order := { s.order with snapshot := none } }

end Sys2Proof.Machine
end

