-- ==== Sys2Proof/Machine/PitService.lean ====
section
/-! DEFINITION. Owed penalties and pit service (file 08). -/

namespace Sys2Proof.Machine

/-- Seconds added to a time-penalty total, saturating at 65,535 (R141, R143, R162). -/
def addSeconds (n : Nat) (c : Context) : Context :=
  { c with penaltySeconds := saturate 65535 (c.penaltySeconds + n) }

/-- A SERVE record (R167). -/
def emitServe (e : Entry) (time : Ticks) (outcome : ServeOutcome) (sanction : Sanction)
    (stationary : Option Ticks) (s : State) : State :=
  emit ⟨entryNumber e, time, .serve outcome sanction stationary⟩ s

/-- The in-service flag of the head of a queue is set to a value. -/
def setHeadService (b : Bool) : List Owed → List Owed
  | [] => []
  | o :: rest => { o with inService := b } :: rest

/-- The head of a car's queue is in service (R152, R154). -/
def headInService (c : Context) : Option Owed :=
  match c.owed with
  | o :: _ => if o.inService then some o else none
  | [] => none

/-- The transit's service flag is set to a value, its stationary ticks kept. -/
def setService (b : Bool) (t : Option Transit) : Option Transit := t.map fun t => { t with service := b }

/-- A service ends without a verdict: the head's flag and the transit's flag are cleared, the mark becomes
absent and any enforced hold ends (R163, R164). -/
def endService (e : Entry) (s : State) : State :=
  setHold e false <| setMark e none <|
    updCtx e (fun c => { c with owed := setHeadService false c.owed, transit := setService false c.transit }) s

/-- The transit record of an IN_PIT car is discarded without evaluation (R94, R144). -/
def dropTransit (e : Entry) (s : State) : State := updCtx e (fun c => { c with transit := none }) s

/-- At a pit entry the head of the owed queue is put in service (R154). -/
def startService (e : Entry) (s : State) : State :=
  if (ctx s e).owed.isEmpty then s
  else
    setMark e none <|
      updCtx e (fun c => { c with owed := setHeadService true c.owed, transit := setService true c.transit }) s

/-- The stationary ticks of a transit, 0 without one. -/
def stationaryOf (c : Context) : Ticks := (c.transit.map Transit.stationary).getD 0

/-- The head in service is served by a transit: a DRIVE_THROUGH always, a STOP_GO when its stationary ticks
reach its amount (R159). -/
def isServed (o : Owed) (ticks : Ticks) : Bool :=
  o.sanction != .stopGo || o.amount * Config.second ≤ ticks

/-- The evaluation at a transit's close (R159, R160), and whether it found a short stop, for which the lap
engine's crossing then raises PIT_SHORT. The transit record is discarded. -/
def evaluateService (e : Entry) (time : Ticks) (s : State) : State × Bool :=
  let c := ctx s e
  match headInService c with
  | none => (dropTransit e s, false)
  | some o =>
    if isServed o (stationaryOf c) then
      (setHold e false <| setMark e none <|
        emitServe e time .served o.sanction (if o.sanction = .stopGo then some (stationaryOf c) else none) <|
          updCtx e (fun c => { c with owed := c.owed.drop 1, transit := none }) s, false)
    else
      (setHold e false <| setMark e none <|
        updCtx e (fun c => { c with owed := setHeadService false c.owed, transit := none }) <|
          emitServe e time .short .stopGo (some (stationaryOf c)) s, true)

/-- Every entry still owed is turned into its fallback seconds, head to tail (R162). -/
def convertOwed (e : Entry) (time : Ticks) (s : State) : State :=
  (ctx s e).owed.foldl
    (fun t o => emitServe e time .converted o.sanction none (updCtx e (addSeconds o.fallback) t))
    (updCtx e (fun c => { c with owed := [] }) s)

/-- Every service in progress ends at the move to CLOSED (R163). -/
def endAllServices (s : State) : State :=
  allEntries.foldl (fun t e => if (headInService (ctx t e)).isSome then endService e t else t) s

/-- The pit service unit's work at the move to CLOSED (R163). -/
def closePit (aborted : Bool) (s : State) : State :=
  let s := endAllServices s
  if aborted then s else allEntries.foldl (fun t e => convertOwed e t.clock.now t) s

/-- Every stationary mark becomes absent (R157). -/
def clearMarks (s : State) : State := { s with pit := { s.pit with marks := Vector.replicate 16 none } }

/-- The entries of a queue whose deadline lap the counted laps have reached and that are not in service
(R161). -/
def expiredOwed (c : Context) : List Owed := c.owed.filter fun o => o.deadlineLap ≤ c.laps && !o.inService

/-- The entries of a queue that a deadline check keeps (R161). -/
def keptOwed (c : Context) : List Owed := c.owed.filter fun o => !(o.deadlineLap ≤ c.laps && !o.inService)

end Sys2Proof.Machine
end

