-- ==== Sys2Proof/Machine/Session.lean ====
section
/-! DEFINITION. The session controller's moves (file 06). -/

namespace Sys2Proof.Machine

/-! ### Neutral periods (R119) -/

/-- The two oldest periods merged into one. -/
def mergeOldest : List Period → List Period
  | a :: b :: rest => ⟨a.start, b.stop⟩ :: rest
  | ps => ps

/-- A period is without an end. -/
def periodOpen (ps : List Period) : Bool := ps.any fun p => p.stop.isNone

/-- Every car's current lap becomes a neutral candidate (R81, R119; log entry 19). -/
def markNeutral (s : State) : State :=
  updAllCtx (fun c => if c.state = .unused then c else { c with marks := { c.marks with neutral := true } }) s

/-- A period opens, if none is open; a full list merges its two oldest first (R119). -/
def openPeriod (s : State) : State :=
  if periodOpen s.session.periods then s
  else
    let ps := if s.session.periods.length < Config.periodCapacity then s.session.periods
      else mergeOldest s.session.periods
    markNeutral { s with session := { s.session with periods := ps ++ [⟨s.clock.now, none⟩] } }

/-- The open period ends at the present race clock (R119). -/
def closePeriod (s : State) : State :=
  { s with session := { s.session with
      periods := s.session.periods.map fun p => if p.stop.isNone then { p with stop := some s.clock.now } else p } }

/-! ### Deadlines (R87) -/

/-- A running deadline stands still with its remaining ticks. -/
def suspendDeadline (now : Ticks) : Deadline → Deadline
  | .due t => .suspended (t - now)
  | .suspended r => .suspended r

/-- A suspended deadline runs again from the present clock. -/
def rearmDeadline (now : Ticks) : Deadline → Deadline
  | .due t => .due t
  | .suspended r => .due (now + r)

/-- Every overdue deadline is suspended (R87). -/
def suspendDeadlines (s : State) : State :=
  updAllCtx (fun c => { c with deadline := c.deadline.map (suspendDeadline s.clock.now) }) s

/-- Every suspended deadline is re-armed (R87). -/
def rearmDeadlines (s : State) : State :=
  updAllCtx (fun c => { c with deadline := c.deadline.map (rearmDeadline s.clock.now) }) s

/-- Every overdue deadline becomes absent, as at the move to CLOSED (R69). -/
def clearDeadlines (s : State) : State := updAllCtx (fun c => { c with deadline := none }) s

/-! ### Lamps and SESSION records (R127, R129) -/

/-- The lamp a session shows (R127). -/
def lampOf (ses : Session) : Lamp :=
  match ses.state with
  | .idle => ⟨.dark, 0⟩
  | .closed => ⟨.dark, 0⟩
  | .armed => ⟨.redHold, 0⟩
  | .held => ⟨.redHold, 0⟩
  | .countdown => ⟨.red, (ses.countdown.map Countdown.red).getD 1⟩
  | .green => ⟨.green, 0⟩
  | .caution => ⟨.yellow, 0⟩
  | .chequered => ⟨.chequer, 0⟩

/-- The lamp of the session's state is issued (R127). -/
def showLamp (s : State) : State := issueLamp (lampOf s.session) s

/-- A SESSION record for the state the session stands in, which sets SESSION (R129). -/
def emitSession (cause : Cause) (s : State) : State :=
  setGroup .session (emit ⟨0, s.clock.now, .session s.session.state cause s.session.heatClock⟩ s)

/-- The lamp and the SESSION record of a move (R127, R129). -/
def announce (cause : Cause) (s : State) : State := emitSession cause (showLamp s)

/-- The session state is replaced. -/
def setSession (st : SessionState) (s : State) : State := { s with session := { s.session with state := st } }

/-! ### Moves -/

/-- GREEN to CAUTION (R116). -/
def toCaution (cause : Cause) (s : State) : State :=
  announce cause (takeSnapshot (openPeriod (setSession .caution s)))

/-- CAUTION to GREEN (R116). -/
def toGreen (cause : Cause) (s : State) : State :=
  announce cause (dropSnapshot (closePeriod (setSession .green s)))

/-- The session becomes HELD, the state left is remembered, the overdue deadlines and the stationary marks
stand still (R117, R87, R157). -/
def enterHeld (s : State) : State :=
  clearMarks (suspendDeadlines { s with session := { s.session with heldFrom := some s.session.state, state := .held } })

/-- GREEN, CAUTION or CHEQUERED to HELD (R117). -/
def toHeld (cause : Cause) (s : State) : State := announce cause (openPeriod (enterHeld s))

/-- An entry to CHEQUERED: the period closes, the grace is set, the snapshot goes (R122, R100). -/
def enterChequered (cause : Cause) (s : State) : State :=
  let s := closePeriod (setSession .chequered s)
  announce cause (dropSnapshot
    { s with session := { s.session with grace := some (s.settings.heat.finishGrace * Config.second) } })

/-- The session controller's own work at a move to CLOSED (R124). -/
def closeSession (cause : Cause) (aborted : Bool) (s : State) : State :=
  announce cause (closePeriod
    { s with session := { s.session with
        state := .closed, aborted := aborted, countdown := none, heldFrom := none, grace := none } })

/-- The pending pairs, the drill switch and the drill schedules go (R58, R61). -/
def clearResolver (s : State) : State :=
  { s with resolver := { s.resolver with pairs := [], drillOn := false, drills := Vector.replicate 16 none } }

/-- A move to CLOSED: the session controller's work, then the other blocks' (R124). -/
def closeHeat (cause : Cause) (aborted : Bool) (s : State) : State :=
  let s := closePit aborted (clearResolver (clearDeadlines (dropSnapshot (closeSession cause aborted s))))
  if aborted then s else emitFinish s

/-- A car is still running in the heat (R123). -/
def stillRunning (s : State) : Bool :=
  allEntries.any fun e =>
    (ctx s e).state == .running || (ctx s e).state == .inPit || (ctx s e).state == .offTrack

/-- The close test: in CHEQUERED with no car still running the session closes (R123). -/
def closeTest (s : State) : State :=
  if s.session.state = .chequered && !(stillRunning s) then closeHeat .allFinished false s else s

/-- A lap close is told to the session controller (R121). -/
def tellClose (laps : Nat) (s : State) : State :=
  if s.settings.heat.raceKind = .laps ∧ s.settings.heat.raceLaps ≤ laps then
    match s.session.state with
    | .green => enterChequered .lapsDone s
    | .caution => enterChequered .lapsDone s
    | .held =>
      if s.session.heldFrom = some .green ∨ s.session.heldFrom = some .caution then
        { s with session := { s.session with heldFrom := some .chequered } }
      else s
    | _ => s
  else s

/-- The gate test of START and RESUME: every enabled lane has a LINE slot of line 0, and every such slot is
ALIGNED (R113, R118). -/
def gatesAligned (s : State) : Bool :=
  allLanes.all fun lane =>
    !(laneIn s.settings.timing.lanesEnabled lane) ||
    ((allGates.any fun g => (gate s g).role == .line && (gate s g).line == 0 && (gate s g).lane == lane) &&
     allGates.all fun g =>
       !((gate s g).role == .line && (gate s g).line == 0 && (gate s g).lane == lane) ||
       (gate s g).alignment.code == 1)

/-- ARM's test: every enabled lane has a LINE slot of line 0 (R112). -/
def lanesGated (s : State) : Bool :=
  allLanes.all fun lane =>
    !(laneIn s.settings.timing.lanesEnabled lane) ||
    allGates.any fun g => (gate s g).role == .line && (gate s g).line == 0 && (gate s g).lane == lane

/-- HELD to the held-from state (R118). -/
def resumeTo (st : SessionState) (s : State) : State :=
  let s := { s with session := { s.session with state := st, heldFrom := none } }
  let s := if st = .green ∨ st = .chequered then closePeriod s else s
  let s := rearmDeadlines s
  let s := { s with throttle := { s.throttle with zoneOverride := false } }
  if st = .chequered then
    closeTest (if s.session.grace.isSome then announce .request (dropSnapshot s) else enterChequered .request s)
  else announce .request s

/-- The heat clock of a heat of the present kind and length (R112, R130). -/
def fullHeatClock (h : HeatSettings) : Ticks :=
  match h.raceKind with
  | .time => h.heatLen * Config.second
  | .laps => 0

/-- Leaving COUNTDOWN for GREEN: every GRID car becomes RUNNING, with line 0's overdue limit (R72). -/
def launchGrid (now limit : Ticks) (c : Context) : Context :=
  if c.state = .grid then
    { c with
      state := .running, expected := 0, laps := 0, lapStart := none, progressTime := none,
      deadline := if limit = 0 then none else some (.due (now + limit)) }
  else c

end Sys2Proof.Machine
end

