-- ==== Sys2Proof/Machine/Penalties.lean ====
section
/-! DEFINITION. The penalty engine: counting, deciding and applying (file 07). -/

namespace Sys2Proof.Machine

/-- What a penalty applies: a row's fields, or those a direct ISSUE names (R143, R150). -/
structure Ruling where
  sanction : Sanction
  amount : Nat
  window : Nat
  fallback : Nat
  enforce : Bool
  deriving DecidableEq, Repr

/-- The ruling of a row. -/
def rulingOf (r : Rule) : Ruling := ⟨r.sanction, r.amount, r.window, r.fallback, r.enforce⟩

/-- What became of a sanction: whether an owed entry was converted, and the deadline lap of one appended
(R146). -/
structure Applied where
  converted : Bool
  deadlineLap : Option Nat
  deriving DecidableEq, Repr

/-- What a CALL says of its incident: the class, the number, whether converted (R150). -/
structure CallInfo where
  cls : CallClass
  number : Nat
  converted : Bool
  deriving DecidableEq, Repr

/-- The owed entry of a ruling (R143). -/
def owedOf (kind : IncidentKind) (r : Ruling) (laps : Nat) : Owed where
  kind := kind
  sanction := r.sanction
  amount := if r.sanction = .stopGo then r.amount else 0
  issueLap := laps
  deadlineLap := laps + r.window
  fallback := r.fallback
  enforce := r.enforce
  inService := false

/-- The pit service unit's part of a black flag: the queue is emptied, the mark and any hold go (R144). -/
def dropOwed (e : Entry) (s : State) : State :=
  setHold e false (setMark e none (updCtx e (fun c => { c with owed := [] }) s))

/-- A context at a black flag: RETIRED, disqualified, no deadline, no transit (R144). -/
def flaggedContext (c : Context) : Context :=
  { c with state := .retired, disqualified := true, deadline := none, transit := none }

/-- An entry joins the disqualified-stop set (R145). -/
def joinStopSet (e : Entry) (s : State) : State :=
  if e ∈ s.penalty.stopSet then s
  else { s with penalty := { s.penalty with stopSet := s.penalty.stopSet ++ [e] } }

/-- A black flag's first four steps (R144); a car already disqualified is not moved again (R99). -/
def blackFlag (e : Entry) (enforce : Bool) (s : State) : State :=
  let already := (ctx s e).disqualified
  let s := dropOwed e (updCtx e flaggedContext s)
  let s := if enforce then joinStopSet e s else s
  if already then s else moveToTail e s

/-- A sanction is applied to a car (R141 to R144). -/
def applySanction (e : Entry) (kind : IncidentKind) (r : Ruling) (s : State) : State × Applied :=
  match r.sanction with
  | .note => (s, ⟨false, none⟩)
  | .timeAdd => (updCtx e (addSeconds r.amount) s, ⟨false, none⟩)
  | .lapDeduct =>
    (updCtx e (fun c => { c with deductions := saturate 255 (c.deductions + r.amount) }) s, ⟨false, none⟩)
  | .blackFlag => (blackFlag e r.enforce s, ⟨false, none⟩)
  | _ =>
    if (ctx s e).owed.length < Config.owedCapacity then
      let o := owedOf kind r (ctx s e).laps
      (updCtx e (fun c => { c with owed := c.owed ++ [o] }) s, ⟨false, some o.deadlineLap⟩)
    else (updCtx e (addSeconds r.fallback) s, ⟨true, none⟩)

/-- The amount a CALL carries: seconds for TIME_ADD and STOP_GO, laps for LAP_DEDUCT, else 0 (R146). -/
def callAmount (r : Ruling) : Nat :=
  match r.sanction with
  | .timeAdd => r.amount
  | .lapDeduct => r.amount
  | .stopGo => r.amount
  | _ => 0

/-- A CALL record; the CALL group is set when the kind's row has attention yes (R146, R147). -/
def emitCall (e : Entry) (kind : IncidentKind) (time : Ticks) (info : CallInfo) (r : Ruling)
    (deadlineLap : Option Nat) (s : State) : State :=
  let s := emit ⟨entryNumber e, time,
    .call ⟨kind, info.cls, info.number, r.sanction, callAmount r, info.converted, deadlineLap⟩⟩ s
  if (ruleOf s kind).attention then setGroup .call s else s

/-- A sanction is applied and called; after a black flag's CALL the session controller is told (R148). -/
def penalise (e : Entry) (kind : IncidentKind) (time : Ticks) (number : Nat) (r : Ruling) (s : State) :
    State × CallInfo :=
  let a := applySanction e kind r s
  let info : CallInfo := ⟨.penalty, number, a.2.converted⟩
  let t := emitCall e kind time info r a.2.deadlineLap a.1
  (if r.sanction = .blackFlag then closeTest t else t, info)

/-- An incident number is within an allowance, so that it is a warning (R140). -/
def withinAllowance (allowance : Option Nat) (n : Nat) : Bool :=
  match allowance with
  | none => true
  | some k => n ≤ k

/-- The penalty engine counts the incidents of cars in these states (R134). -/
def takesIncidents : CarState → Bool
  | .grid | .running | .inPit | .offTrack => true
  | _ => false

/-- The count of a kind, replaced. -/
def setCount (k : IncidentKind) (n : Nat) (c : Context) : Context :=
  { c with counts := c.counts.set (kindIndex k) n }

/-- An incident is counted and decided (R134, R140); a finished or retired car's is discarded. -/
def incidentCall (e : Entry) (kind : IncidentKind) (time : Ticks) (s : State) : State × Option CallInfo :=
  if takesIncidents (ctx s e).state then
    let n := saturate 255 (countOf (ctx s e) kind + 1)
    let rule := ruleOf s kind
    let s := updCtx e (setCount kind n) s
    if withinAllowance rule.allowance n then
      let info : CallInfo := ⟨.warning, n, false⟩
      (emitCall e kind time info (rulingOf rule) none s, some info)
    else
      let p := penalise e kind time n (rulingOf rule) s
      (p.1, some p.2)
  else (s, none)

/-- An incident raised by a detecting block (R134, R148). -/
def incident (e : Entry) (kind : IncidentKind) (time : Ticks) (s : State) : State :=
  (incidentCall e kind time s).1

/-- JUMP_START is raised once in a heat: the field is looked at and set (R71, R135, R179). -/
def jumpStart (e : Entry) (time : Ticks) (s : State) : State :=
  if (ctx s e).jumpFlagged then s
  else incident e .jumpStart time (updCtx e (fun c => { c with jumpFlagged := true }) s)

end Sys2Proof.Machine
end

