-- ==== Sys2Proof/Machine/Lap.lean ====
section
/-! DEFINITION. The lap engine: what an accepted crossing does (file 04), with the order unit's placement
and caution-pass check (R97, R102). -/

namespace Sys2Proof.Machine

/-- A report on its way through the resolver, and the accepted crossing it becomes (R47, R59). Gate 0 stands
for the drill. -/
structure Report where
  entry : Entry
  code : Byte
  time : Ticks
  arrival : Ticks
  gate : Nat
  role : GateRole
  line : Line
  lane : Nat
  lowConf : Bool
  inferred : Bool
  drill : Bool
  deriving DecidableEq, Repr

/-- The crossing as a context's last accepted crossing (R70). -/
def Report.toLast (x : Report) : LastCrossing := ⟨x.time, x.line, x.lane, x.gate, x.role⟩

/-- The line a crossing counts for: pit gates belong to zone 0 (R85, R90, R91). -/
def Report.countsFor (x : Report) : Line := if x.role = .line then x.line else 0

/-- The crossing replaces the entry's last accepted crossing (R70). -/
def recordLast (x : Report) (s : State) : State := updCtx x.entry (fun c => { c with last := some x.toLast }) s

/-- The crossing's flags joined to the current-lap flags (R76, R77, R90). -/
def joinMarks (x : Report) (m : LapMarks) : LapMarks :=
  ⟨m.neutral, m.lowConf || x.lowConf, m.inferred || x.inferred, m.drill || x.drill⟩

/-- A zone lets no lane change pass unpunished: its mode is VETO or WATCH, or the session is CAUTION with
CAUTION_CLOSE on, or the zone override is set (R85). -/
def foulZone (s : State) (j : Line) : Bool :=
  (lineRow s j).mode != .openZone || (s.session.state == .caution && s.settings.timing.cautionClose) ||
  s.throttle.zoneOverride

/-- The change-foul check, made before the last accepted crossing is replaced (R85). -/
def checkFoul (x : Report) (s : State) : State :=
  let c := ctx s x.entry
  match c.last with
  | none => s
  | some l =>
    if (c.state = .running ∨ c.state = .inPit ∨ c.state = .offTrack) ∧ l.lane ≠ x.lane ∧
        s.session.state ≠ .held ∧ foulZone s x.countsFor then
      incident x.entry .changeFoul x.time s
    else s

/-- The work of a crossing goes on unless the car has been black-flagged in it; then the crossing becomes
the last accepted crossing and the rest is not carried out (R144). -/
def unlessFlagged (x : Report) (s : State) (rest : State → State) : State :=
  if (ctx s x.entry).state = .retired then recordLast x s else rest s

/-! ### Placement (R97, R102) -/

/-- The entries that a caution-pass check charges the placed car with passing, in snapshot order (R102). -/
def passedUnder (s : State) (a : Entry) (before after : List Entry) (snapshot : List Entry) : List Entry :=
  snapshot.filter fun b =>
    b ∈ before && before.idxOf b < before.idxOf a &&
    b ∈ after && after.idxOf a < after.idxOf b &&
    snapshot.idxOf b < snapshot.idxOf a &&
    (ctx s b).state == .running && !(decide (b ∈ (ctx s a).charged))

/-- One charge of a caution pass (R102). DESIGN CHOICE, log entry 33: the charged set is kept in the order of the
charges. -/
def chargePass (a : Entry) (time : Ticks) (s : State) (b : Entry) : State :=
  incident a .cautionPass time (updCtx a (fun c => { c with charged := c.charged ++ [b] }) s)

/-- The caution-pass check for a car just placed, the list before the placement given (R102). -/
def checkPasses (a : Entry) (time : Ticks) (before : List Entry) (s : State) : State :=
  match s.session.state, s.order.snapshot with
  | .caution, some snap => (passedUnder s a before s.order.list snap).foldl (chargePass a time) s
  | _, _ => s

/-- A placement with its caution-pass check (R97). -/
def placeCar (e : Entry) (time : Ticks) (s : State) : State := checkPasses e time s.order.list (place e s)

/-! ### Records and deadlines -/

/-- A SECTOR record (R78). -/
def emitSector (x : Report) (line : Line) (split : Option Ticks) (spanned : Nat) (s : State) : State :=
  emit ⟨entryNumber x.entry, x.time, .sector line x.lane split spanned⟩ s

/-- The fuel field of a LAP record: absent while the fuel model is off (R84). -/
def fuelField (s : State) (e : Entry) : Option Nat := if s.settings.fuel.cap = 0 then none else some (ctx s e).fuel

/-- The overdue deadline after a crossing (R86). -/
def setOverdue (x : Report) (s : State) : State :=
  let c := ctx s x.entry
  let limit := (lineRow s c.expected).overdue
  updCtx x.entry (fun c => { c with
    deadline :=
      if limit = 0 ∨ c.state = .inPit then none
      else if s.session.state = .held then some (.suspended (x.time + limit - s.clock.now))
      else some (.due (x.time + limit)) }) s

/-- A pair appended to a recent-progress ring of at most 10 (R79). -/
def pushRing (p : Nat) (t : Ticks) (ring : List (Nat × Ticks)) : List (Nat × Ticks) :=
  (if ring.length < Config.ringCapacity then ring else ring.drop 1) ++ [(p, t)]

/-- Progress, its time and the ring (R79). -/
def setProgress (p : Nat) (t : Ticks) (c : Context) : Context :=
  { c with progress := p, progressTime := some t, ring := pushRing p t c.ring }

/-- The neutral candidate flag of a lap that begins: the list holds a period that began by now and has no
end, or ends at or after the lap's start (R81). -/
def neutralAtStart (s : State) (start : Option Ticks) : Bool :=
  s.session.periods.any fun p =>
    decide (p.start ≤ s.clock.now) &&
    match p.stop with
    | none => true
    | some t => decide (start.getD s.clock.now ≤ t)

/-- A lap begins at a crossing (R81). -/
def beginLap (x : Report) (start : Option Ticks) (neutral : Bool) (c : Context) : Context :=
  { c with
    lapStart := start, crossed := [], splits := [], missed := 0
    marks := ⟨neutral, x.lowConf, x.inferred, x.drill⟩ }

/-- The LAP record of a launch (R73, R74). -/
def emitLaunch (x : Report) (time : Option Ticks) (missed : Nat) (viaPit : Bool) (s : State) : State :=
  emit ⟨entryNumber x.entry, x.time, .lap {
    number := 0
    time := time
    flags := ⟨false, false, x.lowConf, x.inferred, x.drill, viaPit, false⟩
    missed := missed
    splits := []
    standing := standing s x.entry
    fuel := fuelField s x.entry }⟩ s

/-! ### Launch, line crossings, re-crosses -/

/-- The launch: the first crossing of line 0 by a car that has not launched (R73). -/
def launch (x : Report) (viaPit : Bool) (s : State) : State :=
  unlessFlagged x (checkFoul x s) fun s =>
    let neutral := neutralAtStart s (some x.time)
    let s := updCtx x.entry (fun c =>
      { setProgress 0 x.time (beginLap x (some x.time) neutral c) with
        expected := nextLine (lines s) 0, last := some x.toLast }) s
    let s := placeCar x.entry x.time (setOverdue x s)
    unlessFlagged x s (emitLaunch x (s.session.greenTime.map fun g => x.time - g) 0 viaPit)

/-- The context's part of a line crossing: misses, the line, the split, progress, flags (R76, steps 2 to 6). -/
def crossLine (x : Report) (lines missed : Nat) (split : Option Ticks) (c : Context) : Context :=
  { setProgress (c.laps * lines + x.line.val) x.time c with
    missed := c.missed + missed
    crossed := c.crossed ++ [x.line]
    splits := c.splits ++ (split.map fun t => (x.line, t)).toList
    expected := nextLine lines x.line
    last := some x.toLast
    marks := joinMarks x c.marks }

/-- The split from the last accepted crossing (R76, step 3). -/
def splitOf (x : Report) (c : Context) : Option Ticks := c.last.map fun l => x.time - l.time

/-- An ordinary line crossing (R76). -/
def ordinaryCrossing (x : Report) (s : State) : State :=
  unlessFlagged x (checkFoul x s) fun s =>
    let missed := missedLines (lines s) (ctx s x.entry).expected x.line
    let split := splitOf x (ctx s x.entry)
    let s := updCtx x.entry (crossLine x (lines s) missed.length split) s
    unlessFlagged x (placeCar x.entry x.time s) fun s =>
      setOverdue x (emitSector x x.line split (missed.length + 1) s)

/-- A lost launch: the launch is deemed at a missed line 0, and the crossing of line j opens lap 1 without a
lap start (R74; log entry 14). -/
def lostLaunch (x : Report) (viaPit : Bool) (s : State) : State :=
  unlessFlagged x (checkFoul x s) fun s =>
    let neutral := neutralAtStart s none
    let s := updCtx x.entry (fun c => crossLine x (lines s) (x.line.val - 1) none (beginLap x none neutral c)) s
    unlessFlagged x (placeCar x.entry x.time s) fun s =>
      setOverdue x (emitSector x x.line none (x.line.val + 1) (emitLaunch x none 1 viaPit s))

/-- A re-cross: the car was put back behind the line (R77). -/
def reCross (x : Report) (s : State) : State :=
  setOverdue x (updCtx x.entry (fun c => { c with last := some x.toLast, marks := joinMarks x c.marks }) s)

/-! ### Closing a lap (R80 to R84) -/

/-- A lap is eligible for best lap (R83). -/
def eligible (counted : Bool) (m : LapMarks) (viaPit : Bool) : Bool :=
  counted && !m.neutral && !m.lowConf && !m.inferred && !m.drill && !viaPit

/-- A lap's time is a new best (R83). -/
def isNewBest (best : Option Ticks) (time : Option Ticks) (ok : Bool) : Bool :=
  match time, best with
  | some t, some b => ok && decide (t < b)
  | some _, none => ok
  | none, _ => false

/-- The missed lines of a closing crossing that belong to the closing lap: those up to and including line 0
(R80). -/
def closingMisses : List Line → List Line
  | [] => []
  | k :: rest => if k = 0 then [k] else k :: closingMisses rest

/-- Deadline checks at a counted close: each entry past its deadline is removed with a SERVE UNSERVED and an
UNSERVED incident, until a black flag empties the queue (R161; log entry 17). -/
def unservedWork (e : Entry) (time : Ticks) : List Owed → State → State
  | [], s => s
  | o :: rest, s =>
    if (ctx s e).state = .retired then s
    else unservedWork e time rest (incident e .unserved time (emitServe e time .unserved o.sanction none s))

/-- The deadline check of a car at a counted close (R161). -/
def checkDeadlines (e : Entry) (time : Ticks) (s : State) : State :=
  unservedWork e time (expiredOwed (ctx s e)) (updCtx e (fun c => { c with owed := keptOwed c }) s)

/-- A car finishes at a close: FINISHED with its finish time, no deadline, its owed entries converted (R82
step 5, R162). -/
def finishCar (x : Report) (s : State) : State :=
  convertOwed x.entry x.time (updCtx x.entry (fun c =>
    { c with state := .finished, finishTime := some x.time, deadline := none }) s)

/-- The context's part of steps 6 and 7 of a closing crossing: the next lap begins, but for a car that has
finished, and line 0 or the revealing line is crossed (R81, R82). -/
def nextLap (x : Report) (lines : Nat) (j : Line) (after : Nat) (finished : Bool) (start : Option Ticks)
    (neutral : Bool) (c : Context) : Context :=
  let c := if finished then c else beginLap x start neutral c
  if j = 0 ∨ finished then
    { setProgress (c.laps * lines) x.time c with expected := nextLine lines j, last := some x.toLast }
  else crossLine x lines after none c

/-- The records of a closing crossing: the LAP record, with the standing and fuel of the moment, and behind it the
SECTOR record of a revealing line (R82, R84). -/
def emitClose (x : Report) (j : Line) (spanned : Nat) (lap : LapBody) (s : State) : State :=
  let s := emit ⟨entryNumber x.entry, x.time, .lap
    { lap with standing := standing s x.entry, fuel := fuelField s x.entry }⟩ s
  if j = 0 then s else emitSector x j none spanned s

/-- Steps 5 to 11 of a closing crossing, and the close test after them (R82, R123). `lap` is the LAP record's
body but for its standing and fuel. -/
def closeRest (x : Report) (j : Line) (after : Nat) (spanned : Nat) (lap : LapBody) (s : State) : State :=
  let s := tellClose (ctx s x.entry).laps s
  let finished : Bool := decide (s.session.state = .chequered)
  let s := if finished then finishCar x s else s
  let start : Option Ticks := if j = 0 then some x.time else none
  let s := updCtx x.entry (nextLap x (lines s) j after finished start (neutralAtStart s start)) s
  unlessFlagged x (placeCar x.entry x.time s) fun s =>
    let s := emitClose x j spanned lap s
    if finished then closeTest s
    else
      unlessFlagged x (if lap.flags.counted then checkDeadlines x.entry x.time s else s) (setOverdue x)

/-- A closing crossing from its second step (R82): of line 0, a PIT_EXIT, or of a line j that reveals a
missed line 0. -/
def closeLap (x : Report) (j : Line) (viaPit : Bool) (s : State) : State :=
  unlessFlagged x (checkFoul x s) fun s =>
    let c := ctx s x.entry
    let missed := missedLines (lines s) c.expected j
    let closing := closingMisses missed
    let spanned := missed.length + 1
    let s := if j = 0 then emitSector x 0 (splitOf x c) spanned s else s
    let n := c.missed + closing.length
    let counted : Bool := decide (n ≤ s.settings.timing.missTol)
    let marks := joinMarks x c.marks
    let s := updCtx x.entry (fun c => { c with
      missed := n, marks := marks, laps := if counted then saturate 9999 (c.laps + 1) else c.laps }) s
    let s := if counted then s else incident x.entry .lineMiss x.time s
    unlessFlagged x s fun s =>
      let time := if j = 0 then c.lapStart.map fun t => x.time - t else none
      let best := isNewBest c.bestLap time (eligible counted marks viaPit)
      let s := updCtx x.entry (fun c => { c with
        lastLap := time, bestLap := if best then time else c.bestLap }) s
      closeRest x j (missed.length - closing.length) spanned {
        number := c.laps + 1
        time := time
        flags := ⟨counted, marks.neutral, marks.lowConf, marks.inferred, marks.drill, viaPit, best⟩
        missed := n
        splits := c.splits
        standing := ⟨0, none, 0⟩
        fuel := none } s

/-! ### The pit lane (R90 to R92) -/

/-- A pit entry (R90). -/
def pitEntry (x : Report) (s : State) : State :=
  let missed := if (ctx s x.entry).progressTime.isSome then missedLines (lines s) (ctx s x.entry).expected 0 else []
  let s := updCtx x.entry (fun c => { c with missed := c.missed + missed.length, expected := 0 }) s
  unlessFlagged x (checkFoul x s) fun s =>
    startService x.entry <| updCtx x.entry (fun c => { c with
      state := .inPit, transit := some ⟨x.time, 0, false⟩, deadline := none
      last := some x.toLast, marks := joinMarks x c.marks }) s

/-- A repeat of the pit entry (R92, R85). DESIGN CHOICE, log entry 37: it leaves the flags of the current lap as they were,
where an entry (R90) ORs its own into them. -/
def repeatEntry (x : Report) (s : State) : State := recordLast x (checkFoul x s)

/-- A pit transit closes: the car becomes RUNNING, its service is judged, and a short stop raises PIT_SHORT
(R91, R159, R160). -/
def closeTransit (x : Report) (s : State) : State :=
  let r := evaluateService x.entry x.time (updCtx x.entry (fun c => { c with state := .running }) s)
  if r.2 then incident x.entry .pitShort x.time r.1 else r.1

/-! ### Taking an accepted crossing (R70) -/

/-- The crossing repeats the line of the last accepted crossing (R77). -/
def isReCross (lines : Nat) (x : Report) (c : Context) : Bool :=
  decide (2 ≤ lines) && x.role == .line &&
  match c.last with
  | some l => l.role == .line && l.line == x.line
  | none => false

/-- The crossing of a line by a RUNNING car, or the one that ends a transit: launch, lost launch, lap close
or ordinary crossing (R73 to R80). -/
def crossFor (x : Report) (viaPit : Bool) (s : State) : State :=
  let c := ctx s x.entry
  let j := x.countsFor
  if c.progressTime.isNone then (if j = 0 then launch x viaPit s else lostLaunch x viaPit s)
  else if j = 0 then closeLap x 0 viaPit s
  else if (0 : Line) ∈ missedLines (lines s) c.expected j then closeLap x j viaPit s
  else ordinaryCrossing x s

/-- An accepted crossing of a RUNNING car. -/
def runningCrossing (x : Report) (s : State) : State :=
  let c := ctx s x.entry
  if x.role = .pitEntry then pitEntry x s
  else if c.progressTime.isSome && isReCross (lines s) x c then reCross x s
  else crossFor x false s

/-- An accepted crossing of an IN_PIT car (R91, R92). -/
def pitCrossing (x : Report) (s : State) : State :=
  if x.role = .pitEntry then repeatEntry x s
  else unlessFlagged x (closeTransit x s) (crossFor x true)

/-- An accepted crossing is taken according to the state of the entry's context (R70, R71, R89). -/
def acceptCrossing (x : Report) (s : State) : State :=
  match (ctx s x.entry).state with
  | .unused => s
  | .grid => recordLast x (jumpStart x.entry x.time s)
  | .running => runningCrossing x s
  | .inPit => pitCrossing x s
  | .offTrack => runningCrossing x (updCtx x.entry (fun c => { c with state := .running }) s)
  | .finished => recordLast x s
  | .retired => recordLast x s

end Sys2Proof.Machine
end

