-- ==== Sys2Proof/Machine/Resolve.lean ====
section
/-! DEFINITION. The crossing resolver and the drill generator (file 03). -/

namespace Sys2Proof.Machine

/-- A report is strayed (R60). -/
def stray (gate : Nat) (time : Ticks) (code : Byte) (reason : StrayReason) (s : State) : State :=
  setGroup .stray (emit ⟨gate, time, .stray code reason⟩ s)

/-- Two crossings are at the same place (R56). -/
def samePlace (x : Report) (l : LastCrossing) : Bool :=
  (x.role == .line && l.role == .line && x.line == l.line) ||
  (x.role == .pitEntry && l.role == .pitEntry) || (x.role == .pitExit && l.role == .pitExit)

/-- The holdoff drops a report at the same place within LINE_HOLDOFF of the last accepted crossing (R56). -/
def heldOff (s : State) (x : Report) : Bool :=
  match (ctx s x.entry).last with
  | none => false
  | some l => samePlace x l && decide (x.time < l.time + s.settings.timing.lineHoldoff)

/-- The order check refuses a report not later than the last accepted crossing (R57). -/
def outOfOrder (s : State) (x : Report) : Bool :=
  match (ctx s x.entry).last with
  | none => false
  | some l => decide (x.time ≤ l.time)

/-- The delivery window (R57). -/
def deliveryWindow (s : State) (x : Report) : Report :=
  let w := intoWindow s.settings.timing.lagMax x.arrival x.time
  { x with time := w.1, lowConf := x.lowConf || w.2 }

/-- A report leaving the pair step: delivery window, holdoff, order check, delivery (R56, R57, R59). -/
def deliver (x : Report) (s : State) : State :=
  let x := deliveryWindow s x
  if heldOff s x then s
  else if outOfOrder s x then stray x.gate x.time x.code .order s
  else acceptCrossing x s

/-! ### Pairs (R52 to R55) -/

/-- The pending pair of an entry. -/
def pairOf (s : State) (e : Entry) : Option PendingPair := s.resolver.pairs.find? fun p => p.entry == e

/-- The pending pair of a line-lane. -/
def pairAt (s : State) (line : Line) (lane : Nat) : Option PendingPair :=
  s.resolver.pairs.find? fun p => p.line == line && p.lane == lane

/-- A pair leaves the list. -/
def removePair (p : PendingPair) (s : State) : State :=
  { s with resolver := { s.resolver with pairs := s.resolver.pairs.erase p } }

/-- The held report of a pair, with its own time, arrival time and flags (R54, R55). -/
def heldReport (p : PendingPair) : Report where
  entry := p.entry
  code := p.code
  time := p.time
  arrival := p.arrival
  gate := gateNumber p.gate
  role := .line
  line := p.line
  lane := p.lane
  lowConf := p.lowConf
  inferred := p.inferred
  drill := false

/-- The other gate of a pair's line-lane. -/
def partnerGate (s : State) (p : PendingPair) : Option GateId :=
  allGates.find? fun g =>
    (gate s g).role == .line && (gate s g).line == p.line && (gate s g).lane == p.lane && g != p.gate

/-- A slot's unpaired count rises by 1, saturating at 255 (R28). -/
def raiseUnpaired (g : GateId) (s : State) : State :=
  setGate g { gate s g with unpaired := saturate 255 ((gate s g).unpaired + 1) } s

/-- A pair is released singly: it leaves the list, the silent partner's unpaired count rises, and the held
report goes on alone (R53, R55). -/
def releasePair (p : PendingPair) (s : State) : State :=
  let s := removePair p s
  let s := match partnerGate s p with
    | some g => raiseUnpaired g s
    | none => s
  deliver (heldReport p) s

/-- A merge is allowed: the two times differ by no more than PAIR_WINDOW and the partner's is later than the
entry's last accepted crossing (R54). -/
def canMerge (s : State) (p : PendingPair) (x : Report) : Bool :=
  decide (x.time ≤ p.time + s.settings.timing.pairWindow) &&
  decide (p.time ≤ x.time + s.settings.timing.pairWindow) && !(outOfOrder s x)

/-- The car code of a merged crossing (R60; log entry 13 where the two reports' codes differ). -/
def codeOfMerge (held partner : Byte) : Byte := if held = partner then held else Config.mergedCode held partner

/-- The merged crossing of a pair and its partner report (R54). -/
def mergedReport (s : State) (p : PendingPair) (x : Report) : Report where
  entry := p.entry
  code := codeOfMerge p.code x.code
  time := (p.time + x.time) / 2
  arrival := x.arrival
  gate := ((lineGate s p.line p.lane .primary).map gateNumber).getD x.gate
  role := .line
  line := p.line
  lane := p.lane
  lowConf := p.lowConf || x.lowConf
  inferred := p.inferred || x.inferred
  drill := false

/-- A partner report reaches its pair: merge or refusal (R54). -/
def partnerArrives (p : PendingPair) (x : Report) (s : State) : State :=
  let t := removePair p s
  if canMerge s p x then deliver (mergedReport s p x) t
  else deliver x (deliver (heldReport p) t)

/-- A pair is opened for a report, or, where the holdoff would drop the report, none is (R53). -/
def openPair (g : GateId) (x : Report) (s : State) : State :=
  if heldOff s x then deliver x s
  else
    { s with resolver := { s.resolver with pairs := s.resolver.pairs ++
      [⟨x.entry, x.code, x.line, x.lane, g, x.time, x.arrival, x.lowConf, x.inferred,
        x.arrival + s.settings.timing.pairWindow + s.settings.timing.lagMax⟩] } }

/-- The pair step of a gate's report (R53). -/
def pairStep (g : GateId) (x : Report) (s : State) : State :=
  if !(x.role == .line && isPaired s x.line x.lane) then deliver x s
  else if (pairAt s x.line x.lane).any fun p => p.entry != x.entry then deliver x s
  else
    match pairOf s x.entry with
    | none => openPair g x s
    | some p =>
      if p.line = x.line ∧ p.lane = x.lane ∧ p.gate ≠ g then partnerArrives p x s
      else openPair g x (releasePair p s)

/-! ### Identity (R48 to R51) -/

/-- The mapped entry that holds a car code (R48). -/
def entryWithCode (s : State) (code : Byte) : Option Entry :=
  allEntries.find? fun e => mapped s e && (entryRow s e).code == code

/-- The zone ending at a line is open to lane changes (R50). -/
def zoneOpen (s : State) (j : Line) : Bool :=
  (lineRow s j).mode != .veto && !s.throttle.zoneOverride &&
  !(s.session.state == .caution && s.settings.timing.cautionClose)

/-- The first condition of a candidate: its position in the lap (R50). -/
def candidatePosition (slot : GateSlot) (c : Context) : Bool :=
  match slot.role with
  | .line => c.state == .running && c.expected == slot.line
  | .pitEntry => c.state == .running && c.expected == 0
  | .pitExit => c.state == .inPit
  | .unused => false

/-- The zone and the minimum sector time of a gate go by its line, line 0 for pit gates (R50). -/
def slotLine (slot : GateSlot) : Line := if slot.role = .line then slot.line else 0

/-- The second condition of a candidate: its lane (R50). -/
def candidateLane (s : State) (slot : GateSlot) (c : Context) : Bool :=
  match c.last with
  | none => true
  | some l =>
    l.lane == slot.lane ||
    ((l.lane + 1 == slot.lane || slot.lane + 1 == l.lane) && zoneOpen s (slotLine slot))

/-- The third condition of a candidate: the minimum sector time (R50). -/
def candidateTime (s : State) (slot : GateSlot) (t : Ticks) (c : Context) : Bool :=
  match c.last with
  | none => true
  | some l => decide (l.time + (lineRow s (slotLine slot)).minSector ≤ t)

/-- The candidates of an unreadable report, in ascending entry number (R50). -/
def candidates (s : State) (slot : GateSlot) (t : Ticks) : List Entry :=
  allEntries.filter fun e =>
    candidatePosition slot (ctx s e) && candidateLane s slot (ctx s e) && candidateTime s slot t (ctx s e)

/-- The pending pair an unreadable report is the partner of: one on its line-lane held from the other gate
(R49). -/
def partnerPair (s : State) (g : GateId) : Option PendingPair :=
  if (gate s g).role = .line then
    s.resolver.pairs.find? fun p => p.line == (gate s g).line && p.lane == (gate s g).lane && p.gate != g
  else none

/-- The code a gate reports when it could not read one. -/
def unreadable : Byte := 31

/-- The entry a report is attributed to with its inferred flag, or the reason it is strayed (R48 to R51). -/
def identify (s : State) (g : GateId) (code : Byte) (t : Ticks) : (Entry × Bool) ⊕ StrayReason :=
  if code = unreadable then
    match partnerPair s g with
    | some p => .inl (p.entry, true)
    | none =>
      match candidates s (gate s g) t with
      | [e] => .inl (e, true)
      | _ => .inr .unattributed
  else
    match entryWithCode s code with
    | some e => .inl (e, false)
    | none => .inr .unknownCar

/-! ### The path of one report (R45 to R51) -/

/-- The first check that a report's gate, lane and session fail, if any (R46). -/
def gateCheck (s : State) (g : GateId) : Option StrayReason :=
  let slot := gate s g
  if slot.role = .unused ∨ (slot.role = .line ∧ lines s ≤ slot.line.val) then some .gateUnused
  else if !(laneIn s.settings.timing.lanesEnabled slot.lane) then some .laneOff
  else if s.session.state = .idle ∨ s.session.state = .closed then some .notInHeat
  else none

/-- The XING frame exactly as received (R6, R9). -/
def xingFrame (gate code : Byte) (count : Count) : Frame := ⟨typeXing, gate :: code :: countBytes count⟩

/-- With MIRROR on, a raw copy of the report goes to the upward pass-through queue (R45). -/
def mirror (f : Frame) (s : State) : State := if s.settings.timing.mirror then offerUp f s else s

/-- The report of a gate once it is converted and identified (R47). -/
def reportOf (s : State) (g : GateId) (code : Byte) (t : Ticks) (low : Bool) (arrival : Ticks)
    (who : Entry × Bool) : Report where
  entry := who.1
  code := code
  time := t
  arrival := arrival
  gate := gateNumber g
  role := (gate s g).role
  line := (gate s g).line
  lane := (gate s g).lane
  lowConf := low
  inferred := who.2
  drill := false

/-- A report behind the mirror step: checks, conversion, identity, pair step (R46 to R53). -/
def resolveReport (g : GateId) (code : Byte) (count : Count) (arrival : Ticks) (s : State) : State :=
  match gateCheck s g with
  | some reason => stray (gateNumber g) arrival code reason s
  | none =>
    let w := convert s (gate s g) count arrival
    match identify s g code w.1 with
    | .inr reason => stray (gateNumber g) w.1 code reason s
    | .inl who => pairStep g (reportOf s g code w.1 w.2 arrival who) s

/-! ### The LFSR and the drill generator (R61 to R66) -/

/-- One step of the LFSR (R66). -/
def lfsrStep (v : BitVec 16) : BitVec 16 := if v.getLsbD 0 then (v >>> 1) ^^^ 0xB400 else v >>> 1

/-- A draw steps the LFSR and returns the new value (R66). -/
def draw (s : State) : State × Nat :=
  let v := lfsrStep s.resolver.lfsr
  ({ s with resolver := { s.resolver with lfsr := v } }, v.toNat)

/-- The schedule of a drill car is replaced. -/
def setDrill (e : Entry) (d : Option DrillSchedule) (s : State) : State :=
  { s with resolver := { s.resolver with drills := s.resolver.drills.set e d } }

/-- L_n of a drill car, with the LFSR drawn for a SCATTER lap (R63). -/
def drillLapTime (e : Entry) (n : Nat) (s : State) : State × Ticks :=
  let row := entryRow s e
  match row.drillMode with
  | .ramp => (s, row.drillLap + n * row.drillStep)
  | .scatter => ((draw s).1, row.drillLap + (draw s).2 % (row.drillStep + 1))
  | .fixed => (s, row.drillLap)
  | .off => (s, row.drillLap)

/-- A drill car gets its schedule at GREEN: the launch is due floor(L / LINES) ticks later (R62). -/
def startDrill (s : State) (e : Entry) : State :=
  if mapped s e && (entryRow s e).drillMode != .off then
    let p := drillLapTime e 0 s
    setDrill e (some ⟨0, p.2, true, 0, (entryRow s e).drillLap / lines s⟩) p.1
  else s

/-- The drill cars of a heat are set up at GREEN, in ascending entry number (R62). -/
def startDrills (s : State) : State := if s.resolver.drillOn then allEntries.foldl startDrill s else s

/-- The ticks from one crossing of a drill lap to its crossing of line j: q, and for line 0 the remainder
besides (R63). -/
def drillShare (lines : Nat) (lapTime : Ticks) (j : Line) : Ticks :=
  if j = 0 then lapTime / lines + (lapTime - lines * (lapTime / lines)) else lapTime / lines

/-- A lap's line-0 crossing is generated: n rises and the next lap begins (R63). -/
def endsLap (d : DrillSchedule) : Bool := d.nextLine == 0 && !d.launchDue

/-- The schedule moves on from a crossing just generated (R63, R64). -/
def advanceDrill (e : Entry) (d : DrillSchedule) (s : State) : State :=
  let p := if endsLap d then drillLapTime e (d.lap + 1) s else (s, d.lapTime)
  let line := nextLine (lines s) d.nextLine
  setDrill e (some ⟨if endsLap d then d.lap + 1 else d.lap, p.2, false, line, drillShare (lines s) p.2 line⟩) p.1

/-- The synthetic crossing of a drill car (R64). -/
def drillReport (s : State) (e : Entry) (d : DrillSchedule) : Report where
  entry := e
  code := (entryRow s e).code
  time := s.clock.now
  arrival := s.clock.now
  gate := 0
  role := .line
  line := d.nextLine
  lane := (entryRow s e).drillLane
  lowConf := false
  inferred := false
  drill := true

/-- A drill crossing falls due: the schedule of a FINISHED or RETIRED car ends (R65); otherwise it moves on,
and the crossing enters the resolver as a single report (R64, R53; log entry 26). -/
def drillDue (e : Entry) (d : DrillSchedule) (s : State) : State :=
  if (ctx s e).state = .finished ∨ (ctx s e).state = .retired then setDrill e none s
  else deliver (drillReport s e d) (advanceDrill e d s)

end Sys2Proof.Machine
end

