-- ==== Sys2Proof/Machine/Drive.lean ====
section
/-! DEFINITION. The throttle gate: editing drive frames, stationary time, fuel (file 09, R156, R158). -/

namespace Sys2Proof.Machine

/-- A throttle byte above 63 is read as 63 (R172). -/
def incomingThrottle (d : DriveEntry) : Nat := min 63 d.throttle.toNat

/-- The mapped row that holds a controller number (R173). -/
def entryWithController (s : State) (n : Nat) : Option Entry :=
  allEntries.find? fun e => (entryRow s e).controller == some n

/-- The limits that apply to a car (R174). -/
def ceilingSources (s : State) (e : Entry) : List Nat :=
  let t := s.settings.timing
  (if t.startHold && (s.session.state == .armed || s.session.state == .countdown) then [0] else []) ++
  (if s.session.state = .caution then [t.cautionCap] else []) ++
  (if s.session.state = .held then [0] else []) ++
  (if (ctx s e).state = .inPit then [t.pitCap] else []) ++
  (if s.pit.holds[e] then [0] else []) ++
  (if (ctx s e).fuelState = .out then [s.settings.fuel.limp] else []) ++
  (if e ∈ s.penalty.stopSet then [0] else [])

/-- The ceiling of a car: the smallest of 63 and every source that applies (R174). -/
def ceiling (s : State) (e : Entry) : Nat := (ceilingSources s e).foldl min 63

/-- The lane-change request as the gate reads it: 1, 2, or none (R175). -/
def readRequest (b : Byte) : Byte := if b = 1 ∨ b = 2 then b else 0

/-- A request of a car is stripped (R175). DESIGN CHOICE, log entry 34: the row of the expected line is read also
where LINES has been lowered to that line or below it between heats. -/
def stripsRequest (s : State) (e : Entry) : Bool :=
  (lineRow s (ctx s e).expected).mode == .veto ||
  (s.session.state == .caution && s.settings.timing.cautionClose) || s.throttle.zoneOverride

/-- The change request as it goes out (R175). -/
def outgoingRequest (s : State) (e : Entry) (b : Byte) : Byte :=
  if stripsRequest s e then 0 else readRequest b

/-- The jump watch (R179). -/
def jumpWatch (e : Entry) (throttle : Nat) (time : Ticks) (s : State) : State :=
  if s.session.state = .countdown ∧ s.session.countdown.map Countdown.phase = some .hold ∧
      (ctx s e).state = .grid ∧ s.settings.timing.jumpLevel ≤ throttle then
    jumpStart e time s
  else s

/-- The STOP_GO entry a car is serving: the head in service while the car is IN_PIT (R156). -/
def servingStop (c : Context) : Option Owed :=
  if c.state = .inPit then (headInService c).filter fun o => o.sanction == .stopGo else none

/-- Ticks joined to a transit's stationary ticks, which stop at 4,294,967,295 (R156). -/
def addStationary (n : Ticks) (c : Context) : Context :=
  { c with transit := c.transit.map fun t => { t with stationary := saturate Config.clockMax (t.stationary + n) } }

/-- The ticks one drive entry adds: from the mark, when the controller is released (R156). -/
def accrued (mark : Option Ticks) (throttle : Nat) (time : Ticks) : Ticks :=
  match mark with
  | some m => if throttle = 0 then time - m else 0
  | none => 0

/-- The accrual rule and the enforced hold for one drive entry of a car serving a stop-go (R156, R158). -/
def accrue (e : Entry) (o : Owed) (throttle : Nat) (time : Ticks) (s : State) : State :=
  if s.session.state = .held then setMark e none s
  else
    let s := setMark e (some time) (updCtx e (addStationary (accrued s.pit.marks[e] throttle time)) s)
    let begun := s.pit.holds[e] || (o.enforce && throttle == 0)
    let ended := decide (o.amount * Config.second ≤ stationaryOf (ctx s e))
    setHold e (begun && !ended) s

/-- Stationary time for one drive entry (R172 step 6). -/
def stationaryStep (e : Entry) (throttle : Nat) (time : Ticks) (s : State) : State :=
  match servingStop (ctx s e) with
  | none => s
  | some o => accrue e o throttle time s

/-- The sessions in which fuel burns and refills (R180). -/
def fuelSession : SessionState → Bool
  | .green | .caution | .chequered => true
  | _ => false

/-- The level of a car after one drive entry (R180). -/
def fuelAfter (f : FuelSettings) (c : Context) (weight incoming outgoing : Nat) : Nat :=
  match c.state with
  | .running => c.fuel - outgoing * weight
  | .offTrack => c.fuel - outgoing * weight
  | .inPit => if incoming = 0 then min f.cap (c.fuel + f.refuel) else c.fuel
  | _ => c.fuel

/-- The fuel state after a change of level, and the condition to report (R181). -/
def fuelStateAfter (warn level : Nat) (st : FuelState) : FuelState × Option FuelCondition :=
  match st with
  | .normal =>
    if level = 0 then (.out, some .out)
    else if warn ≠ 0 ∧ level < warn then (.low, some .low)
    else (.normal, none)
  | .low =>
    if level = 0 then (.out, some .out)
    else if warn < level then (.normal, some .recovered)
    else (.low, none)
  | .out =>
    if level = 0 then (.out, none)
    else if warn = 0 then (.normal, some .recovered)
    else if level ≤ warn then (.low, none)
    else (.normal, some .recovered)

/-- A FUEL record, which sets the FUEL group (R181). -/
def emitFuel (e : Entry) (time : Ticks) (cond : Option FuelCondition) (level : Nat) (s : State) : State :=
  match cond with
  | none => s
  | some k => setGroup .fuel (emit ⟨entryNumber e, time, .fuel k level⟩ s)

/-- Fuel for one drive entry (R180, R181). -/
def fuelStep (e : Entry) (incoming outgoing : Nat) (time : Ticks) (s : State) : State :=
  if s.settings.fuel.cap ≠ 0 && fuelSession s.session.state then
    let level := fuelAfter s.settings.fuel (ctx s e) (entryRow s e).weight incoming outgoing
    if level = (ctx s e).fuel then s
    else
      let r := fuelStateAfter s.settings.fuel.warn level (ctx s e).fuelState
      emitFuel e time r.2 level (updCtx e (fun c => { c with fuel := level, fuelState := r.1 }) s)
  else s

/-- A matched entry edited (R172 steps 3 to 7). -/
def editMatched (e : Entry) (d : DriveEntry) (time : Ticks) (s : State) : State × DriveEntry :=
  let incoming := incomingThrottle d
  let s := jumpWatch e incoming time s
  let outgoing := min incoming (ceiling s e)
  let out : DriveEntry := ⟨(entryRow s e).code, BitVec.ofNat 8 outgoing, outgoingRequest s e d.change⟩
  (fuelStep e incoming outgoing time (stationaryStep e incoming time s), out)

/-- An unmapped entry is removed in a heat with LOCKOUT on (R173). -/
def lockedOut (s : State) : Bool :=
  s.settings.timing.lockout && !(s.session.state == .idle || s.session.state == .closed)

/-- One entry of a DRIVE frame edited; none when it is removed (R172, R173). -/
def editEntry (time : Ticks) (d : DriveEntry) (s : State) : State × Option DriveEntry :=
  match entryWithController s d.first.toNat with
  | some e => let r := editMatched e d time s; (r.1, some r.2)
  | none =>
    if lockedOut s then (s, none)
    else (s, some { d with throttle := BitVec.ofNat 8 (incomingThrottle d) })

/-- The entries of a frame edited in order: the state after, and the entries that go out (R172). -/
def editEntries (time : Ticks) : List DriveEntry → State → State × List DriveEntry
  | [], s => (s, [])
  | d :: rest, s =>
    let r := editEntry time d s
    let q := editEntries time rest r.1
    (q.1, r.2.toList ++ q.2)

/-- A DRIVE frame is edited and the result offered to the drive queue; nothing is offered when every entry
was removed (R172). -/
def editFrame (es : List DriveEntry) (time : Ticks) (s : State) : State :=
  let r := editEntries time es s
  if r.2.isEmpty then r.1 else offerDrive r.2 r.1

end Sys2Proof.Machine
end

