-- ==== Sys2Proof/Machine/Management.lean ====
section
/-! DEFINITION. The management block: the request frame, tables and settings, reads, and the calls of the
director (file 10 and the request rules of the other files). -/

namespace Sys2Proof.Machine

/-- What a request leads to: the state after its effects, the result, the answer (R185, R186). -/
structure Answer where
  state : State
  result : Result
  body : List Byte
  deriving DecidableEq, Repr

/-- A refused request changes nothing and answers with an empty body (R185). -/
def refuse (r : Result) (s : State) : Answer := ⟨s, r, []⟩

/-- A request taken as sent. -/
def okay (body : List Byte) (s : State) : Answer := ⟨s, .ok, body⟩

/-- A request taken, ADJUSTED when a value was brought to a bound (R187). -/
def taken (adjusted : Bool) (body : List Byte) (s : State) : Answer :=
  ⟨s, if adjusted then .adjusted else .ok, body⟩

/-- A frame is received: the port's assembler returns to HUNT (R2). -/
def received (port : Port) (s : State) : State :=
  match port with
  | .station =>
    { s with link := { s.link with
        stationRx := { s.link.stationRx with asm := { s.link.stationRx.asm with state := .hunt } } } }
  | .track =>
    { s with link := { s.link with
        trackRx := { s.link.trackRx with asm := { s.link.trackRx.asm with state := .hunt } } } }

/-- A good MGMT frame reaches the part: with RSTN low the port takes no frame (R19); with 4 replies waiting
the request is not carried out and LINK is set (R14); otherwise it is carried out whole and its reply joins
the tail of the reply queue, with the summary as the request left it (R7, R185). -/
def request (tag : Byte) (f : State → Answer) (s : State) : State :=
  if s.rstnLow then s
  else
    let s := received .station s
    if s.link.replies.length < Config.replyCapacity then
      let a := f s
      pushReply ⟨tag, a.result, a.state.mgmt.summary, a.body⟩ a.state
    else setGroup .link s

/-- The length check of a request (R185, step 2). -/
def withLength (n : Nat) (args : List Byte) (f : State → Answer) (s : State) : Answer :=
  if args.length = n then f s else refuse .badValue s

/-- The session check of a request (R185, step 3). -/
def inStates (ok : SessionState → Bool) (f : State → Answer) (s : State) : Answer :=
  if ok s.session.state then f s else refuse .wrongState s

/-- IDLE and CLOSED, where tables are loaded (R187). -/
def betweenHeats : SessionState → Bool
  | .idle | .closed => true
  | _ => false

/-- IDLE, ARMED and CLOSED, where heat settings are loaded (R187). -/
def beforeStart : SessionState → Bool
  | .idle | .armed | .closed => true
  | _ => false

/-- ARMED to CHEQUERED: a heat is on (R94, R125, R165). -/
def inHeat : SessionState → Bool
  | .idle | .closed => false
  | _ => true

/-- GREEN, CAUTION, HELD and CHEQUERED, where ISSUE is taken (R149). -/
def racing : SessionState → Bool
  | .green | .caution | .held | .chequered => true
  | _ => false

/-! ### SET_TIMING (R188) -/

/-- The numeric settings of SET_TIMING as sent, with their ranges, in argument order. -/
def timingNumbers (args : List Byte) : List (Nat × Nat × Nat) :=
  [(25000, 400000, arg32 args 0), (1, 255, arg32 args 4), (100, 20000, arg32 args 8),
   (1000, 500000, arg32 args 12), (10, 2000, arg32 args 16), (0, 4, arg8 args 20), (1, 5, arg8 args 21),
   (1, 63, arg8 args 24), (0, 63, arg8 args 25), (0, 63, arg8 args 27)]

/-- A number of a list of ranges lies outside its range, so that it is brought to a bound (R187). -/
def anyClamped (l : List (Nat × Nat × Nat)) : Bool := l.any fun p => clamp p.1 p.2.1 p.2.2 != p.2.2

/-- A LANES_ENABLED byte is a non-empty set of lanes 1 to 6 (R188). -/
def lanesByte (b : Byte) : Bool := b != 0 && b.toNat < 64

/-- The fifteen settings of SET_TIMING brought into range; none when an on/off byte or the lane set is bad
(R188, steps 1 and 2). -/
def timingOf (args : List Byte) : Option TimingSettings :=
  match argBool args 22, argBool args 23, argBool args 26, argBool args 29 with
  | some mirror, some startHold, some cautionClose, some lockout =>
    if lanesByte (args.getD 28 0) then
      some {
        beaconIvl := clamp 25000 400000 (arg32 args 0)
        trimLimit := clamp 1 255 (arg32 args 4)
        lagMax := clamp 100 20000 (arg32 args 8)
        lineHoldoff := clamp 1000 500000 (arg32 args 12)
        pairWindow := clamp 10 2000 (arg32 args 16)
        missTol := clamp 0 4 (arg8 args 20)
        lines := clamp 1 5 (arg8 args 21)
        mirror := mirror
        startHold := startHold
        jumpLevel := clamp 1 63 (arg8 args 24)
        cautionCap := clamp 0 63 (arg8 args 25)
        cautionClose := cautionClose
        pitCap := clamp 0 63 (arg8 args 27)
        lanesEnabled := args.getD 28 0
        lockout := lockout }
    else none
  | _, _, _, _ => none

/-- The fifteen settings as the reply gives them (R188). -/
def timingBytes (t : TimingSettings) : List Byte :=
  u32 t.beaconIvl ++ u32 t.trimLimit ++ u32 t.lagMax ++ u32 t.lineHoldoff ++ u32 t.pairWindow ++
  u8 t.missTol ++ u8 t.lines ++ yesNo t.mirror ++ yesNo t.startHold ++ u8 t.jumpLevel ++ u8 t.cautionCap ++
  yesNo t.cautionClose ++ u8 t.pitCap ++ [t.lanesEnabled] ++ yesNo t.lockout

/-- SET_TIMING (R188). -/
def setTiming (args : List Byte) : State → Answer :=
  withLength 30 args fun s =>
    match timingOf args with
    | none => refuse .badValue s
    | some t =>
      if !(betweenHeats s.session.state) && t.lines != lines s then refuse .wrongState s
      else
        taken (anyClamped (timingNumbers args)) (timingBytes t)
          { s with settings := { s.settings with timing := t } }

/-! ### SET_HEAT, SET_FUEL, SET_SEED, SET_ATTN_MASK (R130, R182, R131, R191) -/

/-- The numeric settings of SET_HEAT as sent, with their ranges. -/
def heatNumbers (args : List Byte) : List (Nat × Nat × Nat) :=
  [(1, 9999, arg16 args 1), (1, 36000, arg16 args 3), (1, 5, arg8 args 5), (50000, 200000, arg32 args 6),
   (0, 300000, arg32 args 10), (1, 600, arg16 args 14)]

/-- The eight heat settings brought into range; none when a code is bad (R130). -/
def heatOf (args : List Byte) : Option HeatSettings :=
  match raceKindOf (arg8 args 0), marshalActionOf (arg8 args 16) with
  | some kind, some action =>
    some {
      raceKind := kind
      raceLaps := clamp 1 9999 (arg16 args 1)
      heatLen := clamp 1 36000 (arg16 args 3)
      countSteps := clamp 1 5 (arg8 args 5)
      stepIvl := clamp 50000 200000 (arg32 args 6)
      randomMax := clamp 0 300000 (arg32 args 10)
      finishGrace := clamp 1 600 (arg16 args 14)
      marshalAction := action }
  | _, _ => none

/-- The eight heat settings as the reply gives them (R130). -/
def heatBytes (h : HeatSettings) : List Byte :=
  [h.raceKind.code] ++ u16 h.raceLaps ++ u16 h.heatLen ++ u8 h.countSteps ++ u32 h.stepIvl ++ u32 h.randomMax ++
  u16 h.finishGrace ++ [h.marshalAction.code]

/-- SET_HEAT; in ARMED it sets the heat clock again (R130). -/
def setHeat (args : List Byte) : State → Answer :=
  withLength 17 args <| inStates beforeStart fun s =>
    match heatOf args with
    | none => refuse .badValue s
    | some h =>
      let t := { s with settings := { s.settings with heat := h } }
      taken (anyClamped (heatNumbers args)) (heatBytes h)
        (if s.session.state = .armed then { t with session := { t.session with heatClock := fullHeatClock h } } else t)

/-- The fuel settings brought into range, FUEL_CAP first (R182). -/
def fuelOf (args : List Byte) : FuelSettings :=
  let cap := clamp 0 60000 (arg16 args 0)
  { cap := cap, warn := clamp 0 cap (arg16 args 2), limp := clamp 0 63 (arg8 args 4),
    refuel := clamp 1 1000 (arg16 args 5) }

/-- The numeric settings of SET_FUEL as sent, with their ranges (R182). -/
def fuelNumbers (args : List Byte) : List (Nat × Nat × Nat) :=
  [(0, 60000, arg16 args 0), (0, clamp 0 60000 (arg16 args 0), arg16 args 2), (0, 63, arg8 args 4),
   (1, 1000, arg16 args 5)]

/-- The four fuel settings as the reply gives them (R182). -/
def fuelBytes (f : FuelSettings) : List Byte := u16 f.cap ++ u16 f.warn ++ u8 f.limp ++ u16 f.refuel

/-- A context when FUEL_CAP is loaded: in ARMED a full tank and NORMAL, otherwise brought down to the cap
(R182). -/
def refit (armed : Bool) (cap : Nat) (c : Context) : Context :=
  if armed then (if c.state = .unused then c else { c with fuel := cap, fuelState := .normal })
  else { c with fuel := min cap c.fuel }

/-- SET_FUEL (R182). -/
def setFuel (args : List Byte) : State → Answer :=
  withLength 7 args <| inStates beforeStart fun s =>
    let f := fuelOf args
    taken (anyClamped (fuelNumbers args)) (fuelBytes f)
      (updAllCtx (refit (s.session.state == .armed) f.cap) { s with settings := { s.settings with fuel := f } })

/-- SET_SEED (R131). -/
def setSeed (args : List Byte) : State → Answer :=
  withLength 2 args <| inStates beforeStart fun s =>
    if arg16 args 0 = 0 then refuse .badValue s
    else okay [] { s with resolver := { s.resolver with lfsr := BitVec.ofNat 16 (arg16 args 0) } }

/-- SET_ATTN_MASK (R191). -/
def setAttnMask (args : List Byte) : State → Answer :=
  withLength 1 args fun s =>
    okay [args.getD 0 0] { s with mgmt := { s.mgmt with mask := args.getD 0 0 } }

/-! ### The gate table (R25 to R27) -/

/-- The contents a write stores: a pit role drops line and pair position, UNUSED drops everything; the slot
becomes UNALIGNED with its counts 0 (R25). -/
def slotFor (role : GateRole) (line : Line) (lane : Nat) (pos : PairPosition) (hop : Nat) : GateSlot :=
  match role with
  | .line => ⟨.line, line, lane, pos, hop, .unaligned, 0, 0⟩
  | .pitEntry => ⟨.pitEntry, 0, lane, .primary, hop, .unaligned, 0, 0⟩
  | .pitExit => ⟨.pitExit, 0, lane, .primary, hop, .unaligned, 0, 0⟩
  | .unused => defaultSlot

/-- Two slots collide: the same LINE place, or the same pit role (R26). -/
def slotsCollide (a b : GateSlot) : Bool :=
  match a.role, b.role with
  | .line, .line => a.line == b.line && a.lane == b.lane && a.position == b.position
  | .pitEntry, .pitEntry => true
  | .pitExit, .pitExit => true
  | _, _ => false

/-- How many line-lanes are paired (R26). -/
def pairedCount (s : State) : Nat :=
  (([0, 1, 2, 3, 4] : List Line).flatMap fun line => allLanes.filter fun lane => isPaired s line lane).length

/-- A write of a slot breaks a constraint of the gate table (R26). -/
def gateConflict (s : State) (g : GateId) (slot : GateSlot) : Bool :=
  (allGates.any fun h => h != g && slotsCollide slot (gate s h)) ||
  decide (Config.pairedLimit < pairedCount (setGate g slot s))

/-- WRITE_GATE (R25). -/
def writeGate (args : List Byte) : State → Answer :=
  withLength 6 args <| inStates betweenHeats fun s =>
    match gateOf (arg8 args 0) with
    | none => refuse .badIndex s
    | some g =>
      match roleOf (arg8 args 1), positionOf (arg8 args 4) with
      | some role, some pos =>
        match lineOf (arg8 args 2) with
        | none => refuse .badValue s
        | some line =>
          if arg8 args 3 < 1 ∨ 6 < arg8 args 3 then refuse .badValue s
          else if (role = .pitEntry ∨ role = .pitExit) ∧ pos = .secondary then refuse .badValue s
          else
            let slot := slotFor role line (arg8 args 3) pos (arg8 args 5)
            if gateConflict s g slot then refuse .conflict s else okay [] (setGate g slot s)
      | _, _ => refuse .badValue s

/-- A gate's reference as READ_GATE gives it (R27). -/
def referenceBytes (r : Option Reference) : List Byte :=
  optField u32 (r.map Reference.time) ++ optField countBytes (r.map Reference.count) ++
  optField u32 (r.map Reference.aligned)

/-- The reference an alignment state holds. -/
def referenceOf : Alignment → Option Reference
  | .unaligned => none
  | .aligned r => some r
  | .stale r => some r

/-- A slot as READ_GATE gives it (R27). -/
def slotBytes (g : GateSlot) : List Byte :=
  [g.role.code] ++ u8 g.line.val ++ u8 g.lane ++ [g.position.code] ++ u8 g.hop ++ [g.alignment.code] ++
  referenceBytes (referenceOf g.alignment) ++ u8 g.strikes ++ u8 g.unpaired

/-- READ_GATE (R27). -/
def readGate (args : List Byte) : State → Answer :=
  withLength 1 args fun s =>
    match gateOf (arg8 args 0) with
    | none => refuse .badIndex s
    | some g => okay (slotBytes (gate s g)) s

/-! ### The line table (R177, R178) -/

/-- An overdue limit brought into range: 0 is kept (R177). -/
def clampOverdue (n : Nat) : Nat := if n = 0 then 0 else clamp 100000 6000000 n

/-- A row as WRITE_LINE and READ_LINE give it (R177, R178; log entry 29). -/
def lineBytes (r : LineRow) : List Byte := u32 r.overdue ++ [r.mode.code] ++ u32 r.minSector

/-- WRITE_LINE clears the zone override flag (R176, R177). -/
def writeLine (args : List Byte) : State → Answer :=
  withLength 10 args <| inStates betweenHeats fun s =>
    match lineOf (arg8 args 0) with
    | none => refuse .badIndex s
    | some j =>
      match zoneModeOf (arg8 args 5) with
      | none => refuse .badValue s
      | some mode =>
        let row : LineRow := ⟨clampOverdue (arg32 args 1), mode, clamp 0 6000000 (arg32 args 6)⟩
        taken (row.overdue != arg32 args 1 || row.minSector != arg32 args 6) (lineBytes row)
          { s with throttle := { s.throttle with lines := s.throttle.lines.set j row, zoneOverride := false } }

/-- READ_LINE gives the row and, behind it, the zone override flag (R178). -/
def readLine (args : List Byte) : State → Answer :=
  withLength 1 args fun s =>
    match lineOf (arg8 args 0) with
    | none => refuse .badIndex s
    | some j => okay (lineBytes (lineRow s j) ++ yesNo s.throttle.zoneOverride) s

/-! ### The entry table (R170, R171) -/

/-- A controller number or none (R170). -/
def controllerOf (n : Nat) : Option Nat := if n = 0 then none else some n

/-- The row as WRITE_ENTRY and READ_ENTRY give it (R171). -/
def entryBytes (r : EntryRow) : List Byte :=
  u8 (r.controller.getD 0) ++ [r.code] ++ u8 r.weight ++ [r.drillMode.code] ++ u32 r.drillLap ++ u32 r.drillStep ++
  u8 r.drillLane

/-- A mapped write collides with another mapped row (R170). -/
def entryConflict (s : State) (e : Entry) (row : EntryRow) : Bool :=
  row.controller.isSome &&
  allEntries.any fun f =>
    f != e && mapped s f && ((entryRow s f).controller == row.controller || (entryRow s f).code == row.code)

/-- WRITE_ENTRY (R170). -/
def writeEntry (args : List Byte) : State → Answer :=
  withLength 14 args <| inStates betweenHeats fun s =>
    match entryOf (arg8 args 0) with
    | none => refuse .badIndex s
    | some e =>
      match drillModeOf (arg8 args 4) with
      | none => refuse .badValue s
      | some mode =>
        if 16 < arg8 args 1 ∨ 15 < arg8 args 2 then refuse .badValue s
        else if arg8 args 13 < 1 ∨ 6 < arg8 args 13 then refuse .badValue s
        else
          let row : EntryRow :=
            ⟨controllerOf (arg8 args 1), args.getD 2 0, clamp 0 15 (arg8 args 3), mode,
             clamp 100000 6000000 (arg32 args 5), clamp 0 500000 (arg32 args 9), arg8 args 13⟩
          if entryConflict s e row then refuse .conflict s
          else
            taken (row.weight != arg8 args 3 || row.drillLap != arg32 args 5 || row.drillStep != arg32 args 9)
              (entryBytes row) { s with throttle := { s.throttle with entries := s.throttle.entries.set e row } }

/-- READ_ENTRY (R171). -/
def readEntry (args : List Byte) : State → Answer :=
  withLength 1 args fun s =>
    match entryOf (arg8 args 0) with
    | none => refuse .badIndex s
    | some e => okay (entryBytes (entryRow s e)) s

/-! ### The penalty rule table (R138, R139) -/

/-- The range of a sanction's amount, where it takes one (R136). -/
def amountRange : Sanction → Option (Nat × Nat)
  | .timeAdd => some (1, 255)
  | .lapDeduct => some (1, 15)
  | .stopGo => some (1, 60)
  | _ => none

/-- The amount stored for a sanction: brought into its range, or 0 where it takes none (R138). -/
def storedAmount (k : Sanction) (n : Nat) : Nat :=
  match amountRange k with
  | some r => clamp r.1 r.2 n
  | none => 0

/-- The ruling that five argument bytes name, brought into range (R138, R149). -/
def rulingFrom (k : Sanction) (amount window fallback : Nat) (enforce : Bool) : Ruling :=
  ⟨k, storedAmount k amount, clamp 1 15 window, clamp 1 255 fallback, enforce⟩

/-- Any of amount, window and fallback was brought to a bound (R138, R149). -/
def rulingAdjusted (k : Sanction) (amount window fallback : Nat) : Bool :=
  ((amountRange k).isSome && storedAmount k amount != amount) || clamp 1 15 window != window ||
  clamp 1 255 fallback != fallback

/-- A row as WRITE_RULE and READ_RULE give it (R139). -/
def ruleBytes (r : Rule) : List Byte :=
  allowanceByte r.allowance ++ [r.sanction.code] ++ u8 r.amount ++ u8 r.window ++ u8 r.fallback ++ yesNo r.enforce ++
  yesNo r.attention

/-- WRITE_RULE (R138). -/
def writeRule (args : List Byte) : State → Answer :=
  withLength 8 args fun s =>
    match kindOf (arg8 args 0) with
    | none => refuse .badIndex s
    | some kind =>
      match allowanceOf (arg8 args 1), sanctionOf (arg8 args 2), argBool args 6, argBool args 7 with
      | some allowance, some k, some enforce, some attention =>
        if kind = .unserved ∧ (k = .driveThrough ∨ k = .stopGo) then refuse .badValue s
        else
          let r := rulingFrom k (arg8 args 3) (arg8 args 4) (arg8 args 5) enforce
          let row : Rule := ⟨allowance, k, r.amount, r.window, r.fallback, enforce, attention⟩
          taken (rulingAdjusted k (arg8 args 3) (arg8 args 4) (arg8 args 5)) (ruleBytes row)
            { s with penalty := { s.penalty with rules := s.penalty.rules.set (kindIndex kind) row } }
      | _, _, _, _ => refuse .badValue s

/-- READ_RULE (R139). -/
def readRule (args : List Byte) : State → Answer :=
  withLength 1 args fun s =>
    match kindOf (arg8 args 0) with
    | none => refuse .badIndex s
    | some kind => okay (ruleBytes (ruleOf s kind)) s

/-! ### READ_CAR, READ_OWED, READ_ORDER, STATUS (R93, R166, R106, R194) -/

/-- The ticks an overdue deadline still has (R93). -/
def deadlineLeft (now : Ticks) : Deadline → Ticks
  | .due t => t - now
  | .suspended r => r

/-- The timing part of a context (R93). -/
def timingPart (now : Ticks) (c : Context) : List Byte :=
  [c.state.code] ++ u16 c.laps ++ u8 c.expected.val ++ listField (fun j : Line => u8 j.val) c.crossed ++ u8 c.missed ++
  yesNo c.marks.neutral ++ yesNo c.marks.lowConf ++ yesNo c.marks.inferred ++ yesNo c.marks.drill ++
  optField u32 (c.last.map LastCrossing.time) ++ u8 ((c.last.map fun l => l.line.val).getD 0) ++
  u8 ((c.last.map LastCrossing.lane).getD 0) ++ u8 ((c.last.map LastCrossing.gate).getD 0) ++
  optField u32 c.lapStart ++ optField u32 c.lastLap ++ optField u32 c.bestLap ++ u16 c.progress ++
  optField u32 c.progressTime ++ optField u32 (c.deadline.map (deadlineLeft now))

/-- The standing part of a context (R93). DESIGN CHOICE, log entry 33: the caution charged set is listed in the order
in which its entries were charged. -/
def standingPart (c : Context) : List Byte :=
  [c.state.code] ++ yesNo c.disqualified ++ yesNo c.jumpFlagged ++ (c.counts.toList.map u8).flatten ++
  u16 c.penaltySeconds ++ u8 c.deductions ++ u16 c.fuel ++ [c.fuelState.code] ++
  optField u32 (c.transit.map Transit.entered) ++ optField u32 (c.transit.map Transit.stationary) ++
  u8 c.owed.length ++ listField (fun e => u8 (entryNumber e)) c.charged ++ optField u32 c.finishTime

/-- READ_CAR (R93). -/
def readCar (args : List Byte) : State → Answer :=
  withLength 2 args fun s =>
    match entryOf (arg8 args 0) with
    | none => refuse .badIndex s
    | some e =>
      if arg8 args 1 = 0 then okay (timingPart s.clock.now (ctx s e)) s
      else if arg8 args 1 = 1 then okay (standingPart (ctx s e)) s
      else refuse .badValue s

/-- An owed entry as READ_OWED gives it (R166). -/
def owedBytes (o : Owed) : List Byte :=
  [o.kind.code, o.sanction.code] ++ u8 o.amount ++ u16 o.issueLap ++ u16 o.deadlineLap ++ u8 o.fallback ++
  yesNo o.enforce ++ yesNo o.inService

/-- The stationary ticks while a STOP_GO head is in service (R166). -/
def servedTicks (c : Context) : Option Ticks :=
  match headInService c with
  | some o => if o.sanction = .stopGo then some (stationaryOf c) else none
  | none => none

/-- READ_OWED (R166). -/
def readOwed (args : List Byte) : State → Answer :=
  withLength 1 args fun s =>
    match entryOf (arg8 args 0) with
    | none => refuse .badIndex s
    | some e =>
      okay (listField owedBytes (ctx s e).owed ++ optField u32 (servedTicks (ctx s e)) ++ yesNo s.pit.holds[e]) s

/-- READ_ORDER (R106). -/
def readOrder (args : List Byte) : State → Answer :=
  withLength 1 args fun s =>
    let entries := listField (fun e => u8 (entryNumber e))
    if arg8 args 0 = 0 then
      okay (listField (fun e => u8 (entryNumber e) ++ u16 (ctx s e).progress) s.order.list) s
    else if arg8 args 0 = 1 then okay (optField entries s.order.snapshot) s
    else if arg8 args 0 = 2 then okay (entries (classification s)) s
    else refuse .badValue s

/-- The answer of STATUS (R194). -/
def statusBytes (s : State) : List Byte :=
  [s.session.state.code] ++ optField (fun st : SessionState => [st.code]) s.session.heldFrom ++
  yesNo s.session.aborted ++ u32 s.session.heatClock ++ u32 s.clock.now ++ [BitVec.ofInt 8 s.clock.balance] ++
  u8 s.link.stationBad ++ u8 s.link.trackBad ++ u8 s.link.records.length ++ yesNo s.mgmt.beatFlag

/-- STATUS clears the beat flag and the beat inhibit behind its answer (R194). -/
def status (args : List Byte) : State → Answer :=
  withLength 0 args fun s =>
    okay (statusBytes s) { s with mgmt := { s.mgmt with beatFlag := false, beatInhibit := false } }

/-! ### CLEAR_EVENTS, CLEAR_BEST, DRILL (R190, R83, R61) -/

/-- CLEAR_EVENTS; clearing LINK returns both bad-frame counts to 0 (R190, R4). -/
def clearEvents (args : List Byte) : State → Answer :=
  withLength 1 args fun s =>
    let b := args.getD 0 0
    let t := { s with mgmt := { s.mgmt with summary := s.mgmt.summary &&& ~~~b } }
    okay [s.mgmt.summary]
      (if b &&& groupBit .link = 0 then t else { t with link := { t.link with stationBad := 0, trackBad := 0 } })

/-- CLEAR_BEST (R83). -/
def clearBest (args : List Byte) : State → Answer :=
  withLength 0 args fun s => okay [] (updAllCtx (fun c => { c with bestLap := none }) s)

/-- DRILL ON in ARMED, DRILL OFF in a heat; any other value is refused in every state (R61, R185). -/
def drill (args : List Byte) : State → Answer :=
  withLength 1 args fun s =>
    if arg8 args 0 = 1 then
      if s.session.state = .armed then okay [] { s with resolver := { s.resolver with drillOn := true } }
      else refuse .wrongState s
    else if arg8 args 0 = 0 then
      if inHeat s.session.state then
        okay [] { s with resolver := { s.resolver with drillOn := false, drills := Vector.replicate 16 none } }
      else refuse .wrongState s
    else refuse .badValue s

/-! ### The calls of the director: ISSUE, WAIVE, RETIRE (R149, R150, R165, R94) -/

/-- The body of an ISSUE's reply (R150). -/
def callBytes (i : CallInfo) : List Byte := [i.cls.code] ++ u8 i.number ++ yesNo i.converted

/-- A counted ISSUE that is taken (R150, R135). -/
def issueCounted (e : Entry) (kind : IncidentKind) (s : State) : Answer :=
  let s := if kind = .jumpStart then updCtx e (fun c => { c with jumpFlagged := true }) s else s
  let r := incidentCall e kind s.clock.now s
  okay ((r.2.map callBytes).getD []) r.1

/-- A direct ISSUE that is taken (R150). -/
def issueDirect (e : Entry) (kind : IncidentKind) (k : Sanction) (enforce : Bool) (args : List Byte) (s : State) :
    Answer :=
  let r := rulingFrom k (arg8 args 4) (arg8 args 5) (arg8 args 6) enforce
  let p := penalise e kind s.clock.now 0 r s
  taken (rulingAdjusted k (arg8 args 4) (arg8 args 5) (arg8 args 6)) (callBytes p.2) p.1

/-- A car that has left the running: FINISHED or RETIRED. -/
def leftRunning (st : CarState) : Bool := st == .finished || st == .retired

/-- ISSUE, checked in the order of R149. -/
def issue (args : List Byte) (s : State) : Answer :=
  if args.length < 3 then refuse .badValue s
  else
    inStates racing (fun s =>
      match entryOf (arg8 args 0) with
      | none => refuse .badIndex s
      | some e =>
        if (ctx s e).state = .unused then refuse .badIndex s
        else
          match kindOf (arg8 args 1) with
          | none => refuse .badValue s
          | some kind =>
            if arg8 args 2 = 0 then
              if args.length ≠ 3 then refuse .badValue s
              else if (ctx s e).disqualified then refuse .wrongState s
              else if leftRunning (ctx s e).state then refuse .wrongState s
              else issueCounted e kind s
            else if arg8 args 2 = 1 then
              if args.length ≠ 8 then refuse .badValue s
              else
                match sanctionOf (arg8 args 3), argBool args 7 with
                | some k, some enforce =>
                  if (ctx s e).disqualified then refuse .wrongState s
                  else if leftRunning (ctx s e).state ∧ (k = .driveThrough ∨ k = .stopGo) then refuse .wrongState s
                  else issueDirect e kind k enforce args s
                | _, _ => refuse .badValue s
            else refuse .badValue s) s

/-- The stationary time a SERVE WAIVED carries: the ticks collected, for an in-service STOP_GO (R165). -/
def waivedTicks (o : Owed) (c : Context) : Option Ticks :=
  if o.inService && o.sanction == .stopGo then some (stationaryOf c) else none

/-- One owed entry is removed; if it was in service the service ends and its ticks are discarded (R165; log
entry 18). -/
def waiveEntry (e : Entry) (i : Nat) (o : Owed) (s : State) : State :=
  let ticks := waivedTicks o (ctx s e)
  let t := updCtx e (fun c => { c with owed := c.owed.eraseIdx i }) s
  let t :=
    if o.inService then
      setHold e false <| setMark e none <|
        updCtx e (fun c => { c with transit := c.transit.map fun t => { t with stationary := 0, service := false } }) t
    else t
  emitServe e s.clock.now .waived o.sanction ticks t

/-- WAIVE (R165). -/
def waive (args : List Byte) : State → Answer :=
  withLength 2 args <| inStates inHeat fun s =>
    match entryOf (arg8 args 0) with
    | none => refuse .badIndex s
    | some e =>
      if (ctx s e).state = .unused then refuse .badIndex s
      else
        match (ctx s e).owed[arg8 args 1]? with
        | none => refuse .badIndex s
        | some o =>
          let t := waiveEntry e (arg8 args 1) o s
          okay (u8 (ctx t e).owed.length) t

/-- A car retires: its deadline goes, an IN_PIT car's transit is discarded unjudged, the order unit moves it
and the session controller is told (R94, R98, R164). -/
def retireCar (e : Entry) (s : State) : State :=
  let inPit : Bool := (ctx s e).state == .inPit
  let s := updCtx e (fun c => { c with state := .retired, deadline := none }) s
  let s := if inPit then dropTransit e (endService e s) else s
  closeTest (place e s)

/-- RETIRE (R94). -/
def retire (args : List Byte) : State → Answer :=
  withLength 1 args <| inStates inHeat fun s =>
    match entryOf (arg8 args 0) with
    | none => refuse .badIndex s
    | some e =>
      if (ctx s e).state = .unused then refuse .badIndex s
      else if (ctx s e).state = .finished then refuse .wrongState s
      else if (ctx s e).state = .retired then okay [] s
      else okay [] (retireCar e s)

/-! ### The session requests (R112 to R118, R125, R126) -/

/-- Every enabled slot of work that ARM does (R112, R22, R68, R96, R58, R61, R65, R145, R153). -/
def armHeat (s : State) : State :=
  let mappedNow := allEntries.filter fun e => mapped s e
  let cap := s.settings.fuel.cap
  let s := updAllGates armSlot s
  let s := clearResolver s
  announce .request
    { s with
      clock := { s.clock with now := 0, round := none, balance := 0 }
      contexts := Vector.ofFn fun e : Fin 16 => if mapped s e then freshContext .grid cap else unusedContext
      order := ⟨mappedNow, none⟩
      penalty := { s.penalty with stopSet := [] }
      pit := Pit.reset
      session := {
        state := .armed, heldFrom := none, aborted := false, countdown := none, greenTime := none
        heatClock := fullHeatClock s.settings.heat, grace := none, periods := [], heatLines := lines s } }

/-- ARM (R112). -/
def arm (args : List Byte) : State → Answer :=
  withLength 0 args <| inStates betweenHeats fun s =>
    if !(allEntries.any fun e => mapped s e) then refuse .noEntries s
    else if !(lanesGated s) then refuse .wrongState s
    else okay [] (armHeat s)

/-- The hold length drawn at START (R113). -/
def holdLength (r randomMax : Nat) : Ticks := r * randomMax / 65536

/-- START (R113). -/
def start (args : List Byte) : State → Answer :=
  withLength 0 args <| inStates (· == .armed) fun s =>
    if !(gatesAligned s) then refuse .notAligned s
    else
      let d := draw s
      let h := s.settings.heat
      okay [] <| announce .request
        { d.1 with session := { s.session with
            state := .countdown
            countdown := some ⟨.steps, h.countSteps, holdLength d.2 h.randomMax, h.stepIvl⟩ } }

/-- CAUTION (R116). -/
def caution (args : List Byte) : State → Answer :=
  withLength 0 args <| inStates (· == .green) fun s => okay [] (toCaution .request s)

/-- GREEN (R116). -/
def green (args : List Byte) : State → Answer :=
  withLength 0 args <| inStates (· == .caution) fun s => okay [] (toGreen .request s)

/-- The states a HOLD is taken in (R117). -/
def holdable : SessionState → Bool
  | .green | .caution | .chequered => true
  | _ => false

/-- HOLD (R117). -/
def hold (args : List Byte) : State → Answer :=
  withLength 0 args <| inStates holdable fun s => okay [] (toHeld .request s)

/-- RESUME (R118). -/
def resume (args : List Byte) : State → Answer :=
  withLength 0 args <| inStates (· == .held) fun s =>
    match s.session.heldFrom with
    | none => refuse .wrongState s
    | some st => if gatesAligned s then okay [] (resumeTo st s) else refuse .notAligned s

/-- ABORT (R125). -/
def abort (args : List Byte) : State → Answer :=
  withLength 0 args <| inStates inHeat fun s => okay [] (closeHeat .abortRequest true s)

/-- DISMISS (R126). -/
def dismiss (args : List Byte) : State → Answer :=
  withLength 0 args <| inStates (· == .closed) fun s =>
    okay [] (announce .request { s with session := { s.session with state := .idle, aborted := false } })

/-! ### RESTART (R196, R197) -/

/-- RESTART RACE abandons the heat and keeps the club's setup (R196, R20, R67, R69, R110, R133, R151, R168). -/
def restartRace (s : State) : State :=
  showLamp
    { s with
      link := { s.link with records := [] }
      resolver := { s.resolver with pairs := [], drillOn := false, drills := Vector.replicate 16 none }
      contexts := Vector.replicate 16 unusedContext
      order := Order.reset
      session := { Session.reset with heatLines := s.session.heatLines }
      penalty := { s.penalty with stopSet := [] }
      pit := Pit.reset }

/-- RESTART ALL puts every block into its power-on state; the assemblers and the transmitters carry on (R197,
R20). -/
def restartAll (s : State) : State :=
  showLamp
    { State.reset with
      link := { Link.reset with
        stationRx := s.link.stationRx, trackRx := s.link.trackRx
        stationTx := s.link.stationTx, trackTx := s.link.trackTx }
      rstnLow := s.rstnLow
      choices := s.choices
      pending := s.pending }

/-- RESTART: 0 for RACE, 1 for ALL (R196). -/
def restart (args : List Byte) : State → Answer :=
  withLength 1 args fun s =>
    if arg8 args 0 = 0 then okay [] (restartRace s)
    else if arg8 args 0 = 1 then okay [] (restartAll s)
    else refuse .badValue s

/-- A request code that is not in the index (R185, R186). -/
def unknown (s : State) : Answer := refuse .unknown s

end Sys2Proof.Machine
end

