-- ==== Sys2Proof/Machine/Resets.lean ====
section
/-! DEFINITION. Power-on reset and the two moments of a line reset (R19, R20, R43, R67, R132, R176, R195). -/

namespace Sys2Proof.Machine

/-- A transmission cut short at the end of the byte then being sent (R19). -/
def cut (port : Port) (t : Option Transmission) : Option Transmission :=
  t.bind fun x => if x.remaining % byteTicks port = 0 then none else some { x with remaining := x.remaining % byteTicks port }

/-- A receiver forced to HUNT (R19). -/
def toHunt (r : Receiver) : Receiver := { r with asm := { r.asm with state := .hunt } }

/-- The link unit at the fall of RSTN (R19). -/
def Link.fall (l : Link) : Link :=
  { l with
    stationRx := toHunt l.stationRx, trackRx := toHunt l.trackRx
    up := [], down := [], drive := [], lamp := none, replies := [], records := []
    stationTx := cut .station l.stationTx, trackTx := cut .track l.trackTx }

/-- GREEN, CAUTION or CHEQUERED: a heat that a line reset interrupts (R132). -/
def interruptible : SessionState → Bool
  | .green | .caution | .chequered => true
  | _ => false

/-- The work of a fall: the links fall silent (R19), the overdue deadlines stand still (R87), a running heat
opens a neutral period (R119, R132), the stationary marks go (R157) and the zone override is set (R176). -/
def fall (s : State) : State :=
  let s := { s with link := s.link.fall, rstnLow := true }
  let s := suspendDeadlines s
  let s := if interruptible s.session.state then openPeriod s else s
  let s := clearMarks s
  { s with throttle := { s.throttle with zoneOverride := true } }

/-- The session controller's move at a release: a running heat goes to HELD without opening a period, a
countdown to ARMED, any other state stays (R132). -/
def releaseMove (s : State) : State :=
  if interruptible s.session.state then enterHeld s
  else if s.session.state = .countdown then
    { s with session := { s.session with state := .armed, countdown := none } }
  else s

/-- The session moves at a release (R132). -/
def movesAtRelease (st : SessionState) : Bool := interruptible st || st == .countdown

/-- The clock and alignment unit and the resolver at a release (R43, R58, R67). -/
def releaseGates (s : State) : State :=
  let s := updAllGates unalignSlot s
  { s with
    clock := { s.clock with round := none, balance := 0 }
    resolver := { s.resolver with pairs := [] } }

/-- The work of a release (R19, R43, R58, R132; log entry 7): the transmitters are idle, the blocks do their
work, then the lamp of the state the session now stands in is issued and SESSION is set. -/
def release (s : State) : State :=
  let moved := movesAtRelease s.session.state
  let s := { s with link := { s.link with stationTx := none, trackTx := none }, rstnLow := false }
  let s := showLamp (releaseMove (releaseGates s))
  if moved then emitSession .lineReset s else setGroup .session s

/-- The part after power-on with the lamp DARK issued (R20, R127). The queue of commands, the count of draws
and what the links will bring are the model's own and stay. -/
def powerOn (s : State) : State :=
  showLamp
    { State.reset with
      link := { Link.reset with
        stationRx := { idleReceiver with coming := s.link.stationRx.coming }
        trackRx := { idleReceiver with coming := s.link.trackRx.coming } }
      choices := s.choices
      pending := s.pending }

/-- POWER_ON_RESET; with RSTN low at its end the part takes a fall there (R20, R195). -/
def execPowerOnReset (s : State) : Host.Outcome State Fault Refusal :=
  complete (if s.rstnLow then fall (powerOn s) else powerOn s)

/-- RSTN_FALL; a line that is low already does not fall (R195; log entry 9). -/
def execRstnFall (s : State) : Host.Outcome State Fault Refusal := complete (if s.rstnLow then s else fall s)

/-- RSTN_RELEASE; a line that is high already is not released (R195; log entry 9). -/
def execRstnRelease (s : State) : Host.Outcome State Fault Refusal := complete (if s.rstnLow then release s else s)

end Sys2Proof.Machine
end

