-- ==== Sys2Proof/Machine/Frames.lean ====
section
/-! DEFINITION. The frame commands: what a frame that has been received does (R4, R6, R9, R10). While RSTN is
low the ports take no frame (R19), so that a frame command then has no effect. -/

namespace Sys2Proof.Machine

/-- A frame is taken at a port unless RSTN is low; the port's assembler is back in HUNT (R2, R19). -/
def takeFrame (port : Port) (work : State → State) (s : State) : State :=
  if s.rstnLow then s else work (received port s)

/-! ### The track port (R9) -/

/-- XING_RECEIVED: the mirror copy, then the path of the report (R45); fields out of range make it a bad
frame (R6). -/
def execXingReceived (g code : Byte) (count : Count) (arrival : Ticks) (s : State) :
    Host.Outcome State Fault Refusal :=
  complete <| takeFrame .track (fun s =>
    match gateOf g.toNat with
    | none => badFrame .track s
    | some id =>
      if codeInRange code then resolveReport id code count arrival (mirror (xingFrame g code count) s)
      else badFrame .track s) s

/-- BEACON_REPLY (R33). -/
def execBeaconReply (g number : Byte) (count : Count) (arrival : Ticks) (s : State) :
    Host.Outcome State Fault Refusal :=
  complete <| takeFrame .track (fun s =>
    match gateOf g.toNat with
    | none => badFrame .track s
    | some id => beaconReply id number count arrival s) s

/-- What a press of the marshal's button does besides its record, by MARSHAL_ACTION (R128). -/
def buttonAction (s : State) : State :=
  match s.settings.heat.marshalAction with
  | .nothing => s
  | .caution => if s.session.state = .green then toCaution .button s else s
  | .hold => if holdable s.session.state then toHeld .button s else s

/-- The MARSHAL record of a press, which sets MARSHAL (R128). -/
def emitButton (g : Nat) (arrival : Ticks) (s : State) : State := setGroup .marshal (emit ⟨g, arrival, .button g⟩ s)

/-- MARSHAL_BUTTON (R128). -/
def execMarshalButton (g : Byte) (arrival : Ticks) (s : State) : Host.Outcome State Fault Refusal :=
  complete <| takeFrame .track (fun s =>
    match gateOf g.toNat with
    | none => badFrame .track s
    | some id => buttonAction (emitButton (gateNumber id) arrival s)) s

/-- TRACK_PASS_THROUGH (R9, R11). -/
def execTrackPassThrough (ftype : Byte) (body : List Byte) (s : State) : Host.Outcome State Fault Refusal :=
  complete (takeFrame .track (offerUp ⟨ftype, body⟩) s)

/-! ### The station port (R10) -/

/-- DRIVE_FRAME (R172); an entry count out of range makes it a bad frame (R6). -/
def execDriveFrame (es : List DriveEntry) (arrival : Ticks) (s : State) : Host.Outcome State Fault Refusal :=
  complete (takeFrame .station (fun s => if driveInRange es then editFrame es arrival s else badFrame .station s) s)

/-- STATION_BEAC_LAMP_DISCARD: LINK is set, the frame is gone (R10). -/
def execStationBeacLampDiscard (_ftype : Byte) (_body : List Byte) (s : State) : Host.Outcome State Fault Refusal :=
  complete (takeFrame .station (setGroup .link) s)

/-- STATION_PASS_THROUGH (R10, R11). -/
def execStationPassThrough (ftype : Byte) (body : List Byte) (s : State) : Host.Outcome State Fault Refusal :=
  complete (takeFrame .station (offerDown ⟨ftype, body⟩) s)

/-! ### Bad frames (R4) -/

/-- FRAME_CHECK_FAILED (R3). -/
def execFrameCheckFailed (port : Port) (s : State) : Host.Outcome State Fault Refusal :=
  complete (takeFrame port (badFrame port) s)

/-- LENGTH_ABOVE_60 (R2). -/
def execLengthAbove60 (port : Port) (s : State) : Host.Outcome State Fault Refusal :=
  complete (takeFrame port (badFrame port) s)

/-- MALFORMED_FRAME (R6, R7). -/
def execMalformedFrame (port : Port) (s : State) : Host.Outcome State Fault Refusal :=
  complete (takeFrame port (badFrame port) s)

/-- The receive side of a port. -/
def receiver (port : Port) (s : State) : Receiver :=
  match port with
  | .station => s.link.stationRx
  | .track => s.link.trackRx

/-- A byte starts at this instant: nothing idle stands before the next byte to come. -/
def byteStarts (r : Receiver) : Bool :=
  match r.coming with
  | (0, _) :: _ => true
  | _ => false

/-- The 100 ticks of a port have run out in the middle of a frame, and no byte begins now (R4). -/
def gapDue (r : Receiver) : Bool :=
  r.asm.state != .hunt && r.current.isNone && decide (Config.byteGap ≤ r.gap) && !(byteStarts r)

/-- BYTE_GAP_TIMEOUT: the frame is dropped as a bad frame and the assembler returns to HUNT (R4). Where no
frame is cut off by a gap the event is not due and nothing happens (log entry 3). -/
def execByteGapTimeout (port : Port) (s : State) : Host.Outcome State Fault Refusal :=
  complete (if gapDue (receiver port s) then takeFrame port (badFrame port) s else s)

end Sys2Proof.Machine
end

