-- ==== Sys2Proof/Machine/TimeEvents.lean ====
section
/-! DEFINITION. The events that the part's own clocks and transmitters raise. Each says when it is due; a
command for an event that is not due changes nothing (log entry 3). -/

namespace Sys2Proof.Machine

/-- An event's work if it is due. -/
def whenDue (due : Bool) (work : State → State) (s : State) : Host.Outcome State Fault Refusal :=
  complete (if due then work s else s)

/-! ### Transmitters (R16 to R18) -/

/-- A frame has been sent to its last bit. -/
def sent (t : Option Transmission) : Bool :=
  match t with
  | some x => x.remaining == 0
  | none => false

/-- STATION_TRANSMIT_DONE: the transmitter is idle and chooses again (R17). -/
def execStationTransmitDone (s : State) : Host.Outcome State Fault Refusal :=
  whenDue (sent s.link.stationTx) (fun s => { s with link := { s.link with stationTx := none } }) s

/-- TRACK_TRANSMIT_DONE: the transmitter is idle and chooses again (R18). -/
def execTrackTransmitDone (s : State) : Host.Outcome State Fault Refusal :=
  whenDue (sent s.link.trackTx) (fun s => { s with link := { s.link with trackTx := none } }) s

/-! ### The race clock (R21, R23, R32) -/

/-- The race clock stands at a positive multiple of BEACON_IVL (R23). DESIGN CHOICE, log entry 31: the instant at
which the clock reaches its maximum is a boundary too, where BEACON_IVL divides it. -/
def boundaryDue (s : State) : Bool :=
  decide (0 < s.clock.now) && s.clock.now % s.settings.timing.beaconIvl == 0

/-- BEACON_BOUNDARY (R23, R29, R38). DESIGN CHOICE, log entry 35: it asks of the BEACON_IVL in force when it is taken, so
a SET_TIMING taken first at that instant drops the boundary of the old value, unless the new value divides the clock too. -/
def execBeaconBoundary (s : State) : Host.Outcome State Fault Refusal :=
  whenDue (boundaryDue s) (fun s => ageGates (raiseBalance s)) s

/-- The open beacon round is discarded (R32). -/
def closeRound (s : State) : State := { s with clock := { s.clock with round := none } }

/-- The open round has reached its close time (R32). -/
def roundDue (s : State) : Bool := s.clock.round.any fun r => r.closes ≤ s.clock.now

/-- BEACON_ROUND_CLOSE (R32). -/
def execBeaconRoundClose (s : State) : Host.Outcome State Fault Refusal := whenDue (roundDue s) closeRound s

/-- The race clock stands at the clock limit (R21). -/
def limitDue (s : State) : Bool := s.clock.now == Config.clockLimit

/-- CLOCK_LIMIT: a heat on the way closes, aborted; in IDLE and CLOSED nothing happens (R21, R125).
DESIGN CHOICE, log entry 36: an ARM taken first at that instant has set the clock to 0, and the event is dropped. -/
def execClockLimit (s : State) : Host.Outcome State Fault Refusal :=
  whenDue (limitDue s && inHeat s.session.state) (closeHeat .clockLimit true) s

/-- The race clock has stopped while a round is open whose close time it will never reach (R32). -/
def stopDue (s : State) : Bool :=
  s.clock.now == Config.clockMax && s.clock.round.any fun r => decide (Config.clockMax < r.closes)

/-- RACE_CLOCK_STOP: the count holds, and such a round closes (R21, R32). -/
def execRaceClockStop (s : State) : Host.Outcome State Fault Refusal := whenDue (stopDue s) closeRound s

/-! ### The resolver (R55, R64) -/

/-- The entry's pending pair, if its release deadline has been reached with RSTN high (R55). DESIGN CHOICE, log entry
32: a deadline that lay behind the clock when the pair was opened counts as reached, so the pair is due at once. -/
def duePair (s : State) (e : Entry) : Option PendingPair :=
  if s.rstnLow then none else (pairOf s e).filter fun p => p.deadline ≤ s.clock.now

/-- PAIR_DEADLINE (R55). -/
def execPairDeadline (e : Entry) (s : State) : Host.Outcome State Fault Refusal :=
  complete (match duePair s e with
    | some p => releasePair p s
    | none => s)

/-- The session states in which the drill schedules run (R64). -/
def drillSession : SessionState → Bool
  | .green | .caution | .chequered => true
  | _ => false

/-- The entry's drill schedule, if a crossing of it is due (R64). -/
def dueDrill (s : State) (e : Entry) : Option DrillSchedule :=
  if !s.rstnLow && drillSession s.session.state then s.resolver.drills[e].filter fun d => d.remaining == 0 else none

/-- DRILL_CROSSING_DUE (R64, R65). -/
def execDrillCrossingDue (e : Entry) (s : State) : Host.Outcome State Fault Refusal :=
  complete (match dueDrill s e with
    | some d => drillDue e d s
    | none => s)

/-! ### The lap engine's overdue deadlines (R88) -/

/-- The expiry time of the entry's overdue deadline, if a RUNNING car has reached it (R88). -/
def dueExpiry (s : State) (e : Entry) : Option Ticks :=
  match (ctx s e).deadline with
  | some (.due t) => if (ctx s e).state = .running ∧ t ≤ s.clock.now then some t else none
  | _ => none

/-- The expiry of a car that no pending pair accounts for: OFF_TRACK, the MARSHAL record, the incident
(R88). -/
def goOffTrack (e : Entry) (t : Ticks) (s : State) : State :=
  let line := (ctx s e).expected
  let s := updCtx e (fun c => { c with state := .offTrack, deadline := none }) s
  let s := setGroup .marshal (emit ⟨entryNumber e, t, .overdue line⟩ s)
  incident e .offTrack t s

/-- OVERDUE_EXPIRY (R88). -/
def execOverdueExpiry (e : Entry) (s : State) : Host.Outcome State Fault Refusal :=
  complete (match dueExpiry s e with
    | some t =>
      match pairOf s e with
      | some p => updCtx e (fun c => { c with deadline := some (.due (p.deadline + 1)) }) s
      | none => goOffTrack e t s
    | none => s)

/-! ### The session's timers (R114, R115, R121, R123) -/

/-- The countdown, when its ticks have run out in a phase, with RSTN high (R114, R115). -/
def dueCountdown (s : State) (phase : CountPhase) : Option Countdown :=
  if !s.rstnLow && s.session.state == .countdown then
    s.session.countdown.filter fun c => c.phase == phase && c.remaining == 0
  else none

/-- Every GRID car becomes RUNNING with line 0's overdue limit (R72). -/
def launchField (s : State) : State := updAllCtx (launchGrid s.clock.now (lineRow s 0).overdue) s

/-- COUNTDOWN to GREEN (R115). -/
def goGreen (s : State) : State :=
  startDrills <| launchField <| announce .lightsOut
    { s with session := { s.session with state := .green, greenTime := some s.clock.now, countdown := none } }

/-- The countdown is replaced. -/
def setCountdown (c : Countdown) (s : State) : State := { s with session := { s.session with countdown := some c } }

/-- The end of a countdown step: the next lower count, or the hold, which ends at once when its length is 0
(R114). -/
def endStep (c : Countdown) (s : State) : State :=
  if 1 < c.red then
    showLamp (setCountdown { c with red := c.red - 1, remaining := s.settings.heat.stepIvl } s)
  else if c.hold = 0 then goGreen s
  else setCountdown { c with phase := .hold, remaining := c.hold } s

/-- COUNTDOWN_STEP_END (R114). -/
def execCountdownStepEnd (s : State) : Host.Outcome State Fault Refusal :=
  complete (match dueCountdown s .steps with
    | some c => endStep c s
    | none => s)

/-- RANDOM_HOLD_END (R115). -/
def execRandomHoldEnd (s : State) : Host.Outcome State Fault Refusal :=
  whenDue (dueCountdown s .hold).isSome goGreen s

/-- The heat clock of a TIME heat has run out in GREEN or CAUTION (R120, R121). -/
def heatClockDue (s : State) : Bool :=
  !s.rstnLow && s.settings.heat.raceKind == .time && s.session.heatClock == 0 &&
  (s.session.state == .green || s.session.state == .caution)

/-- HEAT_CLOCK_EXPIRY, with the close test of an entry by TIME_UP (R121, R122, R123). -/
def execHeatClockExpiry (s : State) : Host.Outcome State Fault Refusal :=
  whenDue (heatClockDue s) (fun s => closeTest (enterChequered .timeUp s)) s

/-- The finish grace has run out in CHEQUERED (R122, R123). -/
def graceDue (s : State) : Bool := !s.rstnLow && s.session.state == .chequered && s.session.grace == some 0

/-- GRACE_EXPIRY (R123). -/
def execGraceExpiry (s : State) : Host.Outcome State Fault Refusal :=
  whenDue (graceDue s) (closeHeat .graceUp false) s

/-! ### The beat (R193) -/

/-- 12,500 ticks have passed since the last beat (R193). -/
def beatDue (s : State) : Bool := s.mgmt.beatTimer == Config.beatPeriod

/-- BEAT: the flag is set unless the inhibit is set (R193). -/
def execBeat (s : State) : Host.Outcome State Fault Refusal :=
  whenDue (beatDue s) (fun s => { s with mgmt := { s.mgmt with
    beatTimer := 0, beatFlag := s.mgmt.beatFlag || !s.mgmt.beatInhibit } }) s

end Sys2Proof.Machine
end

