-- ==== Sys2Proof/Machine/Requests.lean ====
section
/-! DEFINITION. The management requests: each is carried out whole and answered (R14, R185). -/

namespace Sys2Proof.Machine

/-- SET_TIMING (R188). -/
def execSetTiming (tag : Byte) (args : List Byte) (s : State) : Host.Outcome State Fault Refusal :=
  complete (request tag (setTiming args) s)

/-- SET_HEAT (R130). -/
def execSetHeat (tag : Byte) (args : List Byte) (s : State) : Host.Outcome State Fault Refusal :=
  complete (request tag (setHeat args) s)

/-- SET_FUEL (R182). -/
def execSetFuel (tag : Byte) (args : List Byte) (s : State) : Host.Outcome State Fault Refusal :=
  complete (request tag (setFuel args) s)

/-- SET_SEED (R131). -/
def execSetSeed (tag : Byte) (args : List Byte) (s : State) : Host.Outcome State Fault Refusal :=
  complete (request tag (setSeed args) s)

/-- SET_ATTN_MASK (R191). -/
def execSetAttnMask (tag : Byte) (args : List Byte) (s : State) : Host.Outcome State Fault Refusal :=
  complete (request tag (setAttnMask args) s)

/-- WRITE_GATE (R25). -/
def execWriteGate (tag : Byte) (args : List Byte) (s : State) : Host.Outcome State Fault Refusal :=
  complete (request tag (writeGate args) s)

/-- WRITE_LINE (R177). -/
def execWriteLine (tag : Byte) (args : List Byte) (s : State) : Host.Outcome State Fault Refusal :=
  complete (request tag (writeLine args) s)

/-- WRITE_ENTRY (R170). -/
def execWriteEntry (tag : Byte) (args : List Byte) (s : State) : Host.Outcome State Fault Refusal :=
  complete (request tag (writeEntry args) s)

/-- WRITE_RULE (R138). -/
def execWriteRule (tag : Byte) (args : List Byte) (s : State) : Host.Outcome State Fault Refusal :=
  complete (request tag (writeRule args) s)

/-- READ_GATE (R27). -/
def execReadGate (tag : Byte) (args : List Byte) (s : State) : Host.Outcome State Fault Refusal :=
  complete (request tag (readGate args) s)

/-- READ_LINE (R178). -/
def execReadLine (tag : Byte) (args : List Byte) (s : State) : Host.Outcome State Fault Refusal :=
  complete (request tag (readLine args) s)

/-- READ_ENTRY (R171). -/
def execReadEntry (tag : Byte) (args : List Byte) (s : State) : Host.Outcome State Fault Refusal :=
  complete (request tag (readEntry args) s)

/-- READ_RULE (R139). -/
def execReadRule (tag : Byte) (args : List Byte) (s : State) : Host.Outcome State Fault Refusal :=
  complete (request tag (readRule args) s)

/-- READ_CAR (R93). -/
def execReadCar (tag : Byte) (args : List Byte) (s : State) : Host.Outcome State Fault Refusal :=
  complete (request tag (readCar args) s)

/-- READ_OWED (R166). -/
def execReadOwed (tag : Byte) (args : List Byte) (s : State) : Host.Outcome State Fault Refusal :=
  complete (request tag (readOwed args) s)

/-- READ_ORDER (R106). -/
def execReadOrder (tag : Byte) (args : List Byte) (s : State) : Host.Outcome State Fault Refusal :=
  complete (request tag (readOrder args) s)

/-- STATUS (R194). -/
def execStatus (tag : Byte) (args : List Byte) (s : State) : Host.Outcome State Fault Refusal :=
  complete (request tag (status args) s)

/-- ARM (R112). -/
def execArm (tag : Byte) (args : List Byte) (s : State) : Host.Outcome State Fault Refusal :=
  complete (request tag (arm args) s)

/-- START (R113). -/
def execStart (tag : Byte) (args : List Byte) (s : State) : Host.Outcome State Fault Refusal :=
  complete (request tag (start args) s)

/-- CAUTION (R116). -/
def execCaution (tag : Byte) (args : List Byte) (s : State) : Host.Outcome State Fault Refusal :=
  complete (request tag (caution args) s)

/-- GREEN (R116). -/
def execGreen (tag : Byte) (args : List Byte) (s : State) : Host.Outcome State Fault Refusal :=
  complete (request tag (green args) s)

/-- HOLD (R117). -/
def execHold (tag : Byte) (args : List Byte) (s : State) : Host.Outcome State Fault Refusal :=
  complete (request tag (hold args) s)

/-- RESUME (R118). -/
def execResume (tag : Byte) (args : List Byte) (s : State) : Host.Outcome State Fault Refusal :=
  complete (request tag (resume args) s)

/-- ABORT (R125). -/
def execAbort (tag : Byte) (args : List Byte) (s : State) : Host.Outcome State Fault Refusal :=
  complete (request tag (abort args) s)

/-- DISMISS (R126). -/
def execDismiss (tag : Byte) (args : List Byte) (s : State) : Host.Outcome State Fault Refusal :=
  complete (request tag (dismiss args) s)

/-- ISSUE_COUNTED (R150; the argument bytes decide, as the request index has one code for both rows (log entry 20)). -/
def execIssueCounted (tag : Byte) (args : List Byte) (s : State) : Host.Outcome State Fault Refusal :=
  complete (request tag (issue args) s)

/-- ISSUE_DIRECT (R150; the argument bytes decide, as the request index has one code for both rows (log entry 20)). -/
def execIssueDirect (tag : Byte) (args : List Byte) (s : State) : Host.Outcome State Fault Refusal :=
  complete (request tag (issue args) s)

/-- WAIVE (R165). -/
def execWaive (tag : Byte) (args : List Byte) (s : State) : Host.Outcome State Fault Refusal :=
  complete (request tag (waive args) s)

/-- RETIRE (R94). -/
def execRetire (tag : Byte) (args : List Byte) (s : State) : Host.Outcome State Fault Refusal :=
  complete (request tag (retire args) s)

/-- CLEAR_BEST (R83). -/
def execClearBest (tag : Byte) (args : List Byte) (s : State) : Host.Outcome State Fault Refusal :=
  complete (request tag (clearBest args) s)

/-- DRILL_ON (R61; the argument bytes decide, as the request index has one code for both rows (log entry 20)). -/
def execDrillOn (tag : Byte) (args : List Byte) (s : State) : Host.Outcome State Fault Refusal :=
  complete (request tag (drill args) s)

/-- DRILL_OFF (R61; the argument bytes decide, as the request index has one code for both rows (log entry 20)). -/
def execDrillOff (tag : Byte) (args : List Byte) (s : State) : Host.Outcome State Fault Refusal :=
  complete (request tag (drill args) s)

/-- CLEAR_EVENTS (R190). -/
def execClearEvents (tag : Byte) (args : List Byte) (s : State) : Host.Outcome State Fault Refusal :=
  complete (request tag (clearEvents args) s)

/-- RESTART_RACE (R196; the argument bytes decide, as the request index has one code for both rows (log entry 20)). -/
def execRestartRace (tag : Byte) (args : List Byte) (s : State) : Host.Outcome State Fault Refusal :=
  complete (request tag (restart args) s)

/-- RESTART_ALL (R197; the argument bytes decide, as the request index has one code for both rows (log entry 20)). -/
def execRestartAll (tag : Byte) (args : List Byte) (s : State) : Host.Outcome State Fault Refusal :=
  complete (request tag (restart args) s)

/-- UNKNOWN_REQUEST: a code that is not in the request index (R185). -/
def execUnknownRequest (tag _code : Byte) (_args : List Byte) (s : State) : Host.Outcome State Fault Refusal :=
  complete (request tag unknown s)

end Sys2Proof.Machine
end

