-- ==== Sys2Proof/Machine/Receiver.lean ====
section
/-! DEFINITION. The receive assemblers: bytes on the links into frame commands (R1 to R4, R9, R10). -/

namespace Sys2Proof.Machine

/-- What a byte completes at an assembler, if anything: a frame with its received check, or a length byte
above 60 (R2). -/
inductive Completed where
  | frame (arrival : Ticks) (frame : Frame) (check : BitVec 16)
  | tooLong
  deriving DecidableEq, Repr

/-- The start marker (R2). -/
def startMarker : Byte := 0xA5

/-- One byte, whose first bit came at `start`, into an assembler (R2). -/
def Assembler.feed (a : Assembler) (b : Byte) (start : Ticks) : Assembler × Option Completed :=
  match a.state with
  | .hunt =>
    if b = startMarker then ({ idleAssembler with state := .type, arrival := start }, none) else (a, none)
  | .type => ({ a with state := .length, ftype := b }, none)
  | .length =>
    if Config.maxBody < b.toNat then ({ a with state := .hunt }, some .tooLong)
    else ({ a with state := if b = 0 then .check else .body, length := b.toNat }, none)
  | .body =>
    ({ a with body := a.body ++ [b], state := if a.body.length + 1 < a.length then .body else .check }, none)
  | .check =>
    match a.checkHigh with
    | none => ({ a with checkHigh := some b }, none)
    | some hi => ({ a with state := .hunt }, some (.frame a.arrival ⟨a.ftype, a.body⟩ (hi ++ b)))

/-- The command that a completed frame is (R3, R4, R9, R10). -/
def commandFor (port : Port) : Completed → Instr
  | .tooLong => .lengthAbove60 port
  | .frame arrival f check =>
    if f.check = check then commandOf port arrival f.ftype f.body else .frameCheckFailed port

/-- The bytes one after another into an assembler, with what they complete; the first bit of each comes
`width` ticks after that of the one before it (R1, R2). -/
def Assembler.feedAll (width : Nat) (a : Assembler) (start : Ticks) : List Byte → Assembler × List Completed
  | [] => (a, [])
  | b :: rest =>
    let r := a.feed b start
    let q := r.1.feedAll width (start + width) rest
    (q.1, r.2.toList ++ q.2)

/-- A byte ends at a port: it goes into the assembler, or is discarded while RSTN is low (R19). -/
def byteEnds (port : Port) (rstnLow : Bool) (r : Receiver) (b : Byte) (start : Ticks) : Receiver × Option Instr :=
  if rstnLow then ({ r with current := none, gap := 0 }, none)
  else
    let q := r.asm.feed b start
    ({ r with asm := q.1, current := none, gap := 0 }, q.2.map (commandFor port))

/-- A byte has `left` ticks to go behind the present one: it ends now, or stays on the wire. -/
def byteGoesOn (port : Port) (rstnLow : Bool) (r : Receiver) (b : Byte) (start : Ticks) (left : Nat) :
    Receiver × Option Instr :=
  if left = 0 then byteEnds port rstnLow r b start else ({ r with current := some ⟨b, start, left⟩ }, none)

/-- One tick at a port's receive side, begun at race clock `now`: the byte on the wire goes on, the next one
begins, or the link idles (R1, R4). -/
def Receiver.tick (port : Port) (rstnLow : Bool) (now : Ticks) (r : Receiver) : Receiver × Option Instr :=
  match r.current with
  | some x => byteGoesOn port rstnLow r x.value x.start (x.left - 1)
  | none =>
    match r.coming with
    | (0, b) :: rest => byteGoesOn port rstnLow { r with coming := rest } b now (byteTicks port - 1)
    | (idle + 1, b) :: rest => ({ r with coming := (idle, b) :: rest, gap := min Config.byteGap (r.gap + 1) }, none)
    | [] => ({ r with gap := min Config.byteGap (r.gap + 1) }, none)

end Sys2Proof.Machine
end

