-- ==== Sys2Proof/Machine/Tick.lean ====
section
/-! DEFINITION. One tick of the part's clock, which a step makes when no command waits (log entries 1 and 2):
the events that are due join the queue of commands, or, when none is, one tick passes. -/

namespace Sys2Proof.Machine

/-- A command put into a list of commands at one of its places, counted from the head. -/
def insertAt (c : Instr) : Nat → List Instr → List Instr
  | 0, l => c :: l
  | _ + 1, [] => [c]
  | n + 1, d :: l => d :: insertAt c n l

/-- Commands of one instant in the order in which they are taken, drawn from the free value of log entry 2,
and the number of draws made. -/
def arrange : List Instr → Nat → List Instr × Nat
  | [], n => ([], n)
  | [c], n => ([c], n)
  | c :: rest, n =>
    let r := arrange rest n
    (insertAt c (Config.sameTickSlot r.2 r.1.length % (r.1.length + 1)) r.1, r.2 + 1)

/-- Commands of one instant join the queue. -/
def enqueue (cs : List Instr) (s : State) : State :=
  { s with pending := s.pending ++ (arrange cs s.choices).1, choices := (arrange cs s.choices).2 }

/-- A command when a condition holds. -/
def dueIf (b : Bool) (c : Instr) : List Instr := if b then [c] else []

/-- The events whose condition holds in a state and lasts until they are taken. -/
def dueEvents (s : State) : List Instr :=
  dueIf (gapDue s.link.stationRx) (.byteGapTimeout .station) ++
  dueIf (gapDue s.link.trackRx) (.byteGapTimeout .track) ++
  dueIf (sent s.link.stationTx) .stationTransmitDone ++
  dueIf (sent s.link.trackTx) .trackTransmitDone ++
  dueIf (roundDue s) .beaconRoundClose ++
  (allEntries.filter fun e => (duePair s e).isSome).map .pairDeadline ++
  (allEntries.filter fun e => (dueDrill s e).isSome).map .drillCrossingDue ++
  (allEntries.filter fun e => (dueExpiry s e).isSome).map .overdueExpiry ++
  dueIf (dueCountdown s .steps).isSome .countdownStepEnd ++
  dueIf (dueCountdown s .hold).isSome .randomHoldEnd ++
  dueIf (heatClockDue s) .heatClockExpiry ++
  dueIf (graceDue s) .graceExpiry ++
  dueIf (beatDue s) .beat

/-- The events of the race clock's arrival at its present value: a beacon boundary, the clock limit, the stop
(R21, R23, R32). DESIGN CHOICE, log entry 31: a clock that arrives at its maximum there reaches a multiple and stops
in one instant, and the boundary is raised. -/
def clockEvents (s : State) : List Instr :=
  dueIf (boundaryDue s) .beaconBoundary ++
  dueIf (limitDue s) .clockLimit ++
  dueIf (s.clock.now == Config.clockMax) .raceClockStop

/-- The countdown with one tick gone (R114). -/
def Countdown.tick (c : Countdown) : Countdown := { c with remaining := c.remaining - 1 }

/-- A drill schedule with one tick gone (R64). -/
def DrillSchedule.tick (d : DrillSchedule) : DrillSchedule := { d with remaining := d.remaining - 1 }

/-- The session's timers with one tick gone, RSTN being high: the countdown in COUNTDOWN (R114), the heat
clock in GREEN, CAUTION and CHEQUERED (R120), the grace in CHEQUERED (R122). -/
def Session.tick (ses : Session) : Session :=
  { ses with
    countdown := if ses.state = .countdown then ses.countdown.map Countdown.tick else ses.countdown
    heatClock := if drillSession ses.state then ses.heatClock - 1 else ses.heatClock
    grace := if ses.state = .chequered then ses.grace.map (· - 1) else ses.grace }

/-- The drill schedules with one tick gone, RSTN being high (R64). -/
def Resolver.tick (st : SessionState) (r : Resolver) : Resolver :=
  if drillSession st then { r with drills := r.drills.map fun d => d.map DrillSchedule.tick } else r

/-- A transmission with one tick gone (R1). -/
def Transmission.tick (t : Transmission) : Transmission := { t with remaining := t.remaining - 1 }

/-- The link unit with one tick gone from race clock `now`, and the frames received in it, the station's
first. -/
def Link.tick (rstnLow : Bool) (now : Ticks) (l : Link) : Link × List Instr :=
  let a := l.stationRx.tick .station rstnLow now
  let b := l.trackRx.tick .track rstnLow now
  ({ l with
     stationRx := a.1, trackRx := b.1
     stationTx := l.stationTx.map Transmission.tick, trackTx := l.trackTx.map Transmission.tick },
   a.2.toList ++ b.2.toList)

/-- One tick passes: the race clock rises and stops at its highest value (R21), the beat timer runs on (R193),
and while RSTN is high the session's timers and the drill schedules run (R64, R114, R120, R122). -/
def elapse (s : State) : State × List Instr :=
  let l := s.link.tick s.rstnLow s.clock.now
  ({ s with
     link := l.1
     clock := { s.clock with now := min Config.clockMax (s.clock.now + 1) }
     resolver := if s.rstnLow then s.resolver else s.resolver.tick s.session.state
     session := if s.rstnLow then s.session else s.session.tick
     mgmt := { s.mgmt with beatTimer := s.mgmt.beatTimer + 1 } },
   l.2)

/-- What one passed tick brings: the frames received in it, the clock's events where the clock has moved, and
the events that have fallen due. -/
def tickEvents (before after : State) (frames : List Instr) : List Instr :=
  frames ++ (if after.clock.now = before.clock.now then [] else clockEvents after) ++ dueEvents after

/-- A step without a command: an idle transmitter chooses, then the events due now join the queue, or one tick
passes and what it brings joins the queue. -/
def tick (s : State) : State :=
  let s := settle s
  if (dueEvents s).isEmpty then
    let r := elapse s
    enqueue (tickEvents s r.1 r.2) r.1
  else enqueue (dueEvents s) s

end Sys2Proof.Machine
end

