-- ==== Sys2Proof/Machine/Dispatch.lean ====
section
/-! DEFINITION. What each command does to everything but the queue: one arm for each command. -/

namespace Sys2Proof.Machine

/-- The effect of a command (spec 95). -/
def exec (i : Instr) (s : State) : Host.Outcome State Fault Refusal :=
  match i with
  | .powerOnReset => Sys2Proof.Machine.execPowerOnReset s
  | .rstnFall => Sys2Proof.Machine.execRstnFall s
  | .rstnRelease => Sys2Proof.Machine.execRstnRelease s
  | .byteGapTimeout port => Sys2Proof.Machine.execByteGapTimeout port s
  | .xingReceived gate code count arrival => Sys2Proof.Machine.execXingReceived gate code count arrival s
  | .beaconReply gate number count arrival => Sys2Proof.Machine.execBeaconReply gate number count arrival s
  | .marshalButton gate arrival => Sys2Proof.Machine.execMarshalButton gate arrival s
  | .trackPassThrough ftype body => Sys2Proof.Machine.execTrackPassThrough ftype body s
  | .driveFrame entries arrival => Sys2Proof.Machine.execDriveFrame entries arrival s
  | .stationBeacLampDiscard ftype body => Sys2Proof.Machine.execStationBeacLampDiscard ftype body s
  | .stationPassThrough ftype body => Sys2Proof.Machine.execStationPassThrough ftype body s
  | .stationTransmitDone => Sys2Proof.Machine.execStationTransmitDone s
  | .trackTransmitDone => Sys2Proof.Machine.execTrackTransmitDone s
  | .beaconBoundary => Sys2Proof.Machine.execBeaconBoundary s
  | .beaconRoundClose => Sys2Proof.Machine.execBeaconRoundClose s
  | .clockLimit => Sys2Proof.Machine.execClockLimit s
  | .raceClockStop => Sys2Proof.Machine.execRaceClockStop s
  | .pairDeadline entry => Sys2Proof.Machine.execPairDeadline entry s
  | .drillCrossingDue entry => Sys2Proof.Machine.execDrillCrossingDue entry s
  | .overdueExpiry entry => Sys2Proof.Machine.execOverdueExpiry entry s
  | .countdownStepEnd => Sys2Proof.Machine.execCountdownStepEnd s
  | .randomHoldEnd => Sys2Proof.Machine.execRandomHoldEnd s
  | .heatClockExpiry => Sys2Proof.Machine.execHeatClockExpiry s
  | .graceExpiry => Sys2Proof.Machine.execGraceExpiry s
  | .beat => Sys2Proof.Machine.execBeat s
  | .unknownRequest tag code args => Sys2Proof.Machine.execUnknownRequest tag code args s
  | .setTiming tag args => Sys2Proof.Machine.execSetTiming tag args s
  | .setHeat tag args => Sys2Proof.Machine.execSetHeat tag args s
  | .setFuel tag args => Sys2Proof.Machine.execSetFuel tag args s
  | .setSeed tag args => Sys2Proof.Machine.execSetSeed tag args s
  | .setAttnMask tag args => Sys2Proof.Machine.execSetAttnMask tag args s
  | .writeGate tag args => Sys2Proof.Machine.execWriteGate tag args s
  | .writeLine tag args => Sys2Proof.Machine.execWriteLine tag args s
  | .writeEntry tag args => Sys2Proof.Machine.execWriteEntry tag args s
  | .writeRule tag args => Sys2Proof.Machine.execWriteRule tag args s
  | .readGate tag args => Sys2Proof.Machine.execReadGate tag args s
  | .readLine tag args => Sys2Proof.Machine.execReadLine tag args s
  | .readEntry tag args => Sys2Proof.Machine.execReadEntry tag args s
  | .readRule tag args => Sys2Proof.Machine.execReadRule tag args s
  | .readCar tag args => Sys2Proof.Machine.execReadCar tag args s
  | .readOwed tag args => Sys2Proof.Machine.execReadOwed tag args s
  | .readOrder tag args => Sys2Proof.Machine.execReadOrder tag args s
  | .status tag args => Sys2Proof.Machine.execStatus tag args s
  | .arm tag args => Sys2Proof.Machine.execArm tag args s
  | .start tag args => Sys2Proof.Machine.execStart tag args s
  | .caution tag args => Sys2Proof.Machine.execCaution tag args s
  | .green tag args => Sys2Proof.Machine.execGreen tag args s
  | .hold tag args => Sys2Proof.Machine.execHold tag args s
  | .resume tag args => Sys2Proof.Machine.execResume tag args s
  | .abort tag args => Sys2Proof.Machine.execAbort tag args s
  | .dismiss tag args => Sys2Proof.Machine.execDismiss tag args s
  | .issueCounted tag args => Sys2Proof.Machine.execIssueCounted tag args s
  | .issueDirect tag args => Sys2Proof.Machine.execIssueDirect tag args s
  | .waive tag args => Sys2Proof.Machine.execWaive tag args s
  | .retire tag args => Sys2Proof.Machine.execRetire tag args s
  | .clearBest tag args => Sys2Proof.Machine.execClearBest tag args s
  | .drillOn tag args => Sys2Proof.Machine.execDrillOn tag args s
  | .drillOff tag args => Sys2Proof.Machine.execDrillOff tag args s
  | .clearEvents tag args => Sys2Proof.Machine.execClearEvents tag args s
  | .restartRace tag args => Sys2Proof.Machine.execRestartRace tag args s
  | .restartAll tag args => Sys2Proof.Machine.execRestartAll tag args s
  | .frameCheckFailed port => Sys2Proof.Machine.execFrameCheckFailed port s
  | .lengthAbove60 port => Sys2Proof.Machine.execLengthAbove60 port s
  | .malformedFrame port => Sys2Proof.Machine.execMalformedFrame port s

end Sys2Proof.Machine
end

