-- ==== Sys2Proof/Safety.lean ====
section
/-! DEFINITION. What claims about the part are stated in: what an event may do to the outputs besides its own
effect, where a reply, a record or a lamp then stands, and the invariants that every step keeps. -/

namespace Sys2Proof.Safety

open Sys2Proof Machine

/-! ### What goes out -/

/-- A transmitter has gone from `a` to `b` and a queue that feeds it from `q` to `r`: a busy transmitter goes on with
its frame, and the queue keeps all it holds but for a head that an idle transmitter has taken (R16). -/
structure Drawn {α : Type} (port : Port) (frame : α → Frame) (a b : Option Transmission) (q r : List α) : Prop where
  busy : a.isSome = true → b = a
  head : r = q ∨ (a = none ∧ ∃ x, q = x :: r ∧ b = some (transmit port (frame x)))

/-- The same of a queue that has also been joined: what joins comes in by the queue's own rule, before or behind the
one choice of the transmitter. -/
def Fed {α : Type} (join : List α → α → List α) (port : Port) (frame : α → Frame) (a b : Option Transmission)
    (q r : List α) : Prop :=
  ∃ l m mid : List α, Drawn port frame a b (l.foldl join q) mid ∧ r = m.foldl join mid

/-- The link unit `b` comes from `a` by what transmitters and outputs do: bad-frame counts and receivers are
as before (but that an assembler may be back in HUNT), the pass-through and drive queues keep what they hold but for
a head that an idle transmitter has taken, and so do the reply and the record queue but for what joins them (R11, R12,
R14 to R16). -/
structure LinkKept (a b : Link) : Prop where
  stationRx : b.stationRx = { a.stationRx with asm := { a.stationRx.asm with state := b.stationRx.asm.state } }
  trackRx : b.trackRx = { a.trackRx with asm := { a.trackRx.asm with state := b.trackRx.asm.state } }
  up : Drawn .station id a.stationTx b.stationTx a.up b.up
  down : Drawn .track id a.trackTx b.trackTx a.down b.down
  drive : Drawn .track driveFrameOf a.trackTx b.trackTx a.drive b.drive
  replies : Fed (fun q r => q ++ [r]) .station Reply.frame a.stationTx b.stationTx a.replies b.replies
  records : Fed joinRecords .station Record.frame a.stationTx b.stationTx a.records b.records
  stationBad : b.stationBad = a.stationBad
  trackBad : b.trackBad = a.trackBad

/-- The record queue keeps what it holds but for a head that an idle transmitter has taken: no record has joined it. -/
def RecordsKept (s t : State) : Prop :=
  Drawn .station Record.frame s.link.stationTx t.link.stationTx s.link.records t.link.records

/-- The reply queue keeps what it holds but for a head that an idle transmitter has taken: no reply has joined it. -/
def RepliesKept (s t : State) : Prop :=
  Drawn .station Reply.frame s.link.stationTx t.link.stationTx s.link.replies t.link.replies

/-- The lamp slot keeps what it holds, or an idle transmitter has taken it: no lamp has been issued. -/
def LampKept (s t : State) : Prop :=
  Drawn .track Lamp.frame s.link.trackTx t.link.trackTx s.link.lamp.toList t.link.lamp.toList

/-- A beacon has been sent: the number advances, B falls by 1, a round of 5,000 ticks opens (R31). -/
def beaconSent (a : Clock) : Clock :=
  { a with number := a.number + 1, balance := a.balance - 1, round := some ⟨a.number + 1, a.now, a.now + 5000, []⟩ }

/-- The clock unit `b` is `a`, or `a` after one beacon, which needs B above -8 and no open round (R30, R31). -/
def BeaconStep (a b : Clock) : Prop := b = a ∨ (a.round = none ∧ -8 < a.balance ∧ b = beaconSent a)

/-- The state `t` is `s` but for what goes out of the part: the holding places and transmitters, at most one
beacon, which an idle transmitter sends, and summary groups among those of `groups` that have been set. Everything
else is as in `s`. -/
structure Outputs (groups : Byte) (s t : State) : Prop where
  link : LinkKept s.link t.link
  clock : BeaconStep s.clock t.clock
  beacon : t.clock = s.clock ∨
    (s.link.trackTx = none ∧ t.link.trackTx = some (transmit .track (beaconFrame t.clock.number)))
  kept : s.mgmt.summary ||| t.mgmt.summary = t.mgmt.summary
  only : t.mgmt.summary &&& ~~~groups = s.mgmt.summary &&& ~~~groups
  rest : t = { s with link := t.link, clock := t.clock, mgmt := { s.mgmt with summary := t.mgmt.summary } }

/-- As `Outputs` with no group set, no record offered and no lamp issued. -/
structure Quiet (s t : State) : Prop where
  outputs : Outputs 0 s t
  records : RecordsKept s t
  lamp : LampKept s t

/-- A reply to the request with this tag, made with the summary that stands in `t`, is the last of the reply
queue or in transmission, behind the replies that `s` had waiting (R7, R14, R185). -/
def Replied (s t : State) (tag : Byte) (result : Result) (body : List Byte) : Prop :=
  Drawn .station Reply.frame s.link.stationTx t.link.stationTx
    (s.link.replies ++ [⟨tag, result, t.mgmt.summary, body⟩]) t.link.replies ∧
  (t.link.replies.getLast? = some ⟨tag, result, t.mgmt.summary, body⟩ ∨
   t.link.stationTx = some (transmit .station (Reply.frame ⟨tag, result, t.mgmt.summary, body⟩)))

/-- These records, in this order, are all that have joined the record queue behind what a busy transmitter has waiting
there, where there is room for them (R15, R16). -/
def Joined (s t : State) (l : List Record) : Prop :=
  s.link.stationTx.isSome = true → s.link.records.length + l.length ≤ 64 → t.link.records = s.link.records ++ l

/-- A record waits in the record queue or is in transmission (R15, R16). -/
def Recorded (t : State) (r : Record) : Prop :=
  r ∈ t.link.records ∨ t.link.stationTx = some (transmit .station r.frame)

/-- A lamp is the newest issued: it waits in the lamp slot, or the slot is empty and it is in transmission
(R13). -/
def Shows (t : State) (l : Lamp) : Prop :=
  t.link.lamp = some l ∨ (t.link.lamp = none ∧ t.link.trackTx = some (transmit .track l.frame))

/-- The part can take a request: RSTN is high and fewer than 4 replies wait (R14, R19). -/
def Listening (s : State) : Prop := s.rstnLow = false ∧ s.link.replies.length < 4

/-- A request is refused: the part stays as it is but for the reply, which carries the refusal and an empty
body (R185). -/
def Refuses (c : Instr) (s : State) (tag : Byte) (r : Result) : Prop :=
  ∃ t, exec c s = .next t ∧ Quiet s t ∧ Replied s t tag r []

/-! ### What the moves of a heat leave -/

/-- A move of the session shows its lamp and is reported (R127, R129). -/
structure Announced (s t : State) (l : Lamp) (st : SessionState) (cause : Cause) : Prop where
  group : groupSet .session t = true
  lamp : s.rstnLow = false → Shows t l
  record : s.rstnLow = false → s.link.records.length < 64 →
    Recorded t ⟨0, t.clock.now, .session st cause t.session.heatClock⟩
  joined : s.rstnLow = false → Joined s t [⟨0, t.clock.now, .session st cause t.session.heatClock⟩]

/-- The newest neutral period has no end yet (R119). -/
def PeriodOpen (s : State) : Prop := ∃ p ∈ s.session.periods, p.stop = none

/-- The period list once a period has been opened at a time: a full list merges its two oldest first (R119). -/
def opened (now : Ticks) (ps : List Period) : List Period :=
  (if ps.length < 32 then ps
   else match ps with
    | a :: b :: rest => ⟨a.start, b.stop⟩ :: rest
    | _ => ps) ++ [⟨now, none⟩]

/-- The period list once the open period has been closed at a time (R119). -/
def ended (now : Ticks) (ps : List Period) : List Period :=
  ps.map fun p => if p.stop = none then { p with stop := some now } else p

/-- The current lap of a car in use becomes a neutral candidate (R81, R119; log entry 19). -/
def neutralised (c : Context) : Context :=
  if c.state = .unused then c else { c with marks := { c.marks with neutral := true } }

/-- The car has a STOP_GO or DRIVE_THROUGH in service (R152, R154). -/
def Serving (c : Context) : Prop := ∃ o rest, c.owed = o :: rest ∧ o.inService = true

/-- Every enabled lane has a LINE slot of line 0 (R112). -/
def LanesGated (s : State) : Prop :=
  ∀ lane, 1 ≤ lane → lane ≤ 6 → s.settings.timing.lanesEnabled.getLsbD (lane - 1) = true →
    ∃ g : GateId, (gate s g).role = .line ∧ (gate s g).line = 0 ∧ (gate s g).lane = lane

/-- The gate test of START and RESUME: besides, every such slot is ALIGNED (R113, R118). -/
def GatesReady (s : State) : Prop :=
  LanesGated s ∧ ∀ g : GateId, (gate s g).role = .line → (gate s g).line = 0 → 1 ≤ (gate s g).lane →
    (gate s g).lane ≤ 6 → s.settings.timing.lanesEnabled.getLsbD ((gate s g).lane - 1) = true →
    ∃ ref, (gate s g).alignment = .aligned ref

/-- A car is RUNNING, IN_PIT or OFF_TRACK, so that CHEQUERED goes on (R123). -/
def Afield (s : State) : Prop :=
  ∃ e : Entry, (ctx s e).state = .running ∨ (ctx s e).state = .inPit ∨ (ctx s e).state = .offTrack

/-- The session does not close when entry e leaves the running: it is not CHEQUERED, or another car is RUNNING,
IN_PIT or OFF_TRACK (R123). -/
def GoesOn (s : State) (e : Entry) : Prop :=
  s.session.state ≠ .chequered ∨
  ∃ f : Entry, f ≠ e ∧ ((ctx s f).state = .running ∨ (ctx s f).state = .inPit ∨ (ctx s f).state = .offTrack)

/-- One time stands ahead of another: the earlier, a present one ahead of an absent one, and in a tie the lower
entry (R95, R107). -/
def TimeAhead (x y : Option Ticks) (b a : Entry) : Prop :=
  match x, y with
  | some p, some q => p < q ∨ (p = q ∧ b < a)
  | some _, none => True
  | none, some _ => False
  | none, none => b < a

/-- Entry b stands ahead of entry a in the running order (R95). -/
def Ahead (s : State) (b a : Entry) : Prop :=
  groupOf s b < groupOf s a ∨
  (groupOf s b = groupOf s a ∧ (groupOf s b = 2 ∨ (ctx s a).progress < (ctx s b).progress ∨
    ((ctx s a).progress = (ctx s b).progress ∧ TimeAhead (ctx s b).progressTime (ctx s a).progressTime b a)))

/-- An entry has been taken out of the running order of `s` and put back in that of `t` behind the cars ahead of
it (R97, R98). -/
def Placed (s t : State) (e : Entry) : Prop :=
  ∃ pre post, s.order.list.erase e = pre ++ post ∧ t.order.list = pre ++ e :: post ∧
    (∀ b ∈ pre, Ahead t b e) ∧ ∀ b, post.head? = some b → ¬Ahead t b e

/-- Entry b is classified ahead of entry a (R107, R108). -/
def ClassedAhead (s : State) (b a : Entry) : Prop :=
  let laps (e : Entry) : Nat := (ctx s e).laps - (ctx s e).deductions
  let lines (e : Entry) : Nat := (ctx s e).progress - (ctx s e).laps * s.session.heatLines
  let time (e : Entry) : Option Nat := (ctx s e).progressTime.map fun t => t + 100000 * (ctx s e).penaltySeconds
  groupOf s b < groupOf s a ∨
  (groupOf s b = groupOf s a ∧ (groupOf s b = 2 ∨ laps a < laps b ∨
    (laps a = laps b ∧ (lines a < lines b ∨ (lines a = lines b ∧ TimeAhead (time b) (time a) b a)))))

/-- The session once the heat has been closed without an abort at a race clock (R124). -/
def closedSession (now : Ticks) (x : Session) : Session :=
  { x with
    state := .closed, aborted := false, countdown := none, heldFrom := none, grace := none
    periods := ended now x.periods }

/-- The FINISH record of the car at a place of the classification, counted from 0 (R108, R109). -/
def finishRecord (t : State) (i : Nat) (e : Entry) : Record :=
  let c := ctx t e
  ⟨e.val + 1, t.clock.now, .finish {
    rank := i + 1
    adjustedLaps := c.laps - c.deductions
    lines := c.progress - c.laps * t.session.heatLines
    adjustedTime := match c.progressTime with
      | some p => min 4294967295 (p + 100000 * c.penaltySeconds)
      | none => 4294967295
    penaltySeconds := c.penaltySeconds
    deductions := c.deductions
    disqualified := c.disqualified }⟩

/-- The state `t` stands behind a close of the heat that is no abort, made in the state `u`, behind these records of
the same command: the session, the other blocks' work, LAMP DARK, and with room for all of them the SESSION record, the
SERVE records CONVERTED by ascending entry and head to tail, and the FINISH records in the order of the classification;
in this order behind what waited, where the transmitter is busy (R58, R61, R69, R100, R109, R124, R162, R163). -/
structure HeatCloses (groups : Byte) (u t : State) (cause : Cause) (before : List Record) : Prop where
  out : Outputs groups { u with
    contexts := t.contexts
    pit := t.pit
    order := { u.order with snapshot := none }
    resolver := { u.resolver with pairs := [], drillOn := false, drills := State.reset.resolver.drills }
    session := closedSession u.clock.now u.session } t
  group : groupSet .session t = true
  lamp : Shows t ⟨.dark, 0⟩
  session : u.link.records.length + before.length < 64 →
    Recorded t ⟨0, u.clock.now, .session .closed cause u.session.heatClock⟩
  kept : u.link.records.length + before.length ≤ 64 → ∀ r ∈ before, r.isSector = false → Recorded t r
  cars : ∀ e : Entry, (Serving (ctx u e) → t.pit.marks[e] = none ∧ t.pit.holds[e] = false) ∧
    (¬Serving (ctx u e) → t.pit.marks[e] = u.pit.marks[e] ∧ t.pit.holds[e] = u.pit.holds[e]) ∧
    ∃ x, ctx t e = { ctx u e with
      deadline := none, owed := [], transit := x
      penaltySeconds := (ctx u e).owed.foldl (fun n o => min 65535 (n + o.fallback)) (ctx u e).penaltySeconds } ∧
    (Serving (ctx u e) → x = (ctx u e).transit.map fun y => { y with service := false }) ∧
    (¬Serving (ctx u e) → x = (ctx u e).transit)
  records :
    let converted (e : Entry) (o : Owed) : Record := ⟨e.val + 1, u.clock.now, .serve .converted o.sanction none⟩
    u.link.records.length + before.length + 1 + (allEntries.map fun e => (ctx u e).owed.length).sum +
        (classification t).length ≤ 64 →
      (∀ r ∈ before, Recorded t r) ∧
      (∀ (e : Entry) (o : Owed), o ∈ (ctx u e).owed → Recorded t (converted e o)) ∧
      (∀ (i : Nat) (e : Entry), (classification t)[i]? = some e → Recorded t (finishRecord t i e)) ∧
      (u.link.stationTx.isSome = true → t.link.records =
        u.link.records ++ before ++ [⟨0, u.clock.now, .session .closed cause u.session.heatClock⟩] ++
        (allEntries.flatMap fun e => (ctx u e).owed.map (converted e)) ++
        (classification t).mapIdx (finishRecord t))

/-! ### Penalties -/

/-- A car's context after a sanction has been applied to it, whether an owed entry was converted, and the
deadline lap of one appended (R141 to R144). -/
def sanctioned (kind : IncidentKind) (r : Ruling) (c : Context) : Context × Bool × Option Nat :=
  match r.sanction with
  | .note => (c, false, none)
  | .timeAdd => ({ c with penaltySeconds := min 65535 (c.penaltySeconds + r.amount) }, false, none)
  | .lapDeduct => ({ c with deductions := min 255 (c.deductions + r.amount) }, false, none)
  | .blackFlag =>
    ({ c with state := .retired, disqualified := true, deadline := none, transit := none, owed := [] }, false, none)
  | k =>
    if c.owed.length < 4 then
      ({ c with owed := c.owed ++ [⟨kind, k, if k = .stopGo then r.amount else 0, c.laps, c.laps + r.window,
          r.fallback, r.enforce, false⟩] }, false, some (c.laps + r.window))
    else ({ c with penaltySeconds := min 65535 (c.penaltySeconds + r.fallback) }, true, none)

/-- The amount a CALL carries for a ruling (R146). -/
def calledAmount (r : Ruling) : Nat :=
  if r.sanction = .timeAdd ∨ r.sanction = .lapDeduct ∨ r.sanction = .stopGo then r.amount else 0

/-- A car's context and its CALL after an incident has been counted and decided by its row (R140, R146). -/
def judged (s : State) (kind : IncidentKind) (c : Context) : Context × CallBody :=
  let row := ruleOf s kind
  let r : Ruling := ⟨row.sanction, row.amount, row.window, row.fallback, row.enforce⟩
  let n := min 255 (countOf c kind + 1)
  let c := { c with counts := c.counts.set (kindIndex kind) n }
  if row.allowance = none ∨ ∃ k, row.allowance = some k ∧ n ≤ k then
    (c, ⟨kind, .warning, n, r.sanction, calledAmount r, false, none⟩)
  else
    let p := sanctioned kind r c
    (p.1, ⟨kind, .penalty, n, r.sanction, calledAmount r, p.2.1, p.2.2⟩)

/-- The incident costs the car a black flag (R144). -/
def FlagsCar (b : CallBody) : Prop := b.cls = .penalty ∧ b.sanction = .blackFlag

/-- The state once a car's context has been replaced after a penalty: a black flag, given with its enforce, also
ends the car's service, may join it to the disqualified-stop set, and moves it to the tail of the order (R144,
R145, R99). -/
def struck (e : Entry) (c : Context) (flag : Option Bool) (s : State) : State :=
  match flag with
  | none => { s with contexts := s.contexts.set e c }
  | some enforce =>
    { s with
      contexts := s.contexts.set e c
      pit := { marks := s.pit.marks.set e none, holds := s.pit.holds.set e false }
      penalty := { s.penalty with stopSet :=
        if enforce = true ∧ e ∉ s.penalty.stopSet then s.penalty.stopSet ++ [e] else s.penalty.stopSet }
      order := { s.order with list := s.order.list.erase e ++ [e] } }

/-- A CALL is recorded, and sets CALL when the kind's row has attention; without attention CALL stays as it was
(R146, R147). -/
def Called (s t : State) (e : Entry) (time : Ticks) (b : CallBody) : Prop :=
  groupSet .call t = ((ruleOf s b.kind).attention || groupSet .call s) ∧
  (s.rstnLow = false → s.link.records.length < 64 → Recorded t ⟨e.val + 1, time, .call b⟩)

/-! ### Reports of gates -/

/-- A gate's count as race time, with the low-confidence flag: from the reference of an ALIGNED or STALE gate or
from the arrival, then brought between the arrival less LAG_MAX and the arrival (R34, R40 to R42, R47). -/
def converted (s : State) (g : GateId) (count : Count) (arrival : Ticks) : Ticks × Bool :=
  let v (r : Count) : Int := ((count.toNat : Int) - r.toNat) % 16777216
  let d (r : Count) : Int := if 8388608 ≤ v r then v r - 16777216 else v r
  let raw : Int × Bool := match (gate s g).alignment with
    | .aligned ref => (ref.time + d ref.count, false)
    | .stale ref => (ref.time + d ref.count, true)
    | .unaligned => ((arrival : Int) - (gate s g).hop, true)
  let low : Ticks := arrival - s.settings.timing.lagMax
  if (arrival : Int) < raw.1 then (arrival, true)
  else if raw.1 < low then (low, true)
  else (raw.1.toNat, raw.2)

/-- The state once a copy of a report has been offered to the upward pass-through queue, which MIRROR asks for
(R11, R45). -/
def mirrored (s : State) (g : GateId) (code : Byte) (count : Count) : State :=
  if s.settings.timing.mirror = true ∧ s.link.up.length < 8 then
    { s with link := { s.link with up := s.link.up ++ [xingFrame (BitVec.ofNat 8 (g.val + 1)) code count] } }
  else s

/-- The slot is UNUSED, or of a LINE not below LINES (R46). -/
def GateUnused (s : State) (g : GateId) : Prop :=
  (gate s g).role = .unused ∨ ((gate s g).role = .line ∧ s.settings.timing.lines ≤ (gate s g).line.val)

/-- The slot's lane is a member of LANES_ENABLED (R46). -/
def LaneOn (s : State) (g : GateId) : Prop :=
  1 ≤ (gate s g).lane ∧ s.settings.timing.lanesEnabled.getLsbD ((gate s g).lane - 1) = true

/-- The line a gate's zone, sector time and crossing go by: its own, or 0 for a pit gate (R50, R85). -/
def zoneLine (s : State) (g : GateId) : Line := if (gate s g).role = .line then (gate s g).line else 0

/-- A report of a gate at a time is at the same place as a last accepted crossing (R56). -/
def SamePlace (s : State) (g : GateId) (l : LastCrossing) : Prop :=
  (gate s g).role = l.role ∧
  (((gate s g).role = .line ∧ (gate s g).line = l.line) ∨ (gate s g).role = .pitEntry ∨ (gate s g).role = .pitExit)

/-- An entry is a candidate for an unreadable code (R50). -/
def Candidate (s : State) (g : GateId) (time : Ticks) (e : Entry) : Prop :=
  let slot := gate s g
  let c := ctx s e
  (match slot.role with
    | .line => c.state = .running ∧ c.expected = slot.line
    | .pitEntry => c.state = .running ∧ c.expected = 0
    | .pitExit => c.state = .inPit
    | .unused => False) ∧
  ∀ l, c.last = some l →
    (l.lane = slot.lane ∨ ((l.lane + 1 = slot.lane ∨ slot.lane + 1 = l.lane) ∧
      (lineRow s (zoneLine s g)).mode ≠ .veto ∧ s.throttle.zoneOverride = false ∧
      ¬(s.session.state = .caution ∧ s.settings.timing.cautionClose = true))) ∧
    l.time + (lineRow s (zoneLine s g)).minSector ≤ time

/-- No pending pair takes an unreadable code of the gate (R49). -/
def NoPartner (s : State) (g : GateId) : Prop :=
  (gate s g).role = .line →
  ∀ p ∈ s.resolver.pairs, p.line = (gate s g).line → p.lane = (gate s g).lane → p.gate = g

/-- A report is attributed to an entry: by its code, or as the only candidate of an unreadable one, which makes it
inferred (R48, R49, R51). -/
def Attributed (s : State) (g : GateId) (code : Byte) (time : Ticks) (e : Entry) (inferred : Bool) : Prop :=
  (code.toNat ≤ 15 ∧ inferred = false ∧
    ∀ f : Entry, ((entryRow s f).controller ≠ none ∧ (entryRow s f).code = code) ↔ f = e) ∨
  (code.toNat = 31 ∧ inferred = true ∧ NoPartner s g ∧ ∀ f : Entry, Candidate s g time f ↔ f = e)

/-- A line-lane has a PRIMARY and a SECONDARY LINE slot (R26). -/
def PairedPlace (s : State) (line : Line) (lane : Nat) : Prop :=
  (∃ g : GateId, (gate s g).role = .line ∧ (gate s g).line = line ∧ (gate s g).lane = lane ∧
    (gate s g).position = .primary) ∧
  (∃ g : GateId, (gate s g).role = .line ∧ (gate s g).line = line ∧ (gate s g).lane = lane ∧
    (gate s g).position = .secondary)

/-- A gate's report is handled singly: no LINE gate, or the only gate of its line-lane by pair position (R26,
R53). -/
def Single (s : State) (g : GateId) : Prop :=
  (gate s g).role = .line → ∃ pos : PairPosition, ∀ h : GateId, (gate s h).role = .line →
    (gate s h).line = (gate s g).line → (gate s h).lane = (gate s g).lane → (gate s h).position ≠ pos

/-- A single report passes every check of the resolver and is accepted for an entry (R46, R48 to R51, R53, R56,
R57). -/
structure Accepts (s : State) (g : GateId) (code : Byte) (count : Count) (arrival : Ticks) (e : Entry)
    (inferred : Bool) : Prop where
  high : s.rstnLow = false
  used : ¬GateUnused s g
  lane : LaneOn s g
  heat : s.session.state ≠ .idle ∧ s.session.state ≠ .closed
  who : Attributed s g code (converted s g count arrival).1 e inferred
  single : Single s g
  later : ∀ l, (ctx s e).last = some l → l.time < (converted s g count arrival).1
  clear : ∀ l, (ctx s e).last = some l → SamePlace s g l →
    l.time + s.settings.timing.lineHoldoff ≤ (converted s g count arrival).1

/-- A crossing at the gate is a lane change that a zone does not allow (R85). -/
def Foul (s : State) (g : GateId) (e : Entry) : Prop :=
  ∃ l, (ctx s e).last = some l ∧ l.lane ≠ (gate s g).lane ∧ s.session.state ≠ .held ∧
    ((lineRow s (zoneLine s g)).mode ≠ .openZone ∨
     (s.session.state = .caution ∧ s.settings.timing.cautionClose = true) ∨ s.throttle.zoneOverride = true)

/-- The last accepted crossing that a gate's report becomes (R70). -/
def crossingOf (s : State) (g : GateId) (time : Ticks) : LastCrossing :=
  ⟨time, (gate s g).line, (gate s g).lane, g.val + 1, (gate s g).role⟩

/-! ### Reports and their pairs -/

/-- The report of a gate for the entry it is attributed to, behind its conversion (R47, R59). -/
def singleReport (s : State) (g : GateId) (code : Byte) (count : Count) (arrival : Ticks) (e : Entry)
    (inferred : Bool) : Report where
  entry := e
  code := code
  time := (converted s g count arrival).1
  arrival := arrival
  gate := g.val + 1
  role := (gate s g).role
  line := (gate s g).line
  lane := (gate s g).lane
  lowConf := (converted s g count arrival).2
  inferred := inferred
  drill := false

/-- The held report of a pair, as it goes on alone (R52 to R55). -/
def heldAlone (p : PendingPair) : Report where
  entry := p.entry
  code := p.code
  time := p.time
  arrival := p.arrival
  gate := p.gate.val + 1
  role := .line
  line := p.line
  lane := p.lane
  lowConf := p.lowConf
  inferred := p.inferred
  drill := false

/-- A gate is the other one of a pair's line-lane (R52). -/
def Silent (s : State) (p : PendingPair) (g : GateId) : Prop :=
  (gate s g).role = .line ∧ (gate s g).line = p.line ∧ (gate s g).lane = p.lane ∧ g ≠ p.gate

/-- The gate table once the unpaired count of a pair's silent gate has risen by 1, saturating at 255 (R28, R55). -/
def UnpairedRaised (s : State) (p : PendingPair) (gates : Vector GateSlot 32) : Prop :=
  (∀ g : GateId, Silent s p g → (∀ h : GateId, Silent s p h → h = g) →
    gates = s.clock.gates.set g { gate s g with unpaired := min 255 ((gate s g).unpaired + 1) }) ∧
  ((∀ g : GateId, ¬Silent s p g) → gates = s.clock.gates)

/-- A pair has left the list (R52). -/
def unpaired (p : PendingPair) (s : State) : State :=
  { s with resolver := { s.resolver with pairs := s.resolver.pairs.erase p } }

/-- The overdue deadline that a crossing at a time sets for a car whose expected line is then `j` (R86). -/
def overdueFrom (s : State) (time : Ticks) (j : Line) : Option Deadline :=
  let limit := (lineRow s j).overdue
  if limit = 0 then none
  else if s.session.state = .held then some (.suspended (time + limit - s.clock.now))
  else some (.due (time + limit))

/-- A progress pair appended to a ring of at most 10 (R79). -/
def ringed (ring : List (Nat × Ticks)) (p : Nat) (time : Ticks) : List (Nat × Ticks) :=
  (if ring.length < 10 then ring else ring.drop 1) ++ [(p, time)]

/-- A period of the list touches a lap that begins at a time (R81). -/
def NeutralStart (s : State) (start : Ticks) : Prop :=
  ∃ p ∈ s.session.periods, p.start ≤ s.clock.now ∧ ∀ x, p.stop = some x → start ≤ x

/-! ### The work of a crossing -/

/-- A record is a CALL whose kind's row asks for attention (R147). -/
def asksCall (s : State) : RecordBody → Bool
  | .call b => (ruleOf s b.kind).attention
  | _ => false

/-- These records of one car and one time, and no others, have gone out since `s`: in this order behind the records
that a busy transmitter has waiting, and each of them waiting or on the wire where there was room for all. CALL is set
by a CALL whose row has attention and by nothing else, and no lamp has been issued (R15, R147). -/
structure Told (s t : State) (e : Entry) (time : Ticks) (l : List RecordBody) : Prop where
  call : groupSet .call t = (l.any (asksCall s) || groupSet .call s)
  records : s.link.records.length + l.length ≤ 64 → ∀ b ∈ l, Recorded t ⟨e.val + 1, time, b⟩
  joined : Joined s t (l.map fun b => ⟨e.val + 1, time, b⟩)
  lamp : LampKept s t

/-- None of the records is the CALL of a black flag. -/
def Spared (l : List RecordBody) : Prop := ∀ b, RecordBody.call b ∈ l → ¬FlagsCar b

/-- A car's context after an incident of a kind, behind the records made so far. -/
def charge (s : State) (kind : IncidentKind) (p : Context × List RecordBody) : Context × List RecordBody :=
  let q := judged s kind p.1
  (q.1, p.2 ++ [.call q.2])

/-- The context of an IN_PIT car whose transit has ended, and the records of that: RUNNING without its transit, the
head in service served or found short, and a short stop charged (R91, R159, R160). -/
def transitEnded (s : State) (c : Context) : Context × List RecordBody :=
  let ticks : Ticks := (c.transit.map fun x => x.stationary).getD 0
  let left (owed : List Owed) : Context := { c with state := .running, transit := none, owed := owed }
  match c.owed with
  | [] => (left [], [])
  | o :: rest =>
    if o.inService = false then (left (o :: rest), [])
    else if o.sanction = .stopGo ∧ ticks < o.amount * 100000 then
      charge s .pitShort (left ({ o with inService := false } :: rest), [.serve .short .stopGo (some ticks)])
    else (left rest, [.serve .served o.sanction (if o.sanction = .stopGo then some ticks else none)])

/-- The same of a car on the track: it is RUNNING again (R89). -/
def onTrack (s : State) (c : Context) : Context × List RecordBody :=
  if c.state = .inPit then transitEnded s c else ({ c with state := .running }, [])

/-- The context of a moving car when the work of its crossing begins, and the records made by then: an IN_PIT car's
transit has ended, an OFF_TRACK car is RUNNING, and a lane foul has been charged unless a short stop has cost the car a
black flag (R85, R89, R91). -/
def begun (s : State) (e : Entry) (foul : Bool) : Context × List RecordBody :=
  let p := onTrack s (ctx s e)
  if foul = true ∧ p.1.state ≠ .retired then charge s .changeFoul p else p

/-- The stationary marks and holds once the service of an IN_PIT car has ended (R159, R160). -/
def pitBegun (s : State) (e : Entry) : Pit :=
  if (ctx s e).state = .inPit ∧ ((ctx s e).owed.head?.map fun o => o.inService) = some true then
    { marks := s.pit.marks.set e none, holds := s.pit.holds.set e false }
  else s.pit

/-- The entries that a car's placement in CAUTION charges it with passing: cars RUNNING that stood ahead of it in the
list and in the snapshot and stand behind it in the list after, not yet charged, in the order of the snapshot (R102). -/
def overtaken (s t : State) (e : Entry) : List Entry :=
  let ahead (l : List Entry) (b a : Entry) : Bool := b ∈ l && l.idxOf b < l.idxOf a
  match s.order.snapshot with
  | none => []
  | some snapshot => if s.session.state ≠ .caution then [] else snapshot.filter fun b =>
      ahead s.order.list b e && b ∈ t.order.list && t.order.list.idxOf e < t.order.list.idxOf b &&
      snapshot.idxOf b < snapshot.idxOf e && (ctx s b).state == .running && !decide (b ∈ (ctx s e).charged)

/-- A car's context after it has been charged with the passes of a list, and the CALLs. A pass behind a black flag
joins the charged set and is otherwise discarded (R102, R134). -/
def passesCharged (s : State) (c : Context) (l : List Entry) : Context × List RecordBody :=
  l.foldl (fun p b =>
    let q : Context × List RecordBody := ({ p.1 with charged := p.1.charged ++ [b] }, p.2)
    if p.1.state = .retired then q else charge s .cautionPass q) (c, [])

/-- A car's context after the deadline check of a counted close, and the records of that: the entries past their
deadline and not in service leave the queue, each with a SERVE UNSERVED and an UNSERVED incident, until one of these
costs a black flag (R144, R161). -/
def deadlinesChecked (s : State) (c : Context) : Context × List RecordBody :=
  let due (o : Owed) : Bool := decide (o.deadlineLap ≤ c.laps) && !o.inService
  (c.owed.filter due).foldl (fun p o =>
      if p.1.state = .retired then p else charge s .unserved (p.1, p.2 ++ [.serve .unserved o.sanction none]))
    ({ c with owed := c.owed.filter fun o => !due o }, [])

/-- The state with a car's context and the running order replaced. -/
def placedAs (s : State) (e : Entry) (c : Context) (k : List Entry) : State :=
  { s with contexts := s.contexts.set e c, order := { s.order with list := k } }

/-- The work of car e's crossing in `s` has ended at a black flag, which leaves `u` behind these records: nothing more
has been done, or, where no other car is left afield in CHEQUERED, the heat has closed (R123, R144, R148). -/
def FlagEnds (s u t : State) (e : Entry) (time : Ticks) (l : List RecordBody) : Prop :=
  (GoesOn s e → Outputs 0x89 u t ∧ Told s t e time l) ∧
  (¬GoesOn s e → HeatCloses 0xC9 u t .allFinished (l.map fun b => ⟨e.val + 1, time, b⟩) ∧
    groupSet .call t = (l.any (asksCall s) || groupSet .call s))

/-- The figures of a placed car as the running order and the rings stand: its place counted from 1; its time behind the
newest pair of its own progress in the ring of the car directly ahead, not below 0, absent for the leader and where that
ring has no such pair; the whole laps between the leader's progress and its own (R103 to R105). -/
structure Stands (s : State) (e : Entry) (k : Standing) : Prop where
  position : ∀ pre post, s.order.list = pre ++ e :: post → e ∉ pre → k.position = pre.length + 1
  leads : s.order.list.head? = some e → k.gap = none
  apart : ∀ pre b post, s.order.list = pre ++ b :: e :: post → e ∉ pre → b ≠ e →
    (∀ x ∈ (ctx s b).ring, x.1 ≠ (ctx s e).progress) → k.gap = none
  gap : ∀ pre b post older newer t time, s.order.list = pre ++ b :: e :: post → e ∉ pre → b ≠ e →
    (ctx s b).ring = older ++ ((ctx s e).progress, t) :: newer → (∀ x ∈ newer, x.1 ≠ (ctx s e).progress) →
    (ctx s e).progressTime = some time → k.gap = some (if time < t then 0 else time - t)
  lapsDown : ∀ h, s.order.list.head? = some h →
    k.lapsDown = ((ctx s h).progress - (ctx s e).progress) / s.settings.timing.lines

/-! ### What time brings -/

/-- An event of the part's own clocks and transmitters has fallen due, and stays due until it is taken (R4, R16, R32,
R55, R64, R88, R114, R115, R121, R123, R193). -/
def Due (s : State) : Instr → Prop
  | .byteGapTimeout p =>
    let r := receiver p s
    r.asm.state ≠ .hunt ∧ r.current = none ∧ 100 ≤ r.gap ∧ ∀ b rest, r.coming ≠ (0, b) :: rest
  | .stationTransmitDone => ∃ f, s.link.stationTx = some ⟨f, 0⟩
  | .trackTransmitDone => ∃ f, s.link.trackTx = some ⟨f, 0⟩
  | .beaconRoundClose => ∃ r, s.clock.round = some r ∧ r.closes ≤ s.clock.now
  | .pairDeadline e => s.rstnLow = false ∧
    ∃ p, s.resolver.pairs.find? (fun q => q.entry == e) = some p ∧ p.deadline ≤ s.clock.now
  | .drillCrossingDue e => s.rstnLow = false ∧
    (s.session.state = .green ∨ s.session.state = .caution ∨ s.session.state = .chequered) ∧
    ∃ d, s.resolver.drills[e] = some d ∧ d.remaining = 0
  | .overdueExpiry e => (ctx s e).state = .running ∧ ∃ t, (ctx s e).deadline = some (.due t) ∧ t ≤ s.clock.now
  | .countdownStepEnd => s.rstnLow = false ∧ s.session.state = .countdown ∧
    ∃ c, s.session.countdown = some c ∧ c.phase = .steps ∧ c.remaining = 0
  | .randomHoldEnd => s.rstnLow = false ∧ s.session.state = .countdown ∧
    ∃ c, s.session.countdown = some c ∧ c.phase = .hold ∧ c.remaining = 0
  | .heatClockExpiry => s.rstnLow = false ∧ s.settings.heat.raceKind = .time ∧ s.session.heatClock = 0 ∧
    (s.session.state = .green ∨ s.session.state = .caution)
  | .graceExpiry => s.rstnLow = false ∧ s.session.state = .chequered ∧ s.session.grace = some 0
  | .beat => s.mgmt.beatTimer = 12500
  | _ => False

/-- A byte whose first bit came at `start` ends at a port: the assembler takes it, which RSTN low prevents, and a frame
that it completes is a command; `coming` is what the outside world will then send (R1, R2, R19). -/
def ByteEnds (port : Port) (low : Bool) (a b : Receiver) (brought : Option Instr) (v : Byte) (start : Ticks)
    (coming : List (Nat × Byte)) : Prop :=
  let fed := a.asm.feed v start
  b = { a with asm := if low then a.asm else fed.1, current := none, gap := 0, coming := coming } ∧
  brought = if low then none else fed.2.map (commandFor port)

/-- What one tick, begun at a race clock, does at a port's receive side, and the command it brings. A byte takes 1 tick
at the station and 2 at the track; the next byte begins when the idle ticks in front of it have run out; the ticks since
the end of the last byte are counted to 100 (R1, R2, R4, R19; log entry 6). -/
structure Carried (port : Port) (low : Bool) (now : Ticks) (a b : Receiver) (brought : Option Instr) : Prop where
  ends : ∀ x, a.current = some x → x.left ≤ 1 → ByteEnds port low a b brought x.value x.start a.coming
  on : ∀ x, a.current = some x → 1 < x.left → b = { a with current := some { x with left := x.left - 1 } } ∧
    brought = none
  whole : ∀ v rest, a.current = none → a.coming = (0, v) :: rest → port = .station →
    ByteEnds port low a b brought v now rest
  begins : ∀ v rest, a.current = none → a.coming = (0, v) :: rest → port = .track →
    b = { a with current := some ⟨v, now, 1⟩, coming := rest } ∧ brought = none
  waits : ∀ n v rest, a.current = none → a.coming = (n + 1, v) :: rest →
    b = { a with coming := (n, v) :: rest, gap := min 100 (a.gap + 1) } ∧ brought = none
  idles : a.current = none → a.coming = [] → b = { a with gap := min 100 (a.gap + 1) } ∧ brought = none

/-! ### Invariants -/

/-- The queues keep within their capacities and the bad-frame counts within a byte (R4, R11, R12, R14, R15). -/
structure Bounded (s : State) : Prop where
  up : s.link.up.length ≤ 8
  down : s.link.down.length ≤ 8
  drive : s.link.drive.length ≤ 2
  replies : s.link.replies.length ≤ 4
  records : s.link.records.length ≤ 64
  stationBad : s.link.stationBad ≤ 255
  trackBad : s.link.trackBad ≤ 255

/-- The beacon balance lies from -8 to +8, the race clock within 32 bits, and the LFSR is not 0 (R21, R29,
R66). -/
structure InRange (s : State) : Prop where
  low : -8 ≤ s.clock.balance
  high : s.clock.balance ≤ 8
  now : s.clock.now ≤ 4294967295
  lfsr : s.resolver.lfsr ≠ 0

/-- Held-from is present exactly while the session is HELD and is then GREEN, CAUTION or CHEQUERED; the
countdown is present exactly in COUNTDOWN, with a red count of 1 to 5 (R111). The heat settings bound the red
count of a countdown to come (R130). -/
structure SessionShape (s : State) : Prop where
  held : s.session.heldFrom.isSome = true ↔ s.session.state = .held
  origin : ∀ st, s.session.heldFrom = some st → st = .green ∨ st = .caution ∨ st = .chequered
  countdown : s.session.countdown.isSome = true ↔ s.session.state = .countdown
  red : ∀ c, s.session.countdown = some c → 1 ≤ c.red ∧ c.red ≤ 5
  steps : 1 ≤ s.settings.heat.countSteps ∧ s.settings.heat.countSteps ≤ 5

/-- The neutral-period list holds at most 32 periods, and at most its newest is without an end (R119). -/
structure PeriodsShape (s : State) : Prop where
  length : s.session.periods.length ≤ 32
  ended : ∀ p ∈ s.session.periods.dropLast, p.stop.isSome = true

/-- A car's context keeps within its widths: at most 4 owed entries with only the head in service (R152), the totals
(R141, R142), the counted laps (R82), the incident counts (R134), a ring of 10 (R79), the fuel level within FUEL_CAP
(R180, R182), nothing in the tank of an UNUSED context, and every disqualified car RETIRED (R95, R144). -/
structure ContextShape (cap : Nat) (c : Context) : Prop where
  owed : c.owed.length ≤ 4
  head : ∀ o ∈ c.owed.drop 1, o.inService = false
  seconds : c.penaltySeconds ≤ 65535
  deductions : c.deductions ≤ 255
  laps : c.laps ≤ 9999
  counts : ∀ k, countOf c k ≤ 255
  ring : c.ring.length ≤ 10
  fuel : c.fuel ≤ cap
  unused : c.state = .unused → c.fuel = 0
  flagged : c.disqualified = true → c.state = .retired

/-- Every car's context has its shape (R68). -/
def ContextsShape (s : State) : Prop := ∀ e : Entry, ContextShape s.settings.fuel.cap (ctx s e)

/-- The gate table keeps its fields in range (R24, R28, R37), no two slots collide, and at most 12 line-lanes are
paired (R26). -/
structure GatesShape (s : State) : Prop where
  strikes : ∀ g : GateId, (gate s g).strikes ≤ 3
  unpaired : ∀ g : GateId, (gate s g).unpaired ≤ 255
  hop : ∀ g : GateId, (gate s g).hop ≤ 255
  lane : ∀ g : GateId, 1 ≤ (gate s g).lane ∧ (gate s g).lane ≤ 6
  offLine : ∀ g : GateId, (gate s g).role ≠ .line → (gate s g).line = 0 ∧ (gate s g).position = .primary
  apart : ∀ g h : GateId, g ≠ h → (gate s g).role = (gate s h).role →
    (gate s g).role ≠ .pitEntry ∧ (gate s g).role ≠ .pitExit ∧
    ((gate s g).role = .line → ¬((gate s g).line = (gate s h).line ∧ (gate s g).lane = (gate s h).lane ∧
      (gate s g).position = (gate s h).position))
  paired : ∀ l : List (Line × Nat), l.Nodup → (∀ p ∈ l, PairedPlace s p.1 p.2) → l.length ≤ 12

/-- The pending-pair list holds at most one pair for each entry and one for each line-lane, at most 12 in all, and in a
heat only pairs of paired line-lanes (R52, R53). -/
structure PairsShape (s : State) : Prop where
  entries : (s.resolver.pairs.map fun p => p.entry).Nodup
  places : (s.resolver.pairs.map fun p => (p.line, p.lane)).Nodup
  length : s.resolver.pairs.length ≤ 12
  paired : s.session.state ≠ .idle → s.session.state ≠ .closed → ∀ p ∈ s.resolver.pairs, PairedPlace s p.line p.lane

/-- The running-order list holds every entry in use exactly once, in the order of R95. A car in the grid has no
progress time (R68, R73). -/
structure OrderShape (s : State) : Prop where
  once : s.order.list.Nodup
  members : ∀ e : Entry, e ∈ s.order.list ↔ (ctx s e).state ≠ .unused
  sorted : s.order.list.Pairwise (Ahead s)
  grid : ∀ e : Entry, (ctx s e).state = .grid → (ctx s e).progressTime = none

/-- A value lies within a range. -/
def Within (lo hi n : Nat) : Prop := lo ≤ n ∧ n ≤ hi

/-- The tables and settings keep within their ranges, and no two mapped rows share a controller number or a car code
(R130, R136, R138, R170, R177, R182, R188). -/
structure TablesShape (s : State) : Prop where
  entry : ∀ e : Entry, let r := entryRow s e
    (∀ n, r.controller = some n → Within 1 16 n) ∧ r.code.toNat ≤ 15 ∧ r.weight ≤ 15 ∧
    Within 100000 6000000 r.drillLap ∧ r.drillStep ≤ 500000 ∧ Within 1 6 r.drillLane
  apart : ∀ e f : Entry, e ≠ f → (entryRow s e).controller ≠ none → (entryRow s f).controller ≠ none →
    (entryRow s e).controller ≠ (entryRow s f).controller ∧ (entryRow s e).code ≠ (entryRow s f).code
  line : ∀ j : Line, ((lineRow s j).overdue = 0 ∨ Within 100000 6000000 (lineRow s j).overdue) ∧
    (lineRow s j).minSector ≤ 6000000
  rule : ∀ k : IncidentKind, let r := ruleOf s k
    r.allowance ∈ [none, some 0, some 1, some 2, some 4, some 8, some 16] ∧ Within 1 15 r.window ∧
    Within 1 255 r.fallback ∧
    (match r.sanction with
      | .timeAdd => Within 1 255 r.amount
      | .lapDeduct => Within 1 15 r.amount
      | .stopGo => Within 1 60 r.amount
      | _ => r.amount = 0)
  unserved : (ruleOf s .unserved).sanction ≠ .driveThrough ∧ (ruleOf s .unserved).sanction ≠ .stopGo
  timing : let x := s.settings.timing
    Within 25000 400000 x.beaconIvl ∧ Within 1 255 x.trimLimit ∧ Within 100 20000 x.lagMax ∧
    Within 1000 500000 x.lineHoldoff ∧ Within 10 2000 x.pairWindow ∧ x.missTol ≤ 4 ∧ Within 1 5 x.lines ∧
    Within 1 63 x.jumpLevel ∧ x.cautionCap ≤ 63 ∧ x.pitCap ≤ 63 ∧ x.lanesEnabled ≠ 0 ∧ x.lanesEnabled.toNat < 64
  heat : let x := s.settings.heat
    Within 1 9999 x.raceLaps ∧ Within 1 36000 x.heatLen ∧ Within 1 5 x.countSteps ∧ Within 50000 200000 x.stepIvl ∧
    x.randomMax ≤ 300000 ∧ Within 1 600 x.finishGrace
  fuel : let x := s.settings.fuel
    x.cap ≤ 60000 ∧ x.warn ≤ x.cap ∧ x.limp ≤ 63 ∧ Within 1 1000 x.refuel

end Sys2Proof.Safety
end

