-- ==== Sys2Proof/Certificates/Slice0/Obligations.lean ====
section
/-! DEFINITION. The statements for the provers. Each docstring names the rules of spec/ it stands on, and says
where a clause is the model's own choice. -/

open Sys2Proof Sys2Proof.Machine Sys2Proof.Safety

/-! ### The machine -/

/-- A waiting command is taken from the front of the queue and carried out with the rest of it (spec 95). -/
def Obligations.StepTakesFrontCommand : Prop :=
  ∀ (s : State) (c : Instr) (rest : List Instr), s.pending = c :: rest →
    step s = exec c { s with pending := rest }

/-- No command stops the part, and none touches the model's queue of commands or its count of draws. One that is no
request, no reset and not the end of a frame at the station port joins no reply to the reply queue (R7, R14). -/
def Obligations.EveryCommandCompletes : Prop :=
  ∀ (c : Instr) (s : State), ∃ t, exec c s = .next t ∧ t.pending = s.pending ∧ t.choices = s.choices ∧
    (requestCode c = none → c ∉ [.powerOnReset, .rstnFall, .rstnRelease, .stationTransmitDone] → RepliesKept s t)

/-- A step without a command, the model's choice (log entry 1). An idle transmitter first makes its choice. Where events
are then due, no time passes and each of them joins the queue once, in an open order (log entry 2). Where none is due,
one tick passes: transmissions, the bytes on the wire, the race clock, which holds at 4,294,967,295 (R21), the beat
timer (R193) and, while RSTN is high, the heat clock, the grace, the countdown and the drill schedules run in their
states (R64, R114, R120, R122), and tables, contexts and settings stay. What the tick brings joins the queue once: the
command of each port's frame, a beacon boundary, the clock limit and the stop of the race clock where it has moved to
them (R21, R23; log entry 31), and every event then due. That a byte is judged by the RSTN of the tick in which it ends
(log entry 6), that a timer at 0 is due as soon as its state lets it run (log entry 25), and that a pair behind its
deadline is due at once (log entry 32) are the model's choices too. -/
def Obligations.StepWithoutCommand : Prop :=
  ∀ s : State, s.pending = [] → ∃ t, step s = .next t ∧
    let u := settle s
    let now := min 4294967295 (s.clock.now + 1)
    let running : Prop := s.session.state = .green ∨ s.session.state = .caution ∨ s.session.state = .chequered
    let sending (x : Transmission) : Transmission := { x with remaining := x.remaining - 1 }
    Quiet s u ∧
    ((∃ c, Due u c) → t = { u with pending := t.pending, choices := t.choices } ∧ t.pending.Nodup ∧
      ∀ c, c ∈ t.pending ↔ Due u c) ∧
    ((∀ c, ¬Due u c) →
      t = { u with
        link := { u.link with
          stationRx := t.link.stationRx, trackRx := t.link.trackRx
          stationTx := u.link.stationTx.map sending, trackTx := u.link.trackTx.map sending }
        clock := { u.clock with now := now }
        mgmt := { s.mgmt with beatTimer := s.mgmt.beatTimer + 1 }
        session := if s.rstnLow = true then s.session else { s.session with
          countdown := if s.session.state = .countdown then
              s.session.countdown.map fun c => { c with remaining := c.remaining - 1 } else s.session.countdown
          heatClock := if running then s.session.heatClock - 1 else s.session.heatClock
          grace := if s.session.state = .chequered then s.session.grace.map fun n => n - 1 else s.session.grace }
        resolver := { s.resolver with drills := t.resolver.drills }
        pending := t.pending, choices := t.choices } ∧
      (∀ e : Entry, t.resolver.drills[e] =
        if s.rstnLow = false ∧ running then s.resolver.drills[e].map fun d => { d with remaining := d.remaining - 1 }
        else s.resolver.drills[e]) ∧
      ∃ (a b : Option Instr) (due : List Instr),
        Carried .station s.rstnLow s.clock.now s.link.stationRx t.link.stationRx a ∧
        Carried .track s.rstnLow s.clock.now s.link.trackRx t.link.trackRx b ∧
        due.Nodup ∧ (∀ c, c ∈ due ↔ Due t c) ∧
        t.pending.Perm (a.toList ++ b.toList ++
          (if now ≠ s.clock.now ∧ now % s.settings.timing.beaconIvl = 0 then [.beaconBoundary] else []) ++
          (if now ≠ s.clock.now ∧ now = 4200000000 then [.clockLimit] else []) ++
          (if now ≠ s.clock.now ∧ now = 4294967295 then [.raceClockStop] else []) ++ due))

/-! ### Frames and commands -/

/-- A command that a frame brings is the command its frame decodes to, with every operand at every value its
layout admits (R6, R7, R9, R10 and the request index). Which operands count as well formed is the model's choice (log
entry 8), and so is the row to which the argument byte of an ISSUE, DRILL or RESTART frame gives it (log entry 20). -/
def Obligations.FrameDecodesToItsCommand : Prop :=
  ∀ (i : Instr) (port : Port) (ftype : Byte) (body : List Byte) (a : Ticks), WellFormed i = true →
    frameOf i = some (port, ftype, body) → (∀ b, arrivalOf i = some b → b = a) → commandOf port a ftype body = i

/-- Every frame on the wire is received by an assembler in HUNT as that frame with its own check and with the
first bit of its start marker as its arrival, and the assembler is back in HUNT (R1, R2, R3). -/
def Obligations.WireIsReceived : Prop :=
  ∀ (a : Assembler) (f : Frame) (width : Nat) (start : Ticks), a.state = .hunt → f.body.length ≤ 60 →
    ∃ b, a.feedAll width start f.wire = (b, [.frame start f f.check]) ∧ b.state = .hunt

/-- A frame whose two check bytes differ from the check over its type, length and body is the command
FRAME_CHECK_FAILED of its port (R3); a length byte above 60 is LENGTH_ABOVE_60, and the assembler is in HUNT at
once (R2). A frame whose check holds is the command MALFORMED_FRAME of its port exactly where the block that would
consume it does not admit its body (R4, R6, R7): a DRIVE of no entries, of more than 16 or of another length than its
count asks for, an MGMT without a tag and a code, an XING or a GSTAT of another length, with a gate outside 1 to 32,
with a car code that is none, or of a kind other than 1 and 2. -/
def Obligations.DamagedFramesAreBadFrames : Prop :=
  (∀ (a : Assembler) (f : Frame) (hi lo : Byte) (width : Nat) (start : Ticks) (port : Port), a.state = .hunt →
    f.body.length ≤ 60 → hi ++ lo ≠ f.check →
    ∃ b, a.feedAll width start (0xA5 :: (f.covered ++ [hi, lo])) = (b, [.frame start f (hi ++ lo)]) ∧
      b.state = .hunt ∧ commandFor port (.frame start f (hi ++ lo)) = .frameCheckFailed port) ∧
  (∀ (a : Assembler) (ftype n : Byte) (width : Nat) (start : Ticks) (port : Port), a.state = .hunt → 60 < n.toNat →
    ∃ b, a.feedAll width start [0xA5, ftype, n] = (b, [.tooLong]) ∧ b.state = .hunt ∧
      commandFor port .tooLong = .lengthAbove60 port) ∧
  ∀ (f : Frame) (arrival : Ticks),
    let byte (i : Nat) : Nat := (f.body.getD i 0).toNat
    let gateId : Prop := 1 ≤ byte 0 ∧ byte 0 ≤ 32
    (commandFor .station (.frame arrival f f.check) = .malformedFrame .station ↔
      (f.ftype = 0x21 ∧ ¬(1 ≤ byte 0 ∧ byte 0 ≤ 16 ∧ f.body.length = 1 + 3 * byte 0)) ∨
      (f.ftype = 0x31 ∧ f.body.length < 2)) ∧
    (commandFor .track (.frame arrival f f.check) = .malformedFrame .track ↔
      (f.ftype = 0x11 ∧ ¬(f.body.length = 5 ∧ gateId ∧ (byte 1 ≤ 15 ∨ byte 1 = 31))) ∨
      (f.ftype = 0x12 ∧ ¬(gateId ∧ ((byte 1 = 1 ∧ f.body.length = 6) ∨ (byte 1 = 2 ∧ f.body.length = 2)))))

/-! ### Invariants -/

/-- The queues keep within their capacities and the bad-frame counts within a byte, at every step (R4, R11 to
R15). Over a gate table in shape (whose own invariant is StepKeepsInRange's), the pending-pair list keeps at most one
pair for each entry and for each line-lane, at most 12 in all, and in a heat only pairs of paired line-lanes (R26, R52,
R53). -/
def Obligations.StepKeepsBounded : Prop :=
  ∀ s t : State, step s = .next t →
    (Bounded s → Bounded t) ∧ (GatesShape s → PairsShape s → PairsShape t)

/-- The beacon balance stays from -8 to +8, the race clock within 32 bits and the LFSR off 0, at every step (R21, R29,
R66). The gate table keeps its fields in range, no two slots collide and at most 12 line-lanes are paired (R24, R26,
R28, R37). The entry, line and rule tables and every setting keep within their ranges, and no two mapped rows share a
controller number or a car code (R130, R136, R138, R170, R177, R182, R188). -/
def Obligations.StepKeepsInRange : Prop :=
  ∀ s t : State, step s = .next t →
    (InRange s → InRange t) ∧ (GatesShape s → GatesShape t) ∧ (TablesShape s → TablesShape t)

/-- Held-from and the countdown are present exactly in the states that have them, at every step (R111). -/
def Obligations.StepKeepsSessionShape : Prop :=
  ∀ s t : State, SessionShape s → step s = .next t → SessionShape t

/-- The neutral-period list keeps at most 32 periods, all but the newest with an end, at every step (R119). -/
def Obligations.StepKeepsPeriodsShape : Prop :=
  ∀ s t : State, PeriodsShape s → step s = .next t → PeriodsShape t

/-- At every step every owed queue keeps at most 4 entries with only its head in service (R152), the totals their
widths (R141, R142), the counted laps stay within 9,999 (R82), the incident counts within 255 (R134), the recent-progress
ring within 10 pairs (R79), the fuel level within FUEL_CAP (R180, R182), and a disqualified car stays RETIRED (R144). The
running-order list keeps every entry in use exactly once, in the order of R95 (R68, R95 to R99). -/
def Obligations.StepKeepsContextsShape : Prop :=
  ∀ s t : State, step s = .next t → (ContextsShape s → ContextsShape t) ∧ (OrderShape s → OrderShape t)

/-- The invariants hold after reset. -/
def Obligations.ResetHasInvariants : Prop :=
  Bounded State.reset ∧ InRange State.reset ∧ SessionShape State.reset ∧ PeriodsShape State.reset ∧
  ContextsShape State.reset ∧ GatesShape State.reset ∧ PairsShape State.reset ∧ OrderShape State.reset ∧
  TablesShape State.reset

/-! ### Reset -/

/-- The values that the spec gives for power-on reset, in the chapters' own tables (R20, R44, R67, R69, R110,
R133, R137, R151, R168, R184, R191, R193). -/
def Obligations.ResetValues : Prop :=
  let s := State.reset
  s.link.stationRx.asm.state = .hunt ∧ s.link.trackRx.asm.state = .hunt ∧
  s.link.stationTx = none ∧ s.link.trackTx = none ∧
  s.link.up = [] ∧ s.link.down = [] ∧ s.link.drive = [] ∧ s.link.lamp = none ∧ s.link.replies = [] ∧
  s.link.records = [] ∧ s.link.stationBad = 0 ∧ s.link.trackBad = 0 ∧
  s.clock.now = 0 ∧ s.clock.balance = 0 ∧ s.clock.round = none ∧ s.clock.number = 0 ∧
  (∀ g : GateId, gate s g = ⟨.unused, 0, 1, .primary, 0, .unaligned, 0, 0⟩) ∧
  s.resolver.pairs = [] ∧ s.resolver.drillOn = false ∧ s.resolver.lfsr = 0xACE1 ∧
  (∀ e : Entry, s.resolver.drills[e] = none) ∧
  (∀ e : Entry, ctx s e = freshContext .unused 0) ∧
  s.order = ⟨[], none⟩ ∧
  s.session = ⟨.idle, none, false, none, none, 0, none, [], 1⟩ ∧
  s.settings.heat = ⟨.laps, 20, 300, 5, 100000, 100000, 30, .hold⟩ ∧
  ruleOf s .jumpStart = ⟨some 0, .stopGo, 5, 3, 10, true, true⟩ ∧
  ruleOf s .cautionPass = ⟨some 0, .driveThrough, 0, 3, 15, false, true⟩ ∧
  ruleOf s .changeFoul = ⟨some 2, .timeAdd, 5, 3, 10, false, false⟩ ∧
  ruleOf s .pitShort = ⟨some 0, .note, 0, 3, 10, false, false⟩ ∧
  ruleOf s .lineMiss = ⟨some 2, .timeAdd, 10, 3, 10, false, true⟩ ∧
  ruleOf s .offTrack = ⟨none, .note, 0, 3, 10, false, false⟩ ∧
  ruleOf s .unserved = ⟨some 0, .timeAdd, 30, 3, 10, false, true⟩ ∧
  s.penalty.stopSet = [] ∧
  (∀ e : Entry, s.pit.marks[e] = none ∧ s.pit.holds[e] = false) ∧
  (∀ e : Entry, entryRow s e = ⟨none, 0, 1, .off, 1000000, 0, 1⟩) ∧
  (∀ j : Line, lineRow s j = ⟨0, .openZone, 0⟩) ∧ s.throttle.zoneOverride = false ∧
  s.settings.fuel = ⟨0, 0, 12, 100⟩ ∧
  s.settings.timing = ⟨100000, 20, 2000, 50000, 200, 1, 1, false, true, 8, 20, true, 24, 3, true⟩ ∧
  s.mgmt.summary = 0 ∧ s.mgmt.mask = 154 ∧ s.mgmt.beatFlag = false ∧ s.mgmt.beatInhibit = true

/-- POWER_ON_RESET puts every block into its power-on state and issues LAMP DARK, which goes out at once; with
RSTN low the part then takes a fall: nothing goes out and the zone override is set (R20, R127, R195). That the frame
buffer, the arrival time, the length and the gap count of the receivers stand at 0 or empty is the model's choice
(log entry 24, UNSAFE); the spec gives them no reset value. -/
def Obligations.PowerOnResetResult : Prop :=
  ∀ s : State, ∃ t, exec .powerOnReset s = .next t ∧
    t = { State.reset with
      link := t.link, throttle := { Throttle.reset with zoneOverride := s.rstnLow }
      rstnLow := s.rstnLow, choices := s.choices, pending := s.pending } ∧
    t.link.stationRx = { idleReceiver with coming := s.link.stationRx.coming } ∧
    t.link.trackRx = { idleReceiver with coming := s.link.trackRx.coming } ∧
    t.link.up = [] ∧ t.link.down = [] ∧ t.link.drive = [] ∧ t.link.lamp = none ∧ t.link.replies = [] ∧
    t.link.records = [] ∧ t.link.stationTx = none ∧ t.link.stationBad = 0 ∧ t.link.trackBad = 0 ∧
    t.link.trackTx = if s.rstnLow then none else some ⟨⟨0x23, [0, 0]⟩, 14⟩

/-- RSTN_FALL: every holding place is emptied, both assemblers go to HUNT and the bad-frame counts stay (R19). The
transmissions are cut at the end of the byte being sent: a station byte takes one tick, so that none is left, and a
track byte takes two, so that an odd number of remaining ticks leaves the last of them (log entry 7: the model keeps
those ticks of the frame). The overdue deadlines stand still with their remaining ticks (R87), a running heat opens a
neutral period unless one is open (R119, R132) and marks the current lap of every context in use (R81; log entry 19:
the model marks FINISHED and RETIRED cars too), the stationary marks go (R157), the zone override is set (R176), and
nothing else changes. -/
def Obligations.RstnFallResult : Prop :=
  ∀ s : State, s.rstnLow = false →
    let opens : Bool := (s.session.state == .green || s.session.state == .caution || s.session.state == .chequered) &&
      s.session.periods.all fun p => p.stop.isSome
    let hunting (r : Receiver) : Receiver := { r with asm := { r.asm with state := .hunt } }
    ∃ t, exec .rstnFall s = .next t ∧
      t = { s with
        link := { s.link with
          stationRx := hunting s.link.stationRx, trackRx := hunting s.link.trackRx
          up := [], down := [], drive := [], lamp := none, replies := [], records := [], stationTx := none
          trackTx := match s.link.trackTx with
            | some x => if x.remaining % 2 = 1 then some { x with remaining := 1 } else none
            | none => none }
        rstnLow := true, contexts := t.contexts
        session := { s.session with periods := t.session.periods }
        pit := { s.pit with marks := Vector.replicate 16 none }
        throttle := { s.throttle with zoneOverride := true } } ∧
      (∀ e : Entry, ctx t e = { ctx s e with
        deadline := (ctx s e).deadline.map (suspendDeadline s.clock.now)
        marks := if opens = true ∧ (ctx s e).state ≠ .unused then { (ctx s e).marks with neutral := true }
          else (ctx s e).marks }) ∧
      (opens = false → t.session.periods = s.session.periods) ∧
      (opens = true → s.session.periods.length < 32 →
        t.session.periods = s.session.periods ++ [⟨s.clock.now, none⟩]) ∧
      (opens = true → ∀ a b rest, s.session.periods = a :: b :: rest → 32 ≤ s.session.periods.length →
        t.session.periods = ⟨a.start, b.stop⟩ :: (rest ++ [⟨s.clock.now, none⟩]))

/-- RSTN_RELEASE: the open round is closed, every gate in use becomes UNALIGNED with its strikes kept, B is 0 (R43), the
pending pairs go (R58); a running heat goes to HELD with held-from set and no new period, a countdown to ARMED, any
other state stays (R132). The lamp of the state the session then stands in is issued, SESSION is set, and a move emits a
SESSION record with cause LINE_RESET (R132). That both transmitters are idle at a release within a byte that the fall
has cut is the model's reading (log entry 7). -/
def Obligations.RstnReleaseResult : Prop :=
  ∀ s : State, s.rstnLow = true →
    let running : Bool := s.session.state == .green || s.session.state == .caution || s.session.state == .chequered
    let session : Session :=
      if running then { s.session with state := .held, heldFrom := some s.session.state }
      else if s.session.state = .countdown then { s.session with state := .armed, countdown := none }
      else s.session
    ∃ t, exec .rstnRelease s = .next t ∧ t.rstnLow = false ∧ t.session = session ∧
      t.clock = { s.clock with gates := t.clock.gates, round := none, balance := 0 } ∧
      (∀ g : GateId, gate t g =
        if (gate s g).role = .unused then gate s g else { gate s g with alignment := .unaligned }) ∧
      t.resolver = { s.resolver with pairs := [] } ∧
      (∀ e : Entry, ctx t e = if running then
          { ctx s e with deadline := (ctx s e).deadline.map (suspendDeadline s.clock.now) } else ctx s e) ∧
      t.pit.holds = s.pit.holds ∧ t.pit.marks = (if running then Vector.replicate 16 none else s.pit.marks) ∧
      t.order = s.order ∧ t.penalty = s.penalty ∧ t.throttle = s.throttle ∧ t.settings = s.settings ∧
      LinkKept { s.link with stationTx := none, trackTx := none } t.link ∧ groupSet .session t = true ∧
      t.mgmt = { s.mgmt with summary := t.mgmt.summary } ∧
      t.mgmt.summary &&& ~~~(0xC0 : Byte) = s.mgmt.summary &&& ~~~(0xC0 : Byte) ∧
      (s.session.state = .idle ∨ s.session.state = .closed → Shows t ⟨.dark, 0⟩) ∧
      (running = true ∨ s.session.state = .countdown ∨ s.session.state = .armed ∨ s.session.state = .held →
        Shows t ⟨.redHold, 0⟩) ∧
      (running = true → s.link.records.length < 64 →
        Recorded t ⟨0, s.clock.now, .session .held .lineReset s.session.heatClock⟩) ∧
      (s.session.state = .countdown → s.link.records.length < 64 →
        Recorded t ⟨0, s.clock.now, .session .armed .lineReset s.session.heatClock⟩)


/-! ### The ports -/

/-- A frame with a failed check, a length byte above 60, a malformed frame and a gap of 100 ticks inside a frame
are bad frames: the frame goes no further, the port's count rises by 1 and saturates at 255, LINK is set, the
assembler is in HUNT (R4). No reply, record or lamp comes of it. -/
def Obligations.BadFramesAreCounted : Prop :=
  ∀ (s : State) (c : Instr) (p : Port), s.rstnLow = false →
    (c = .frameCheckFailed p ∨ c = .lengthAbove60 p ∨ c = .malformedFrame p ∨
     (c = .byteGapTimeout p ∧ gapDue (receiver p s) = true)) →
    ∃ t, exec c s = .next t ∧ groupSet .link t = true ∧ (receiver p t).asm.state = .hunt ∧
      Outputs 0x01 { s with link := match p with
        | .station => { s.link with stationBad := min 255 (s.link.stationBad + 1) }
        | .track => { s.link with trackBad := min 255 (s.link.trackBad + 1) } } t ∧
      RecordsKept s t ∧ LampKept s t ∧ RepliesKept s t

/-- A passed-through frame joins the tail of its queue of 8, or goes out at once; a full queue keeps what it holds, but
for the head where its transmitter is idle, the frame is dropped and LINK is set. A BEAC or LAMP frame from the station
is discarded with LINK, and nothing else happens, to the bad-frame counts least of all (R9, R10, R11). None of the three
brings a reply, a record or a lamp. -/
def Obligations.PassedFramesJoinTheirQueue : Prop :=
  ∀ (s : State) (ftype : Byte) (body : List Byte), s.rstnLow = false →
    let silent (t : State) : Prop := RecordsKept s t ∧ LampKept s t ∧ RepliesKept s t
    (∃ t, exec (.trackPassThrough ftype body) s = .next t ∧ silent t ∧
      if s.link.up.length < 8 then
        Outputs 0 { s with link := { s.link with up := s.link.up ++ [⟨ftype, body⟩] } } t ∧
        (t.link.up.getLast? = some ⟨ftype, body⟩ ∨
         t.link.stationTx = some ⟨⟨ftype, body⟩, body.length + 5⟩) ∧
        (s.link.stationTx.isSome = true → t.link.up = s.link.up ++ [⟨ftype, body⟩])
      else Outputs 0x01 s t ∧ groupSet .link t = true ∧
        (s.link.stationTx.isSome = true → t.link.up = s.link.up)) ∧
    (∃ t, exec (.stationPassThrough ftype body) s = .next t ∧ silent t ∧
      if s.link.down.length < 8 then
        Outputs 0 { s with link := { s.link with down := s.link.down ++ [⟨ftype, body⟩] } } t ∧
        (t.link.down.getLast? = some ⟨ftype, body⟩ ∨
         t.link.trackTx = some ⟨⟨ftype, body⟩, 2 * (body.length + 5)⟩) ∧
        (s.link.trackTx.isSome = true → t.link.down = s.link.down ++ [⟨ftype, body⟩])
      else Outputs 0x01 s t ∧ groupSet .link t = true ∧
        (s.link.trackTx.isSome = true → t.link.down = s.link.down)) ∧
    (∃ t, exec (.stationBeacLampDiscard ftype body) s = .next t ∧ Outputs 0x01 s t ∧ groupSet .link t = true ∧ silent t)

/-- When a frame has been sent at the station port, the head of the reply queue goes next, then that of the
upward pass-through queue, then that of the record queue; with all three empty the transmitter is idle (R16,
R17). -/
def Obligations.StationTransmitterChooses : Prop :=
  ∀ (s : State) (f : Frame), s.rstnLow = false → s.link.stationTx = some ⟨f, 0⟩ →
    ∃ t, exec .stationTransmitDone s = .next t ∧
      Outputs 0 { s with link := { s.link with stationTx := none } } t ∧ LampKept s t ∧
      match s.link.replies, s.link.up, s.link.records with
      | r :: rest, _, _ => t.link.stationTx = some (transmit .station r.frame) ∧ t.link.replies = rest ∧
          t.link.up = s.link.up ∧ t.link.records = s.link.records
      | [], g :: rest, _ => t.link.stationTx = some (transmit .station g) ∧ t.link.replies = [] ∧
          t.link.up = rest ∧ t.link.records = s.link.records
      | [], [], r :: rest => t.link.stationTx = some (transmit .station r.frame) ∧ t.link.replies = [] ∧
          t.link.up = [] ∧ t.link.records = rest
      | [], [], [] => t.link.stationTx = none ∧ t.link.replies = [] ∧ t.link.up = [] ∧ t.link.records = []

/-- When a frame has been sent at the track port, the order is forced beacon, drive frame, lamp, due beacon,
passed-through frame, early beacon, each beacon under its own conditions. A beacon sent advances the number,
lowers B by 1 and opens a round of 5,000 ticks (R18, R30, R31). -/
def Obligations.TrackTransmitterChooses : Prop :=
  ∀ (s : State) (f : Frame), s.rstnLow = false → s.link.trackTx = some ⟨f, 0⟩ →
    let idle : State := { s with link := { s.link with trackTx := none } }
    let beacon : State := { idle with
      link := { s.link with trackTx := some ⟨⟨0x22, [s.clock.number + 1]⟩, 12⟩ }
      clock := { s.clock with
        number := s.clock.number + 1, balance := s.clock.balance - 1
        round := some ⟨s.clock.number + 1, s.clock.now, s.clock.now + 5000, []⟩ } }
    let chosen : State :=
      if s.clock.round = none ∧ s.clock.balance = 8 then beacon
      else match s.link.drive, s.link.lamp with
        | d :: rest, _ => { idle with link := { s.link with
            drive := rest, trackTx := some (transmit .track (driveFrameOf d)) } }
        | [], some l => { idle with link := { s.link with
            lamp := none, trackTx := some (transmit .track l.frame) } }
        | [], none =>
          if s.clock.round = none ∧ 1 ≤ s.clock.balance ∧ s.clock.balance ≠ 8 then beacon
          else match s.link.down with
            | g :: rest => { idle with link := { s.link with
                down := rest, trackTx := some (transmit .track g) } }
            | [] =>
              if s.clock.round = none ∧ -8 < s.clock.balance ∧
                  (s.session.state = .idle ∨ s.session.state = .armed ∨ s.session.state = .held ∨
                   s.session.state = .closed) then beacon
              else idle
    ∃ t, exec .trackTransmitDone s = .next t ∧
      t = { chosen with link := { chosen.link with
        stationTx := t.link.stationTx, replies := t.link.replies, up := t.link.up, records := t.link.records } } ∧
      (s.link.stationTx.isSome = true → t.link = chosen.link) ∧
      RepliesKept s t ∧ RecordsKept s t ∧
      Drawn .station id s.link.stationTx t.link.stationTx s.link.up t.link.up

/-! ### The race clock and the gates -/

/-- A beacon boundary raises B by 1, up to +8, and ages the gate table: past 6,000,000 ticks a gate becomes
UNALIGNED, past nine intervals an ALIGNED gate becomes STALE, each with GATE and its record, and every other slot
and every other field of a slot stays (R23, R29, R38, R39). That GATE is set while RSTN is low too, when R19 discards
the record, is the model's choice (log entry 10), and so is the boundary at the race time 4,294,967,295 where BEACON_IVL
divides it, although the clock then stands (log entry 31). -/
def Obligations.BoundaryRaisesBalanceAndAges : Prop :=
  ∀ s : State, 0 < s.clock.now → s.clock.now % s.settings.timing.beaconIvl = 0 →
    let aged (slot : GateSlot) : Machine.Alignment × Option GateCondition :=
      match slot.alignment with
      | .unaligned => (.unaligned, none)
      | .aligned ref =>
        if 6000000 < s.clock.now - ref.aligned then (.unaligned, some .unaligned)
        else if 9 * s.settings.timing.beaconIvl < s.clock.now - ref.aligned then (.stale ref, some .stale)
        else (.aligned ref, none)
      | .stale ref =>
        if 6000000 < s.clock.now - ref.aligned then (.unaligned, some .unaligned) else (.stale ref, none)
    ∃ t, exec .beaconBoundary s = .next t ∧
      Outputs 0x82 { s with clock := { s.clock with
        gates := t.clock.gates
        balance := if s.clock.balance = 8 then 8 else s.clock.balance + 1 } } t ∧
      (∀ g : GateId, gate t g = { gate s g with alignment := (aged (gate s g)).1 }) ∧
      (∀ (g : GateId) (k : GateCondition), (aged (gate s g)).2 = some k → groupSet .gate t = true ∧
        (s.rstnLow = false → s.link.records.length ≤ 32 →
          Recorded t ⟨g.val + 1, s.clock.now, .gate k none⟩)) ∧
      RepliesKept s t ∧ LampKept s t ∧
      ((∀ g : GateId, (aged (gate s g)).2 = none) → t.mgmt.summary = s.mgmt.summary ∧ RecordsKept s t)

/-- The first reply of an UNALIGNED gate in an open round aligns it in full: ref_time is the send time plus the
hop delay, ref_count the latched count, the last alignment time the send time, the strike count 0; a GATE record
ALIGNED_FULL, no group, and the gate joins the round's set. A reply without an open round, of another number, of an
UNUSED slot or of a gate that has replied in the round is discarded without a trace (R33, R35, R39). -/
def Obligations.ReplyAlignsInFull : Prop :=
  (∀ (s : State) (g : GateId) (r : Round) (count : Count) (arrival : Ticks), s.rstnLow = false →
    s.clock.round = some r → (gate s g).role ≠ .unused → g ∉ r.replied → (gate s g).alignment = .unaligned →
    ∃ t, exec (.beaconReply (BitVec.ofNat 8 (g.val + 1)) r.number count arrival) s = .next t ∧
      Outputs 0x80 { s with clock := { s.clock with
        round := some { r with replied := r.replied ++ [g] }
        gates := s.clock.gates.set g { gate s g with
          alignment := .aligned ⟨r.sent + (gate s g).hop, count, r.sent⟩, strikes := 0 } } } t ∧
      LampKept s t ∧ Joined s t [⟨g.val + 1, arrival, .gate .alignedFull none⟩] ∧
      (s.link.records.length < 64 → t.mgmt.summary = s.mgmt.summary ∧
        Recorded t ⟨g.val + 1, arrival, .gate .alignedFull none⟩)) ∧
  ∀ (s : State) (g : GateId) (number : Byte) (count : Count) (arrival : Ticks),
    (∀ r, s.clock.round = some r → r.number ≠ number ∨ (gate s g).role = .unused ∨ g ∈ r.replied) →
    ∃ t, exec (.beaconReply (BitVec.ofNat 8 (g.val + 1)) number count arrival) s = .next t ∧ Quiet s t

/-- A reply of an ALIGNED or STALE gate trims it. The signed count difference is taken modulo 16,777,216 (R34);
the error is send time plus hop delay less ref_time plus that difference; the correction is the error brought to
TRIM_LIMIT (R36). Within the limit the strike count is 0 and no record goes; the first and second strike keep the
trimmed reference with a record TRIM_CLAMPED; the third strike, and (log entry 11) a new ref_time off the race
clock's range, demotes the gate with a record UNALIGNED (R37, R39). -/
def Obligations.ReplyTrims : Prop :=
  ∀ (s : State) (g : GateId) (r : Round) (ref : Reference) (count : Count) (arrival : Ticks), s.rstnLow = false →
    s.clock.round = some r → (gate s g).role ≠ .unused → g ∉ r.replied →
    ((gate s g).alignment = .aligned ref ∨ (gate s g).alignment = .stale ref) →
    let v : Int := ((count.toNat : Int) - ref.count.toNat) % 16777216
    let d : Int := if 8388608 ≤ v then v - 16777216 else v
    let limit : Int := s.settings.timing.trimLimit
    let error : Int := (r.sent + (gate s g).hop) - (ref.time + d)
    let c : Int := if error < -limit then -limit else if limit < error then limit else error
    let time : Int := ref.time + d + c
    let slot : GateSlot := gate s g
    let step : GateSlot × Option GateCondition :=
      if time < 0 ∨ 4294967295 < time then
        ({ slot with alignment := .unaligned, strikes := 3 }, some .unaligned)
      else if c = error then ({ slot with alignment := .aligned ⟨time.toNat, count, r.sent⟩, strikes := 0 }, none)
      else if 3 ≤ slot.strikes + 1 then ({ slot with alignment := .unaligned, strikes := 3 }, some .unaligned)
      else ({ slot with alignment := .aligned ⟨time.toNat, count, r.sent⟩, strikes := slot.strikes + 1 },
        some .trimClamped)
    ∃ t, exec (.beaconReply (BitVec.ofNat 8 (g.val + 1)) r.number count arrival) s = .next t ∧
      Outputs 0x82 { s with clock := { s.clock with
        round := some { r with replied := r.replied ++ [g] }
        gates := s.clock.gates.set g step.1 } } t ∧ LampKept s t ∧
      match step.2 with
      | none => t.mgmt.summary = s.mgmt.summary ∧ RecordsKept s t
      | some k => groupSet .gate t = true ∧ Joined s t [⟨g.val + 1, arrival, .gate k (some error)⟩] ∧
          (s.link.records.length < 64 → Recorded t ⟨g.val + 1, arrival, .gate k (some error)⟩)

/-- The open round is discarded at its close time, and at the stop of the race clock when its close time lies
beyond 4,294,967,295. A beat sets the beat flag unless the beat inhibit is set, and the next 12,500 ticks begin
(R21, R32, R193). -/
def Obligations.RoundsCloseAndBeats : Prop :=
  (∀ (s : State) (r : Round), s.clock.round = some r →
    (r.closes ≤ s.clock.now → ∃ t, exec .beaconRoundClose s = .next t ∧
      Quiet { s with clock := { s.clock with round := none } } t) ∧
    (s.clock.now = 4294967295 → 4294967295 < r.closes → ∃ t, exec .raceClockStop s = .next t ∧
      Quiet { s with clock := { s.clock with round := none } } t)) ∧
  ∀ s : State, s.mgmt.beatTimer = 12500 → ∃ t, exec .beat s = .next t ∧
    Quiet { s with mgmt := { s.mgmt with
      beatTimer := 0, beatFlag := if s.mgmt.beatInhibit then s.mgmt.beatFlag else true } } t

/-! ### Requests that load settings and tables -/

/-- SET_TIMING in IDLE or CLOSED, and in any state with LINES unchanged, loads its fifteen settings together,
each number brought to the nearer bound of its range; a LANES_ENABLED byte that is no set of lanes 1 to 6, and an
on/off byte above 1, are refused with BAD_VALUE, and a changed LINES in a heat with WRONG_STATE (R187, R188). -/
def Obligations.SetTimingResult : Prop :=
  ∀ (s : State) (tag lanes : Byte) (ivl trim lag holdoff window tol n jump cap pit : Nat)
    (mirror startHold close lockout : Bool), Listening s →
    ivl < 4294967296 → trim < 4294967296 → lag < 4294967296 → holdoff < 4294967296 → window < 4294967296 →
    tol < 256 → n < 256 → jump < 256 → cap < 256 → pit < 256 →
    let args : List Byte := u32 ivl ++ u32 trim ++ u32 lag ++ u32 holdoff ++ u32 window ++ u8 tol ++ u8 n ++
      yesNo mirror ++ yesNo startHold ++ u8 jump ++ u8 cap ++ yesNo close ++ u8 pit ++ [lanes] ++ yesNo lockout
    let near (lo hi v : Nat) : Nat := if v < lo then lo else if hi < v then hi else v
    let new : TimingSettings := {
      beaconIvl := near 25000 400000 ivl, trimLimit := near 1 255 trim, lagMax := near 100 20000 lag
      lineHoldoff := near 1000 500000 holdoff, pairWindow := near 10 2000 window, missTol := near 0 4 tol
      lines := near 1 5 n, mirror := mirror, startHold := startHold, jumpLevel := near 1 63 jump
      cautionCap := near 0 63 cap, cautionClose := close, pitCap := near 0 63 pit
      lanesEnabled := lanes, lockout := lockout }
    let exact : Prop := new.beaconIvl = ivl ∧ new.trimLimit = trim ∧ new.lagMax = lag ∧ new.lineHoldoff = holdoff ∧
      new.pairWindow = window ∧ new.missTol = tol ∧ new.lines = n ∧ new.jumpLevel = jump ∧
      new.cautionCap = cap ∧ new.pitCap = pit
    let answer : List Byte := u32 new.beaconIvl ++ u32 new.trimLimit ++ u32 new.lagMax ++ u32 new.lineHoldoff ++
      u32 new.pairWindow ++ u8 new.missTol ++ u8 new.lines ++ yesNo mirror ++ yesNo startHold ++
      u8 new.jumpLevel ++ u8 new.cautionCap ++ yesNo close ++ u8 new.pitCap ++ [lanes] ++ yesNo lockout
    let between : Prop := s.session.state = .idle ∨ s.session.state = .closed
    (lanes ≠ 0 → lanes.toNat < 64 → (between ∨ new.lines = s.settings.timing.lines) →
      ∃ t, exec (.setTiming tag args) s = .next t ∧
        Quiet { s with settings := { s.settings with timing := new } } t ∧
        (exact → Replied s t tag .ok answer) ∧ (¬exact → Replied s t tag .adjusted answer)) ∧
    (lanes ≠ 0 → lanes.toNat < 64 → ¬between → new.lines ≠ s.settings.timing.lines →
      Refuses (.setTiming tag args) s tag .wrongState) ∧
    (lanes = 0 ∨ 64 ≤ lanes.toNat → Refuses (.setTiming tag args) s tag .badValue) ∧
    (∀ raw : List Byte, raw.length = 30 →
      1 < (raw.getD 22 0).toNat ∨ 1 < (raw.getD 23 0).toNat ∨ 1 < (raw.getD 26 0).toNat ∨
        1 < (raw.getD 29 0).toNat ∨ raw.getD 28 0 = 0 ∨ 64 ≤ (raw.getD 28 0).toNat →
      Refuses (.setTiming tag raw) s tag .badValue)

/-- SET_HEAT in IDLE, ARMED or CLOSED loads its eight settings together, and in ARMED it sets the heat clock
again; a RACE_KIND or MARSHAL_ACTION outside its codes is refused with BAD_VALUE, and in any other state the request
is refused with WRONG_STATE (R130). -/
def Obligations.SetHeatResult : Prop :=
  ∀ (s : State) (tag : Byte) (kind : RaceKind) (action : MarshalAction)
    (laps len steps ivl rand grace : Nat), Listening s →
    laps < 65536 → len < 65536 → steps < 256 → ivl < 4294967296 → rand < 4294967296 → grace < 65536 →
    let args : List Byte := [kind.code] ++ u16 laps ++ u16 len ++ u8 steps ++ u32 ivl ++ u32 rand ++ u16 grace ++
      [action.code]
    let near (lo hi v : Nat) : Nat := if v < lo then lo else if hi < v then hi else v
    let new : HeatSettings := {
      raceKind := kind, raceLaps := near 1 9999 laps, heatLen := near 1 36000 len, countSteps := near 1 5 steps
      stepIvl := near 50000 200000 ivl, randomMax := near 0 300000 rand, finishGrace := near 1 600 grace
      marshalAction := action }
    let exact : Prop := new.raceLaps = laps ∧ new.heatLen = len ∧ new.countSteps = steps ∧ new.stepIvl = ivl ∧
      new.randomMax = rand ∧ new.finishGrace = grace
    let answer : List Byte := [kind.code] ++ u16 new.raceLaps ++ u16 new.heatLen ++ u8 new.countSteps ++
      u32 new.stepIvl ++ u32 new.randomMax ++ u16 new.finishGrace ++ [action.code]
    let taken : Prop := s.session.state = .idle ∨ s.session.state = .armed ∨ s.session.state = .closed
    (taken → ∃ t, exec (.setHeat tag args) s = .next t ∧
      Quiet { s with
        settings := { s.settings with heat := new }
        session := { s.session with heatClock :=
          if s.session.state = .armed then (if kind = .time then new.heatLen * 100000 else 0)
          else s.session.heatClock } } t ∧
      (exact → Replied s t tag .ok answer) ∧ (¬exact → Replied s t tag .adjusted answer)) ∧
    (∀ raw : List Byte, raw.length = 17 →
      (taken → 1 < (raw.getD 0 0).toNat ∨ 2 < (raw.getD 16 0).toNat → Refuses (.setHeat tag raw) s tag .badValue) ∧
      (¬taken → Refuses (.setHeat tag raw) s tag .wrongState))

/-- SET_FUEL in IDLE, ARMED or CLOSED loads its four settings, FUEL_CAP first; in ARMED it fills every car in
use and sets it NORMAL, otherwise it brings every level down to the cap; in any other state it is refused with
WRONG_STATE (R182). -/
def Obligations.SetFuelResult : Prop :=
  ∀ (s : State) (tag : Byte) (cap warn limp step : Nat), Listening s →
    cap < 65536 → warn < 65536 → limp < 256 → step < 65536 →
    let args : List Byte := u16 cap ++ u16 warn ++ u8 limp ++ u16 step
    let new : FuelSettings := {
      cap := min 60000 cap, warn := min (min 60000 cap) warn, limp := min 63 limp
      refuel := if step = 0 then 1 else min 1000 step }
    let exact : Prop := new.cap = cap ∧ new.warn = warn ∧ new.limp = limp ∧ new.refuel = step
    let answer : List Byte := u16 new.cap ++ u16 new.warn ++ u8 new.limp ++ u16 new.refuel
    let taken : Prop := s.session.state = .idle ∨ s.session.state = .armed ∨ s.session.state = .closed
    (taken → ∃ t, exec (.setFuel tag args) s = .next t ∧
      Quiet { s with settings := { s.settings with fuel := new }, contexts := t.contexts } t ∧
      (∀ e : Entry, ctx t e =
        if s.session.state = .armed then
          (if (ctx s e).state = .unused then ctx s e
           else { ctx s e with fuel := new.cap, fuelState := .normal })
        else { ctx s e with fuel := min new.cap (ctx s e).fuel }) ∧
      (exact → Replied s t tag .ok answer) ∧ (¬exact → Replied s t tag .adjusted answer)) ∧
    (¬taken → ∀ raw : List Byte, raw.length = 7 → Refuses (.setFuel tag raw) s tag .wrongState)

/-- WRITE_GATE in IDLE or CLOSED stores a slot, UNALIGNED and with its counts at 0: a LINE role as given, a pit
role with line 0 and PRIMARY, UNUSED with line 0, lane 1, PRIMARY and hop delay 0 (R25). A write that would break
a constraint of the table is refused with CONFLICT (R26), a pit role with SECONDARY, and a role, a pair position, a line
or a lane outside its codes or range, with BAD_VALUE, and in any other state the request is refused with WRONG_STATE
(R25). -/
def Obligations.WriteGateResult : Prop :=
  ∀ (s : State) (tag : Byte) (g : GateId) (role : GateRole) (line : Line) (lane : Nat) (pos : PairPosition)
    (hop : Nat), Listening s → 1 ≤ lane → lane ≤ 6 → hop < 256 →
    let args : List Byte := u8 (g.val + 1) ++ [role.code] ++ u8 line.val ++ u8 lane ++ [pos.code] ++ u8 hop
    let slot : GateSlot := match role with
      | .line => ⟨.line, line, lane, pos, hop, .unaligned, 0, 0⟩
      | .unused => ⟨.unused, 0, 1, .primary, 0, .unaligned, 0, 0⟩
      | pit => ⟨pit, 0, lane, .primary, hop, .unaligned, 0, 0⟩
    let pitSecondary : Prop := (role = .pitEntry ∨ role = .pitExit) ∧ pos = .secondary
    let conflict : Prop :=
      (∃ h : GateId, h ≠ g ∧ (gate s h).role = role ∧
        (role = .pitEntry ∨ role = .pitExit ∨
         (role = .line ∧ (gate s h).line = line ∧ (gate s h).lane = lane ∧ (gate s h).position = pos))) ∨
      12 < pairedCount (setGate g slot s)
    let between : Prop := s.session.state = .idle ∨ s.session.state = .closed
    (between → ¬pitSecondary → ¬conflict → ∃ t, exec (.writeGate tag args) s = .next t ∧
      Quiet { s with clock := { s.clock with gates := s.clock.gates.set g slot } } t ∧ Replied s t tag .ok []) ∧
    (between → ¬pitSecondary → conflict → Refuses (.writeGate tag args) s tag .conflict) ∧
    (between → pitSecondary → Refuses (.writeGate tag args) s tag .badValue) ∧
    (∀ raw : List Byte, raw.length = 6 →
      (between → 1 ≤ (raw.getD 0 0).toNat → (raw.getD 0 0).toNat ≤ 32 →
        3 < (raw.getD 1 0).toNat ∨ 4 < (raw.getD 2 0).toNat ∨ raw.getD 3 0 = 0 ∨ 6 < (raw.getD 3 0).toNat ∨
          1 < (raw.getD 4 0).toNat →
        Refuses (.writeGate tag raw) s tag .badValue) ∧
      (¬between → Refuses (.writeGate tag raw) s tag .wrongState))

/-- WRITE_LINE in IDLE or CLOSED stores a row brought into range, an overdue limit of 0 kept, and clears the zone
override flag; a zone mode outside its codes is refused with BAD_VALUE, and in any other state the request is refused
with WRONG_STATE (R177). The answer is the row without the flag (log entry 29). -/
def Obligations.WriteLineResult : Prop :=
  ∀ (s : State) (tag : Byte) (j : Line) (limit sector : Nat) (mode : ZoneMode), Listening s →
    limit < 4294967296 → sector < 4294967296 →
    let args : List Byte := u8 j.val ++ u32 limit ++ [mode.code] ++ u32 sector
    let row : LineRow :=
      ⟨if limit = 0 then 0 else if limit < 100000 then 100000 else min 6000000 limit, mode, min 6000000 sector⟩
    let exact : Prop := row.overdue = limit ∧ row.minSector = sector
    let answer : List Byte := u32 row.overdue ++ [mode.code] ++ u32 row.minSector
    let between : Prop := s.session.state = .idle ∨ s.session.state = .closed
    (between → ∃ t, exec (.writeLine tag args) s = .next t ∧
      Quiet { s with throttle := { s.throttle with
        lines := s.throttle.lines.set j row, zoneOverride := false } } t ∧
      (exact → Replied s t tag .ok answer) ∧ (¬exact → Replied s t tag .adjusted answer)) ∧
    (∀ raw : List Byte, raw.length = 10 →
      (between → (raw.getD 0 0).toNat ≤ 4 → 2 < (raw.getD 5 0).toNat → Refuses (.writeLine tag raw) s tag .badValue) ∧
      (¬between → Refuses (.writeLine tag raw) s tag .wrongState))

/-- WRITE_ENTRY in IDLE or CLOSED stores a row, burn weight, drill lap and drill step brought into range; a
controller number or car code that another mapped row holds is a CONFLICT for a mapped row; a controller number, car
code, drill mode or drill lane outside its range is refused with BAD_VALUE, and in any other state the request is
refused with WRONG_STATE (R170). -/
def Obligations.WriteEntryResult : Prop :=
  ∀ (s : State) (tag code : Byte) (e : Entry) (controller weight lap step lane : Nat) (mode : DrillMode),
    Listening s → controller ≤ 16 → code.toNat ≤ 15 → weight < 256 → lap < 4294967296 → step < 4294967296 →
    1 ≤ lane → lane ≤ 6 →
    let args : List Byte := u8 (e.val + 1) ++ u8 controller ++ [code] ++ u8 weight ++ [mode.code] ++ u32 lap ++
      u32 step ++ u8 lane
    let row : EntryRow :=
      ⟨if controller = 0 then none else some controller, code, min 15 weight, mode,
       if lap < 100000 then 100000 else min 6000000 lap, min 500000 step, lane⟩
    let exact : Prop := row.weight = weight ∧ row.drillLap = lap ∧ row.drillStep = step
    let answer : List Byte := u8 controller ++ [code] ++ u8 row.weight ++ [mode.code] ++ u32 row.drillLap ++
      u32 row.drillStep ++ u8 lane
    let conflict : Prop := controller ≠ 0 ∧ ∃ f : Entry, f ≠ e ∧ (entryRow s f).controller ≠ none ∧
      ((entryRow s f).controller = some controller ∨ (entryRow s f).code = code)
    let between : Prop := s.session.state = .idle ∨ s.session.state = .closed
    (between → ¬conflict → ∃ t, exec (.writeEntry tag args) s = .next t ∧
      Quiet { s with throttle := { s.throttle with entries := s.throttle.entries.set e row } } t ∧
      (exact → Replied s t tag .ok answer) ∧ (¬exact → Replied s t tag .adjusted answer)) ∧
    (between → conflict → Refuses (.writeEntry tag args) s tag .conflict) ∧
    (∀ raw : List Byte, raw.length = 14 →
      (between → 1 ≤ (raw.getD 0 0).toNat → (raw.getD 0 0).toNat ≤ 16 →
        16 < (raw.getD 1 0).toNat ∨ 15 < (raw.getD 2 0).toNat ∨ 3 < (raw.getD 4 0).toNat ∨ raw.getD 13 0 = 0 ∨
          6 < (raw.getD 13 0).toNat →
        Refuses (.writeEntry tag raw) s tag .badValue) ∧
      (¬between → Refuses (.writeEntry tag raw) s tag .wrongState))

/-- WRITE_RULE in every state stores a row: the amount brought into its sanction's range, or 0 where the sanction
takes none, window and fallback brought into range; UNSERVED with DRIVE_THROUGH or STOP_GO, an allowance or a
sanction outside its codes, and an enforce or attention byte above 1 are refused with BAD_VALUE (R136, R138). -/
def Obligations.WriteRuleResult : Prop :=
  ∀ (s : State) (tag : Byte) (kind : IncidentKind) (allowance : Option Nat) (k : Sanction)
    (amount window fallback : Nat) (enforce attention : Bool), Listening s →
    allowance ∈ [none, some 0, some 1, some 2, some 4, some 8, some 16] →
    amount < 256 → window < 256 → fallback < 256 →
    let args : List Byte := [kind.code] ++ u8 (allowance.getD 255) ++ [k.code] ++ u8 amount ++ u8 window ++
      u8 fallback ++ yesNo enforce ++ yesNo attention
    let near (lo hi v : Nat) : Nat := if v < lo then lo else if hi < v then hi else v
    let size : Nat := match k with
      | .timeAdd => near 1 255 amount
      | .lapDeduct => near 1 15 amount
      | .stopGo => near 1 60 amount
      | _ => 0
    let row : Rule := ⟨allowance, k, size, near 1 15 window, near 1 255 fallback, enforce, attention⟩
    let exact : Prop := (size = amount ∨ k = .note ∨ k = .driveThrough ∨ k = .blackFlag) ∧
      row.window = window ∧ row.fallback = fallback
    let answer : List Byte := u8 (allowance.getD 255) ++ [k.code] ++ u8 size ++ u8 row.window ++ u8 row.fallback ++
      yesNo enforce ++ yesNo attention
    let barred : Prop := kind = .unserved ∧ (k = .driveThrough ∨ k = .stopGo)
    (¬barred → ∃ t, exec (.writeRule tag args) s = .next t ∧
      Quiet { s with penalty := { s.penalty with rules := t.penalty.rules } } t ∧ ruleOf t kind = row ∧
      (∀ other, other ≠ kind → ruleOf t other = ruleOf s other) ∧
      (exact → Replied s t tag .ok answer) ∧ (¬exact → Replied s t tag .adjusted answer)) ∧
    (barred → Refuses (.writeRule tag args) s tag .badValue) ∧
    (∀ raw : List Byte, raw.length = 8 → (raw.getD 0 0).toNat ≤ 6 →
      (raw.getD 1 0).toNat ∉ [0, 1, 2, 4, 8, 16, 255] ∨ 5 < (raw.getD 2 0).toNat ∨ 1 < (raw.getD 6 0).toNat ∨
        1 < (raw.getD 7 0).toNat →
      Refuses (.writeRule tag raw) s tag .badValue)

/-! ### Requests that read, and small ones -/

/-- READ_GATE, READ_LINE, READ_ENTRY and READ_RULE answer OK with the row as it stands, in every session state, and
change nothing; an index that names no row is refused with BAD_INDEX (R27, R139, R171, R178). That a ref_time above
4,294,967,295 goes out modulo 2^32 is the model's choice (log entry 30). -/
def Obligations.TableReads : Prop :=
  ∀ (s : State) (tag : Byte), Listening s →
    (∀ g : GateId,
      let slot := gate s g
      let ref : Option Reference := match slot.alignment with
        | .unaligned => none
        | .aligned r => some r
        | .stale r => some r
      ∃ t, exec (.readGate tag (u8 (g.val + 1))) s = .next t ∧ Quiet s t ∧
        Replied s t tag .ok ([slot.role.code] ++ u8 slot.line.val ++ u8 slot.lane ++ [slot.position.code] ++
          u8 slot.hop ++ [slot.alignment.code] ++ optField u32 (ref.map fun r => r.time) ++
          optField countBytes (ref.map fun r => r.count) ++ optField u32 (ref.map fun r => r.aligned) ++
          u8 slot.strikes ++ u8 slot.unpaired)) ∧
    (∀ j : Line, ∃ t, exec (.readLine tag (u8 j.val)) s = .next t ∧ Quiet s t ∧
      Replied s t tag .ok (u32 (lineRow s j).overdue ++ [(lineRow s j).mode.code] ++
        u32 (lineRow s j).minSector ++ yesNo s.throttle.zoneOverride)) ∧
    (∀ e : Entry,
      let r := entryRow s e
      ∃ t, exec (.readEntry tag (u8 (e.val + 1))) s = .next t ∧ Quiet s t ∧
        Replied s t tag .ok (u8 (r.controller.getD 0) ++ [r.code] ++ u8 r.weight ++ [r.drillMode.code] ++
          u32 r.drillLap ++ u32 r.drillStep ++ u8 r.drillLane)) ∧
    (∀ k : IncidentKind,
      let r := ruleOf s k
      ∃ t, exec (.readRule tag [k.code]) s = .next t ∧ Quiet s t ∧
        Replied s t tag .ok (u8 (r.allowance.getD 255) ++ [r.sanction.code] ++ u8 r.amount ++ u8 r.window ++
          u8 r.fallback ++ yesNo r.enforce ++ yesNo r.attention)) ∧
    (∀ n : Byte,
      (n = 0 ∨ 32 < n.toNat → Refuses (.readGate tag [n]) s tag .badIndex) ∧
      (4 < n.toNat → Refuses (.readLine tag [n]) s tag .badIndex) ∧
      (n = 0 ∨ 16 < n.toNat → Refuses (.readEntry tag [n]) s tag .badIndex) ∧
      (6 < n.toNat → Refuses (.readRule tag [n]) s tag .badIndex))

/-- READ_CAR, READ_OWED and READ_ORDER answer OK with the values as they stand, in every session state, and change
nothing; an entry outside 1 to 16 is refused with BAD_INDEX, another part with BAD_VALUE (R93, R106, R166). That part 1
of READ_CAR lists the caution charged set in the order of its charges is the model's choice (log entry 33). -/
def Obligations.HeatReads : Prop :=
  ∀ (s : State) (tag : Byte), Listening s →
    (∀ e : Entry,
      let c := ctx s e
      let left : Option Ticks := c.deadline.map fun d => match d with
        | .due time => time - s.clock.now
        | .suspended r => r
      (∃ t, exec (.readCar tag (u8 (e.val + 1) ++ [0])) s = .next t ∧ Quiet s t ∧
        Replied s t tag .ok ([c.state.code] ++ u16 c.laps ++ u8 c.expected.val ++
          listField (fun j : Line => u8 j.val) c.crossed ++ u8 c.missed ++ yesNo c.marks.neutral ++
          yesNo c.marks.lowConf ++ yesNo c.marks.inferred ++ yesNo c.marks.drill ++
          optField u32 (c.last.map fun l => l.time) ++ u8 ((c.last.map fun l => l.line.val).getD 0) ++
          u8 ((c.last.map fun l => l.lane).getD 0) ++ u8 ((c.last.map fun l => l.gate).getD 0) ++
          optField u32 c.lapStart ++ optField u32 c.lastLap ++ optField u32 c.bestLap ++ u16 c.progress ++
          optField u32 c.progressTime ++ optField u32 left)) ∧
      (∃ t, exec (.readCar tag (u8 (e.val + 1) ++ [1])) s = .next t ∧ Quiet s t ∧
        Replied s t tag .ok ([c.state.code] ++ yesNo c.disqualified ++ yesNo c.jumpFlagged ++
          (c.counts.toList.map u8).flatten ++ u16 c.penaltySeconds ++ u8 c.deductions ++ u16 c.fuel ++
          [c.fuelState.code] ++ optField u32 (c.transit.map fun x => x.entered) ++
          optField u32 (c.transit.map fun x => x.stationary) ++ u8 c.owed.length ++
          listField (fun f : Entry => u8 (f.val + 1)) c.charged ++ optField u32 c.finishTime)) ∧
      (∃ t, exec (.readOwed tag (u8 (e.val + 1))) s = .next t ∧ Quiet s t ∧
        Replied s t tag .ok (listField (fun o : Owed => [o.kind.code, o.sanction.code] ++ u8 o.amount ++
            u16 o.issueLap ++ u16 o.deadlineLap ++ u8 o.fallback ++ yesNo o.enforce ++ yesNo o.inService) c.owed ++
          optField u32 (match c.owed with
            | o :: _ => if o.inService = true ∧ o.sanction = .stopGo then
                some ((c.transit.map fun x => x.stationary).getD 0) else none
            | [] => none) ++
          yesNo s.pit.holds[e]))) ∧
    (∃ t, exec (.readOrder tag [0]) s = .next t ∧ Quiet s t ∧
      Replied s t tag .ok (listField (fun e : Entry => u8 (e.val + 1) ++ u16 (ctx s e).progress) s.order.list)) ∧
    (∃ t, exec (.readOrder tag [1]) s = .next t ∧ Quiet s t ∧
      Replied s t tag .ok (optField (listField fun e : Entry => u8 (e.val + 1)) s.order.snapshot)) ∧
    (∃ t, exec (.readOrder tag [2]) s = .next t ∧ Quiet s t ∧
      Replied s t tag .ok (listField (fun e : Entry => u8 (e.val + 1)) (classification s))) ∧
    (∀ n part : Byte,
      (n = 0 ∨ 16 < n.toNat → Refuses (.readCar tag [n, part]) s tag .badIndex ∧
        Refuses (.readOwed tag [n]) s tag .badIndex) ∧
      (∀ e : Entry, 1 < part.toNat → Refuses (.readCar tag (u8 (e.val + 1) ++ [part])) s tag .badValue) ∧
      (2 < part.toNat → Refuses (.readOrder tag [part]) s tag .badValue))

/-- STATUS answers OK with the ten fields as they stand, then the beat flag and the beat inhibit are clear (R194). -/
def Obligations.StatusResult : Prop :=
  ∀ (s : State) (tag : Byte), Listening s →
    ∃ t, exec (.status tag []) s = .next t ∧
      Quiet { s with mgmt := { s.mgmt with beatFlag := false, beatInhibit := false } } t ∧
      Replied s t tag .ok ([s.session.state.code] ++
        optField (fun st : SessionState => [st.code]) s.session.heldFrom ++ yesNo s.session.aborted ++
        u32 s.session.heatClock ++ u32 s.clock.now ++ [BitVec.ofInt 8 s.clock.balance] ++ u8 s.link.stationBad ++
        u8 s.link.trackBad ++ u8 s.link.records.length ++ yesNo s.mgmt.beatFlag)

/-- SET_SEED in IDLE, ARMED or CLOSED loads any seed but 0 into the LFSR (R131); SET_ATTN_MASK replaces the mask in
every state (R191); CLEAR_BEST makes every best lap absent in every state (R83). -/
def Obligations.SeedMaskAndBestResult : Prop :=
  ∀ (s : State) (tag : Byte), Listening s →
    (∀ hi lo : Byte,
      let taken : Prop := s.session.state = .idle ∨ s.session.state = .armed ∨ s.session.state = .closed
      (taken → hi ++ lo ≠ (0 : BitVec 16) → ∃ t, exec (.setSeed tag [hi, lo]) s = .next t ∧
        Quiet { s with resolver := { s.resolver with lfsr := hi ++ lo } } t ∧ Replied s t tag .ok []) ∧
      (taken → hi ++ lo = (0 : BitVec 16) → Refuses (.setSeed tag [hi, lo]) s tag .badValue) ∧
      (¬taken → Refuses (.setSeed tag [hi, lo]) s tag .wrongState)) ∧
    (∀ mask : Byte, ∃ t, exec (.setAttnMask tag [mask]) s = .next t ∧
      Quiet { s with mgmt := { s.mgmt with mask := mask } } t ∧ Replied s t tag .ok [mask] ∧
      attnAsserted t = (s.mgmt.summary &&& mask != 0)) ∧
    (∃ t, exec (.clearBest tag []) s = .next t ∧ Quiet { s with contexts := t.contexts } t ∧
      (∀ e : Entry, ctx t e = { ctx s e with bestLap := none }) ∧ Replied s t tag .ok [])

/-- DRILL ON is taken in ARMED alone; DRILL OFF in every state of a heat, and discards every schedule; any other
value is refused with BAD_VALUE in every state (R61). -/
def Obligations.DrillSwitchResult : Prop :=
  ∀ (s : State) (tag : Byte), Listening s →
    let heat : Prop := s.session.state ≠ .idle ∧ s.session.state ≠ .closed
    (s.session.state = .armed → ∃ t, exec (.drillOn tag [1]) s = .next t ∧
      Quiet { s with resolver := { s.resolver with drillOn := true } } t ∧ Replied s t tag .ok []) ∧
    (s.session.state ≠ .armed → Refuses (.drillOn tag [1]) s tag .wrongState) ∧
    (heat → ∃ t, exec (.drillOff tag [0]) s = .next t ∧
      Quiet { s with resolver := { s.resolver with drillOn := false, drills := t.resolver.drills } } t ∧
      (∀ e : Entry, t.resolver.drills[e] = none) ∧ Replied s t tag .ok []) ∧
    (¬heat → Refuses (.drillOff tag [0]) s tag .wrongState) ∧
    (∀ v : Byte, 1 < v.toNat → Refuses (.drillOn tag [v]) s tag .badValue)

/-- CLEAR_EVENTS removes the named groups from the summary, and with LINK both bad-frame counts return to 0; the
reply's body is the summary before and its summary byte the summary after (R4, R190). -/
def Obligations.ClearEventsResult : Prop :=
  ∀ (s : State) (tag groups : Byte), Listening s →
    ∃ t, exec (.clearEvents tag [groups]) s = .next t ∧
      Quiet { s with
        mgmt := { s.mgmt with summary := s.mgmt.summary &&& ~~~groups }
        link := if groups &&& 0x01 = 0 then s.link else { s.link with stationBad := 0, trackBad := 0 } } t ∧
      Replied s t tag .ok [s.mgmt.summary]

/-- RESTART RACE abandons the heat and keeps the setup: contexts UNUSED, session IDLE, orders, pairs, drill, stop
set and service state gone, the record queue empty, everything else kept, LAMP DARK issued (R196). RESTART ALL
puts every block into its power-on state while assemblers and transmitters carry on, and its reply stands in the
emptied queue (R20, R197). Any other value is refused with BAD_VALUE (R196). -/
def Obligations.RestartResults : Prop :=
  ∀ (s : State) (tag : Byte), Listening s →
    (∃ t, exec (.restartRace tag [0]) s = .next t ∧
      Outputs 0 { s with
        link := { s.link with records := [] }
        contexts := State.reset.contexts, order := ⟨[], none⟩
        session := { Session.reset with heatLines := s.session.heatLines }
        resolver := { s.resolver with pairs := [], drillOn := false, drills := State.reset.resolver.drills }
        penalty := { s.penalty with stopSet := [] }
        pit := State.reset.pit } t ∧
      t.link.records = [] ∧ Shows t ⟨.dark, 0⟩ ∧ Replied s t tag .ok []) ∧
    (let all : State := { State.reset with
        link := { State.reset.link with
          stationRx := s.link.stationRx, trackRx := s.link.trackRx
          stationTx := s.link.stationTx, trackTx := s.link.trackTx }
        rstnLow := s.rstnLow, choices := s.choices, pending := s.pending }
     ∃ t, exec (.restartAll tag [1]) s = .next t ∧ Outputs 0 all t ∧ t.link.records = [] ∧ Shows t ⟨.dark, 0⟩ ∧
      t.link.trackTx.isSome = true ∧
      (s.link.trackTx.isSome = true → t.link.trackTx = s.link.trackTx) ∧
      (s.link.stationTx.isSome = true → t.link.stationTx = s.link.stationTx ∧
        t.link.replies = [⟨tag, .ok, 0, []⟩]) ∧
      (s.link.stationTx = none → t.link.replies = [] ∧
        t.link.stationTx = some (transmit .station (Reply.frame ⟨tag, .ok, 0, []⟩)))) ∧
    (∀ v : Byte, 1 < v.toNat → Refuses (.restartRace tag [v]) s tag .badValue)

/-! ### Requests turned away -/

/-- With 4 replies waiting a request of any kind is not carried out and not answered, and LINK is set (R14). -/
def Obligations.FullReplyQueue : Prop :=
  ∀ (s : State) (c : Instr), (requestCode c).isSome = true → s.rstnLow = false → 4 ≤ s.link.replies.length →
    ∃ t, exec c s = .next t ∧ Outputs 0x01 s t ∧ groupSet .link t = true ∧
      RepliesKept s t ∧ RecordsKept s t ∧ LampKept s t

/-- While RSTN is low no frame of either port, no request and no damaged frame has any effect. R19 says that the ports
discard every byte; that such a command then changes nothing is the model's choice (log entry 9). -/
def Obligations.LowLineTakesNoFrame : Prop :=
  ∀ (s : State) (c : Instr), s.rstnLow = true →
    ((frameOf c).isSome = true ∨ ∃ p, c = .frameCheckFailed p ∨ c = .lengthAbove60 p ∨ c = .malformedFrame p ∨
      c = .byteGapTimeout p) →
    exec c s = .next s

/-- Refusals of malformed requests. The checks of R185 in front of a request's own: a code that is not in the index is
refused with UNKNOWN, and an argument part of another length with BAD_VALUE. The first of a request's own checks, where
the request names a gate, a line, an entry or a kind: an index out of its range is refused with BAD_INDEX, in the
session states that take the request, whatever the other arguments (R25, R27, R93, R94, R138, R139, R149, R165, R166,
R170, R171, R177, R178). -/
def Obligations.RefusedRequests : Prop :=
  ∀ (s : State) (tag : Byte) (args : List Byte), Listening s →
    (∀ code, Refuses (.unknownRequest tag code args) s tag .unknown) ∧
    (∀ p ∈ ([(Instr.setTiming, 30), (.setHeat, 17), (.setFuel, 7), (.setSeed, 2), (.setAttnMask, 1),
        (.writeGate, 6), (.writeLine, 10), (.writeEntry, 14), (.writeRule, 8), (.readGate, 1), (.readLine, 1),
        (.readEntry, 1), (.readRule, 1), (.readCar, 2), (.readOwed, 1), (.readOrder, 1), (.status, 0), (.arm, 0),
        (.start, 0), (.caution, 0), (.green, 0), (.hold, 0), (.resume, 0), (.abort, 0), (.dismiss, 0), (.waive, 2),
        (.retire, 1), (.clearBest, 0), (.drillOn, 1), (.drillOff, 1), (.clearEvents, 1), (.restartRace, 1),
        (.restartAll, 1)] :
        List ((Byte → List Byte → Instr) × Nat)),
      args.length ≠ p.2 → Refuses (p.1 tag args) s tag .badValue) ∧
    (args.length < 3 → Refuses (.issueCounted tag args) s tag .badValue ∧
      Refuses (.issueDirect tag args) s tag .badValue) ∧
    (∀ (n : Byte) (rest : List Byte),
      let between : Prop := s.session.state = .idle ∨ s.session.state = .closed
      let racing : Prop := s.session.state = .green ∨ s.session.state = .caution ∨ s.session.state = .held ∨
        s.session.state = .chequered
      (between → n = 0 ∨ 32 < n.toNat → rest.length = 5 → Refuses (.writeGate tag (n :: rest)) s tag .badIndex) ∧
      (between → 4 < n.toNat → rest.length = 9 → Refuses (.writeLine tag (n :: rest)) s tag .badIndex) ∧
      (between → n = 0 ∨ 16 < n.toNat → rest.length = 13 → Refuses (.writeEntry tag (n :: rest)) s tag .badIndex) ∧
      (6 < n.toNat → rest.length = 7 → Refuses (.writeRule tag (n :: rest)) s tag .badIndex) ∧
      (racing → n = 0 ∨ 16 < n.toNat → 2 ≤ rest.length → Refuses (.issueCounted tag (n :: rest)) s tag .badIndex ∧
        Refuses (.issueDirect tag (n :: rest)) s tag .badIndex) ∧
      (¬between → n = 0 ∨ 16 < n.toNat → rest.length = 1 → Refuses (.waive tag (n :: rest)) s tag .badIndex) ∧
      (¬between → n = 0 ∨ 16 < n.toNat → Refuses (.retire tag [n]) s tag .badIndex)) ∧
    (∀ n : Byte,
      (n = 0 ∨ 32 < n.toNat → Refuses (.readGate tag [n]) s tag .badIndex) ∧
      (4 < n.toNat → Refuses (.readLine tag [n]) s tag .badIndex) ∧
      (n = 0 ∨ 16 < n.toNat → Refuses (.readEntry tag [n]) s tag .badIndex ∧
        Refuses (.readOwed tag [n]) s tag .badIndex ∧ ∀ part : Byte, Refuses (.readCar tag [n, part]) s tag .badIndex) ∧
      (6 < n.toNat → Refuses (.readRule tag [n]) s tag .badIndex) ∧
      (2 < n.toNat → Refuses (.readOrder tag [n]) s tag .badValue))

/-! ### Session requests and timers -/

/-- ARM in IDLE or CLOSED, with a mapped entry and every enabled lane gated at line 0, arms a heat: the race clock
and the balance at 0, no round, gates in use UNALIGNED with strike count 0, a GRID context for each mapped entry
and for no other, the running order in entry order, no snapshot, pair, drill, stop set or service state, the heat
clock at HEAT_LEN in a TIME heat and 0 in a LAPS heat, LAMP RED_HOLD, a SESSION record at race time 0. It is
refused with NO_ENTRIES, then WRONG_STATE (R22, R58, R61, R68, R96, R112, R145). -/
def Obligations.ArmResult : Prop :=
  ∀ (s : State) (tag : Byte), Listening s →
    let between : Prop := s.session.state = .idle ∨ s.session.state = .closed
    let used : Prop := ∃ e : Entry, (entryRow s e).controller ≠ none
    let clock : Ticks := if s.settings.heat.raceKind = .time then s.settings.heat.heatLen * 100000 else 0
    (between → used → LanesGated s → ∃ t, exec (.arm tag []) s = .next t ∧
      Outputs 0xC0 { s with
        clock := { s.clock with now := 0, round := none, balance := 0, gates := t.clock.gates }
        contexts := t.contexts
        order := ⟨allEntries.filter fun e => (entryRow s e).controller.isSome, none⟩
        resolver := { s.resolver with pairs := [], drillOn := false, drills := State.reset.resolver.drills }
        penalty := { s.penalty with stopSet := [] }
        pit := State.reset.pit
        session := ⟨.armed, none, false, none, none, clock, none, [], s.settings.timing.lines⟩ } t ∧
      (∀ g : GateId, gate t g = if (gate s g).role = .unused then gate s g
        else { gate s g with alignment := .unaligned, strikes := 0 }) ∧
      (∀ e : Entry, ctx t e = if (entryRow s e).controller = none then unusedContext
        else { unusedContext with state := .grid, fuel := s.settings.fuel.cap }) ∧
      Announced s t ⟨.redHold, 0⟩ .armed .request ∧ Replied s t tag .ok []) ∧
    (between → ¬used → Refuses (.arm tag []) s tag .noEntries) ∧
    (between → used → ¬LanesGated s → Refuses (.arm tag []) s tag .wrongState) ∧
    (¬between → Refuses (.arm tag []) s tag .wrongState)

/-- START in ARMED, with every enabled lane gated at line 0 and all those gates ALIGNED, draws r from the LFSR and
begins the countdown: the hold length floor(r × RANDOM_MAX / 65,536), the red count COUNT_STEPS, LAMP RED, a
SESSION record. It is refused with NOT_ALIGNED when the gate test fails, and with WRONG_STATE in any other state
(R66, R113). -/
def Obligations.StartResult : Prop :=
  ∀ (s : State) (tag : Byte), Listening s →
    let v := s.resolver.lfsr
    let r : BitVec 16 := if v.getLsbD 0 then (v >>> 1) ^^^ 0xB400 else v >>> 1
    let h := s.settings.heat
    (s.session.state = .armed → GatesReady s → ∃ t, exec (.start tag []) s = .next t ∧
      Outputs 0xC0 { s with
        resolver := { s.resolver with lfsr := r }
        session := { s.session with
          state := .countdown
          countdown := some ⟨.steps, h.countSteps, r.toNat * h.randomMax / 65536, h.stepIvl⟩ } } t ∧
      Announced s t ⟨.red, h.countSteps⟩ .countdown .request ∧ Replied s t tag .ok []) ∧
    (s.session.state = .armed → ¬GatesReady s → Refuses (.start tag []) s tag .notAligned) ∧
    (s.session.state ≠ .armed → Refuses (.start tag []) s tag .wrongState)

/-- CAUTION in GREEN opens a neutral period unless one is open, which marks every car's lap, takes the caution
snapshot and empties the charged sets; GREEN in CAUTION closes the period and drops the snapshot. Each shows its
lamp, emits its SESSION record, and is refused with WRONG_STATE elsewhere (R100, R116, R119). That the neutral mark
goes on every context that is not UNUSED, FINISHED and RETIRED cars too, is the model's choice (log entry 19). -/
def Obligations.CautionAndGreenResult : Prop :=
  ∀ (s : State) (tag : Byte), Listening s →
    (s.session.state = .green → ∃ t, exec (.caution tag []) s = .next t ∧
      Outputs 0xC0 { s with
        contexts := t.contexts
        order := { s.order with snapshot := some s.order.list }
        session := { s.session with state := .caution, periods := t.session.periods } } t ∧
      (PeriodOpen s → t.session.periods = s.session.periods ∧
        ∀ e : Entry, ctx t e = { ctx s e with charged := [] }) ∧
      (¬PeriodOpen s → t.session.periods = opened s.clock.now s.session.periods ∧
        ∀ e : Entry, ctx t e = { neutralised (ctx s e) with charged := [] }) ∧
      Announced s t ⟨.yellow, 0⟩ .caution .request ∧ Replied s t tag .ok []) ∧
    (s.session.state ≠ .green → Refuses (.caution tag []) s tag .wrongState) ∧
    (s.session.state = .caution → ∃ t, exec (.green tag []) s = .next t ∧
      Outputs 0xC0 { s with
        order := { s.order with snapshot := none }
        session := { s.session with state := .green, periods := ended s.clock.now s.session.periods } } t ∧
      Announced s t ⟨.green, 0⟩ .green .request ∧ Replied s t tag .ok []) ∧
    (s.session.state ≠ .caution → Refuses (.green tag []) s tag .wrongState)

/-- HOLD in GREEN, CAUTION or CHEQUERED remembers the state left, opens a neutral period unless one is open,
suspends the overdue deadlines with the ticks they had left and makes the stationary marks absent; LAMP RED_HOLD,
a SESSION record. It is refused with WRONG_STATE elsewhere (R87, R117, R119, R157). That the neutral mark goes on every
context that is not UNUSED, FINISHED and RETIRED cars too, is the model's choice (log entry 19). -/
def Obligations.HoldResult : Prop :=
  ∀ (s : State) (tag : Byte), Listening s →
    let takes : Prop := s.session.state = .green ∨ s.session.state = .caution ∨ s.session.state = .chequered
    let held (c : Context) : Context := { c with deadline := c.deadline.map fun d => match d with
      | .due time => .suspended (time - s.clock.now)
      | .suspended r => .suspended r }
    (takes → ∃ t, exec (.hold tag []) s = .next t ∧
      Outputs 0xC0 { s with
        contexts := t.contexts
        pit := { s.pit with marks := t.pit.marks }
        session := { s.session with
          state := .held, heldFrom := some s.session.state, periods := t.session.periods } } t ∧
      (∀ e : Entry, t.pit.marks[e] = none) ∧
      (PeriodOpen s → t.session.periods = s.session.periods ∧ ∀ e : Entry, ctx t e = held (ctx s e)) ∧
      (¬PeriodOpen s → t.session.periods = opened s.clock.now s.session.periods ∧
        ∀ e : Entry, ctx t e = neutralised (held (ctx s e))) ∧
      Announced s t ⟨.redHold, 0⟩ .held .request ∧ Replied s t tag .ok []) ∧
    (¬takes → Refuses (.hold tag []) s tag .wrongState)

/-- RESUME in HELD, with the gate test passed, returns to the held-from state, re-arms the suspended deadlines and
clears the zone override; back in GREEN or CHEQUERED the neutral period closes; CHEQUERED entered for the first time
gets its grace and drops the snapshot, and with no car left afield the heat closes behind it, with the work that R124
gives a close and the records of both moves. It is refused with NOT_ALIGNED when the gate test fails, and with
WRONG_STATE outside HELD (R87, R118, R119, R122 to R124, R176). -/
def Obligations.ResumeResult : Prop :=
  ∀ (s : State) (tag : Byte) (st : SessionState), Listening s →
    let armed (c : Context) : Context := { c with deadline := c.deadline.map fun d => match d with
      | .due time => .due time
      | .suspended r => .due (s.clock.now + r) }
    (s.session.state = .held → s.session.heldFrom = some st → GatesReady s →
      (st = .green ∨ st = .caution → ∃ t, exec (.resume tag []) s = .next t ∧
        Outputs 0xC0 { s with
          contexts := t.contexts
          throttle := { s.throttle with zoneOverride := false }
          session := { s.session with
            state := st, heldFrom := none
            periods := if st = .green then ended s.clock.now s.session.periods else s.session.periods } } t ∧
        (∀ e : Entry, ctx t e = armed (ctx s e)) ∧
        Announced s t (if st = .green then ⟨.green, 0⟩ else ⟨.yellow, 0⟩) st .request ∧ Replied s t tag .ok []) ∧
      (st = .chequered → Afield s → ∃ t, exec (.resume tag []) s = .next t ∧
        Outputs 0xC0 { s with
          contexts := t.contexts
          order := { s.order with snapshot := none }
          throttle := { s.throttle with zoneOverride := false }
          session := { s.session with
            state := .chequered, heldFrom := none
            grace := some (s.session.grace.getD (s.settings.heat.finishGrace * 100000))
            periods := ended s.clock.now s.session.periods } } t ∧
        (∀ e : Entry, ctx t e = armed (ctx s e)) ∧
        Announced s t ⟨.chequer, 0⟩ .chequered .request ∧ Replied s t tag .ok []) ∧
      (st = .chequered → ¬Afield s → ∃ t, exec (.resume tag []) s = .next t ∧
        HeatCloses 0xC0 { s with
          contexts := s.contexts.map armed
          order := { s.order with snapshot := none }
          throttle := { s.throttle with zoneOverride := false }
          session := { s.session with
            state := .chequered, heldFrom := none
            grace := some (s.session.grace.getD (s.settings.heat.finishGrace * 100000))
            periods := ended s.clock.now s.session.periods } } t .allFinished
          [⟨0, s.clock.now, .session .chequered .request s.session.heatClock⟩] ∧
        t.session = { s.session with
          state := .closed, aborted := false, heldFrom := none, countdown := none, grace := none
          periods := ended s.clock.now s.session.periods } ∧ Replied s t tag .ok [])) ∧
    (s.session.state = .held → s.session.heldFrom = some st → ¬GatesReady s →
      Refuses (.resume tag []) s tag .notAligned) ∧
    (s.session.state ≠ .held → Refuses (.resume tag []) s tag .wrongState)

/-- ABORT and the clock limit in a heat close it aborted: no countdown, held-from or grace, the neutral period
closed, deadlines, pairs, drill and snapshot gone, every service ended with its mark and hold while its ticks and
owed entries stay, LAMP DARK, a SESSION record. In IDLE and CLOSED ABORT is refused with WRONG_STATE and the clock
limit does nothing. DISMISS returns CLOSED to IDLE and keeps the rest; elsewhere it is refused with WRONG_STATE
(R21, R124, R125, R126, R163). That the clock limit sets SESSION while RSTN is low too, when R19 discards its record,
is the model's choice (log entry 10). -/
def Obligations.AbortAndDismissResult : Prop :=
  ∀ (s : State) (tag : Byte),
    let heat : Prop := s.session.state ≠ .idle ∧ s.session.state ≠ .closed
    let closes (t : State) : Prop :=
      Outputs 0xC0 { s with
        contexts := t.contexts
        pit := t.pit
        order := { s.order with snapshot := none }
        resolver := { s.resolver with pairs := [], drillOn := false, drills := State.reset.resolver.drills }
        session := { s.session with
          state := .closed, aborted := true, countdown := none, heldFrom := none, grace := none
          periods := ended s.clock.now s.session.periods } } t ∧
      (∀ e : Entry, (Serving (ctx s e) → t.pit.marks[e] = none ∧ t.pit.holds[e] = false ∧
          ctx t e = { ctx s e with
            deadline := none
            owed := (ctx s e).owed.modifyHead fun o => { o with inService := false }
            transit := (ctx s e).transit.map fun x => { x with service := false } }) ∧
        (¬Serving (ctx s e) → t.pit.marks[e] = s.pit.marks[e] ∧ t.pit.holds[e] = s.pit.holds[e] ∧
          ctx t e = { ctx s e with deadline := none }))
    (heat → Listening s → ∃ t, exec (.abort tag []) s = .next t ∧ closes t ∧
      Announced s t ⟨.dark, 0⟩ .closed .abortRequest ∧ Replied s t tag .ok []) ∧
    (¬heat → Listening s → Refuses (.abort tag []) s tag .wrongState) ∧
    (heat → s.clock.now = 4200000000 → ∃ t, exec .clockLimit s = .next t ∧ closes t ∧
      Announced s t ⟨.dark, 0⟩ .closed .clockLimit) ∧
    (¬heat → ∃ t, exec .clockLimit s = .next t ∧ Quiet s t) ∧
    (s.session.state = .closed → Listening s → ∃ t, exec (.dismiss tag []) s = .next t ∧
      Outputs 0xC0 { s with session := { s.session with state := .idle, aborted := false } } t ∧
      Announced s t ⟨.dark, 0⟩ .idle .request ∧ Replied s t tag .ok []) ∧
    (s.session.state ≠ .closed → Listening s → Refuses (.dismiss tag []) s tag .wrongState)

/-- The classification holds every car in use once, disqualified cars in their order in the running order, and
stands as R107 says: group, adjusted laps, lines in the lap, adjusted time, entry number. -/
def Obligations.ClassificationIsOrdered : Prop :=
  ∀ s : State, (classification s).Pairwise (ClassedAhead s) ∧
    ((classification s).filter fun e => !(ctx s e).disqualified).Nodup ∧
    (∀ e : Entry, (ctx s e).disqualified = false → (e ∈ classification s ↔ (ctx s e).state ≠ .unused)) ∧
    (classification s).filter (fun e => (ctx s e).disqualified) = s.order.list.filter fun e => (ctx s e).disqualified

/-- The end of the finish grace in CHEQUERED closes the heat: not aborted, LAMP DARK, every owed entry of every car
turned into its fallback seconds. The record queue, with room and a busy transmitter, then ends with the SESSION
record, the SERVE records CONVERTED by ascending entry and head to tail, and a FINISH record for each car in the order
of the classification (R109, R123, R124, R162, R163). -/
def Obligations.GraceExpiryResult : Prop :=
  ∀ s : State, s.rstnLow = false → s.session.state = .chequered → s.session.grace = some 0 →
    ∃ t, exec .graceExpiry s = .next t ∧ HeatCloses 0xC0 s t .graceUp []

/-- The countdown's end of a step shows the next lower red count for STEP_IVL, or begins the hold without a lamp.
The end of the hold, at once when its length is 0, gives GREEN: the green time, every GRID car RUNNING with line
0's overdue limit, and with the drill switch ON a schedule for every drill car, SCATTER lap times drawn in entry
order (R62, R63, R66, R72, R114, R115). -/
def Obligations.CountdownRuns : Prop :=
  ∀ (s : State) (c : Countdown), s.rstnLow = false → s.session.state = .countdown → s.session.countdown = some c →
    c.remaining = 0 →
    let draw (v : BitVec 16) : BitVec 16 := if v.getLsbD 0 then (v >>> 1) ^^^ 0xB400 else v >>> 1
    let drills (e : Entry) : Prop := s.resolver.drillOn = true ∧ (entryRow s e).controller ≠ none ∧
      (entryRow s e).drillMode ≠ .off
    let scatters (upTo : Nat) : Nat := ((allEntries.filter fun e => decide (e.val < upTo)).filter fun e =>
      s.resolver.drillOn && (entryRow s e).controller.isSome && (entryRow s e).drillMode == .scatter).length
    let green (t : State) : Prop :=
      Outputs 0xC0 { s with
        contexts := t.contexts
        resolver := { s.resolver with drills := t.resolver.drills, lfsr := draw^[scatters 16] s.resolver.lfsr }
        session := { s.session with state := .green, greenTime := some s.clock.now, countdown := none } } t ∧
      Announced s t ⟨.green, 0⟩ .green .lightsOut ∧
      (∀ e : Entry, ctx t e = if (ctx s e).state = .grid then { ctx s e with
          state := .running, expected := 0, laps := 0, lapStart := none, progressTime := none
          deadline := if (lineRow s 0).overdue = 0 then none else some (.due (s.clock.now + (lineRow s 0).overdue)) }
        else ctx s e) ∧
      ∀ e : Entry,
        let lap : Ticks := (entryRow s e).drillLap
        (¬drills e → t.resolver.drills[e] = s.resolver.drills[e]) ∧
        (drills e → t.resolver.drills[e] = some {
          lap := 0
          lapTime := if (entryRow s e).drillMode = .scatter
            then lap + (draw^[scatters (e.val + 1)] s.resolver.lfsr).toNat % ((entryRow s e).drillStep + 1) else lap
          launchDue := true
          nextLine := 0
          remaining := lap / s.settings.timing.lines })
    (c.phase = .steps → 1 < c.red → ∃ t, exec .countdownStepEnd s = .next t ∧
      Outputs 0 { s with session := { s.session with
        countdown := some { c with red := c.red - 1, remaining := s.settings.heat.stepIvl } } } t ∧
      Shows t ⟨.red, c.red - 1⟩ ∧ RecordsKept s t) ∧
    (c.phase = .steps → c.red ≤ 1 → 0 < c.hold → ∃ t, exec .countdownStepEnd s = .next t ∧
      Quiet { s with session := { s.session with
        countdown := some { c with phase := .hold, remaining := c.hold } } } t) ∧
    (c.phase = .steps → c.red ≤ 1 → c.hold = 0 → ∃ t, exec .countdownStepEnd s = .next t ∧ green t) ∧
    (c.phase = .hold → ∃ t, exec .randomHoldEnd s = .next t ∧ green t)

/-- The end of the heat clock in a TIME heat in GREEN or CAUTION enters CHEQUERED: the neutral period closes, the
grace is set, the snapshot goes, LAMP CHEQUER, a SESSION record with cause TIME_UP; with no car left afield the
heat closes at once behind that record, with the work that R124 gives a close (R121, R122, R123). -/
def Obligations.HeatClockExpiryResult : Prop :=
  ∀ s : State, s.rstnLow = false → s.settings.heat.raceKind = .time → s.session.heatClock = 0 →
    s.session.state = .green ∨ s.session.state = .caution →
    (Afield s → ∃ t, exec .heatClockExpiry s = .next t ∧
      Outputs 0xC0 { s with
        order := { s.order with snapshot := none }
        session := { s.session with
          state := .chequered, periods := ended s.clock.now s.session.periods
          grace := some (s.settings.heat.finishGrace * 100000) } } t ∧
      Announced s t ⟨.chequer, 0⟩ .chequered .timeUp) ∧
    (¬Afield s → ∃ t, exec .heatClockExpiry s = .next t ∧
      HeatCloses 0xC0 { s with
        order := { s.order with snapshot := none }
        session := { s.session with
          state := .chequered, periods := ended s.clock.now s.session.periods
          grace := some (s.settings.heat.finishGrace * 100000) } } t .allFinished
        [⟨0, s.clock.now, .session .chequered .timeUp 0⟩] ∧
      t.session = { s.session with
        state := .closed, aborted := false, heldFrom := none, countdown := none, grace := none
        periods := ended s.clock.now s.session.periods } ∧
      (s.link.records.length < 63 → Recorded t ⟨0, s.clock.now, .session .chequered .timeUp 0⟩))

/-- A press of the marshal's button is recorded and sets MARSHAL in every session state. With MARSHAL_ACTION CAUTION it
moves GREEN to CAUTION, with HOLD it moves GREEN, CAUTION or CHEQUERED to HELD, as the requests do but with cause
BUTTON: the period list and the current laps as a new period or an open one leaves them, the charged sets emptied at the
one move, the deadlines suspended at the other. Otherwise it moves nothing (R87, R100, R116, R117, R119, R128). That the
neutral mark goes on every context that is not UNUSED, FINISHED and RETIRED cars too, is the model's choice (log entry
19). Where the station transmitter is busy the press's record stands last in the queue, behind it a move's SESSION
record; with 64 records waiting the oldest SECTOR record goes, or, where there is none, the new record, and RECORDS is
set (R15). A press that moves nothing brings no lamp. -/
def Obligations.MarshalButtonResult : Prop :=
  ∀ (s : State) (g : GateId) (arrival : Ticks), s.rstnLow = false →
    let action := s.settings.heat.marshalAction
    let yellow : Prop := action = .caution ∧ s.session.state = .green
    let stop : Prop := action = .hold ∧
      (s.session.state = .green ∨ s.session.state = .caution ∨ s.session.state = .chequered)
    let held (c : Context) : Context := { c with deadline := c.deadline.map fun d => match d with
      | .due time => .suspended (time - s.clock.now)
      | .suspended r => .suspended r }
    let press : Record := ⟨g.val + 1, arrival, .button (g.val + 1)⟩
    ∃ t, exec (.marshalButton (BitVec.ofNat 8 (g.val + 1)) arrival) s = .next t ∧
      groupSet .marshal t = true ∧
      (s.link.records.length < 63 → Recorded t press) ∧
      (¬yellow → ¬stop → Outputs 0x90 s t ∧ LampKept s t ∧
        (s.link.stationTx.isSome = true →
          (s.link.records.length < 64 → t.link.records = s.link.records ++ [press] ∧
            groupSet .records t = groupSet .records s) ∧
          (64 ≤ s.link.records.length → groupSet .records t = true ∧
            (∀ before x after, s.link.records = before ++ x :: after → x.isSector = true →
              (∀ y ∈ before, y.isSector = false) → t.link.records = before ++ after ++ [press]) ∧
            ((∀ y ∈ s.link.records, y.isSector = false) → t.link.records = s.link.records)))) ∧
      (yellow → Outputs 0xD0 { s with
          contexts := t.contexts
          order := { s.order with snapshot := some s.order.list }
          session := { s.session with state := .caution, periods := t.session.periods } } t ∧
        Shows t ⟨.yellow, 0⟩ ∧ groupSet .session t = true ∧
        Joined s t [press, ⟨0, s.clock.now, .session .caution .button s.session.heatClock⟩] ∧
        (s.link.records.length < 63 →
          Recorded t ⟨0, s.clock.now, .session .caution .button s.session.heatClock⟩) ∧
        (¬PeriodOpen s → t.session.periods = opened s.clock.now s.session.periods ∧
          ∀ e : Entry, ctx t e = { neutralised (ctx s e) with charged := [] }) ∧
        (PeriodOpen s → t.session.periods = s.session.periods ∧
          ∀ e : Entry, ctx t e = { ctx s e with charged := [] })) ∧
      (stop → Outputs 0xD0 { s with
          contexts := t.contexts
          pit := { s.pit with marks := t.pit.marks }
          session := { s.session with
            state := .held, heldFrom := some s.session.state, periods := t.session.periods } } t ∧
        (∀ e : Entry, t.pit.marks[e] = none) ∧
        Shows t ⟨.redHold, 0⟩ ∧ groupSet .session t = true ∧
        Joined s t [press, ⟨0, s.clock.now, .session .held .button s.session.heatClock⟩] ∧
        (s.link.records.length < 63 → Recorded t ⟨0, s.clock.now, .session .held .button s.session.heatClock⟩) ∧
        (¬PeriodOpen s → t.session.periods = opened s.clock.now s.session.periods ∧
          ∀ e : Entry, ctx t e = neutralised (held (ctx s e))) ∧
        (PeriodOpen s → t.session.periods = s.session.periods ∧ ∀ e : Entry, ctx t e = held (ctx s e)))

/-! ### The director's calls -/

/-- A counted ISSUE raises an incident now: the count rises, the row makes it a warning or a penalty, a penalty's
sanction is applied, the CALL is recorded and CALL set as the row asks. JUMP_START sets the jump-flagged field. The
reply gives class, number and converted (R135, R140 to R150). A black flag that leaves CHEQUERED without a car afield
closes the heat behind the CALL, with the work that R124 gives a close (R123). A car UNUSED is refused with BAD_INDEX, a
disqualified, FINISHED or RETIRED car with WRONG_STATE, and so is every counted ISSUE outside GREEN, CAUTION, HELD and
CHEQUERED (R149). -/
def Obligations.CountedIssueResult : Prop :=
  ∀ (s : State) (tag : Byte) (e : Entry) (kind : IncidentKind), Listening s →
    let taken : Prop := s.session.state = .green ∨ s.session.state = .caution ∨ s.session.state = .held ∨
      s.session.state = .chequered
    let c : Instr := .issueCounted tag (u8 (e.val + 1) ++ [kind.code, 0])
    let p := judged s kind
      (if kind = .jumpStart then { ctx s e with jumpFlagged := true } else ctx s e)
    (taken →
      (ctx s e).state = .grid ∨ (ctx s e).state = .running ∨ (ctx s e).state = .inPit ∨ (ctx s e).state = .offTrack →
      (ctx s e).disqualified = false → ∃ t, exec c s = .next t ∧
        (¬FlagsCar p.2 → Outputs 0x88 (struck e p.1 none s) t) ∧
        (FlagsCar p.2 → GoesOn s e → Outputs 0x88 (struck e p.1 (some (ruleOf s kind).enforce) s) t) ∧
        (¬FlagsCar p.2 ∨ GoesOn s e → LampKept s t ∧ Joined s t [⟨e.val + 1, s.clock.now, .call p.2⟩]) ∧
        (FlagsCar p.2 → ¬GoesOn s e → HeatCloses 0xC8 (struck e p.1 (some (ruleOf s kind).enforce) s) t .allFinished
          [⟨e.val + 1, s.clock.now, .call p.2⟩]) ∧
        Called s t e s.clock.now p.2 ∧
        Replied s t tag .ok ([p.2.cls.code] ++ u8 p.2.number ++ yesNo p.2.converted)) ∧
    (taken → (ctx s e).state = .unused → Refuses c s tag .badIndex) ∧
    (taken → (ctx s e).state ≠ .unused →
      (ctx s e).disqualified = true ∨ (ctx s e).state = .finished ∨ (ctx s e).state = .retired →
      Refuses c s tag .wrongState) ∧
    (¬taken → ∀ raw : List Byte, 3 ≤ raw.length → Refuses (.issueCounted tag raw) s tag .wrongState)

/-- A direct ISSUE applies the sanction it names with its own amount, window, fallback and enforce, brought into
range: no count changes, the CALL is a PENALTY with number 0, the reply is ADJUSTED if a value was brought to a
bound. Refusals follow the order of R149, with WRONG_STATE for a disqualified car and for a FINISHED or RETIRED
car that could not serve, BAD_INDEX for an UNUSED car, BAD_VALUE for a kind, a mode, a sanction or an enforce byte
outside its codes and for an argument count that is not the mode's, and WRONG_STATE for every direct ISSUE outside
GREEN, CAUTION, HELD and CHEQUERED. A black flag that leaves CHEQUERED without a car afield closes the heat behind the
CALL, with the work that R124 gives a close (R123, R138, R141 to R150). -/
def Obligations.DirectIssueResult : Prop :=
  ∀ (s : State) (tag : Byte) (e : Entry) (kind : IncidentKind) (k : Sanction) (amount window fallback : Nat)
    (enforce : Bool), Listening s → amount < 256 → window < 256 → fallback < 256 →
    let racing : Prop := s.session.state = .green ∨ s.session.state = .caution ∨ s.session.state = .held ∨
      s.session.state = .chequered
    let taken : Prop := racing ∧ (ctx s e).state ≠ .unused
    let gone : Prop := (ctx s e).state = .finished ∨ (ctx s e).state = .retired
    let near (lo hi v : Nat) : Nat := if v < lo then lo else if hi < v then hi else v
    let stored : Nat := match k with
      | .timeAdd => near 1 255 amount
      | .lapDeduct => near 1 15 amount
      | .stopGo => near 1 60 amount
      | _ => 0
    let r : Ruling := ⟨k, stored, near 1 15 window, near 1 255 fallback, enforce⟩
    let exact : Prop := (k = .timeAdd ∨ k = .lapDeduct ∨ k = .stopGo → stored = amount) ∧ r.window = window ∧
      r.fallback = fallback
    let c : Instr := .issueDirect tag (u8 (e.val + 1) ++ [kind.code, 1, k.code] ++ u8 amount ++ u8 window ++
      u8 fallback ++ yesNo enforce)
    let p := sanctioned kind r (ctx s e)
    let call : CallBody := ⟨kind, .penalty, 0, k, calledAmount r, p.2.1, p.2.2⟩
    (taken → (ctx s e).disqualified = false → (gone → k ≠ .driveThrough ∧ k ≠ .stopGo) → ∃ t, exec c s = .next t ∧
      (k ≠ .blackFlag → Outputs 0x88 (struck e p.1 none s) t) ∧
      (k = .blackFlag → GoesOn s e → Outputs 0x88 (struck e p.1 (some enforce) s) t) ∧
      (k ≠ .blackFlag ∨ GoesOn s e → LampKept s t ∧ Joined s t [⟨e.val + 1, s.clock.now, .call call⟩]) ∧
      (k = .blackFlag → ¬GoesOn s e → HeatCloses 0xC8 (struck e p.1 (some enforce) s) t .allFinished
        [⟨e.val + 1, s.clock.now, .call call⟩]) ∧
      Called s t e s.clock.now call ∧
      (exact → Replied s t tag .ok ([call.cls.code] ++ u8 0 ++ yesNo call.converted)) ∧
      (¬exact → Replied s t tag .adjusted ([call.cls.code] ++ u8 0 ++ yesNo call.converted))) ∧
    (taken → (ctx s e).disqualified = true → Refuses c s tag .wrongState) ∧
    (taken → gone → k = .driveThrough ∨ k = .stopGo → Refuses c s tag .wrongState) ∧
    (racing → (ctx s e).state = .unused → Refuses c s tag .badIndex) ∧
    (¬racing → ∀ raw : List Byte, 3 ≤ raw.length → Refuses (.issueDirect tag raw) s tag .wrongState) ∧
    (taken → ∀ (x mode : Byte) (rest : List Byte),
      (6 < x.toNat ∨ 1 < mode.toNat ∨ (mode = 0 ∧ rest ≠ []) ∨ (mode = 1 ∧ rest.length ≠ 5) ∨
        (mode = 1 ∧ (5 < (rest.getD 0 0).toNat ∨ 1 < (rest.getD 4 0).toNat)) →
      Refuses (.issueCounted tag (u8 (e.val + 1) ++ [x, mode] ++ rest)) s tag .badValue ∧
        Refuses (.issueDirect tag (u8 (e.val + 1) ++ [x, mode] ++ rest)) s tag .badValue))

/-- WAIVE in a heat removes one owed entry, ends its service if it was in service (its ticks, mark and hold gone), and
emits SERVE WAIVED, with the ticks of an in-service STOP_GO; the reply gives the entries left. RETIRE in a heat retires
a car: its deadline goes, a car in the pit loses its transit unjudged, the order unit moves it, and CHEQUERED closes
without a car afield, with the work that R124 gives a close (R123). FINISHED refuses with WRONG_STATE; RETIRED is
answered OK and left (R94, R98, R164, R165; log entry 18). -/
def Obligations.WaiveAndRetireResult : Prop :=
  ∀ (s : State) (tag : Byte) (e : Entry), Listening s →
    let heat : Prop := s.session.state ≠ .idle ∧ s.session.state ≠ .closed
    let waive (i : Nat) : Instr := .waive tag (u8 (e.val + 1) ++ u8 i)
    let retire : Instr := .retire tag (u8 (e.val + 1))
    let ticks : Ticks := ((ctx s e).transit.map fun x => x.stationary).getD 0
    (heat → (ctx s e).state ≠ .unused → ∀ (i : Nat) (o : Owed), i < 256 → (ctx s e).owed[i]? = some o →
      ∃ t, exec (waive i) s = .next t ∧
        Outputs 0x80 { s with
          contexts := s.contexts.set e { ctx s e with
            owed := (ctx s e).owed.eraseIdx i
            transit := if o.inService then
                (ctx s e).transit.map fun x => { x with stationary := 0, service := false }
              else (ctx s e).transit }
          pit := if o.inService then { marks := s.pit.marks.set e none, holds := s.pit.holds.set e false }
            else s.pit } t ∧
        (let told : Record := ⟨e.val + 1, s.clock.now, .serve .waived o.sanction
          (if o.inService = true ∧ o.sanction = .stopGo then some ticks else none)⟩
         (s.link.records.length < 64 → Recorded t told) ∧ Joined s t [told]) ∧ LampKept s t ∧
        Replied s t tag .ok (u8 ((ctx s e).owed.length - 1))) ∧
    (heat → (ctx s e).state ≠ .unused → ∀ i, i < 256 → (ctx s e).owed.length ≤ i →
      Refuses (waive i) s tag .badIndex) ∧
    (heat → (ctx s e).state ≠ .unused → (ctx s e).state ≠ .finished → (ctx s e).state ≠ .retired →
      let left (k : List Entry) : State := { s with
        contexts := s.contexts.set e { ctx s e with
          state := .retired, deadline := none
          owed := if (ctx s e).state = .inPit then
              (ctx s e).owed.modifyHead fun o => { o with inService := false }
            else (ctx s e).owed
          transit := if (ctx s e).state = .inPit then none else (ctx s e).transit }
        pit := if (ctx s e).state = .inPit then
            { marks := s.pit.marks.set e none, holds := s.pit.holds.set e false }
          else s.pit
        order := { s.order with list := k } }
      ∃ t, exec retire s = .next t ∧ Replied s t tag .ok [] ∧
        (GoesOn s e → Outputs 0 (left t.order.list) t ∧ Placed s t e ∧ RecordsKept s t ∧ LampKept s t) ∧
        (¬GoesOn s e → Placed s (left t.order.list) e ∧ HeatCloses 0xC0 (left t.order.list) t .allFinished [])) ∧
    (heat → (ctx s e).state = .retired → ∃ t, exec retire s = .next t ∧ Quiet s t ∧ Replied s t tag .ok []) ∧
    (heat → (ctx s e).state = .finished → Refuses retire s tag .wrongState) ∧
    (heat → (ctx s e).state = .unused → Refuses retire s tag .badIndex ∧ ∀ i, i < 256 → Refuses (waive i) s tag .badIndex) ∧
    (¬heat → Refuses retire s tag .wrongState ∧ ∀ i, i < 256 → Refuses (waive i) s tag .wrongState)

/-! ### Drive frames -/

/-- A DRIVE frame is edited entry by entry in order, and what is left joins the drive queue of 2, dropping its oldest
with LINK when full; nothing is offered when no entry is left. A matched entry gets its car code, the smaller of its
throttle (read as at most 63) and the car's ceiling, and its change request unless stripped; it accrues stationary time
and fuel. An entry that is a jump start is charged first, and then goes out under the ceiling and the stripping rule as
they stand behind the penalty, the disqualified-stop set included. An unmapped entry goes as it came, or is removed in a
heat with LOCKOUT (R12, R145, R156, R158, R172 to R175, R180, R181). That the stripping rule reads the row of the car's
expected line, where LINES has been lowered to it or below it between heats too, is the model's choice (log entry 34).
-/
def Obligations.DriveFrameResult : Prop :=
  ∀ (s : State) (time : Ticks), s.rstnLow = false →
    (∀ es : List DriveEntry, 1 ≤ es.length → es.length ≤ 16 →
      let r := es.foldl (fun (acc : State × List DriveEntry) d =>
        ((editEntry time d acc.1).1, acc.2 ++ (editEntry time d acc.1).2.toList)) (received .station s, [])
      let queue := r.1.link.drive
      ∃ t, exec (.driveFrame es time) s = .next t ∧ RecordsKept r.1 t ∧ LampKept r.1 t ∧
        (r.2 = [] → Outputs 0 r.1 t) ∧
        (r.2 ≠ [] → (t.link.drive.getLast? = some r.2 ∨
            (t.link.drive = [] ∧ t.link.trackTx = some (transmit .track (driveFrameOf r.2)))) ∧
          (queue.length < 2 → Outputs 0 { r.1 with link := { r.1.link with drive := queue ++ [r.2] } } t) ∧
          (2 ≤ queue.length → groupSet .link t = true ∧
            Outputs 0x01 { r.1 with link := { r.1.link with drive := queue.drop 1 ++ [r.2] } } t))) ∧
    (∀ d : DriveEntry, (∀ e : Entry, (entryRow s e).controller ≠ some d.first.toNat) →
      (s.settings.timing.lockout = true → s.session.state ≠ .idle → s.session.state ≠ .closed →
        editEntry time d s = (s, none)) ∧
      (s.settings.timing.lockout = false ∨ s.session.state = .idle ∨ s.session.state = .closed →
        editEntry time d s = (s, some { d with throttle := BitVec.ofNat 8 (min 63 d.throttle.toNat) }))) ∧
    (∀ (d : DriveEntry) (e : Entry), (∀ f : Entry, (entryRow s f).controller = some d.first.toNat ↔ f = e) →
      let c := ctx s e
      let throttle : Nat := min 63 d.throttle.toNat
      let jump : Prop := s.session.state = .countdown ∧ (s.session.countdown.map fun x => x.phase) = some .hold ∧
        c.state = .grid ∧ s.settings.timing.jumpLevel ≤ throttle ∧ c.jumpFlagged = false
      let caps (u : State) : List (Prop × Nat) := [
        (u.settings.timing.startHold = true ∧ (u.session.state = .armed ∨ u.session.state = .countdown), 0),
        (u.session.state = .caution, u.settings.timing.cautionCap), (u.session.state = .held, 0),
        ((ctx u e).state = .inPit, u.settings.timing.pitCap), (u.pit.holds[e] = true, 0),
        ((ctx u e).fuelState = .out, u.settings.fuel.limp), (e ∈ u.penalty.stopSet, 0)]
      let stripped (u : State) : Prop := (lineRow u (ctx u e).expected).mode = .veto ∨
        (u.session.state = .caution ∧ u.settings.timing.cautionClose = true) ∨ u.throttle.zoneOverride = true
      -- the entry goes out with this throttle, under the ceiling and the stripping rule as they stand in `u`
      let rewritten (u : State) (out : Nat) : Prop :=
        out ≤ throttle ∧ (∀ p ∈ caps u, p.1 → out ≤ p.2) ∧ (out = throttle ∨ ∃ p ∈ caps u, p.1 ∧ out = p.2) ∧
        (editEntry time d s).2 = some ⟨(entryRow s e).code, BitVec.ofNat 8 out,
          open Classical in if ¬stripped u ∧ (d.change = 1 ∨ d.change = 2) then d.change else 0⟩
      (¬jump → ∃ out : Nat, rewritten s out ∧
        let stop : Option Owed := match c.owed with
          | o :: _ => if c.state = .inPit ∧ o.inService = true ∧ o.sanction = .stopGo then some o else none
          | [] => none
        let stood : Ticks := match stop, s.pit.marks[e] with
          | some _, some m => if s.session.state ≠ .held ∧ throttle = 0 then time - m else 0
          | _, _ => 0
        let transit := c.transit.map fun x => { x with stationary :=
          if stop = none ∨ s.session.state = .held then x.stationary else min 4294967295 (x.stationary + stood) }
        let ticks : Ticks := (transit.map fun x => x.stationary).getD 0
        let pit : Pit := match stop with
          | none => s.pit
          | some o =>
            if s.session.state = .held then { s.pit with marks := s.pit.marks.set e none }
            else {
              marks := s.pit.marks.set e (some time)
              holds := s.pit.holds.set e ((s.pit.holds[e] || (o.enforce && decide (throttle = 0))) &&
                decide (ticks < o.amount * 100000)) }
        let burns : Prop := s.settings.fuel.cap ≠ 0 ∧
          (s.session.state = .green ∨ s.session.state = .caution ∨ s.session.state = .chequered)
        let level : Nat := open Classical in if ¬burns then c.fuel else match c.state with
          | .running => c.fuel - out * (entryRow s e).weight
          | .offTrack => c.fuel - out * (entryRow s e).weight
          | .inPit => if throttle = 0 then min s.settings.fuel.cap (c.fuel + s.settings.fuel.refuel) else c.fuel
          | _ => c.fuel
        let warn := s.settings.fuel.warn
        let fuel : FuelState × Option FuelCondition :=
          if level = c.fuel then (c.fuelState, none)
          else if level = 0 then (.out, if c.fuelState = .out then none else some .out)
          else match c.fuelState with
            | .normal => if warn ≠ 0 ∧ level < warn then (.low, some .low) else (.normal, none)
            | .low => if warn < level then (.normal, some .recovered) else (.low, none)
            | .out => if warn ≠ 0 ∧ level ≤ warn then (.low, none) else (.normal, some .recovered)
        Outputs 0xA0 { s with
          contexts := s.contexts.set e { c with transit := transit, fuel := level, fuelState := fuel.1 }
          pit := pit } (editEntry time d s).1 ∧
        LampKept s (editEntry time d s).1 ∧
        (fuel.2 = none → groupSet .fuel (editEntry time d s).1 = groupSet .fuel s ∧
          RecordsKept s (editEntry time d s).1) ∧
        ∀ k, fuel.2 = some k → groupSet .fuel (editEntry time d s).1 = true ∧
          Joined s (editEntry time d s).1 [⟨e.val + 1, time, .fuel k level⟩] ∧
          (s.link.records.length < 64 → Recorded (editEntry time d s).1 ⟨e.val + 1, time, .fuel k level⟩)) ∧
      (jump →
        let p := judged s .jumpStart { c with jumpFlagged := true }
        let u := (editEntry time d s).1
        (¬FlagsCar p.2 → Outputs 0x88 (struck e p.1 none s) u) ∧
        (FlagsCar p.2 → c.disqualified = false →
          Outputs 0x88 (struck e p.1 (some (ruleOf s .jumpStart).enforce) s) u) ∧
        ((FlagsCar p.2 → c.disqualified = false) → LampKept s u ∧ Joined s u [⟨e.val + 1, time, .call p.2⟩]) ∧
        Called s u e time p.2 ∧ ∃ out : Nat, rewritten u out))

/-! ### Crossings -/

/-- The path of one report turns away, in this order: a slot not in use, a lane that is off, a session not in a
heat (at the arrival time), a code of no mapped entry, an unreadable code without exactly one candidate (at the
converted time), each as a STRAY record with STRAY. A single report inside the holdoff at the same place is dropped
without a trace; one not later than the last accepted crossing is strayed with ORDER. On a paired line-lane a report is
handled singly where another entry's pair is held; else it opens a pair of its own, merges with the pair that the other
gate of its line-lane holds, or, where it may not, follows that pair's held report singly; a pair of its entry elsewhere
is released first, its silent gate's unpaired count rising. The mirrored copy goes ahead (R28, R45 to R57, R60). The
model's choices here: the code of a merged crossing whose reports carry different codes is a free value (log entry 13),
the present report goes on whatever the released crossing did (log entry 22), and the count rises at a release of R53
as at a deadline, at no gate where the line-lane has no other (log entry 23). -/
def Obligations.CrossingsAreStrayed : Prop :=
  ∀ (s : State) (g : GateId) (code : Byte) (count : Count) (arrival : Ticks), s.rstnLow = false →
    code.toNat ≤ 15 ∨ code.toNat = 31 →
    let c : Instr := .xingReceived (BitVec.ofNat 8 (g.val + 1)) code count arrival
    let time : Ticks := (converted s g count arrival).1
    let strayed (reason : StrayReason) (at_ : Ticks) : Prop := ∃ t, exec c s = .next t ∧
      Outputs 0x85 (mirrored s g code count) t ∧ groupSet .stray t = true ∧ LampKept s t ∧
      Joined s t [⟨g.val + 1, at_, .stray code reason⟩] ∧
      (s.link.records.length < 64 → Recorded t ⟨g.val + 1, at_, .stray code reason⟩)
    let heat : Prop := s.session.state ≠ .idle ∧ s.session.state ≠ .closed
    (GateUnused s g → strayed .gateUnused arrival) ∧
    (¬GateUnused s g → ¬LaneOn s g → strayed .laneOff arrival) ∧
    (¬GateUnused s g → LaneOn s g → ¬heat → strayed .notInHeat arrival) ∧
    (¬GateUnused s g → LaneOn s g → heat →
      (code.toNat ≤ 15 → (∀ e : Entry, (entryRow s e).controller ≠ none → (entryRow s e).code ≠ code) →
        strayed .unknownCar time) ∧
      (code.toNat = 31 → NoPartner s g → (∀ e : Entry, ∃ f : Entry, ¬(Candidate s g time f ↔ f = e)) →
        strayed .unattributed time) ∧
      (∀ (e : Entry) (inferred : Bool) (l : LastCrossing), Attributed s g code time e inferred → Single s g →
        (ctx s e).last = some l →
        (SamePlace s g l → time < l.time + s.settings.timing.lineHoldoff → ∃ t, exec c s = .next t ∧
          Outputs 0x01 (mirrored s g code count) t ∧ RecordsKept s t ∧ LampKept s t) ∧
        (¬SamePlace s g l → time ≤ l.time → strayed .order time)) ∧
      (∀ (e : Entry) (inferred : Bool),
        (gate s g).role = .line → PairedPlace s (gate s g).line (gate s g).lane → PairsShape s →
        let here (p : PendingPair) : Prop := p.line = (gate s g).line ∧ p.lane = (gate s g).lane
        Attributed s g code time e inferred ∨
          (code.toNat = 31 ∧ inferred = true ∧ ∃ p ∈ s.resolver.pairs, here p ∧ p.gate ≠ g ∧ p.entry = e) →
        let x := singleReport s g code count arrival e inferred
        let m := mirror (xingFrame (BitVec.ofNat 8 (g.val + 1)) code count) (received .track s)
        let pair : PendingPair := ⟨e, code, (gate s g).line, (gate s g).lane, g, time, arrival,
          (converted s g count arrival).2, inferred,
          arrival + s.settings.timing.pairWindow + s.settings.timing.lagMax⟩
        let held (c : Context) : Prop := ∃ l, c.last = some l ∧ SamePlace s g l ∧
          time < l.time + s.settings.timing.lineHoldoff
        ((∃ p ∈ s.resolver.pairs, here p ∧ p.entry ≠ e) → exec c s = .next (settle (deliver x m))) ∧
        ((∀ p ∈ s.resolver.pairs, here p → p.entry = e) →
          ((∀ p ∈ s.resolver.pairs, p.entry ≠ e) → ∃ t, exec c s = .next t ∧ RecordsKept s t ∧ LampKept s t ∧
            (held (ctx s e) → Outputs 0x01 (mirrored s g code count) t) ∧
            (¬held (ctx s e) → Outputs 0x01 { mirrored s g code count with
              resolver := { s.resolver with pairs := s.resolver.pairs ++ [pair] } } t)) ∧
          (∀ p ∈ s.resolver.pairs, p.entry = e → here p → p.gate ≠ g →
            let merges : Prop := time ≤ p.time + s.settings.timing.pairWindow ∧
              p.time ≤ time + s.settings.timing.pairWindow ∧ ∀ l, (ctx s e).last = some l → l.time < time
            (merges → ∀ h : GateId, (∀ k : GateId, ((gate s k).role = .line ∧ (gate s k).line = (gate s g).line ∧
                (gate s k).lane = (gate s g).lane ∧ (gate s k).position = .primary) ↔ k = h) →
              exec c s = .next (settle (deliver { x with
                code := codeOfMerge p.code code
                time := (p.time + time) / 2
                gate := h.val + 1
                lowConf := p.lowConf || x.lowConf
                inferred := p.inferred || inferred } (unpaired p m)))) ∧
            (¬merges → exec c s = .next (settle (deliver x (deliver (heldAlone p) (unpaired p m)))))) ∧
          (∀ p ∈ s.resolver.pairs, p.entry = e → ¬(here p ∧ p.gate ≠ g) → ∃ gates, UnpairedRaised s p gates ∧
            let u := deliver (heldAlone p) (unpaired p { m with clock := { m.clock with gates := gates } })
            (held (ctx u e) → exec c s = .next (settle u)) ∧
            (¬held (ctx u e) → exec c s = .next (settle { u with
              resolver := { u.resolver with pairs := u.resolver.pairs ++ [pair] } }))))))

/-- What an accepted crossing does by the state of its car. FINISHED and RETIRED: it becomes the last accepted crossing.
GRID: besides, a jump start charged once. RUNNING or OFF_TRACK at a PIT_ENTRY: the pit entry, with its misses, its
transit and the head of the owed queue in service; IN_PIT there: a repeat of it, which leaves the flags of the current
lap (log entry 37). Else the work of a moving car, which an IN_PIT car begins with the end of its transit and then, as
at a pit entry, with a lane foul charged. It goes on with the launch at line 0, a lost launch at another line, or the
crossing of another line with its misses, split, progress and SECTOR record, each with the passes of its placement
charged in CAUTION. A black flag anywhere among these ends the work: the car is out and disqualified, the crossing is
its last accepted one, and the heat closes where no other car is left afield in CHEQUERED. A re-cross of the last line
changes no lap (R54, R70 to R79, R85, R86, R89 to R92, R97, R102, R123, R144, R152, R154, R159, R160). The missed count
and the record flags of a lost launch are read by log entry 14, and what a black flag leaves undone by log entry 16. The
figures of a placed car are those of LapsAreClosed. -/
def Obligations.CrossingsAreTaken : Prop :=
  (∀ (L : Nat) (k j : Line), k.val < L → j.val < L → L ≤ 5 →
    (missedLines L k j).length = (j.val + L - k.val) % L ∧
    ((0 : Line) ∈ missedLines L k j ↔ j ≠ 0 ∧ (k = 0 ∨ j < k))) ∧
  ∀ (s : State) (g : GateId) (code : Byte) (count : Count) (arrival : Ticks) (e : Entry) (inferred foul : Bool),
    Accepts s g code count arrival e inferred → (foul = true ↔ Foul s g e) →
    let i : Instr := .xingReceived (BitVec.ofNat 8 (g.val + 1)) code count arrival
    let m := mirrored s g code count
    let c := ctx s e
    let time := (converted s g count arrival).1
    let low := (converted s g count arrival).2
    let last := crossingOf s g time
    let joined : LapMarks := ⟨c.marks.neutral, c.marks.lowConf || low, c.marks.inferred || inferred, c.marks.drill⟩
    let L := s.settings.timing.lines
    let j := zoneLine s g
    let missed := missedLines L c.expected j
    let split := c.last.map fun l => time - l.time
    let work := begun s e foul
    let d := work.1
    let viaPit : Bool := decide (c.state = .inPit)
    let again : Prop := 2 ≤ L ∧ (gate s g).role = .line ∧ ∃ l, c.last = some l ∧ l.role = .line ∧ l.line = j
    let moving : Prop := (c.state = .running ∨ c.state = .offTrack ∨ c.state = .inPit) ∧ (gate s g).role ≠ .pitEntry ∧
      ¬(c.state ≠ .inPit ∧ c.progressTime.isSome = true ∧ again)
    let set (c : Context) : State := { m with contexts := s.contexts.set e c }
    let ordered (k : List Entry) : State := { m with pit := pitBegun s e, order := { s.order with list := k } }
    -- the car is placed with this context and its passes are charged; `after` and `told` complete its context and records
    let placing (d1 : Context) (after : Context → Context) (told : State → List RecordBody) : Prop :=
      ∃ (t : State) (k : List Entry), exec i s = .next t ∧
        let w := placedAs s e d1 k
        let p := passesCharged s d1 (overtaken s w e)
        Placed s w e ∧
        (p.1.state ≠ .retired → Outputs 0x89 (struck e (after p.1) none (ordered k)) t ∧
          Told s t e time (work.2 ++ p.2 ++ told w)) ∧
        (p.1.state = .retired → c.disqualified = false →
          FlagEnds s (struck e p.1 (some (ruleOf s .cautionPass).enforce) (ordered k)) t e time (work.2 ++ p.2))
    let overdue (d : Context) : Context := { d with deadline := overdueFrom s time (nextLine L j) }
    let lapZero (w : State) (time : Option Ticks) (missed : Nat) : RecordBody := .lap {
      number := 0
      time := time
      flags := ⟨false, false, low, inferred, false, viaPit, false⟩
      missed := missed, splits := [], standing := standing w e
      fuel := if s.settings.fuel.cap = 0 then none else some c.fuel }
    (c.state = .finished ∨ c.state = .retired ∨ (c.state = .grid ∧ c.jumpFlagged = true) →
      ∃ t, exec i s = .next t ∧ Outputs 0x01 (set { c with last := some last }) t ∧ RecordsKept s t ∧ LampKept s t) ∧
    (c.state = .grid → c.jumpFlagged = false → c.disqualified = false →
      let p := judged s .jumpStart { c with jumpFlagged := true }
      let u : Context := { p.1 with last := some last }
      ∃ t, exec i s = .next t ∧
        (¬FlagsCar p.2 → Outputs 0x89 (set u) t ∧ Told s t e time [.call p.2]) ∧
        (FlagsCar p.2 → FlagEnds s (struck e u (some (ruleOf s .jumpStart).enforce) m) t e time [.call p.2])) ∧
    (c.state = .running ∨ c.state = .offTrack → (gate s g).role = .pitEntry →
      let d : Context := { d with
        missed := c.missed + if c.progressTime = none then 0 else missed.length
        expected := 0, last := some last }
      (Spared work.2 → ∃ t, exec i s = .next t ∧ Told s t e time work.2 ∧
        Outputs 0x89 { set { d with
            state := .inPit, deadline := none, marks := joined
            transit := some ⟨time, 0, !d.owed.isEmpty⟩
            owed := d.owed.modifyHead fun o => { o with inService := true } } with
          pit := if d.owed = [] then s.pit else { s.pit with marks := s.pit.marks.set e none } } t) ∧
      (c.disqualified = false → ∀ b, RecordBody.call b ∈ work.2 → FlagsCar b →
        ∃ t, exec i s = .next t ∧ FlagEnds s (struck e d (some (ruleOf s b.kind).enforce) m) t e time work.2)) ∧
    (c.state = .inPit → (gate s g).role = .pitEntry →
      let p := judged s .changeFoul c
      (foul = false → ∃ t, exec i s = .next t ∧ Told s t e time [] ∧ Outputs 0x89 (set { c with last := some last }) t) ∧
      (foul = true → c.disqualified = false → ∃ t, exec i s = .next t ∧
        (¬FlagsCar p.2 → Told s t e time [.call p.2] ∧ Outputs 0x89 (set { p.1 with last := some last }) t) ∧
        (FlagsCar p.2 →
          FlagEnds s (struck e { p.1 with last := some last } (some (ruleOf s .changeFoul).enforce) m) t e time
            [.call p.2]))) ∧
    (moving → c.disqualified = false → ∀ b, RecordBody.call b ∈ work.2 → FlagsCar b →
      ∃ t, exec i s = .next t ∧
        FlagEnds s (struck e { d with last := some last } (some (ruleOf s b.kind).enforce) m) t e time work.2) ∧
    (moving → Spared work.2 → c.progressTime = none → j = 0 →
      ∃ neutral : Bool, (neutral = true ↔ NeutralStart s time) ∧
        placing { d with
          lapStart := some time, crossed := [], splits := [], missed := 0
          marks := ⟨neutral, low, inferred, false⟩
          expected := nextLine L 0, last := some last
          progress := 0, progressTime := some time, ring := ringed c.ring 0 time
          deadline := overdueFrom s time (nextLine L 0) } id
          fun w => [lapZero w (s.session.greenTime.map fun x => time - x) 0]) ∧
    (moving → Spared work.2 → c.progressTime = none → j ≠ 0 →
      ∃ neutral : Bool, (neutral = true ↔ NeutralStart s s.clock.now) ∧
        placing { d with
          lapStart := none, crossed := [j], splits := [], missed := j.val - 1
          marks := ⟨neutral, low, inferred, false⟩
          expected := nextLine L j, last := some last
          progress := c.laps * L + j.val, progressTime := some time
          ring := ringed c.ring (c.laps * L + j.val) time } overdue
          fun w => [lapZero w none 1, .sector j (gate s g).lane none (j.val + 1)]) ∧
    (moving → Spared work.2 → c.progressTime.isSome = true → j ≠ 0 → (0 : Line) ∉ missed →
      placing { d with
        missed := c.missed + missed.length
        crossed := c.crossed ++ [j]
        splits := c.splits ++ (split.map fun x => (j, x)).toList
        marks := joined
        expected := nextLine L j, last := some last
        progress := c.laps * L + j.val, progressTime := some time
        ring := ringed c.ring (c.laps * L + j.val) time } overdue
        fun _ => [.sector j (gate s g).lane split (missed.length + 1)]) ∧
    ((c.state = .running ∨ c.state = .offTrack) → c.progressTime.isSome = true → again →
      ∃ t, exec i s = .next t ∧ Outputs 0x01 (set { c with
          state := .running, last := some last, marks := joined, deadline := overdueFrom s time c.expected }) t ∧
        RecordsKept s t ∧ LampKept s t)

/-- A lap closes at an accepted crossing of line 0, at a LINE gate or a PIT_EXIT, or of a line that reveals a missed
line 0, of a moving car that has launched (`begun` is the work before it). A counted lap raises the laps; one with too
many misses charges LINE_MISS. Last and best lap, the SECTOR record, the placement with its passes in CAUTION, the LAP
record with the figures of section 5.4. Then the car races on with its next lap, its expired owed entries charged at a
counted close; or, in CHEQUERED or where its laps end a LAPS heat, it finishes with its owed entries turned into
seconds, and with no other car afield the heat closes behind these records, with the work that R124 gives a close. A
black flag for a LINE_MISS, a pass or an UNSERVED ends the work there, with the car out and disqualified. In HELD the
laps that end the heat make held-from CHEQUERED (R80 to R86, R91, R97, R102 to R105, R121, R123, R124, R144, R161,
R162). A revealed miss that finishes the car still moves its expected line on (log entry 15), the expired entries leave
the queue before their records and incidents (log entry 17), and what a black flag leaves undone is read by log entry
16. -/
def Obligations.LapsAreClosed : Prop :=
  (∀ (s : State) (e : Entry), Stands s e (standing s e)) ∧
  (∀ (L : Nat) (k j : Line), k.val < L → j.val < L → L ≤ 5 → (0 : Line) ∈ missedLines L k j →
    ((missedLines L k j).takeWhile fun k => k ≠ 0).length + 1 = (L - k.val) % L + 1) ∧
  ∀ (s : State) (g : GateId) (code : Byte) (count : Count) (arrival : Ticks) (e : Entry) (inferred foul : Bool),
    Accepts s g code count arrival e inferred → (foul = true ↔ Foul s g e) →
    let i : Instr := .xingReceived (BitVec.ofNat 8 (g.val + 1)) code count arrival
    let m := mirrored s g code count
    let c := ctx s e
    let time := (converted s g count arrival).1
    let low := (converted s g count arrival).2
    let last := crossingOf s g time
    let joined : LapMarks := ⟨c.marks.neutral, c.marks.lowConf || low, c.marks.inferred || inferred, c.marks.drill⟩
    let L := s.settings.timing.lines
    let j := zoneLine s g
    let missed := missedLines L c.expected j
    let work := begun s e foul
    let viaPit : Bool := decide (c.state = .inPit)
    -- the misses up to line 0 close the lap, those behind it open the next
    let closing := if j = 0 then missed.length else (missed.takeWhile fun k => k ≠ 0).length + 1
    let n := c.missed + closing
    let counted : Bool := decide (n ≤ s.settings.timing.missTol)
    let laps := if counted then min 9999 (c.laps + 1) else c.laps
    let lapTime := if j = 0 then c.lapStart.map fun x => time - x else none
    let eligible : Bool :=
      counted && !joined.neutral && !joined.lowConf && !joined.inferred && !joined.drill && !viaPit
    let best : Bool := match lapTime, c.bestLap with
      | some x, some y => eligible && decide (x < y)
      | some _, none => eligible
      | none, _ => false
    let ran : Context := { work.1 with missed := n, marks := joined, laps := laps }
    let judge := if counted then (ran, []) else charge s .lineMiss (ran, [])
    let closed : Context := { judge.1 with lastLap := lapTime, bestLap := if best then lapTime else c.bestLap }
    let record (w : State) : RecordBody := .lap {
      number := c.laps + 1
      time := lapTime
      flags := ⟨counted, joined.neutral, joined.lowConf, joined.inferred, joined.drill, viaPit, best⟩
      missed := n, splits := c.splits, standing := standing w e
      fuel := if s.settings.fuel.cap = 0 then none else some c.fuel }
    let sector : List RecordBody :=
      if j = 0 then [.sector 0 (gate s g).lane (c.last.map fun l => time - l.time) (missed.length + 1)] else []
    let revealing : List RecordBody :=
      if j = 0 then [] else [.sector j (gate s g).lane none (missed.length + 1)]
    let served : List RecordBody := closed.owed.map fun o => .serve .converted o.sanction none
    let others : Prop :=
      ∃ f : Entry, f ≠ e ∧ ((ctx s f).state = .running ∨ (ctx s f).state = .offTrack ∨ (ctx s f).state = .inPit)
    let done : Prop := s.settings.heat.raceKind = .laps ∧ s.settings.heat.raceLaps ≤ laps
    let next (neutral : Bool) : Context := { closed with
      lapStart := if j = 0 then some time else none
      crossed := if j = 0 then [] else [j]
      splits := [], missed := if j = 0 then 0 else missed.length - closing
      marks := ⟨neutral, low, inferred, false⟩
      expected := nextLine L j, last := some last
      progress := laps * L + j.val, progressTime := some time, ring := ringed c.ring (laps * L + j.val) time }
    let finish : Context := { closed with
      state := .finished, finishTime := some time, deadline := none, owed := []
      penaltySeconds := closed.owed.foldl (fun x o => min 65535 (x + o.fallback)) closed.penaltySeconds
      expected := nextLine L j, last := some last
      progress := laps * L, progressTime := some time, ring := ringed c.ring (laps * L) time }
    let ordered (k : List Entry) : State := { m with pit := pitBegun s e, order := { s.order with list := k } }
    let entered (b : RecordBody) : Record := ⟨e.val + 1, time, b⟩
    let front := work.2 ++ sector ++ judge.2
    let racesOn (session : Session) : Prop :=
      ∃ (t : State) (k : List Entry) (neutral : Bool), exec i s = .next t ∧
        (neutral = true ↔ NeutralStart s (if j = 0 then time else s.clock.now)) ∧
        let base : State := { ordered k with session := session }
        let w := placedAs s e (next neutral) k
        let p := passesCharged s (next neutral) (overtaken s w e)
        let u := if counted then deadlinesChecked s p.1 else (p.1, [])
        let told := front ++ p.2 ++ [record w] ++ revealing ++ u.2
        Placed s w e ∧
        (p.1.state = .retired → c.disqualified = false →
          FlagEnds s (struck e p.1 (some (ruleOf s .cautionPass).enforce) base) t e time (front ++ p.2)) ∧
        (p.1.state ≠ .retired → u.1.state = .retired → c.disqualified = false →
          FlagEnds s (struck e u.1 (some (ruleOf s .unserved).enforce) base) t e time told) ∧
        (p.1.state ≠ .retired → u.1.state ≠ .retired →
          Outputs 0x89 (struck e { u.1 with deadline := overdueFrom s time (nextLine L j) } none base) t ∧
          Told s t e time told)
    -- the records of the finish, behind those of the close and, where the laps end the heat, behind that move's own
    let arrives (w : State) : List RecordBody := served ++ [record w] ++ revealing
    let ending (w : State) : List Record := front.map entered ++
      [⟨0, s.clock.now, .session .chequered .lapsDone s.session.heatClock⟩] ++ (arrives w).map entered
    let chequered (k : List Entry) : State := { struck e finish none (ordered k) with
      order := { list := k, snapshot := none }
      session := { s.session with
        state := .chequered, grace := some (s.settings.heat.finishGrace * 100000)
        periods := ended s.clock.now s.session.periods } }
    let finishes (after : State → List Entry → State → Prop) : Prop :=
      ∃ (t : State) (k : List Entry), exec i s = .next t ∧ Placed s (placedAs s e finish k) e ∧
        groupSet .call t = (front.any (asksCall s) || groupSet .call s) ∧ after t k (placedAs s e finish k)
    ((c.state = .running ∨ c.state = .offTrack ∨ c.state = .inPit) → (gate s g).role ≠ .pitEntry →
      c.progressTime.isSome = true → j = 0 ∨ (0 : Line) ∈ missed →
      (c.state ≠ .inPit → 2 ≤ L → (gate s g).role = .line → ∀ l, c.last = some l → l.role = .line → l.line ≠ j) →
      Spared work.2 →
      (¬Spared judge.2 → c.disqualified = false → ∃ t, exec i s = .next t ∧
        FlagEnds s (struck e { judge.1 with last := some last } (some (ruleOf s .lineMiss).enforce) m) t e time front) ∧
      (Spared judge.2 →
        (s.session.state ≠ .chequered →
          (¬(done ∧ (s.session.state = .green ∨ s.session.state = .caution ∨
              (s.session.state = .held ∧
                (s.session.heldFrom = some .green ∨ s.session.heldFrom = some .caution)))) →
            racesOn s.session) ∧
          (done → s.session.state = .held →
            s.session.heldFrom = some .green ∨ s.session.heldFrom = some .caution →
            racesOn { s.session with heldFrom := some .chequered })) ∧
        (s.session.state = .chequered → others → finishes fun t k w =>
          Outputs 0x89 (struck e finish none (ordered k)) t ∧ Told s t e time (front ++ arrives w)) ∧
        (s.session.state = .chequered → ¬others → finishes fun t k w =>
          HeatCloses 0xC9 (struck e finish none (ordered k)) t .allFinished ((front ++ arrives w).map entered)) ∧
        (done → s.session.state = .green ∨ s.session.state = .caution → others → finishes fun t k w =>
          Outputs 0xC9 (chequered k) t ∧ groupSet .session t = true ∧ Shows t ⟨.chequer, 0⟩ ∧ Joined s t (ending w) ∧
          (s.link.records.length + (ending w).length ≤ 64 → ∀ r ∈ ending w, Recorded t r)) ∧
        (done → s.session.state = .green ∨ s.session.state = .caution → ¬others → finishes fun t k w =>
          HeatCloses 0xC9 (chequered k) t .allFinished (ending w))))

/-- Crossings the part's own clocks bring. At its deadline a pending pair leaves the list, the silent partner's
unpaired count rises, and the held report goes on as a single report: inside the holdoff it is dropped, for a FINISHED
or RETIRED car it becomes the last accepted crossing. A drill schedule of a FINISHED or RETIRED car ends; another moves
on to its next line, with the next lap's time by its mode (FIXED, RAMP, SCATTER by a step of the LFSR), whatever becomes
of the crossing; out of caution a drill car's first crossing is its launch, with the drill flag. An overdue expiry waits
for a pending pair, and else makes the car OFF_TRACK with a MARSHAL record and its incident, whose black flag closes the
heat where no other car is left afield in CHEQUERED (R28, R55, R56, R63 to R66, R70, R73, R88, R123, R124). That no count
rises where the line-lane has no other gate (log entry 23), and that the schedule moves on before the delivery (log entry
26), are the model's readings. The figures of a placed car are those of LapsAreClosed. -/
def Obligations.TimedCrossings : Prop :=
  ∀ (s : State) (e : Entry),
    (∀ p ∈ s.resolver.pairs, s.rstnLow = false → (∀ q ∈ s.resolver.pairs, q.entry = e ↔ q = p) →
      p.deadline ≤ s.clock.now → ∃ gates, UnpairedRaised s p gates ∧
        let u := unpaired p { s with clock := { s.clock with gates := gates } }
        exec (.pairDeadline e) s = .next (settle (deliver (heldAlone p) u)) ∧
        ∀ l : LastCrossing, (ctx s e).last = some l →
          let bottom := p.arrival - s.settings.timing.lagMax
          let time : Ticks := if p.arrival < p.time then p.arrival else if p.time < bottom then bottom else p.time
          (l.role = .line → l.line = p.line → time < l.time + s.settings.timing.lineHoldoff →
            ∃ t, exec (.pairDeadline e) s = .next t ∧ Quiet u t) ∧
          ((l.role = .line → l.line = p.line → l.time + s.settings.timing.lineHoldoff ≤ time) → l.time < time →
            (ctx s e).state = .finished ∨ (ctx s e).state = .retired →
            ∃ t, exec (.pairDeadline e) s = .next t ∧ Quiet { u with contexts := s.contexts.set e { ctx s e with
              last := some ⟨time, p.line, p.lane, p.gate.val + 1, .line⟩ } } t)) ∧
    (∀ d : DrillSchedule, s.rstnLow = false →
      s.session.state = .green ∨ s.session.state = .caution ∨ s.session.state = .chequered →
      s.resolver.drills[e] = some d → d.remaining = 0 →
      ((ctx s e).state = .finished ∨ (ctx s e).state = .retired → ∃ t, exec (.drillCrossingDue e) s = .next t ∧
        Quiet { s with resolver := { s.resolver with drills := s.resolver.drills.set e none } } t) ∧
      ((ctx s e).state ≠ .finished → (ctx s e).state ≠ .retired →
        let row := entryRow s e
        let L := s.settings.timing.lines
        let ends : Bool := d.nextLine == 0 && !d.launchDue
        (ends = true → row.drillMode ≠ .off) →
        let v := s.resolver.lfsr
        let lfsr := if ends = true ∧ row.drillMode = .scatter then
          (if v.getLsbD 0 then (v >>> 1) ^^^ 0xB400 else v >>> 1) else v
        let lapTime : Ticks := if ends = false then d.lapTime else
          if row.drillMode = .ramp then row.drillLap + (d.lap + 1) * row.drillStep
          else if row.drillMode = .scatter then row.drillLap + lfsr.toNat % (row.drillStep + 1)
          else row.drillLap
        let line := nextLine L d.nextLine
        let u : State := { s with resolver := { s.resolver with
          lfsr := lfsr
          drills := s.resolver.drills.set e (some {
            lap := if ends then d.lap + 1 else d.lap
            lapTime := lapTime
            launchDue := false
            nextLine := line
            remaining := if line = 0 then lapTime - (L - 1) * (lapTime / L) else lapTime / L }) } }
        exec (.drillCrossingDue e) s = .next (settle (deliver {
          entry := e, code := row.code, time := s.clock.now, arrival := s.clock.now, gate := 0, role := .line
          line := d.nextLine, lane := row.drillLane, lowConf := false, inferred := false, drill := true } u)) ∧
        ((∃ l, (ctx s e).last = some l ∧ l.role = .line ∧ l.line = d.nextLine ∧
          s.clock.now < l.time + s.settings.timing.lineHoldoff) →
          ∃ t, exec (.drillCrossingDue e) s = .next t ∧ Quiet u t)) ∧
      (s.session.state ≠ .caution → d.nextLine = 0 → d.launchDue = true → (ctx s e).state = .running →
        (ctx s e).progressTime = none → (ctx s e).last = none →
        let c := ctx s e
        let now := s.clock.now
        let L := s.settings.timing.lines
        let line := nextLine L 0
        ∃ (t : State) (neutral : Bool), exec (.drillCrossingDue e) s = .next t ∧
          (neutral = true ↔ NeutralStart s now) ∧
          Outputs 0x80 { s with
            contexts := s.contexts.set e { c with
              lapStart := some now, crossed := [], splits := [], missed := 0
              marks := ⟨neutral, false, false, true⟩
              expected := line, last := some ⟨now, 0, (entryRow s e).drillLane, 0, .line⟩
              progress := 0, progressTime := some now, ring := ringed c.ring 0 now
              deadline := overdueFrom s now line }
            resolver := { s.resolver with drills := s.resolver.drills.set e (some {
              lap := d.lap, lapTime := d.lapTime, launchDue := false, nextLine := line
              remaining := if line = 0 then d.lapTime - (L - 1) * (d.lapTime / L) else d.lapTime / L }) }
            order := { s.order with list := t.order.list } } t ∧
          Placed s t e ∧
          Told s t e now [.lap {
            number := 0
            time := s.session.greenTime.map fun x => now - x
            flags := ⟨false, false, false, false, true, false, false⟩
            missed := 0, splits := [], standing := standing t e
            fuel := if s.settings.fuel.cap = 0 then none else some c.fuel }])) ∧
    (∀ time : Ticks, (ctx s e).state = .running → (ctx s e).deadline = some (.due time) → time ≤ s.clock.now →
      (∀ p, s.resolver.pairs.find? (fun q => q.entry == e) = some p → ∃ t, exec (.overdueExpiry e) s = .next t ∧
        Quiet { s with contexts := s.contexts.set e { ctx s e with deadline := some (.due (p.deadline + 1)) } } t) ∧
      ((∀ p ∈ s.resolver.pairs, p.entry ≠ e) → (ctx s e).disqualified = false →
        let p := judged s .offTrack { ctx s e with state := .offTrack, deadline := none }
        let told : List RecordBody := [.overdue (ctx s e).expected, .call p.2]
        let flagged : State := struck e p.1 (some (ruleOf s .offTrack).enforce) s
        ∃ t, exec (.overdueExpiry e) s = .next t ∧ groupSet .marshal t = true ∧
          (¬FlagsCar p.2 → Outputs 0x98 (struck e p.1 none s) t) ∧
          (FlagsCar p.2 → GoesOn s e → Outputs 0x98 flagged t) ∧
          (¬FlagsCar p.2 ∨ GoesOn s e → s.rstnLow = false → Told s t e time told) ∧
          (FlagsCar p.2 → ¬GoesOn s e → s.rstnLow = false →
            HeatCloses 0xD8 flagged t .allFinished (told.map fun b => ⟨e.val + 1, time, b⟩) ∧
            groupSet .call t = (told.any (asksCall s) || groupSet .call s))))
end

