-- ==== Sys2Proof/Laws/State.lean ====
section
/-! SUPPORT. What each named update of the state leaves alone, field by field, and what a read of the updated
table gives. -/

namespace Sys2Proof.Machine

@[simp] theorem setGroup_link (g : Group) (s : State) : (setGroup g s).link = s.link := rfl
@[simp] theorem setGroup_clock (g : Group) (s : State) : (setGroup g s).clock = s.clock := rfl
@[simp] theorem setGroup_resolver (g : Group) (s : State) : (setGroup g s).resolver = s.resolver := rfl
@[simp] theorem setGroup_contexts (g : Group) (s : State) : (setGroup g s).contexts = s.contexts := rfl
@[simp] theorem setGroup_order (g : Group) (s : State) : (setGroup g s).order = s.order := rfl
@[simp] theorem setGroup_session (g : Group) (s : State) : (setGroup g s).session = s.session := rfl
@[simp] theorem setGroup_penalty (g : Group) (s : State) : (setGroup g s).penalty = s.penalty := rfl
@[simp] theorem setGroup_pit (g : Group) (s : State) : (setGroup g s).pit = s.pit := rfl
@[simp] theorem setGroup_throttle (g : Group) (s : State) : (setGroup g s).throttle = s.throttle := rfl
@[simp] theorem setGroup_settings (g : Group) (s : State) : (setGroup g s).settings = s.settings := rfl
@[simp] theorem setGroup_rstnLow (g : Group) (s : State) : (setGroup g s).rstnLow = s.rstnLow := rfl
@[simp] theorem setGroup_choices (g : Group) (s : State) : (setGroup g s).choices = s.choices := rfl
@[simp] theorem setGroup_pending (g : Group) (s : State) : (setGroup g s).pending = s.pending := rfl

@[simp] theorem badFrame_clock (p : Port) (s : State) : (badFrame p s).clock = s.clock := by cases p <;> rfl
@[simp] theorem badFrame_resolver (p : Port) (s : State) : (badFrame p s).resolver = s.resolver := by cases p <;> rfl
@[simp] theorem badFrame_contexts (p : Port) (s : State) : (badFrame p s).contexts = s.contexts := by cases p <;> rfl
@[simp] theorem badFrame_order (p : Port) (s : State) : (badFrame p s).order = s.order := by cases p <;> rfl
@[simp] theorem badFrame_session (p : Port) (s : State) : (badFrame p s).session = s.session := by cases p <;> rfl
@[simp] theorem badFrame_penalty (p : Port) (s : State) : (badFrame p s).penalty = s.penalty := by cases p <;> rfl
@[simp] theorem badFrame_pit (p : Port) (s : State) : (badFrame p s).pit = s.pit := by cases p <;> rfl
@[simp] theorem badFrame_throttle (p : Port) (s : State) : (badFrame p s).throttle = s.throttle := by cases p <;> rfl
@[simp] theorem badFrame_settings (p : Port) (s : State) : (badFrame p s).settings = s.settings := by cases p <;> rfl
@[simp] theorem badFrame_rstnLow (p : Port) (s : State) : (badFrame p s).rstnLow = s.rstnLow := by cases p <;> rfl
@[simp] theorem badFrame_choices (p : Port) (s : State) : (badFrame p s).choices = s.choices := by cases p <;> rfl
@[simp] theorem badFrame_pending (p : Port) (s : State) : (badFrame p s).pending = s.pending := by cases p <;> rfl

@[simp] theorem setCtx_link (e : Entry) (c : Context) (s : State) : (setCtx e c s).link = s.link := rfl
@[simp] theorem setCtx_clock (e : Entry) (c : Context) (s : State) : (setCtx e c s).clock = s.clock := rfl
@[simp] theorem setCtx_resolver (e : Entry) (c : Context) (s : State) : (setCtx e c s).resolver = s.resolver := rfl
@[simp] theorem setCtx_order (e : Entry) (c : Context) (s : State) : (setCtx e c s).order = s.order := rfl
@[simp] theorem setCtx_session (e : Entry) (c : Context) (s : State) : (setCtx e c s).session = s.session := rfl
@[simp] theorem setCtx_penalty (e : Entry) (c : Context) (s : State) : (setCtx e c s).penalty = s.penalty := rfl
@[simp] theorem setCtx_pit (e : Entry) (c : Context) (s : State) : (setCtx e c s).pit = s.pit := rfl
@[simp] theorem setCtx_throttle (e : Entry) (c : Context) (s : State) : (setCtx e c s).throttle = s.throttle := rfl
@[simp] theorem setCtx_mgmt (e : Entry) (c : Context) (s : State) : (setCtx e c s).mgmt = s.mgmt := rfl
@[simp] theorem setCtx_settings (e : Entry) (c : Context) (s : State) : (setCtx e c s).settings = s.settings := rfl
@[simp] theorem setCtx_rstnLow (e : Entry) (c : Context) (s : State) : (setCtx e c s).rstnLow = s.rstnLow := rfl
@[simp] theorem setCtx_choices (e : Entry) (c : Context) (s : State) : (setCtx e c s).choices = s.choices := rfl
@[simp] theorem setCtx_pending (e : Entry) (c : Context) (s : State) : (setCtx e c s).pending = s.pending := rfl

@[simp] theorem updCtx_link (e : Entry) (f : Context → Context) (s : State) : (updCtx e f s).link = s.link := rfl
@[simp] theorem updCtx_clock (e : Entry) (f : Context → Context) (s : State) : (updCtx e f s).clock = s.clock := rfl
@[simp] theorem updCtx_resolver (e : Entry) (f : Context → Context) (s : State) : (updCtx e f s).resolver = s.resolver := rfl
@[simp] theorem updCtx_order (e : Entry) (f : Context → Context) (s : State) : (updCtx e f s).order = s.order := rfl
@[simp] theorem updCtx_session (e : Entry) (f : Context → Context) (s : State) : (updCtx e f s).session = s.session := rfl
@[simp] theorem updCtx_penalty (e : Entry) (f : Context → Context) (s : State) : (updCtx e f s).penalty = s.penalty := rfl
@[simp] theorem updCtx_pit (e : Entry) (f : Context → Context) (s : State) : (updCtx e f s).pit = s.pit := rfl
@[simp] theorem updCtx_throttle (e : Entry) (f : Context → Context) (s : State) : (updCtx e f s).throttle = s.throttle := rfl
@[simp] theorem updCtx_mgmt (e : Entry) (f : Context → Context) (s : State) : (updCtx e f s).mgmt = s.mgmt := rfl
@[simp] theorem updCtx_settings (e : Entry) (f : Context → Context) (s : State) : (updCtx e f s).settings = s.settings := rfl
@[simp] theorem updCtx_rstnLow (e : Entry) (f : Context → Context) (s : State) : (updCtx e f s).rstnLow = s.rstnLow := rfl
@[simp] theorem updCtx_choices (e : Entry) (f : Context → Context) (s : State) : (updCtx e f s).choices = s.choices := rfl
@[simp] theorem updCtx_pending (e : Entry) (f : Context → Context) (s : State) : (updCtx e f s).pending = s.pending := rfl

@[simp] theorem updAllCtx_link (f : Context → Context) (s : State) : (updAllCtx f s).link = s.link := rfl
@[simp] theorem updAllCtx_clock (f : Context → Context) (s : State) : (updAllCtx f s).clock = s.clock := rfl
@[simp] theorem updAllCtx_resolver (f : Context → Context) (s : State) : (updAllCtx f s).resolver = s.resolver := rfl
@[simp] theorem updAllCtx_order (f : Context → Context) (s : State) : (updAllCtx f s).order = s.order := rfl
@[simp] theorem updAllCtx_session (f : Context → Context) (s : State) : (updAllCtx f s).session = s.session := rfl
@[simp] theorem updAllCtx_penalty (f : Context → Context) (s : State) : (updAllCtx f s).penalty = s.penalty := rfl
@[simp] theorem updAllCtx_pit (f : Context → Context) (s : State) : (updAllCtx f s).pit = s.pit := rfl
@[simp] theorem updAllCtx_throttle (f : Context → Context) (s : State) : (updAllCtx f s).throttle = s.throttle := rfl
@[simp] theorem updAllCtx_mgmt (f : Context → Context) (s : State) : (updAllCtx f s).mgmt = s.mgmt := rfl
@[simp] theorem updAllCtx_settings (f : Context → Context) (s : State) : (updAllCtx f s).settings = s.settings := rfl
@[simp] theorem updAllCtx_rstnLow (f : Context → Context) (s : State) : (updAllCtx f s).rstnLow = s.rstnLow := rfl
@[simp] theorem updAllCtx_choices (f : Context → Context) (s : State) : (updAllCtx f s).choices = s.choices := rfl
@[simp] theorem updAllCtx_pending (f : Context → Context) (s : State) : (updAllCtx f s).pending = s.pending := rfl

@[simp] theorem setGate_link (g : GateId) (slot : GateSlot) (s : State) : (setGate g slot s).link = s.link := rfl
@[simp] theorem setGate_resolver (g : GateId) (slot : GateSlot) (s : State) : (setGate g slot s).resolver = s.resolver := rfl
@[simp] theorem setGate_contexts (g : GateId) (slot : GateSlot) (s : State) : (setGate g slot s).contexts = s.contexts := rfl
@[simp] theorem setGate_order (g : GateId) (slot : GateSlot) (s : State) : (setGate g slot s).order = s.order := rfl
@[simp] theorem setGate_session (g : GateId) (slot : GateSlot) (s : State) : (setGate g slot s).session = s.session := rfl
@[simp] theorem setGate_penalty (g : GateId) (slot : GateSlot) (s : State) : (setGate g slot s).penalty = s.penalty := rfl
@[simp] theorem setGate_pit (g : GateId) (slot : GateSlot) (s : State) : (setGate g slot s).pit = s.pit := rfl
@[simp] theorem setGate_throttle (g : GateId) (slot : GateSlot) (s : State) : (setGate g slot s).throttle = s.throttle := rfl
@[simp] theorem setGate_mgmt (g : GateId) (slot : GateSlot) (s : State) : (setGate g slot s).mgmt = s.mgmt := rfl
@[simp] theorem setGate_settings (g : GateId) (slot : GateSlot) (s : State) : (setGate g slot s).settings = s.settings := rfl
@[simp] theorem setGate_rstnLow (g : GateId) (slot : GateSlot) (s : State) : (setGate g slot s).rstnLow = s.rstnLow := rfl
@[simp] theorem setGate_choices (g : GateId) (slot : GateSlot) (s : State) : (setGate g slot s).choices = s.choices := rfl
@[simp] theorem setGate_pending (g : GateId) (slot : GateSlot) (s : State) : (setGate g slot s).pending = s.pending := rfl

@[simp] theorem updAllGates_link (f : GateSlot → GateSlot) (s : State) : (updAllGates f s).link = s.link := rfl
@[simp] theorem updAllGates_resolver (f : GateSlot → GateSlot) (s : State) : (updAllGates f s).resolver = s.resolver := rfl
@[simp] theorem updAllGates_contexts (f : GateSlot → GateSlot) (s : State) : (updAllGates f s).contexts = s.contexts := rfl
@[simp] theorem updAllGates_order (f : GateSlot → GateSlot) (s : State) : (updAllGates f s).order = s.order := rfl
@[simp] theorem updAllGates_session (f : GateSlot → GateSlot) (s : State) : (updAllGates f s).session = s.session := rfl
@[simp] theorem updAllGates_penalty (f : GateSlot → GateSlot) (s : State) : (updAllGates f s).penalty = s.penalty := rfl
@[simp] theorem updAllGates_pit (f : GateSlot → GateSlot) (s : State) : (updAllGates f s).pit = s.pit := rfl
@[simp] theorem updAllGates_throttle (f : GateSlot → GateSlot) (s : State) : (updAllGates f s).throttle = s.throttle := rfl
@[simp] theorem updAllGates_mgmt (f : GateSlot → GateSlot) (s : State) : (updAllGates f s).mgmt = s.mgmt := rfl
@[simp] theorem updAllGates_settings (f : GateSlot → GateSlot) (s : State) : (updAllGates f s).settings = s.settings := rfl
@[simp] theorem updAllGates_rstnLow (f : GateSlot → GateSlot) (s : State) : (updAllGates f s).rstnLow = s.rstnLow := rfl
@[simp] theorem updAllGates_choices (f : GateSlot → GateSlot) (s : State) : (updAllGates f s).choices = s.choices := rfl
@[simp] theorem updAllGates_pending (f : GateSlot → GateSlot) (s : State) : (updAllGates f s).pending = s.pending := rfl

@[simp] theorem setMark_link (e : Entry) (m : Option Ticks) (s : State) : (setMark e m s).link = s.link := rfl
@[simp] theorem setMark_clock (e : Entry) (m : Option Ticks) (s : State) : (setMark e m s).clock = s.clock := rfl
@[simp] theorem setMark_resolver (e : Entry) (m : Option Ticks) (s : State) : (setMark e m s).resolver = s.resolver := rfl
@[simp] theorem setMark_contexts (e : Entry) (m : Option Ticks) (s : State) : (setMark e m s).contexts = s.contexts := rfl
@[simp] theorem setMark_order (e : Entry) (m : Option Ticks) (s : State) : (setMark e m s).order = s.order := rfl
@[simp] theorem setMark_session (e : Entry) (m : Option Ticks) (s : State) : (setMark e m s).session = s.session := rfl
@[simp] theorem setMark_penalty (e : Entry) (m : Option Ticks) (s : State) : (setMark e m s).penalty = s.penalty := rfl
@[simp] theorem setMark_throttle (e : Entry) (m : Option Ticks) (s : State) : (setMark e m s).throttle = s.throttle := rfl
@[simp] theorem setMark_mgmt (e : Entry) (m : Option Ticks) (s : State) : (setMark e m s).mgmt = s.mgmt := rfl
@[simp] theorem setMark_settings (e : Entry) (m : Option Ticks) (s : State) : (setMark e m s).settings = s.settings := rfl
@[simp] theorem setMark_rstnLow (e : Entry) (m : Option Ticks) (s : State) : (setMark e m s).rstnLow = s.rstnLow := rfl
@[simp] theorem setMark_choices (e : Entry) (m : Option Ticks) (s : State) : (setMark e m s).choices = s.choices := rfl
@[simp] theorem setMark_pending (e : Entry) (m : Option Ticks) (s : State) : (setMark e m s).pending = s.pending := rfl

@[simp] theorem setHold_link (e : Entry) (b : Bool) (s : State) : (setHold e b s).link = s.link := rfl
@[simp] theorem setHold_clock (e : Entry) (b : Bool) (s : State) : (setHold e b s).clock = s.clock := rfl
@[simp] theorem setHold_resolver (e : Entry) (b : Bool) (s : State) : (setHold e b s).resolver = s.resolver := rfl
@[simp] theorem setHold_contexts (e : Entry) (b : Bool) (s : State) : (setHold e b s).contexts = s.contexts := rfl
@[simp] theorem setHold_order (e : Entry) (b : Bool) (s : State) : (setHold e b s).order = s.order := rfl
@[simp] theorem setHold_session (e : Entry) (b : Bool) (s : State) : (setHold e b s).session = s.session := rfl
@[simp] theorem setHold_penalty (e : Entry) (b : Bool) (s : State) : (setHold e b s).penalty = s.penalty := rfl
@[simp] theorem setHold_throttle (e : Entry) (b : Bool) (s : State) : (setHold e b s).throttle = s.throttle := rfl
@[simp] theorem setHold_mgmt (e : Entry) (b : Bool) (s : State) : (setHold e b s).mgmt = s.mgmt := rfl
@[simp] theorem setHold_settings (e : Entry) (b : Bool) (s : State) : (setHold e b s).settings = s.settings := rfl
@[simp] theorem setHold_rstnLow (e : Entry) (b : Bool) (s : State) : (setHold e b s).rstnLow = s.rstnLow := rfl
@[simp] theorem setHold_choices (e : Entry) (b : Bool) (s : State) : (setHold e b s).choices = s.choices := rfl
@[simp] theorem setHold_pending (e : Entry) (b : Bool) (s : State) : (setHold e b s).pending = s.pending := rfl

@[simp] theorem clearMarks_link (s : State) : (clearMarks s).link = s.link := rfl
@[simp] theorem clearMarks_clock (s : State) : (clearMarks s).clock = s.clock := rfl
@[simp] theorem clearMarks_resolver (s : State) : (clearMarks s).resolver = s.resolver := rfl
@[simp] theorem clearMarks_contexts (s : State) : (clearMarks s).contexts = s.contexts := rfl
@[simp] theorem clearMarks_order (s : State) : (clearMarks s).order = s.order := rfl
@[simp] theorem clearMarks_session (s : State) : (clearMarks s).session = s.session := rfl
@[simp] theorem clearMarks_penalty (s : State) : (clearMarks s).penalty = s.penalty := rfl
@[simp] theorem clearMarks_throttle (s : State) : (clearMarks s).throttle = s.throttle := rfl
@[simp] theorem clearMarks_mgmt (s : State) : (clearMarks s).mgmt = s.mgmt := rfl
@[simp] theorem clearMarks_settings (s : State) : (clearMarks s).settings = s.settings := rfl
@[simp] theorem clearMarks_rstnLow (s : State) : (clearMarks s).rstnLow = s.rstnLow := rfl
@[simp] theorem clearMarks_choices (s : State) : (clearMarks s).choices = s.choices := rfl
@[simp] theorem clearMarks_pending (s : State) : (clearMarks s).pending = s.pending := rfl

@[simp] theorem setSession_link (st : SessionState) (s : State) : (setSession st s).link = s.link := rfl
@[simp] theorem setSession_clock (st : SessionState) (s : State) : (setSession st s).clock = s.clock := rfl
@[simp] theorem setSession_resolver (st : SessionState) (s : State) : (setSession st s).resolver = s.resolver := rfl
@[simp] theorem setSession_contexts (st : SessionState) (s : State) : (setSession st s).contexts = s.contexts := rfl
@[simp] theorem setSession_order (st : SessionState) (s : State) : (setSession st s).order = s.order := rfl
@[simp] theorem setSession_penalty (st : SessionState) (s : State) : (setSession st s).penalty = s.penalty := rfl
@[simp] theorem setSession_pit (st : SessionState) (s : State) : (setSession st s).pit = s.pit := rfl
@[simp] theorem setSession_throttle (st : SessionState) (s : State) : (setSession st s).throttle = s.throttle := rfl
@[simp] theorem setSession_mgmt (st : SessionState) (s : State) : (setSession st s).mgmt = s.mgmt := rfl
@[simp] theorem setSession_settings (st : SessionState) (s : State) : (setSession st s).settings = s.settings := rfl
@[simp] theorem setSession_rstnLow (st : SessionState) (s : State) : (setSession st s).rstnLow = s.rstnLow := rfl
@[simp] theorem setSession_choices (st : SessionState) (s : State) : (setSession st s).choices = s.choices := rfl
@[simp] theorem setSession_pending (st : SessionState) (s : State) : (setSession st s).pending = s.pending := rfl

@[simp] theorem setCountdown_link (c : Countdown) (s : State) : (setCountdown c s).link = s.link := rfl
@[simp] theorem setCountdown_clock (c : Countdown) (s : State) : (setCountdown c s).clock = s.clock := rfl
@[simp] theorem setCountdown_resolver (c : Countdown) (s : State) : (setCountdown c s).resolver = s.resolver := rfl
@[simp] theorem setCountdown_contexts (c : Countdown) (s : State) : (setCountdown c s).contexts = s.contexts := rfl
@[simp] theorem setCountdown_order (c : Countdown) (s : State) : (setCountdown c s).order = s.order := rfl
@[simp] theorem setCountdown_penalty (c : Countdown) (s : State) : (setCountdown c s).penalty = s.penalty := rfl
@[simp] theorem setCountdown_pit (c : Countdown) (s : State) : (setCountdown c s).pit = s.pit := rfl
@[simp] theorem setCountdown_throttle (c : Countdown) (s : State) : (setCountdown c s).throttle = s.throttle := rfl
@[simp] theorem setCountdown_mgmt (c : Countdown) (s : State) : (setCountdown c s).mgmt = s.mgmt := rfl
@[simp] theorem setCountdown_settings (c : Countdown) (s : State) : (setCountdown c s).settings = s.settings := rfl
@[simp] theorem setCountdown_rstnLow (c : Countdown) (s : State) : (setCountdown c s).rstnLow = s.rstnLow := rfl
@[simp] theorem setCountdown_choices (c : Countdown) (s : State) : (setCountdown c s).choices = s.choices := rfl
@[simp] theorem setCountdown_pending (c : Countdown) (s : State) : (setCountdown c s).pending = s.pending := rfl

@[simp] theorem received_clock (p : Port) (s : State) : (received p s).clock = s.clock := by cases p <;> rfl
@[simp] theorem received_resolver (p : Port) (s : State) : (received p s).resolver = s.resolver := by cases p <;> rfl
@[simp] theorem received_contexts (p : Port) (s : State) : (received p s).contexts = s.contexts := by cases p <;> rfl
@[simp] theorem received_order (p : Port) (s : State) : (received p s).order = s.order := by cases p <;> rfl
@[simp] theorem received_session (p : Port) (s : State) : (received p s).session = s.session := by cases p <;> rfl
@[simp] theorem received_penalty (p : Port) (s : State) : (received p s).penalty = s.penalty := by cases p <;> rfl
@[simp] theorem received_pit (p : Port) (s : State) : (received p s).pit = s.pit := by cases p <;> rfl
@[simp] theorem received_throttle (p : Port) (s : State) : (received p s).throttle = s.throttle := by cases p <;> rfl
@[simp] theorem received_mgmt (p : Port) (s : State) : (received p s).mgmt = s.mgmt := by cases p <;> rfl
@[simp] theorem received_settings (p : Port) (s : State) : (received p s).settings = s.settings := by cases p <;> rfl
@[simp] theorem received_rstnLow (p : Port) (s : State) : (received p s).rstnLow = s.rstnLow := by cases p <;> rfl
@[simp] theorem received_choices (p : Port) (s : State) : (received p s).choices = s.choices := by cases p <;> rfl
@[simp] theorem received_pending (p : Port) (s : State) : (received p s).pending = s.pending := by cases p <;> rfl

@[simp] theorem setDrill_link (e : Entry) (d : Option DrillSchedule) (s : State) : (setDrill e d s).link = s.link := rfl
@[simp] theorem setDrill_clock (e : Entry) (d : Option DrillSchedule) (s : State) : (setDrill e d s).clock = s.clock := rfl
@[simp] theorem setDrill_contexts (e : Entry) (d : Option DrillSchedule) (s : State) : (setDrill e d s).contexts = s.contexts := rfl
@[simp] theorem setDrill_order (e : Entry) (d : Option DrillSchedule) (s : State) : (setDrill e d s).order = s.order := rfl
@[simp] theorem setDrill_session (e : Entry) (d : Option DrillSchedule) (s : State) : (setDrill e d s).session = s.session := rfl
@[simp] theorem setDrill_penalty (e : Entry) (d : Option DrillSchedule) (s : State) : (setDrill e d s).penalty = s.penalty := rfl
@[simp] theorem setDrill_pit (e : Entry) (d : Option DrillSchedule) (s : State) : (setDrill e d s).pit = s.pit := rfl
@[simp] theorem setDrill_throttle (e : Entry) (d : Option DrillSchedule) (s : State) : (setDrill e d s).throttle = s.throttle := rfl
@[simp] theorem setDrill_mgmt (e : Entry) (d : Option DrillSchedule) (s : State) : (setDrill e d s).mgmt = s.mgmt := rfl
@[simp] theorem setDrill_settings (e : Entry) (d : Option DrillSchedule) (s : State) : (setDrill e d s).settings = s.settings := rfl
@[simp] theorem setDrill_rstnLow (e : Entry) (d : Option DrillSchedule) (s : State) : (setDrill e d s).rstnLow = s.rstnLow := rfl
@[simp] theorem setDrill_choices (e : Entry) (d : Option DrillSchedule) (s : State) : (setDrill e d s).choices = s.choices := rfl
@[simp] theorem setDrill_pending (e : Entry) (d : Option DrillSchedule) (s : State) : (setDrill e d s).pending = s.pending := rfl

@[simp] theorem removePair_link (p : PendingPair) (s : State) : (removePair p s).link = s.link := rfl
@[simp] theorem removePair_clock (p : PendingPair) (s : State) : (removePair p s).clock = s.clock := rfl
@[simp] theorem removePair_contexts (p : PendingPair) (s : State) : (removePair p s).contexts = s.contexts := rfl
@[simp] theorem removePair_order (p : PendingPair) (s : State) : (removePair p s).order = s.order := rfl
@[simp] theorem removePair_session (p : PendingPair) (s : State) : (removePair p s).session = s.session := rfl
@[simp] theorem removePair_penalty (p : PendingPair) (s : State) : (removePair p s).penalty = s.penalty := rfl
@[simp] theorem removePair_pit (p : PendingPair) (s : State) : (removePair p s).pit = s.pit := rfl
@[simp] theorem removePair_throttle (p : PendingPair) (s : State) : (removePair p s).throttle = s.throttle := rfl
@[simp] theorem removePair_mgmt (p : PendingPair) (s : State) : (removePair p s).mgmt = s.mgmt := rfl
@[simp] theorem removePair_settings (p : PendingPair) (s : State) : (removePair p s).settings = s.settings := rfl
@[simp] theorem removePair_rstnLow (p : PendingPair) (s : State) : (removePair p s).rstnLow = s.rstnLow := rfl
@[simp] theorem removePair_choices (p : PendingPair) (s : State) : (removePair p s).choices = s.choices := rfl
@[simp] theorem removePair_pending (p : PendingPair) (s : State) : (removePair p s).pending = s.pending := rfl

@[simp] theorem closeRound_link (s : State) : (closeRound s).link = s.link := rfl
@[simp] theorem closeRound_resolver (s : State) : (closeRound s).resolver = s.resolver := rfl
@[simp] theorem closeRound_contexts (s : State) : (closeRound s).contexts = s.contexts := rfl
@[simp] theorem closeRound_order (s : State) : (closeRound s).order = s.order := rfl
@[simp] theorem closeRound_session (s : State) : (closeRound s).session = s.session := rfl
@[simp] theorem closeRound_penalty (s : State) : (closeRound s).penalty = s.penalty := rfl
@[simp] theorem closeRound_pit (s : State) : (closeRound s).pit = s.pit := rfl
@[simp] theorem closeRound_throttle (s : State) : (closeRound s).throttle = s.throttle := rfl
@[simp] theorem closeRound_mgmt (s : State) : (closeRound s).mgmt = s.mgmt := rfl
@[simp] theorem closeRound_settings (s : State) : (closeRound s).settings = s.settings := rfl
@[simp] theorem closeRound_rstnLow (s : State) : (closeRound s).rstnLow = s.rstnLow := rfl
@[simp] theorem closeRound_choices (s : State) : (closeRound s).choices = s.choices := rfl
@[simp] theorem closeRound_pending (s : State) : (closeRound s).pending = s.pending := rfl

@[simp] theorem moveToTail_link (e : Entry) (s : State) : (moveToTail e s).link = s.link := rfl
@[simp] theorem moveToTail_clock (e : Entry) (s : State) : (moveToTail e s).clock = s.clock := rfl
@[simp] theorem moveToTail_resolver (e : Entry) (s : State) : (moveToTail e s).resolver = s.resolver := rfl
@[simp] theorem moveToTail_contexts (e : Entry) (s : State) : (moveToTail e s).contexts = s.contexts := rfl
@[simp] theorem moveToTail_session (e : Entry) (s : State) : (moveToTail e s).session = s.session := rfl
@[simp] theorem moveToTail_penalty (e : Entry) (s : State) : (moveToTail e s).penalty = s.penalty := rfl
@[simp] theorem moveToTail_pit (e : Entry) (s : State) : (moveToTail e s).pit = s.pit := rfl
@[simp] theorem moveToTail_throttle (e : Entry) (s : State) : (moveToTail e s).throttle = s.throttle := rfl
@[simp] theorem moveToTail_mgmt (e : Entry) (s : State) : (moveToTail e s).mgmt = s.mgmt := rfl
@[simp] theorem moveToTail_settings (e : Entry) (s : State) : (moveToTail e s).settings = s.settings := rfl
@[simp] theorem moveToTail_rstnLow (e : Entry) (s : State) : (moveToTail e s).rstnLow = s.rstnLow := rfl
@[simp] theorem moveToTail_choices (e : Entry) (s : State) : (moveToTail e s).choices = s.choices := rfl
@[simp] theorem moveToTail_pending (e : Entry) (s : State) : (moveToTail e s).pending = s.pending := rfl

@[simp] theorem place_link (e : Entry) (s : State) : (place e s).link = s.link := rfl
@[simp] theorem place_clock (e : Entry) (s : State) : (place e s).clock = s.clock := rfl
@[simp] theorem place_resolver (e : Entry) (s : State) : (place e s).resolver = s.resolver := rfl
@[simp] theorem place_contexts (e : Entry) (s : State) : (place e s).contexts = s.contexts := rfl
@[simp] theorem place_session (e : Entry) (s : State) : (place e s).session = s.session := rfl
@[simp] theorem place_penalty (e : Entry) (s : State) : (place e s).penalty = s.penalty := rfl
@[simp] theorem place_pit (e : Entry) (s : State) : (place e s).pit = s.pit := rfl
@[simp] theorem place_throttle (e : Entry) (s : State) : (place e s).throttle = s.throttle := rfl
@[simp] theorem place_mgmt (e : Entry) (s : State) : (place e s).mgmt = s.mgmt := rfl
@[simp] theorem place_settings (e : Entry) (s : State) : (place e s).settings = s.settings := rfl
@[simp] theorem place_rstnLow (e : Entry) (s : State) : (place e s).rstnLow = s.rstnLow := rfl
@[simp] theorem place_choices (e : Entry) (s : State) : (place e s).choices = s.choices := rfl
@[simp] theorem place_pending (e : Entry) (s : State) : (place e s).pending = s.pending := rfl

@[simp] theorem dropSnapshot_link (s : State) : (dropSnapshot s).link = s.link := rfl
@[simp] theorem dropSnapshot_clock (s : State) : (dropSnapshot s).clock = s.clock := rfl
@[simp] theorem dropSnapshot_resolver (s : State) : (dropSnapshot s).resolver = s.resolver := rfl
@[simp] theorem dropSnapshot_contexts (s : State) : (dropSnapshot s).contexts = s.contexts := rfl
@[simp] theorem dropSnapshot_session (s : State) : (dropSnapshot s).session = s.session := rfl
@[simp] theorem dropSnapshot_penalty (s : State) : (dropSnapshot s).penalty = s.penalty := rfl
@[simp] theorem dropSnapshot_pit (s : State) : (dropSnapshot s).pit = s.pit := rfl
@[simp] theorem dropSnapshot_throttle (s : State) : (dropSnapshot s).throttle = s.throttle := rfl
@[simp] theorem dropSnapshot_mgmt (s : State) : (dropSnapshot s).mgmt = s.mgmt := rfl
@[simp] theorem dropSnapshot_settings (s : State) : (dropSnapshot s).settings = s.settings := rfl
@[simp] theorem dropSnapshot_rstnLow (s : State) : (dropSnapshot s).rstnLow = s.rstnLow := rfl
@[simp] theorem dropSnapshot_choices (s : State) : (dropSnapshot s).choices = s.choices := rfl
@[simp] theorem dropSnapshot_pending (s : State) : (dropSnapshot s).pending = s.pending := rfl

@[simp] theorem raiseBalance_link (s : State) : (raiseBalance s).link = s.link := rfl
@[simp] theorem raiseBalance_resolver (s : State) : (raiseBalance s).resolver = s.resolver := rfl
@[simp] theorem raiseBalance_contexts (s : State) : (raiseBalance s).contexts = s.contexts := rfl
@[simp] theorem raiseBalance_order (s : State) : (raiseBalance s).order = s.order := rfl
@[simp] theorem raiseBalance_session (s : State) : (raiseBalance s).session = s.session := rfl
@[simp] theorem raiseBalance_penalty (s : State) : (raiseBalance s).penalty = s.penalty := rfl
@[simp] theorem raiseBalance_pit (s : State) : (raiseBalance s).pit = s.pit := rfl
@[simp] theorem raiseBalance_throttle (s : State) : (raiseBalance s).throttle = s.throttle := rfl
@[simp] theorem raiseBalance_mgmt (s : State) : (raiseBalance s).mgmt = s.mgmt := rfl
@[simp] theorem raiseBalance_settings (s : State) : (raiseBalance s).settings = s.settings := rfl
@[simp] theorem raiseBalance_rstnLow (s : State) : (raiseBalance s).rstnLow = s.rstnLow := rfl
@[simp] theorem raiseBalance_choices (s : State) : (raiseBalance s).choices = s.choices := rfl
@[simp] theorem raiseBalance_pending (s : State) : (raiseBalance s).pending = s.pending := rfl

/-! ### Reads after updates -/

theorem mem_allEntries (e : Entry) : e ∈ allEntries := by revert e; decide

theorem mem_allGates (g : GateId) : g ∈ allGates := by revert g; decide

@[simp] theorem ctx_setCtx_self (e : Entry) (c : Context) (s : State) : ctx (setCtx e c s) e = c := by
  simp [ctx, setCtx]

theorem ctx_setCtx_ne {e f : Entry} (h : f ≠ e) (c : Context) (s : State) : ctx (setCtx e c s) f = ctx s f := by
  have : e.val ≠ f.val := fun h' => h (Fin.ext h'.symm)
  simp [ctx, setCtx, Vector.getElem_set_ne, this]

@[simp] theorem ctx_updCtx_self (e : Entry) (f : Context → Context) (s : State) :
    ctx (updCtx e f s) e = f (ctx s e) := by simp [updCtx]

theorem ctx_updCtx_ne {e g : Entry} (h : g ≠ e) (f : Context → Context) (s : State) :
    ctx (updCtx e f s) g = ctx s g := by simp [updCtx, ctx_setCtx_ne h]

@[simp] theorem ctx_updAllCtx (e : Entry) (f : Context → Context) (s : State) :
    ctx (updAllCtx f s) e = f (ctx s e) := by simp [ctx, updAllCtx]

@[simp] theorem gate_setGate_self (g : GateId) (slot : GateSlot) (s : State) : gate (setGate g slot s) g = slot := by
  simp [gate, setGate]

theorem gate_setGate_ne {g h : GateId} (n : h ≠ g) (slot : GateSlot) (s : State) :
    gate (setGate g slot s) h = gate s h := by
  have : g.val ≠ h.val := fun h' => n (Fin.ext h'.symm)
  simp [gate, setGate, Vector.getElem_set_ne, this]

@[simp] theorem gate_updAllGates (g : GateId) (f : GateSlot → GateSlot) (s : State) :
    gate (updAllGates f s) g = f (gate s g) := by simp [gate, updAllGates]

/-- A group set is in the summary. -/
@[simp] theorem groupSet_setGroup (g : Group) (s : State) : groupSet g (setGroup g s) = true := by
  have h : ∀ x : Byte, ((x ||| groupBit g) &&& groupBit g != 0) = true := by
    intro x
    have : (x ||| groupBit g) &&& groupBit g = groupBit g := by
      ext i; simp; intro h; exact Or.inr h
    rw [this]; cases g <;> decide
  exact h _

end Sys2Proof.Machine
end

