-- ==== Sys2Proof/Laws/Outputs.lean ====
section
/-! SUPPORT. Outputs: what offering to a holding place, a transmitter's choice, and a group of the event
summary can change. Every claim about what an event leaves alone is cut from these. -/

namespace Sys2Proof.Safety

open Sys2Proof Machine

/-! ### The relations compose -/

section
variable {α : Type} {port : Port} {frame : α → Frame} {join : List α → α → List α} {a b c : Option Transmission}
variable {q r z : List α}

/-- Nothing is sent. -/
theorem drawn_same : Drawn port frame a a q q := ⟨fun _ => rfl, .inl rfl⟩

/-- An idle transmitter takes something else. -/
theorem drawn_other : Drawn port frame none b q q := ⟨fun h => (by cases h), .inl rfl⟩

/-- An idle transmitter takes the head. -/
theorem drawn_take {x : α} : Drawn port frame none (some (transmit port (frame x))) (x :: r) r :=
  ⟨fun h => (by cases h), .inr ⟨rfl, x, rfl, rfl⟩⟩

theorem drawn_trans (h : Drawn port frame a b q r) (k : Drawn port frame b c r z) : Drawn port frame a c q z where
  busy x := by
    have e := h.busy x
    rw [k.busy (by rw [e]; exact x), e]
  head := by
    have idle : b = none → a = none := by
      intro e
      cases a with
      | none => rfl
      | some y => rw [h.busy rfl] at e; cases e
    rcases h.head with rfl | ⟨h1, x, h2, h3⟩
    · rcases k.head with rfl | ⟨k1, x, k2, k3⟩
      · exact .inl rfl
      · exact .inr ⟨idle k1, x, k2, k3⟩
    · have e := k.busy (by rw [h3]; rfl)
      rcases k.head with rfl | ⟨k1, _⟩
      · exact .inr ⟨h1, x, h2, by rw [e, h3]⟩
      · rw [h3] at k1; cases k1

/-- A busy transmitter leaves its queue. -/
theorem Drawn.kept (h : Drawn port frame a b q r) (k : a.isSome = true) : r = q := by
  rcases h.head with e | ⟨e, _⟩
  · exact e
  · rw [e] at k; cases k

/-- Something joins at the tail. -/
theorem Drawn.append (h : Drawn port frame a b q r) (l : List α) : Drawn port frame a b (q ++ l) (r ++ l) where
  busy := h.busy
  head := by
    rcases h.head with e | ⟨e, x, k, m⟩
    · exact .inl (by rw [e])
    · exact .inr ⟨e, x, by rw [k]; rfl, m⟩

theorem Drawn.suffix (h : Drawn port frame a b q r) : r <:+ q := by
  rcases h.head with e | ⟨_, x, e, _⟩
  · rw [e]
  · rw [e]; exact List.suffix_cons x r

/-- What waits stays, or is in transmission. -/
theorem Drawn.mem (h : Drawn port frame a b q r) {x : α} (k : x ∈ q) :
    x ∈ r ∨ b = some (transmit port (frame x)) := by
  rcases h.head with e | ⟨_, y, e, m⟩
  · exact .inl (by rw [e]; exact k)
  · rw [e] at k
    rcases List.mem_cons.1 k with rfl | k
    · exact .inr m
    · exact .inl k

/-- What stands last goes on standing last, or is in transmission. -/
theorem Drawn.last {x : α} (h : Drawn port frame a b (q ++ [x]) r) :
    r.getLast? = some x ∨ b = some (transmit port (frame x)) := by
  rcases h.head with e | ⟨_, y, e, m⟩
  · left; rw [e]; simp
  · cases q with
    | nil => simp at e; right; rw [m, e.1]
    | cons w l => simp at e; left; rw [← e.2]; simp

theorem Drawn.fed (h : Drawn port frame a b q r) : Fed join port frame a b q r := ⟨[], [], r, h, rfl⟩

theorem fed_same : Fed join port frame a a q q := drawn_same.fed

theorem fed_other : Fed join port frame none b q q := drawn_other.fed

/-- Something joins by the queue's rule. -/
theorem fed_join (x : α) : Fed join port frame a a q (join q x) := ⟨[x], [], join q x, drawn_same, rfl⟩

theorem fed_trans (h : Fed join port frame a b q r) (k : Fed join port frame b c r z) :
    Fed join port frame a c q z := by
  obtain ⟨l1, m1, d1, h1, rfl⟩ := h
  obtain ⟨l2, m2, d2, k1, rfl⟩ := k
  rcases h1.head with e | ⟨e, x, e1, e2⟩
  · refine ⟨l1 ++ m1 ++ l2, m2, d2, ?_, rfl⟩
    have : (l1 ++ m1 ++ l2).foldl join q = l2.foldl join (m1.foldl join d1) := by
      rw [List.foldl_append, List.foldl_append, e]
    rw [this]
    exact drawn_trans (⟨h1.busy, .inl rfl⟩ : Drawn port frame a b _ _) k1
  · have hb : b.isSome = true := by rw [e2]; rfl
    refine ⟨l1, m1 ++ l2 ++ m2, d1, ⟨?_, .inr ⟨e, x, e1, ?_⟩⟩, ?_⟩
    · intro k; rw [e] at k; cases k
    · rw [k1.busy hb, e2]
    · rw [List.foldl_append, List.foldl_append, k1.kept hb]

theorem Fed.busy (h : Fed join port frame a b q r) (k : a.isSome = true) : b = a := by
  obtain ⟨_, _, _, h, _⟩ := h
  exact h.busy k

end

/-- A change of the link unit that touches no transmitter and none of these queues. -/
theorem linkKept_of {a b : Link}
    (rx : b.stationRx = { a.stationRx with asm := { a.stationRx.asm with state := b.stationRx.asm.state } } := by rfl)
    (ry : b.trackRx = { a.trackRx with asm := { a.trackRx.asm with state := b.trackRx.asm.state } } := by rfl)
    (up : Drawn .station id a.stationTx b.stationTx a.up b.up := by exact drawn_same)
    (down : Drawn .track id a.trackTx b.trackTx a.down b.down := by exact drawn_same)
    (drive : Drawn .track driveFrameOf a.trackTx b.trackTx a.drive b.drive := by exact drawn_same)
    (replies : Fed (fun q r => q ++ [r]) .station Reply.frame a.stationTx b.stationTx a.replies b.replies := by
      exact fed_same)
    (records : Fed joinRecords .station Record.frame a.stationTx b.stationTx a.records b.records := by exact fed_same)
    (sb : b.stationBad = a.stationBad := by rfl) (tb : b.trackBad = a.trackBad := by rfl) : LinkKept a b :=
  ⟨rx, ry, up, down, drive, replies, records, sb, tb⟩

theorem linkKept_refl (a : Link) : LinkKept a a := linkKept_of

theorem linkKept_trans {a b c : Link} (h : LinkKept a b) (k : LinkKept b c) : LinkKept a c where
  stationRx := by rw [k.stationRx, h.stationRx]
  trackRx := by rw [k.trackRx, h.trackRx]
  up := drawn_trans h.up k.up
  down := drawn_trans h.down k.down
  drive := drawn_trans h.drive k.drive
  replies := fed_trans h.replies k.replies
  records := fed_trans h.records k.records
  stationBad := k.stationBad.trans h.stationBad
  trackBad := k.trackBad.trans h.trackBad

/-- A busy station transmitter goes on. -/
theorem LinkKept.stationBusy {a b : Link} (h : LinkKept a b) (k : a.stationTx.isSome = true) :
    b.stationTx = a.stationTx := h.up.busy k

/-- A busy track transmitter goes on. -/
theorem LinkKept.trackBusy {a b : Link} (h : LinkKept a b) (k : a.trackTx.isSome = true) :
    b.trackTx = a.trackTx := h.down.busy k

theorem beaconStep_refl (a : Clock) : BeaconStep a a := .inl rfl

theorem beaconStep_trans {a b c : Clock} (h : BeaconStep a b) (k : BeaconStep b c) : BeaconStep a c := by
  obtain rfl | ⟨hn, hb, rfl⟩ := h
  · exact k
  · obtain rfl | ⟨kn, _, _⟩ := k
    · exact .inr ⟨hn, hb, rfl⟩
    · simp [beaconSent] at kn

/-- The beacon clause of outputs, for a transmitter that a further change leaves. -/
theorem beacon_trans {a b c : State} (hb : b.clock = a.clock ∨
      (a.link.trackTx = none ∧ b.link.trackTx = some (transmit .track (beaconFrame b.clock.number))))
    (kb : c.clock = b.clock ∨
      (b.link.trackTx = none ∧ c.link.trackTx = some (transmit .track (beaconFrame c.clock.number))))
    (h : LinkKept a.link b.link) (k : LinkKept b.link c.link) : c.clock = a.clock ∨
      (a.link.trackTx = none ∧ c.link.trackTx = some (transmit .track (beaconFrame c.clock.number))) := by
  rcases kb with e | ⟨e, m⟩
  · rcases hb with x | ⟨x, y⟩
    · exact .inl (e.trans x)
    · refine .inr ⟨x, ?_⟩
      rw [k.trackBusy (by rw [y]; rfl), y, e]
  · refine .inr ⟨?_, m⟩
    cases hx : a.link.trackTx with
    | none => rfl
    | some v => rw [h.trackBusy (by rw [hx]; rfl), hx] at e; cases e

theorem outputs_refl (g : Byte) (s : State) : Outputs g s s :=
  ⟨linkKept_refl _, beaconStep_refl _, .inl rfl, by simp, rfl, rfl⟩

theorem outputs_trans {g : Byte} {a b c : State} (h : Outputs g a b) (k : Outputs g b c) : Outputs g a c where
  link := linkKept_trans h.link k.link
  clock := beaconStep_trans h.clock k.clock
  beacon := beacon_trans h.beacon k.beacon h.link k.link
  kept := by
    have h1 := h.kept; have h2 := k.kept
    rw [← h2, ← h1]; ext i; simp; intro x; exact Or.inl (Or.inl x)
  only := k.only.trans h.only
  rest := by
    have h1 := h.rest; have h2 := k.rest
    rw [h1] at h2; exact h2

theorem outputs_mono {g g' : Byte} {a b : State} (h : Outputs g a b) (m : g ||| g' = g') : Outputs g' a b where
  link := h.link
  clock := h.clock
  beacon := h.beacon
  kept := h.kept
  only := by
    have h1 := h.only
    have key : ∀ x : Byte, x &&& ~~~g' = (x &&& ~~~g) &&& ~~~g' := by
      intro x; rw [← m]; ext i; simp; cases x[i] <;> cases g[i] <;> cases g'[i] <;> rfl
    rw [key, h1, ← key]
  rest := h.rest

theorem outputs_zero {g : Byte} {a b : State} (h : Outputs 0 a b) : Outputs g a b := outputs_mono h (by simp)

/-- An event that may set no group leaves the summary as it was. -/
theorem outputs_summary {a b : State} (h : Outputs 0 a b) : b.mgmt.summary = a.mgmt.summary := by
  have k : ∀ x : Byte, x &&& ~~~(0 : Byte) = x := by decide
  have := h.only
  rwa [k, k] at this

theorem quiet_refl (s : State) : Quiet s s := ⟨outputs_refl _ _, drawn_same, drawn_same⟩

theorem quiet_trans {a b c : State} (h : Quiet a b) (k : Quiet b c) : Quiet a c :=
  ⟨outputs_trans h.outputs k.outputs, drawn_trans h.records k.records, drawn_trans h.lamp k.lamp⟩

/-- A change to the link unit alone that keeps it. -/
theorem outputs_link {g : Byte} (s : State) (l : Link) (h : LinkKept s.link l) : Outputs g s { s with link := l } :=
  ⟨h, .inl rfl, .inl rfl, by simp, rfl, rfl⟩

/-! ### Transmitters -/

/-- The station's choice takes the head of one queue into an idle transmitter, or changes nothing (R17). -/
theorem chooseStation_cases (s : State) : chooseStation s = s ∨ (s.rstnLow = false ∧ s.link.stationTx = none ∧
    ((∃ r rest, s.link.replies = r :: rest ∧ chooseStation s =
        { s with link := { s.link with replies := rest, stationTx := some (transmit .station r.frame) } }) ∨
     (s.link.replies = [] ∧ ∃ f rest, s.link.up = f :: rest ∧ chooseStation s =
        { s with link := { s.link with up := rest, stationTx := some (transmit .station f) } }) ∨
     (s.link.replies = [] ∧ s.link.up = [] ∧ ∃ r rest, s.link.records = r :: rest ∧ chooseStation s =
        { s with link := { s.link with records := rest, stationTx := some (transmit .station r.frame) } }))) := by
  unfold chooseStation
  split
  · exact .inl rfl
  · rename_i h
    simp only [Bool.or_eq_true, not_or, Bool.not_eq_true, Option.isSome_eq_false_iff, Option.isNone_iff_eq_none] at h
    cases h1 : s.link.replies with
    | cons r rest => exact .inr ⟨h.1, h.2, .inl ⟨r, rest, rfl, rfl⟩⟩
    | nil =>
      cases h2 : s.link.up with
      | cons f rest => exact .inr ⟨h.1, h.2, .inr (.inl ⟨rfl, f, rest, rfl, rfl⟩)⟩
      | nil =>
        cases h3 : s.link.records with
        | cons r rest => exact .inr ⟨h.1, h.2, .inr (.inr ⟨rfl, rfl, r, rest, rfl, rfl⟩)⟩
        | nil => exact .inl rfl

theorem beaconOffer_some {s : State} {o : BeaconOffer} (h : beaconOffer s = some o) :
    s.clock.round = none ∧ -8 < s.clock.balance := by
  unfold beaconOffer at h
  split at h
  · simp at h
  · rename_i hr
    refine ⟨by simpa using hr, ?_⟩
    split at h
    · rename_i hb; omega
    · split at h
      · rename_i hb; omega
      · split at h
        · rename_i hb; simp at hb; omega
        · simp at h

/-- The track's choice sends a beacon, takes a drive frame, the lamp or a passed-through frame into an idle
transmitter, or changes nothing (R18). -/
theorem chooseTrack_cases (s : State) : chooseTrack s = s ∨ (s.rstnLow = false ∧ s.link.trackTx = none ∧
    ((s.clock.round = none ∧ -8 < s.clock.balance ∧ chooseTrack s = sendBeacon s) ∨
     (∃ d rest, s.link.drive = d :: rest ∧ chooseTrack s =
        { s with link := { s.link with drive := rest, trackTx := some (transmit .track (driveFrameOf d)) } }) ∨
     (s.link.drive = [] ∧ ∃ l, s.link.lamp = some l ∧ chooseTrack s =
        { s with link := { s.link with lamp := none, trackTx := some (transmit .track l.frame) } }) ∨
     (s.link.drive = [] ∧ s.link.lamp = none ∧ ∃ f rest, s.link.down = f :: rest ∧ chooseTrack s =
        { s with link := { s.link with down := rest, trackTx := some (transmit .track f) } }))) := by
  unfold chooseTrack
  split
  · exact .inl rfl
  · rename_i h
    simp only [Bool.or_eq_true, not_or, Bool.not_eq_true, Option.isSome_eq_false_iff, Option.isNone_iff_eq_none] at h
    split
    · rename_i hb; exact .inr ⟨h.1, h.2, .inl ⟨(beaconOffer_some hb).1, (beaconOffer_some hb).2, rfl⟩⟩
    · cases h1 : s.link.drive with
      | cons d rest => exact .inr ⟨h.1, h.2, .inr (.inl ⟨d, rest, rfl, rfl⟩)⟩
      | nil =>
        cases h2 : s.link.lamp with
        | some l => exact .inr ⟨h.1, h.2, .inr (.inr (.inl ⟨rfl, l, rfl, rfl⟩))⟩
        | none =>
          dsimp only
          split
          · rename_i hb; exact .inr ⟨h.1, h.2, .inl ⟨(beaconOffer_some hb).1, (beaconOffer_some hb).2, rfl⟩⟩
          · cases h3 : s.link.down with
            | cons f rest => exact .inr ⟨h.1, h.2, .inr (.inr (.inr ⟨rfl, rfl, f, rest, rfl, rfl⟩))⟩
            | nil =>
              dsimp only
              split
              · rename_i hb; exact .inr ⟨h.1, h.2, .inl ⟨(beaconOffer_some hb).1, (beaconOffer_some hb).2, rfl⟩⟩
              · exact .inl rfl

theorem quiet_chooseStation (s : State) : Quiet s (chooseStation s) := by
  rcases chooseStation_cases s with h | ⟨_, h0, ⟨r, rest, h1, h⟩ | ⟨_, f, rest, h1, h⟩ | ⟨_, _, r, rest, h1, h⟩⟩ <;> rw [h]
  · exact quiet_refl s
  · refine ⟨outputs_link s _ (linkKept_of (up := ?_) (replies := ?_) (records := ?_)), ?_, drawn_same⟩ <;>
      simp only [RecordsKept, h0, h1]
    · exact drawn_other
    · exact drawn_take.fed
    · exact fed_other
    · exact drawn_other
  · refine ⟨outputs_link s _ (linkKept_of (up := ?_) (replies := ?_) (records := ?_)), ?_, drawn_same⟩ <;>
      simp only [RecordsKept, h0, h1]
    · exact drawn_take
    · exact fed_other
    · exact fed_other
    · exact drawn_other
  · refine ⟨outputs_link s _ (linkKept_of (up := ?_) (replies := ?_) (records := ?_)), ?_, drawn_same⟩ <;>
      simp only [RecordsKept, h0, h1]
    · exact drawn_other
    · exact fed_other
    · exact drawn_take.fed
    · exact drawn_take

theorem quiet_sendBeacon {s : State} (ht : s.link.trackTx = none) (hr : s.clock.round = none)
    (hb : -8 < s.clock.balance) : Quiet s (sendBeacon s) := by
  refine ⟨⟨linkKept_of (down := ?_) (drive := ?_), .inr ⟨hr, hb, rfl⟩, .inr ⟨ht, rfl⟩, by simp [sendBeacon], rfl, rfl⟩,
    drawn_same, ?_⟩ <;> simp only [LampKept, sendBeacon, ht]
  · exact drawn_other
  · exact drawn_other
  · exact drawn_other

theorem quiet_chooseTrack (s : State) : Quiet s (chooseTrack s) := by
  rcases chooseTrack_cases s with h | ⟨_, h0, ⟨hr, hb, h⟩ | ⟨d, rest, h1, h⟩ | ⟨_, l, h1, h⟩ | ⟨_, _, f, rest, h1, h⟩⟩ <;> rw [h]
  · exact quiet_refl s
  · exact quiet_sendBeacon h0 hr hb
  · refine ⟨outputs_link s _ (linkKept_of (down := ?_) (drive := ?_)), drawn_same, ?_⟩ <;> simp only [LampKept, h0, h1]
    · exact drawn_other
    · exact drawn_take
    · exact drawn_other
  · refine ⟨outputs_link s _ (linkKept_of (down := ?_) (drive := ?_)), drawn_same, ?_⟩ <;> simp only [LampKept, h0, h1]
    · exact drawn_other
    · exact drawn_other
    · exact drawn_take
  · refine ⟨outputs_link s _ (linkKept_of (down := ?_) (drive := ?_)), drawn_same, ?_⟩ <;> simp only [LampKept, h0, h1]
    · exact drawn_take
    · exact drawn_other
    · exact drawn_other

/-- The choices of an event's end change nothing but what goes out (R16). -/
theorem quiet_settle (s : State) : Quiet s (settle s) := quiet_trans (quiet_chooseTrack s) (quiet_chooseStation _)

/-! ### Offers -/

theorem quiet_received (p : Port) (s : State) : Quiet s (received p s) := by
  cases p <;> exact ⟨outputs_link s _ linkKept_of, drawn_same, drawn_same⟩

theorem outputs_setGroup (g : Group) (s : State) : Outputs (groupBit g) s (setGroup g s) where
  link := linkKept_refl _
  clock := beaconStep_refl _
  beacon := .inl rfl
  kept := by simp [setGroup, ← BitVec.or_assoc]
  only := by
    have key : ∀ x b : Byte, (x ||| b) &&& ~~~b = x &&& ~~~b := by
      intro x b; ext i; simp; cases x[i] <;> cases b[i] <;> rfl
    simp [setGroup, key]
  rest := rfl

/-- A reply joining the queue changes nothing else (R14). -/
theorem quiet_pushReply (r : Reply) (s : State) : Quiet s (pushReply r s) := by
  unfold pushReply
  split
  · exact quiet_refl s
  · refine quiet_trans ?_ (quiet_chooseStation _)
    exact ⟨outputs_link s _ (linkKept_of (replies := fed_join r)), drawn_same, drawn_same⟩

/-- A lamp issued changes nothing but the lamp slot and the track transmitter (R13). -/
theorem outputs_issueLamp (l : Lamp) (s : State) : Outputs 0 s (issueLamp l s) := by
  unfold issueLamp
  split
  · exact outputs_refl 0 s
  · refine outputs_trans ?_ (quiet_chooseTrack _).outputs
    exact outputs_link s _ linkKept_of

/-- A record emitted changes nothing but the record queue, the station transmitter and RECORDS (R15). -/
theorem outputs_emit (r : Record) (s : State) : Outputs 128 s (emit r s) := by
  have k : ∀ t : State, Outputs 128 t { t with link := { t.link with records := joinRecords t.link.records r } } :=
    fun t => outputs_link t _ (linkKept_of (records := fed_join r))
  unfold emit
  split
  · exact outputs_refl _ s
  · split
    · exact outputs_trans (k s) (outputs_zero (quiet_chooseStation _).outputs)
    · refine outputs_trans (k s) (outputs_trans ?_ (outputs_zero (quiet_chooseStation _).outputs))
      exact outputs_setGroup .records _

/-! ### Where a reply, a record and a lamp stand -/

@[simp] theorem chooseTrack_replies (s : State) : (chooseTrack s).link.replies = s.link.replies := by
  rcases chooseTrack_cases s with h | ⟨_, _, ⟨_, _, h⟩ | ⟨d, rest, h1, h⟩ | ⟨_, l, h1, h⟩ | ⟨_, _, f, rest, h1, h⟩⟩ <;>
    simp [h, sendBeacon]

@[simp] theorem chooseTrack_stationTx (s : State) : (chooseTrack s).link.stationTx = s.link.stationTx := by
  rcases chooseTrack_cases s with h | ⟨_, _, ⟨_, _, h⟩ | ⟨d, rest, h1, h⟩ | ⟨_, l, h1, h⟩ | ⟨_, _, f, rest, h1, h⟩⟩ <;>
    simp [h, sendBeacon]

@[simp] theorem chooseTrack_records (s : State) : (chooseTrack s).link.records = s.link.records := by
  rcases chooseTrack_cases s with h | ⟨_, _, ⟨_, _, h⟩ | ⟨d, rest, h1, h⟩ | ⟨_, l, h1, h⟩ | ⟨_, _, f, rest, h1, h⟩⟩ <;>
    simp [h, sendBeacon]

/-- A choice at the station port sends a reply first (R17). -/
theorem replies_chooseStation (s : State) : RepliesKept s (chooseStation s) := by
  rcases chooseStation_cases s with h | ⟨_, h0, ⟨r, rest, h1, h⟩ | ⟨_, f, rest, h1, h⟩ | ⟨_, _, r, rest, h1, h⟩⟩ <;> rw [h]
  · exact drawn_same
  · simp only [RepliesKept, h0, h1]; exact drawn_take
  · simp only [RepliesKept, h0]; exact drawn_other
  · simp only [RepliesKept, h0]; exact drawn_other

theorem replies_chooseTrack (s : State) : RepliesKept s (chooseTrack s) := by
  unfold RepliesKept; rw [chooseTrack_replies, chooseTrack_stationTx]; exact drawn_same

theorem replies_settle (s : State) : RepliesKept s (settle s) :=
  drawn_trans (replies_chooseTrack s) (replies_chooseStation _)

/-- A reply pushed with RSTN high joins the tail (R14). -/
theorem pushReply_link {s : State} (h : s.rstnLow = false) (r : Reply) :
    Drawn .station Reply.frame s.link.stationTx (pushReply r s).link.stationTx (s.link.replies ++ [r])
      (pushReply r s).link.replies := by
  unfold pushReply
  rw [if_neg (by simp [h])]
  exact replies_chooseStation { s with link := { s.link with replies := s.link.replies ++ [r] } }

/-- A reply that has joined the queue is answered. -/
theorem replied_of {s t : State} {tag : Byte} {r : Result} {b : List Byte}
    (h : Drawn .station Reply.frame s.link.stationTx t.link.stationTx
      (s.link.replies ++ [⟨tag, r, t.mgmt.summary, b⟩]) t.link.replies) : Replied s t tag r b := ⟨h, h.last⟩

@[simp] theorem chooseStation_trackTx (s : State) : (chooseStation s).link.trackTx = s.link.trackTx := by
  rcases chooseStation_cases s with h | ⟨_, _, ⟨r, rest, h1, h⟩ | ⟨_, f, rest, h1, h⟩ | ⟨_, _, r, rest, h1, h⟩⟩ <;> rw [h]

@[simp] theorem chooseStation_lamp (s : State) : (chooseStation s).link.lamp = s.link.lamp := by
  rcases chooseStation_cases s with h | ⟨_, _, ⟨r, rest, h1, h⟩ | ⟨_, f, rest, h1, h⟩ | ⟨_, _, r, rest, h1, h⟩⟩ <;> rw [h]

@[simp] theorem chooseStation_clock (s : State) : (chooseStation s).clock = s.clock := by
  rcases chooseStation_cases s with h | ⟨_, _, ⟨r, rest, h1, h⟩ | ⟨_, f, rest, h1, h⟩ | ⟨_, _, r, rest, h1, h⟩⟩ <;> rw [h]

/-- The choices never touch the event summary. -/
@[simp] theorem settle_mgmt (s : State) : (settle s).mgmt = s.mgmt := by
  have h := (quiet_settle s).outputs
  rw [h.rest, outputs_summary h]

/-- A record stays where it is, or goes out, where no record has joined the queue. -/
theorem recorded_quiet {r : Record} {s t : State} (h : Quiet s t) (k : Recorded s r) : Recorded t r := by
  rcases k with k | k
  · exact h.records.mem k
  · exact .inr (by rw [h.records.busy (by rw [k]; rfl), k])

theorem recorded_chooseStation {r : Record} {s : State} (h : Recorded s r) : Recorded (chooseStation s) r :=
  recorded_quiet (quiet_chooseStation s) h

theorem recorded_chooseTrack {r : Record} {s : State} (h : Recorded s r) : Recorded (chooseTrack s) r :=
  recorded_quiet (quiet_chooseTrack s) h

theorem recorded_settle {r : Record} {s : State} (h : Recorded s r) : Recorded (settle s) r :=
  recorded_quiet (quiet_settle s) h

/-- A record emitted with room in the queue is recorded (R15). -/
theorem recorded_emit {s : State} (hr : s.rstnLow = false) (hq : s.link.records.length < 64) (r : Record) :
    Recorded (emit r s) r := by
  unfold emit
  rw [if_neg (by simp [hr]), if_pos (show _ < Config.recordCapacity from hq)]
  apply recorded_chooseStation
  left; simp [joinRecords, Config.recordCapacity, hq]

/-- A record that is no SECTOR record stays when others are emitted (R15). -/
theorem recorded_emit_of {s : State} {r : Record} (hs : r.isSector = false) (h : Recorded s r) (q : Record) :
    Recorded (emit q s) r := by
  have keep : ∀ l : List Record, r ∈ l → r ∈ dropSector l := by
    intro l
    induction l with
    | nil => simp
    | cons a l ih =>
      intro hm
      unfold dropSector
      split
      · rename_i ha
        rcases List.mem_cons.1 hm with e | e
        · rw [e, ha] at hs; simp at hs
        · exact e
      · rcases List.mem_cons.1 hm with e | e
        · simp [e]
        · exact List.mem_cons_of_mem _ (ih e)
  have join : ∀ l : List Record, r ∈ l → r ∈ joinRecords l q := by
    intro l hm
    unfold joinRecords
    split
    · simp [hm]
    · split
      · simp [keep l hm]
      · exact hm
  unfold emit
  split
  · exact h
  · split <;> apply recorded_chooseStation <;> rcases h with h | h
    · exact .inl (join _ h)
    · exact .inr h
    · exact .inl (join _ h)
    · exact .inr h

theorem recorded_pushReply {r : Record} {s : State} (h : Recorded s r) (q : Reply) : Recorded (pushReply q s) r :=
  recorded_quiet (quiet_pushReply q s) h

theorem recorded_issueLamp {r : Record} {s : State} (h : Recorded s r) (l : Lamp) : Recorded (issueLamp l s) r := by
  unfold issueLamp
  split
  · exact h
  · apply recorded_chooseTrack; exact h

/-- A lamp that shows goes on showing where none is issued (R13, R18). -/
theorem shows_kept {l : Lamp} {s t : State} (h : LampKept s t) (k : Shows s l) : Shows t l := by
  rcases k with k | ⟨k, m⟩
  · rcases h.head with e | ⟨_, x, e, m⟩
    · left; rw [k] at e; cases ht : t.link.lamp with
      | none => rw [ht] at e; cases e
      | some y => rw [ht] at e; cases e; rfl
    · rw [k] at e
      cases ht : t.link.lamp with
      | none => rw [ht] at e; cases e; exact .inr ⟨ht, m⟩
      | some y => rw [ht] at e; simp at e
  · have e := h.busy (by rw [m]; rfl)
    have q := h.kept (by rw [m]; rfl)
    rw [k] at q
    refine .inr ⟨?_, by rw [e, m]⟩
    cases ht : t.link.lamp with
    | none => rfl
    | some y => rw [ht] at q; cases q

theorem shows_quiet {l : Lamp} {s t : State} (h : Quiet s t) (k : Shows s l) : Shows t l := shows_kept h.lamp k

theorem shows_chooseTrack {l : Lamp} {s : State} (h : Shows s l) : Shows (chooseTrack s) l :=
  shows_quiet (quiet_chooseTrack s) h

theorem shows_chooseStation {l : Lamp} {s : State} (h : Shows s l) : Shows (chooseStation s) l := by
  simpa [Shows] using h

theorem shows_settle {l : Lamp} {s : State} (h : Shows s l) : Shows (settle s) l := shows_quiet (quiet_settle s) h

/-- A lamp issued with RSTN high shows (R13). -/
theorem shows_issueLamp {s : State} (hr : s.rstnLow = false) (l : Lamp) : Shows (issueLamp l s) l := by
  unfold issueLamp
  rw [if_neg (by simp [hr])]
  exact shows_chooseTrack (.inl rfl)

theorem shows_emit {l : Lamp} {s : State} (h : Shows s l) (r : Record) : Shows (emit r s) l := by
  unfold emit
  split
  · exact h
  · split <;> exact shows_chooseStation h

theorem shows_pushReply {l : Lamp} {s : State} (h : Shows s l) (r : Reply) : Shows (pushReply r s) l :=
  shows_quiet (quiet_pushReply r s) h

/-! ### Moves of the session (R127, R129) -/

/-- A SESSION record with its group (R129). -/
theorem outputs_emitSession (c : Cause) (s : State) : Outputs 0xC0 s (emitSession c s) :=
  outputs_trans (outputs_mono (outputs_emit _ s) (by decide)) (outputs_mono (outputs_setGroup .session _) (by decide))

/-- The lamp and the record of a move (R127, R129). -/
theorem outputs_announce (c : Cause) (s : State) : Outputs 0xC0 s (announce c s) :=
  outputs_trans (outputs_zero (outputs_issueLamp _ s)) (outputs_emitSession c _)

theorem recorded_setGroup {r : Record} {s : State} (h : Recorded s r) (g : Group) : Recorded (setGroup g s) r := h

theorem shows_setGroup {l : Lamp} {s : State} (h : Shows s l) (g : Group) : Shows (setGroup g s) l := h

@[simp] theorem issueLamp_rstnLow (l : Lamp) (s : State) : (issueLamp l s).rstnLow = s.rstnLow := by
  rw [(outputs_issueLamp l s).rest]

@[simp] theorem emit_rstnLow (r : Record) (s : State) : (emit r s).rstnLow = s.rstnLow := by
  rw [(outputs_emit r s).rest]

@[simp] theorem issueLamp_records (l : Lamp) (s : State) : (issueLamp l s).link.records = s.link.records := by
  unfold issueLamp; split <;> simp

/-- The lamp of a move shows the state moved to (R127). -/
theorem shows_announce {s : State} (h : s.rstnLow = false) (c : Cause) : Shows (announce c s) (lampOf s.session) :=
  shows_emit (shows_issueLamp h _) _

/-- The record of a move is recorded while the queue has room (R129). -/
theorem recorded_announce {s : State} (h : s.rstnLow = false) (hq : s.link.records.length < 64) (c : Cause) :
    Recorded (announce c s) ⟨0, s.clock.now, .session s.session.state c s.session.heatClock⟩ := by
  have e := outputs_issueLamp (lampOf s.session) s
  have k := recorded_emit (s := issueLamp (lampOf s.session) s) (by simpa using h) (by simpa using hq)
    ⟨0, s.clock.now, .session s.session.state c s.session.heatClock⟩
  have hn : (issueLamp (lampOf s.session) s).clock.now = s.clock.now := by
    rcases e.clock with e | ⟨_, _, e⟩ <;> rw [e]; rfl
  have hs : (issueLamp (lampOf s.session) s).session = s.session := by rw [e.rest]
  unfold announce emitSession
  apply recorded_setGroup
  unfold showLamp
  rw [hn, hs]
  exact k

/-- Outputs never touch these. -/
theorem outputs_now {g : Byte} {s t : State} (h : Outputs g s t) : t.clock.now = s.clock.now := by
  rcases h.clock with e | ⟨_, _, e⟩ <;> rw [e]; rfl

theorem outputs_gates {g : Byte} {s t : State} (h : Outputs g s t) : t.clock.gates = s.clock.gates := by
  rcases h.clock with e | ⟨_, _, e⟩ <;> rw [e]; rfl

/-! ### Requests (R14, R185) -/

/-- A request taken while the part listens: the handler's state but for the outputs, and its reply. -/
theorem request_next {s : State} (h : Listening s) (tag : Byte) (f : State → Answer) :
    ∃ t, complete (request tag f s) = .next t ∧ Quiet (f (received .station s)).state t ∧
      ((f (received .station s)).state.rstnLow = false → Replied (f (received .station s)).state t tag
        (f (received .station s)).result (f (received .station s)).body) := by
  have hl : (received .station s).link.replies.length < Config.replyCapacity := h.2
  refine ⟨_, rfl, ?_, ?_⟩
  · unfold request
    rw [if_neg (by simp [h.1])]
    simp only [hl, if_true]
    exact quiet_trans (quiet_pushReply _ _) (quiet_settle _)
  · intro hr
    unfold request
    rw [if_neg (by simp [h.1])]
    simp only [hl, if_true]
    apply replied_of
    rw [settle_mgmt, outputs_summary (quiet_pushReply _ _).outputs]
    exact drawn_trans (pushReply_link hr _) (replies_settle _)

end Sys2Proof.Safety
end

