-- ==== Sys2Proof/Laws/Placing.lean ====
section
/-! SUPPORT. The running order as a ranking: Ahead is transitive and total, and a placement and a move to the tail
keep a list that it sorts (R95 to R99). -/

namespace Sys2Proof.Safety

open Sys2Proof Machine

/-- Where an insertion puts an entry (R97). -/
theorem insertBy_split (P : Entry → Entry → Bool) (e : Entry) : ∀ l : List Entry, ∃ pre post, l = pre ++ post ∧
    insertBy P e l = pre ++ e :: post ∧
    (∀ b ∈ pre, P b e = true) ∧ ∀ b, post.head? = some b → ¬ (P b e = true)
  | [] => ⟨[], [], rfl, rfl, by simp, by simp⟩
  | a :: l => by
    unfold insertBy
    by_cases h : P a e = true
    · rw [if_pos h]
      obtain ⟨pre, post, h1, h2, h3, h4⟩ := insertBy_split P e l
      refine ⟨a :: pre, post, by rw [h1]; rfl, by rw [h2]; rfl, ?_, h4⟩
      intro b hb
      rcases List.mem_cons.1 hb with rfl | hb
      · exact h
      · exact h3 b hb
    · rw [if_neg h]
      exact ⟨[], a :: l, rfl, rfl, by simp, by simp; simpa using h⟩

theorem insertBy_perm (P) (e : Entry) (l : List Entry) : (insertBy P e l).Perm (e :: l) := by
  obtain ⟨pre, post, h1, h2, _⟩ := insertBy_split P e l
  rw [h2, h1]; exact List.perm_middle

theorem timeBefore_iff (x y : Option Ticks) (b a : Entry) : (timeBefore x y).getD (decide (b < a)) = true ↔
    TimeAhead x y b a := by
  unfold timeBefore TimeAhead
  cases x <;> cases y <;> simp
  rename_i p q
  by_cases h : p = q
  · simp [h]
  · simp [h]

/-- Ranking (R96). -/
theorem ranksAhead_iff (s : State) (b a : Entry) : ranksAhead s b a = true ↔ Ahead s b a := by
  unfold ranksAhead Ahead
  by_cases h1 : groupOf s b = groupOf s a
  · rw [if_neg (by simp [h1])]
    by_cases h2 : groupOf s b = 2
    · rw [if_pos h2]; simp [h1 ▸ h2, h1]
    · rw [if_neg h2]
      by_cases h3 : (ctx s b).progress = (ctx s a).progress
      · rw [if_neg (by simp [h3]), timeBefore_iff]; simp [h1, h3]
        rw [h1] at h2; simp [h2]
      · rw [if_pos h3]; rw [h1] at h2; simp [h1, h2]
        intro h; exact absurd h.symm h3
  · rw [if_pos h1]; simp [h1]

theorem groupOf_le (s e) : groupOf s e ≤ 2 := by unfold groupOf; split; omega; split <;> omega

theorem groupOf_eq_two (s e) : groupOf s e = 2 ↔ (ctx s e).disqualified = true := by
  unfold groupOf; split
  · simp_all
  · split <;> simp_all

/-- An absent time stands last. -/
def topOf : Option Nat → WithTop Nat
  | none => ⊤
  | some n => (n : WithTop Nat)

theorem timeAhead_iff_key (x y : Option Nat) (b a : Entry) : TimeAhead x y b a ↔
    (toLex (topOf x, b) : Lex (WithTop Nat × Entry)) < toLex (topOf y, a) := by
  rw [Prod.Lex.toLex_lt_toLex]
  unfold TimeAhead
  cases x with
  | none => cases y with
    | none => simp [topOf]
    | some q => simp [topOf]
  | some p => cases y with
    | none => simp [topOf]
    | some q => simp [topOf]

theorem timeAhead_trans {x y z : Option Ticks} {c b a : Entry} (h : TimeAhead x y c b) (k : TimeAhead y z b a) :
    TimeAhead x z c a :=
  (timeAhead_iff_key x z c a).2 (((timeAhead_iff_key x y c b).1 h).trans ((timeAhead_iff_key y z b a).1 k))

theorem timeAhead_total {x y : Option Ticks} {b a : Entry} (n : b ≠ a) (h : ¬TimeAhead x y b a) : TimeAhead y x a b := by
  rw [timeAhead_iff_key] at h ⊢
  refine (lt_or_eq_of_le (not_lt.1 h)).resolve_right fun k => n ?_
  exact (congrArg (fun z => (ofLex z).2) k).symm

theorem ahead_trans {s : State} {c b a : Entry} (h : Ahead s c b) (k : Ahead s b a) : Ahead s c a := by
  unfold Ahead at *
  rcases h with h | ⟨h1, h⟩ <;> rcases k with k | ⟨k1, k⟩
  · left; omega
  · left; omega
  · left; omega
  · right
    refine ⟨h1.trans k1, ?_⟩
    rcases h with h | h | ⟨h2, h⟩
    · exact .inl h
    · rcases k with k | k | ⟨k2, k⟩
      · left; omega
      · right; left; omega
      · right; left; omega
    · rcases k with k | k | ⟨k2, k⟩
      · left; omega
      · right; left; omega
      · right; right; exact ⟨k2.trans h2, timeAhead_trans h k⟩

theorem ahead_total {s : State} {b a : Entry} (n : b ≠ a) (h : ¬Ahead s b a) : Ahead s a b := by
  unfold Ahead at *
  simp only [not_or, not_and] at h
  obtain ⟨h1, h2⟩ := h
  rcases Nat.lt_or_ge (groupOf s a) (groupOf s b) with g | g
  · exact .inl g
  · have g : groupOf s b = groupOf s a := by omega
    obtain ⟨h3, h4, h5⟩ := h2 g
    refine .inr ⟨g.symm, ?_⟩
    rcases Nat.lt_or_ge (ctx s b).progress (ctx s a).progress with p | p
    · exact .inr (.inl p)
    · have p : (ctx s a).progress = (ctx s b).progress := by omega
      exact .inr (.inr ⟨p.symm, timeAhead_total n (h5 p)⟩)

/-- A placement into a sorted list sorts it. -/
theorem pairwise_insertBy (s : State) (e : Entry) (l : List Entry) (h : l.Pairwise (Ahead s)) (he : e ∉ l) :
    (insertBy (ranksAhead s) e l).Pairwise (Ahead s) := by
  obtain ⟨pre, post, h1, h2, h3, h4⟩ := insertBy_split (ranksAhead s) e l
  rw [h1] at h he
  rw [h2]
  rw [List.pairwise_append] at h ⊢
  have tail : ∀ a ∈ post, Ahead s e a := by
    cases post with
    | nil => simp
    | cons b rest =>
      have hb : Ahead s e b := by
        refine ahead_total (fun x => he (by rw [x]; simp)) fun x => ?_
        exact h4 b rfl ((ranksAhead_iff s b e).2 x)
      intro a ha
      rcases List.mem_cons.1 ha with rfl | ha
      · exact hb
      · exact ahead_trans hb ((List.pairwise_cons.1 h.2.1).1 a ha)
  refine ⟨h.1, List.pairwise_cons.2 ⟨tail, h.2.1⟩, fun b hb a ha => ?_⟩
  have hbe := (ranksAhead_iff s b e).1 (h3 b hb)
  rcases List.mem_cons.1 ha with rfl | ha
  · exact hbe
  · exact h.2.2 b hb a ha

/-- The running order without one car: each other entry in use once and in order, and that car in use, off the grid. -/
structure OrderBut (e : Entry) (s : State) : Prop where
  once : s.order.list.Nodup
  members : ∀ f : Entry, f ∈ s.order.list ↔ (ctx s f).state ≠ .unused
  sorted : (s.order.list.erase e).Pairwise (Ahead s)
  grid : ∀ f : Entry, (ctx s f).state = .grid → (ctx s f).progressTime = none

/-- A car's context is replaced by one in use that has left the grid. -/
theorem orderBut_setCtx {s : State} {e : Entry} {c : Context} (h : OrderShape s) (hu : (ctx s e).state ≠ .unused)
    (hc : c.state ≠ .unused) (hg : c.state = .grid → c.progressTime = none) : OrderBut e (setCtx e c s) := by
  have cn : ∀ f, f ≠ e → ctx (setCtx e c s) f = ctx s f := fun f n => ctx_setCtx_ne n c s
  refine ⟨h.once, fun f => ?_, ?_, fun f hf => ?_⟩
  · by_cases x : f = e
    · subst x; rw [ctx_setCtx_self]; exact ⟨fun _ => hc, fun _ => (h.members f).2 hu⟩
    · rw [cn f x]; exact h.members f
  · refine (h.sorted.sublist (List.erase_sublist ..)).imp_of_mem fun {b a} hb ha k => ?_
    have nb : b ≠ e := fun x => by rw [x] at hb; exact h.once.not_mem_erase hb
    have na : a ≠ e := fun x => by rw [x] at ha; exact h.once.not_mem_erase ha
    unfold Ahead groupOf at *
    rw [cn b nb, cn a na]; exact k
  · by_cases x : f = e
    · subst x; rw [ctx_setCtx_self] at *; exact hg hf
    · rw [cn f x] at *; exact h.grid f hf

/-- A list that has the members of another and each of them once. -/
theorem orderShape_of {s t : State} {e : Entry} {l : List Entry} (h : OrderBut e s) (hu : (ctx s e).state ≠ .unused)
    (hl : t.order.list = l) (hc : t.contexts = s.contexts) (hp : l.Perm (e :: s.order.list.erase e))
    (hs : l.Pairwise (Ahead s)) : OrderShape t := by
  have c : ctx t = ctx s := by funext x; unfold ctx; rw [hc]
  have p : l.Perm s.order.list := hp.trans (List.perm_cons_erase ((h.members e).2 hu)).symm
  refine ⟨by rw [hl]; exact p.nodup_iff.2 h.once, fun f => by rw [hl, p.mem_iff, c]; exact h.members f, ?_,
    fun f => by rw [c]; exact h.grid f⟩
  rw [hl]
  refine hs.imp fun {b a} k => ?_
  unfold Ahead groupOf at *; rw [c]; exact k

/-- A placement restores the running order (R97, R98). -/
theorem orderShape_place {s : State} {e : Entry} (h : OrderBut e s) (hu : (ctx s e).state ≠ .unused) :
    OrderShape (place e s) :=
  orderShape_of h hu rfl rfl (insertBy_perm _ _ _) (pairwise_insertBy s e _ h.sorted h.once.not_mem_erase)

/-- A move of a disqualified car to the tail restores the running order (R99). -/
theorem orderShape_tail {s : State} {e : Entry} (h : OrderBut e s) (hu : (ctx s e).state ≠ .unused)
    (hd : (ctx s e).disqualified = true) : OrderShape (moveToTail e s) := by
  refine orderShape_of (l := s.order.list.erase e ++ [e]) h hu rfl rfl (List.perm_append_singleton _ _) ?_
  rw [List.pairwise_append]
  refine ⟨h.sorted, by simp, fun b _ a ha => ?_⟩
  rw [List.mem_singleton.1 ha]
  have g := (groupOf_eq_two s e).2 hd
  have := groupOf_le s b
  unfold Ahead
  rw [g]
  rcases Nat.lt_or_ge (groupOf s b) 2 with k | k
  · exact .inl k
  · exact .inr ⟨by omega, .inl (by omega)⟩

end Sys2Proof.Safety
end

