-- ==== Sys2Proof/Laws/Keeps.lean ====
section
/-! SUPPORT. What every shared operation keeps: the invariants of Safety, and the blocks that only a request of
their own may change. One relation, closed under composition, and one lemma for each operation. -/

namespace Sys2Proof.Safety

open Sys2Proof Machine

-- One theorem after another: the proofs of many at once would need too many threads.
set_option Elab.async false

/-! ### What stays in its place -/

/-- A slot keeps its place and its hop, and its counts their widths. -/
structure GateKept (a b : GateSlot) : Prop where
  role : b.role = a.role
  line : b.line = a.line
  lane : b.lane = a.lane
  position : b.position = a.position
  hop : b.hop = a.hop
  strikes : a.strikes ≤ 3 → b.strikes ≤ 3
  unpaired : a.unpaired ≤ 255 → b.unpaired ≤ 255

theorem gateKept_refl (a : GateSlot) : GateKept a a := ⟨rfl, rfl, rfl, rfl, rfl, id, id⟩

theorem gateKept_trans {a b c : GateSlot} (h : GateKept a b) (k : GateKept b c) : GateKept a c :=
  ⟨k.role.trans h.role, k.line.trans h.line, k.lane.trans h.lane, k.position.trans h.position, k.hop.trans h.hop,
    k.strikes ∘ h.strikes, k.unpaired ∘ h.unpaired⟩

/-- A car's context is in use and has left the grid. -/
def Out (c : Context) : Prop := c.state ≠ .unused ∧ c.state ≠ .grid

/-- No heat is on. -/
def Resting (s : State) : Prop := s.session.state = .idle ∨ s.session.state = .closed

/-- What the running order reads of a context (R95). -/
def orderKey (c : Context) : Bool × Nat × Nat × Option Ticks :=
  (c.state == .unused, if c.disqualified then 2 else if c.state = .retired then 1 else 0, c.progress, c.progressTime)

theorem orderKey_used {c d : Context} (h : orderKey d = orderKey c) : d.state = .unused ↔ c.state = .unused := by
  have := congrArg Prod.fst h
  simp only [orderKey] at this
  rw [← beq_iff_eq, this, beq_iff_eq]

theorem groupOf_key (s : State) (e : Entry) : groupOf s e = (orderKey (ctx s e)).2.1 := rfl

theorem ahead_key {s t : State} (h : ∀ e, orderKey (ctx t e) = orderKey (ctx s e)) (b a : Entry) :
    Ahead t b a ↔ Ahead s b a := by
  have g : ∀ e, groupOf t e = groupOf s e := fun e => by rw [groupOf_key, groupOf_key, h]
  have p : ∀ e, (ctx t e).progress = (ctx s e).progress := fun e => congrArg (fun x => x.2.2.1) (h e)
  have q : ∀ e, (ctx t e).progressTime = (ctx s e).progressTime := fun e => congrArg (fun x => x.2.2.2) (h e)
  unfold Ahead
  rw [g, g, p, p, q, q]

/-- The running order stays where its list and what it reads of the contexts stay, and no car joins the grid. -/
theorem orderShape_key {s t : State} (hl : t.order.list = s.order.list)
    (hk : ∀ e, orderKey (ctx t e) = orderKey (ctx s e)) (hg : ∀ e, (ctx t e).state = .grid → (ctx s e).state = .grid)
    (h : OrderShape s) : OrderShape t where
  once := hl ▸ h.once
  members e := by rw [hl, h.members, ne_eq, ne_eq, orderKey_used (hk e)]
  sorted := by rw [hl]; exact h.sorted.imp fun {b a} k => (ahead_key hk b a).2 k
  grid e k := (congrArg (fun x => x.2.2.2) (hk e)).trans (h.grid e (hg e k))

/-- The state `t` has the gate table of `s` but for alignment and counts, no pending pair that `s` has not, no heat
that `s` has not, and every car in the use it has in `s`; the running order keeps its shape. -/
structure Steady (s t : State) : Prop where
  gates : ∀ g : GateId, GateKept (gate s g) (gate t g)
  pairs : t.resolver.pairs.Sublist s.resolver.pairs
  rests : Resting s → Resting t
  used : ∀ e : Entry, (ctx s e).state ≠ .unused → (ctx t e).state ≠ .unused
  out : ∀ e : Entry, Out (ctx s e) → Out (ctx t e)
  order : OrderShape s → OrderShape t

theorem steady_trans {a b c : State} (h : Steady a b) (k : Steady b c) : Steady a c :=
  ⟨fun g => gateKept_trans (h.gates g) (k.gates g), k.pairs.trans h.pairs, k.rests ∘ h.rests,
    fun e => k.used e ∘ h.used e, fun e => k.out e ∘ h.out e, k.order ∘ h.order⟩

/-- Whatever leaves the gate table, the pairs, the session's state, the contexts and the order list alone. -/
theorem steady_same {s t : State} (hg : t.clock.gates = s.clock.gates := by rfl)
    (hp : t.resolver.pairs = s.resolver.pairs := by rfl) (hs : t.session.state = s.session.state := by rfl)
    (hc : t.contexts = s.contexts := by rfl) (ho : t.order.list = s.order.list := by rfl) : Steady s t := by
  have g : gate t = gate s := by funext x; unfold gate; rw [hg]
  have c : ctx t = ctx s := by funext x; unfold ctx; rw [hc]
  refine ⟨fun x => by rw [g]; exact gateKept_refl _, by rw [hp], ?_, fun e => by rw [c]; exact id,
    fun e => by rw [c]; exact id, orderShape_key ho (fun e => by rw [c]) (fun e => by rw [c]; exact id)⟩
  unfold Resting; rw [hs]; exact id

/-- Whatever changes only contexts, and of them nothing that the running order reads. -/
theorem steady_contexts {s t : State} (hk : ∀ e, orderKey (ctx t e) = orderKey (ctx s e))
    (hg : ∀ e, (ctx t e).state = .grid → (ctx s e).state = .grid) (hc : t.clock.gates = s.clock.gates := by rfl)
    (hp : t.resolver.pairs = s.resolver.pairs := by rfl) (hs : t.session.state = s.session.state := by rfl)
    (ho : t.order.list = s.order.list := by rfl) : Steady s t := by
  have g : gate t = gate s := by funext x; unfold gate; rw [hc]
  refine ⟨fun x => by rw [g]; exact gateKept_refl _, by rw [hp], ?_, fun e h => ?_, fun e h => ⟨?_, ?_⟩,
    orderShape_key ho hk hg⟩
  · unfold Resting; rw [hs]; exact id
  · rw [ne_eq, orderKey_used (hk e)]; exact h
  · rw [ne_eq, orderKey_used (hk e)]; exact h.1
  · exact fun k => h.2 (hg e k)

/-- Whatever changes the session alone. -/
theorem steady_session {s t : State} (hr : Resting s → Resting t) (hg : t.clock.gates = s.clock.gates := by rfl)
    (hp : t.resolver.pairs = s.resolver.pairs := by rfl) (hc : t.contexts = s.contexts := by rfl)
    (ho : t.order.list = s.order.list := by rfl) : Steady s t := by
  have g : gate t = gate s := by funext x; unfold gate; rw [hg]
  have c : ctx t = ctx s := by funext x; unfold ctx; rw [hc]
  exact ⟨fun x => by rw [g]; exact gateKept_refl _, by rw [hp], hr, fun e => by rw [c]; exact id,
    fun e => by rw [c]; exact id, orderShape_key ho (fun e => by rw [c]) (fun e => by rw [c]; exact id)⟩

/-- The gate table keeps its shape where every slot keeps its place. -/
theorem gatesShape_of {s t : State} (h : ∀ g, GateKept (gate s g) (gate t g)) (k : GatesShape s) : GatesShape t := by
  have pl : ∀ j n, PairedPlace t j n → PairedPlace s j n := by
    rintro j n ⟨⟨a, a1, a2, a3, a4⟩, ⟨b, b1, b2, b3, b4⟩⟩
    exact ⟨⟨a, (h a).role ▸ a1, (h a).line ▸ a2, (h a).lane ▸ a3, (h a).position ▸ a4⟩,
      ⟨b, (h b).role ▸ b1, (h b).line ▸ b2, (h b).lane ▸ b3, (h b).position ▸ b4⟩⟩
  refine ⟨fun g => (h g).strikes (k.strikes g), fun g => (h g).unpaired (k.unpaired g), fun g => ?_, fun g => ?_,
    fun g => ?_, fun g f => ?_, fun l hl hp => k.paired l hl fun p m => pl _ _ (hp p m)⟩
  · rw [(h g).hop]; exact k.hop g
  · rw [(h g).lane]; exact k.lane g
  · rw [(h g).role, (h g).line, (h g).position]; exact k.offLine g
  · rw [(h g).role, (h f).role, (h g).line, (h f).line, (h g).lane, (h f).lane, (h g).position, (h f).position]
    exact k.apart g f

theorem pairedPlace_of {s t : State} (h : ∀ g, GateKept (gate s g) (gate t g)) {j : Line} {n : Nat}
    (k : PairedPlace s j n) : PairedPlace t j n := by
  obtain ⟨⟨a, a1, a2, a3, a4⟩, ⟨b, b1, b2, b3, b4⟩⟩ := k
  exact ⟨⟨a, (h a).role.trans a1, (h a).line.trans a2, (h a).lane.trans a3, (h a).position.trans a4⟩,
    ⟨b, (h b).role.trans b1, (h b).line.trans b2, (h b).lane.trans b3, (h b).position.trans b4⟩⟩

/-- The pending pairs keep their shape where none joins them, the slots keep their places and no heat begins. -/
theorem pairsShape_of {s t : State} (h : ∀ g, GateKept (gate s g) (gate t g))
    (hp : t.resolver.pairs.Sublist s.resolver.pairs) (hr : Resting s → Resting t) (k : PairsShape s) :
    PairsShape t where
  entries := (hp.map _).nodup k.entries
  places := (hp.map _).nodup k.places
  length := hp.length_le.trans k.length
  paired hi hc p m := by
    refine pairedPlace_of h (k.paired (fun x => ?_) (fun x => ?_) p (hp.subset m))
    · rcases hr (.inl x) with y | y
      · exact hi y
      · exact hc y
    · rcases hr (.inr x) with y | y
      · exact hi y
      · exact hc y

/-- The state `t` has every invariant that `s` has, and the tables, the settings, the race clock, the RSTN
level and the model's own fields of `s`. -/
structure Keeps (s t : State) : Prop where
  bounded : Bounded s → Bounded t
  range : InRange s → InRange t
  session : SessionShape s → SessionShape t
  periods : PeriodsShape s → PeriodsShape t
  contexts : ContextsShape s → ContextsShape t
  settings : t.settings = s.settings
  throttle : t.throttle = s.throttle
  rules : t.penalty.rules = s.penalty.rules
  mgmt : t.mgmt = { s.mgmt with summary := t.mgmt.summary }
  now : t.clock.now = s.clock.now
  rstnLow : t.rstnLow = s.rstnLow
  choices : t.choices = s.choices
  pending : t.pending = s.pending
  replies : RepliesKept s t
  steady : Steady s t

theorem keeps_refl (s : State) : Keeps s s :=
  ⟨id, id, id, id, id, rfl, rfl, rfl, rfl, rfl, rfl, rfl, rfl, drawn_same, steady_same⟩

theorem keeps_trans {a b c : State} (h : Keeps a b) (k : Keeps b c) : Keeps a c where
  bounded := k.bounded ∘ h.bounded
  range := k.range ∘ h.range
  session := k.session ∘ h.session
  periods := k.periods ∘ h.periods
  contexts := k.contexts ∘ h.contexts
  settings := k.settings.trans h.settings
  throttle := k.throttle.trans h.throttle
  rules := k.rules.trans h.rules
  mgmt := by have h1 := h.mgmt; have h2 := k.mgmt; rw [h1] at h2; exact h2
  now := k.now.trans h.now
  rstnLow := k.rstnLow.trans h.rstnLow
  choices := k.choices.trans h.choices
  pending := k.pending.trans h.pending
  replies := drawn_trans h.replies k.replies
  steady := steady_trans h.steady k.steady

theorem keeps_ite {b : Prop} [Decidable b] {s t u : State} (h : b → Keeps s t) (k : ¬b → Keeps s u) :
    Keeps s (if b then t else u) := by
  split
  · exact h ‹_›
  · exact k ‹_›

/-! ### Changes of one block -/

theorem bounded_link {s t : State} (h : t.link = s.link := by rfl) : Bounded s → Bounded t :=
  fun k => ⟨h ▸ k.up, h ▸ k.down, h ▸ k.drive, h ▸ k.replies, h ▸ k.records, h ▸ k.stationBad, h ▸ k.trackBad⟩

theorem inRange_same {s t : State} (hb : t.clock.balance = s.clock.balance := by rfl)
    (hn : t.clock.now = s.clock.now := by rfl) (hl : t.resolver.lfsr = s.resolver.lfsr := by rfl) :
    InRange s → InRange t := fun k => ⟨hb ▸ k.low, hb ▸ k.high, hn ▸ k.now, hl ▸ k.lfsr⟩

theorem sessionShape_same {s t : State} (h : t.session = s.session := by rfl)
    (hs : t.settings.heat.countSteps = s.settings.heat.countSteps := by rfl) : SessionShape s → SessionShape t :=
  fun k => ⟨h ▸ k.held, h ▸ k.origin, h ▸ k.countdown, h ▸ k.red, hs ▸ k.steps⟩

theorem periodsShape_same {s t : State} (h : t.session.periods = s.session.periods := by rfl) :
    PeriodsShape s → PeriodsShape t := fun k => ⟨h ▸ k.length, h ▸ k.ended⟩

theorem contextsShape_same {s t : State} (h : t.contexts = s.contexts := by rfl)
    (hc : t.settings.fuel.cap = s.settings.fuel.cap := by rfl) : ContextsShape s → ContextsShape t := by
  intro k e
  have : ctx t e = ctx s e := by unfold ctx; rw [h]
  rw [this, hc]; exact k e

theorem keeps_link (s : State) (l : Link) (h : Bounded s → Bounded { s with link := l })
    (hr : RepliesKept s { s with link := l } := by exact drawn_same) : Keeps s { s with link := l } :=
  ⟨h, inRange_same, sessionShape_same, periodsShape_same, contextsShape_same, rfl, rfl, rfl, rfl, rfl, rfl, rfl, rfl,
    hr, steady_same⟩

theorem keeps_summary (s : State) (b : Byte) : Keeps s { s with mgmt := { s.mgmt with summary := b } } :=
  ⟨bounded_link, inRange_same, sessionShape_same, periodsShape_same, contextsShape_same, rfl, rfl, rfl, rfl, rfl, rfl,
    rfl, rfl, drawn_same, steady_same⟩

theorem keeps_clock (s : State) (c : Clock) (h : c.now = s.clock.now)
    (hb : -8 ≤ s.clock.balance → s.clock.balance ≤ 8 → -8 ≤ c.balance ∧ c.balance ≤ 8)
    (hg : Steady s { s with clock := c } := by exact steady_same) : Keeps s { s with clock := c } :=
  ⟨bounded_link, fun k => ⟨(hb k.low k.high).1, (hb k.low k.high).2, by have := k.now; simp only [h]; exact this, k.lfsr⟩,
    sessionShape_same, periodsShape_same, contextsShape_same, rfl, rfl, rfl, rfl, h, rfl, rfl, rfl, drawn_same, hg⟩

theorem keeps_resolver (s : State) (r : Resolver) (h : s.resolver.lfsr ≠ 0 → r.lfsr ≠ 0)
    (hp : r.pairs.Sublist s.resolver.pairs := by exact List.Sublist.refl _) : Keeps s { s with resolver := r } :=
  ⟨bounded_link, fun k => ⟨k.low, k.high, k.now, h k.lfsr⟩, sessionShape_same, periodsShape_same, contextsShape_same,
    rfl, rfl, rfl, rfl, rfl, rfl, rfl, rfl, drawn_same,
    ⟨fun _ => gateKept_refl _, hp, id, fun _ => id, fun _ => id, orderShape_key rfl (fun _ => rfl) fun _ => id⟩⟩

theorem keeps_contexts (s : State) (cs : Vector Context 16)
    (h : ContextsShape s → ContextsShape { s with contexts := cs })
    (hs : Steady s { s with contexts := cs }) : Keeps s { s with contexts := cs } :=
  ⟨bounded_link, inRange_same, sessionShape_same, periodsShape_same, h, rfl, rfl, rfl, rfl, rfl, rfl, rfl, rfl,
    drawn_same, hs⟩

theorem keeps_snapshot (s : State) (x : Option (List Entry)) :
    Keeps s { s with order := { s.order with snapshot := x } } :=
  ⟨bounded_link, inRange_same, sessionShape_same, periodsShape_same, contextsShape_same, rfl, rfl, rfl, rfl, rfl, rfl,
    rfl, rfl, drawn_same, steady_same⟩

theorem keeps_pit (s : State) (p : Pit) : Keeps s { s with pit := p } :=
  ⟨bounded_link, inRange_same, sessionShape_same, periodsShape_same, contextsShape_same, rfl, rfl, rfl, rfl, rfl, rfl,
    rfl, rfl, drawn_same, steady_same⟩

theorem keeps_stopSet (s : State) (l : List Entry) : Keeps s { s with penalty := { s.penalty with stopSet := l } } :=
  ⟨bounded_link, inRange_same, sessionShape_same, periodsShape_same, contextsShape_same, rfl, rfl, rfl, rfl, rfl, rfl,
    rfl, rfl, drawn_same, steady_same⟩

theorem keeps_session (s : State) (x : Session) (h : SessionShape s → SessionShape { s with session := x })
    (hp : PeriodsShape s → PeriodsShape { s with session := x })
    (hr : Resting s → Resting { s with session := x }) : Keeps s { s with session := x } :=
  ⟨bounded_link, inRange_same, h, hp, contextsShape_same, rfl, rfl, rfl, rfl, rfl, rfl, rfl, rfl, drawn_same,
    ⟨fun _ => gateKept_refl _, List.Sublist.refl _, hr, fun _ => id, fun _ => id,
      orderShape_key rfl (fun _ => rfl) fun _ => id⟩⟩

/-! ### Changes of a context -/

/-- A change of a context that keeps its shape, what the running order reads of it, and its place off the grid. -/
structure ContextKept (c d : Context) : Prop where
  shape : ∀ cap, ContextShape cap c → ContextShape cap d
  key : orderKey d = orderKey c
  grid : d.state = .grid → c.state = .grid

/-- A change that leaves alone what its shape and the running order read. -/
theorem contextKept_of {c d : Context} (h : d.owed = c.owed) (k : d.penaltySeconds = c.penaltySeconds)
    (m : d.deductions = c.deductions) (laps : d.laps = c.laps := by rfl) (counts : d.counts = c.counts := by rfl)
    (ring : d.ring = c.ring := by rfl) (fuel : d.fuel = c.fuel := by rfl) (state : d.state = c.state := by rfl)
    (flag : d.disqualified = c.disqualified := by rfl) (p : d.progress = c.progress := by rfl)
    (q : d.progressTime = c.progressTime := by rfl) : ContextKept c d where
  shape cap x := ⟨h ▸ x.owed, h ▸ x.head, k ▸ x.seconds, m ▸ x.deductions, laps ▸ x.laps,
    fun i => by have := x.counts i; unfold countOf at *; rw [counts]; exact this, ring ▸ x.ring, fuel ▸ x.fuel,
    state ▸ fuel ▸ x.unused, flag ▸ state ▸ x.flagged⟩
  key := by unfold orderKey; rw [state, flag, p, q]
  grid := by rw [state]; exact id

/-- A car that is out and has not retired takes another such state. -/
theorem contextKept_state {c d : Context} (st : CarState) (h1 : Out c) (h2 : c.state ≠ .retired)
    (hd : d.state = st := by rfl) (hs : st ≠ .unused ∧ st ≠ .grid ∧ st ≠ .retired := by decide)
    (h : d.owed = c.owed := by rfl) (k : d.penaltySeconds = c.penaltySeconds := by rfl)
    (m : d.deductions = c.deductions := by rfl) (laps : d.laps = c.laps := by rfl)
    (counts : d.counts = c.counts := by rfl)
    (ring : d.ring = c.ring := by rfl) (fuel : d.fuel = c.fuel := by rfl)
    (flag : d.disqualified = c.disqualified := by rfl) (p : d.progress = c.progress := by rfl)
    (q : d.progressTime = c.progressTime := by rfl) : ContextKept c d where
  shape cap x := ⟨h ▸ x.owed, h ▸ x.head, k ▸ x.seconds, m ▸ x.deductions, laps ▸ x.laps,
    fun i => by have := x.counts i; unfold countOf at *; rw [counts]; exact this, ring ▸ x.ring, fuel ▸ x.fuel,
    fun y => absurd (hd.symm.trans y) hs.1, fun y => absurd (x.flagged (flag ▸ y)) h2⟩
  key := by
    have e1 : (d.state == .unused) = (c.state == .unused) := by
      rw [hd, beq_eq_false_iff_ne.2 hs.1, beq_eq_false_iff_ne.2 h1.1]
    unfold orderKey; rw [e1, flag, p, q, if_neg h2, hd, if_neg hs.2.2]
  grid := fun y => absurd (hd.symm.trans y) hs.2.1

theorem setCtx_setCtx (e : Entry) (c d : Context) (s : State) : setCtx e d (setCtx e c s) = setCtx e d s := by
  simp [setCtx, Vector.set_set]

theorem updCtx_updCtx (e : Entry) (f g : Context → Context) (s : State) :
    updCtx e g (updCtx e f s) = updCtx e (fun c => g (f c)) s := by
  unfold updCtx; rw [setCtx_setCtx, ctx_setCtx_self]

theorem ctx_setCtx (s : State) (e f : Entry) (c : Context) : ctx (setCtx e c s) f = if f = e then c else ctx s f := by
  split
  · rename_i x; subst x; simp
  · rename_i x; exact ctx_setCtx_ne x c s

theorem contextsShape_setCtx (s : State) (e : Entry) (c : Context)
    (h : ContextShape s.settings.fuel.cap (ctx s e) → ContextShape s.settings.fuel.cap c) :
    ContextsShape s → ContextsShape (setCtx e c s) := by
  intro k f
  rw [ctx_setCtx]
  split
  · exact h (k e)
  · exact k f

/-- A change of one context within the present FUEL_CAP. -/
theorem keeps_setCtx_cap (s : State) (e : Entry) (c : Context)
    (h : ContextShape s.settings.fuel.cap (ctx s e) → ContextShape s.settings.fuel.cap c)
    (hk : orderKey c = orderKey (ctx s e)) (hg : c.state = .grid → (ctx s e).state = .grid) :
    Keeps s (setCtx e c s) := by
  refine keeps_contexts s _ (contextsShape_setCtx s e c h) (steady_contexts (fun f => ?_) fun f => ?_)
  · show orderKey (ctx (setCtx e c s) f) = _
    rw [ctx_setCtx]; split
    · rename_i x; rw [x]; exact hk
    · rfl
  · show (ctx (setCtx e c s) f).state = .grid → _
    rw [ctx_setCtx]; split
    · rename_i x; rw [x]; exact hg
    · exact id

theorem keeps_setCtx (s : State) (e : Entry) (c : Context) (h : ContextKept (ctx s e) c) : Keeps s (setCtx e c s) :=
  keeps_setCtx_cap s e c (h.shape _) h.key h.grid

theorem keeps_updCtx (s : State) (e : Entry) (f : Context → Context) (h : ContextKept (ctx s e) (f (ctx s e))) :
    Keeps s (updCtx e f s) := keeps_setCtx s e _ h

theorem keeps_updAllCtx (s : State) (f : Context → Context) (h : ∀ c, ContextKept c (f c)) : Keeps s (updAllCtx f s) := by
  refine keeps_contexts s _ (fun k e => ?_) (steady_contexts (fun e => ?_) fun e => ?_)
  · show ContextShape _ (ctx (updAllCtx f s) e); rw [ctx_updAllCtx]; exact (h _).shape _ (k e)
  · show orderKey (ctx (updAllCtx f s) e) = _; rw [ctx_updAllCtx]; exact (h _).key
  · show (ctx (updAllCtx f s) e).state = .grid → _; rw [ctx_updAllCtx]; exact (h _).grid

/-- A change of the context and of the order list that restores the running order. -/
theorem keeps_ordered (s : State) (e : Entry) (c : Context) (l : List Entry)
    (h : ∀ cap, ContextShape cap (ctx s e) → ContextShape cap c) (hu : (ctx s e).state ≠ .unused)
    (hc : c.state ≠ .unused) (hg : c.state = .grid → (ctx s e).state = .grid)
    (ho : OrderShape s → OrderShape { setCtx e c s with order := { s.order with list := l } }) :
    Keeps s { setCtx e c s with order := { s.order with list := l } } := by
  refine ⟨bounded_link, inRange_same, sessionShape_same, periodsShape_same, contextsShape_setCtx s e c (h _), rfl, rfl, rfl,
    rfl, rfl, rfl, rfl, rfl, drawn_same, fun _ => gateKept_refl _, List.Sublist.refl _, id, fun f k => ?_,
    fun f k => ?_, ho⟩
  · show (ctx (setCtx e c s) f).state ≠ _
    rw [ctx_setCtx]; split
    · exact hc
    · exact k
  · show Out (ctx (setCtx e c s) f)
    rw [ctx_setCtx]; split
    · rename_i x; subst x; exact ⟨hc, fun y => k.2 (hg y)⟩
    · exact k

/-- A car's context is replaced and the car is placed anew (R97, R98). -/
theorem keeps_placed (s : State) (e : Entry) (c : Context)
    (h : ∀ cap, ContextShape cap (ctx s e) → ContextShape cap c) (hu : (ctx s e).state ≠ .unused) (hc : Out c) :
    Keeps s (place e (setCtx e c s)) := by
  refine keeps_ordered s e c _ h hu hc.1 (fun k => absurd k hc.2) fun k => ?_
  exact orderShape_place (s := setCtx e c s) (orderBut_setCtx k hu hc.1 fun y => absurd y hc.2)
    (by rw [ctx_setCtx_self]; exact hc.1)

/-- A car's context is replaced by a disqualified one and the car moves to the tail (R99). -/
theorem keeps_tail (s : State) (e : Entry) (c : Context)
    (h : ∀ cap, ContextShape cap (ctx s e) → ContextShape cap c) (hu : (ctx s e).state ≠ .unused) (hc : Out c)
    (hd : c.disqualified = true) : Keeps s (moveToTail e (setCtx e c s)) := by
  refine keeps_ordered s e c _ h hu hc.1 (fun k => absurd k hc.2) fun k => ?_
  exact orderShape_tail (s := setCtx e c s) (orderBut_setCtx k hu hc.1 fun y => absurd y hc.2)
    (by rw [ctx_setCtx_self]; exact hc.1) (by rw [ctx_setCtx_self]; exact hd)

/-! ### Outputs -/

theorem keeps_setGroup (g : Group) (s : State) : Keeps s (setGroup g s) := keeps_summary s _

theorem keeps_chooseStation (s : State) : Keeps s (chooseStation s) := by
  have k := replies_chooseStation s
  rcases chooseStation_cases s with h | ⟨_, _, ⟨r, rest, h1, h⟩ | ⟨_, f, rest, h1, h⟩ | ⟨_, _, r, rest, h1, h⟩⟩ <;>
    rw [h] at k ⊢
  · exact keeps_refl s
  · refine keeps_link s _ (fun k => ⟨k.up, k.down, k.drive, ?_, k.records, k.stationBad, k.trackBad⟩) k
    have := k.replies; rw [h1] at this; simp at this; show rest.length ≤ 4; omega
  · refine keeps_link s _ (fun k => ⟨?_, k.down, k.drive, k.replies, k.records, k.stationBad, k.trackBad⟩) k
    have := k.up; rw [h1] at this; simp at this; show rest.length ≤ 8; omega
  · refine keeps_link s _ (fun k => ⟨k.up, k.down, k.drive, k.replies, ?_, k.stationBad, k.trackBad⟩) k
    have := k.records; rw [h1] at this; simp at this; show rest.length ≤ 64; omega

theorem keeps_sendBeacon {s : State} (hb : -8 < s.clock.balance) : Keeps s (sendBeacon s) := by
  unfold sendBeacon
  refine keeps_trans (b := { s with clock := { s.clock with
      number := s.clock.number + 1, balance := s.clock.balance - 1
      round := some ⟨s.clock.number + 1, s.clock.now, s.clock.now + Config.roundLength, []⟩ } }) ?_ ?_
  · refine keeps_clock s _ rfl fun _ h => ?_
    show -8 ≤ s.clock.balance - 1 ∧ s.clock.balance - 1 ≤ 8
    omega
  · exact keeps_link _ _ fun k => ⟨k.up, k.down, k.drive, k.replies, k.records, k.stationBad, k.trackBad⟩

theorem keeps_chooseTrack (s : State) : Keeps s (chooseTrack s) := by
  rcases chooseTrack_cases s with h | ⟨_, _, ⟨_, hb, h⟩ | ⟨d, rest, h1, h⟩ | ⟨_, l, h1, h⟩ | ⟨_, _, f, rest, h1, h⟩⟩ <;> rw [h]
  · exact keeps_refl s
  · exact keeps_sendBeacon hb
  · refine keeps_link s _ fun k => ⟨k.up, k.down, ?_, k.replies, k.records, k.stationBad, k.trackBad⟩
    have := k.drive; rw [h1] at this; simp at this; show rest.length ≤ 2; omega
  · exact keeps_link s _ fun k => ⟨k.up, k.down, k.drive, k.replies, k.records, k.stationBad, k.trackBad⟩
  · refine keeps_link s _ fun k => ⟨k.up, ?_, k.drive, k.replies, k.records, k.stationBad, k.trackBad⟩
    have := k.down; rw [h1] at this; simp at this; show rest.length ≤ 8; omega

theorem keeps_settle (s : State) : Keeps s (settle s) := keeps_trans (keeps_chooseTrack s) (keeps_chooseStation _)

theorem dropSector_length (l : List Record) (h : l.any Record.isSector = true) : (dropSector l).length + 1 = l.length := by
  induction l with
  | nil => simp at h
  | cons a l ih =>
    unfold dropSector
    split
    · simp
    · rename_i ha
      simp only [List.any_cons, Bool.or_eq_true] at h
      rcases h with h | h
      · exact absurd h ha
      · simp [ih h]

theorem joinRecords_length (q : List Record) (r : Record) (h : q.length ≤ 64) : (joinRecords q r).length ≤ 64 := by
  unfold joinRecords
  by_cases h1 : q.length < 64
  · rw [if_pos (show q.length < Config.recordCapacity from h1)]; simp; omega
  · rw [if_neg (show ¬ q.length < Config.recordCapacity from h1)]
    by_cases h2 : q.any Record.isSector = true
    · rw [if_pos h2]; have := dropSector_length q h2; simp; omega
    · rw [if_neg h2]; exact h

theorem keeps_emit (r : Record) (s : State) : Keeps s (emit r s) := by
  have k : Keeps s { s with link := { s.link with records := joinRecords s.link.records r } } :=
    keeps_link s _ fun k => ⟨k.up, k.down, k.drive, k.replies, joinRecords_length _ _ k.records, k.stationBad, k.trackBad⟩
  unfold emit
  refine keeps_ite (fun _ => keeps_refl s) fun _ => keeps_ite (fun _ => ?_) (fun _ => ?_)
  · exact keeps_trans k (keeps_chooseStation _)
  · exact keeps_trans k (keeps_trans (keeps_setGroup .records _) (keeps_chooseStation _))

theorem keeps_issueLamp (l : Lamp) (s : State) : Keeps s (issueLamp l s) := by
  unfold issueLamp
  refine keeps_ite (fun _ => keeps_refl s) fun _ => keeps_trans ?_ (keeps_chooseTrack _)
  exact keeps_link s _ fun k => ⟨k.up, k.down, k.drive, k.replies, k.records, k.stationBad, k.trackBad⟩

/-- A reply joins a queue that has room (R14). -/
theorem bounded_pushReply (r : Reply) (s : State) (h : s.link.replies.length < 4) (hb : Bounded s) :
    Bounded (pushReply r s) := by
  unfold pushReply
  split
  · exact hb
  · refine (keeps_chooseStation _).bounded ⟨hb.up, hb.down, hb.drive, ?_, hb.records, hb.stationBad, hb.trackBad⟩
    show (s.link.replies ++ [r]).length ≤ 4
    simp; omega

theorem keeps_offerUp (f : Frame) (s : State) : Keeps s (offerUp f s) := by
  unfold offerUp
  refine keeps_ite (fun _ => keeps_refl s) fun _ => keeps_ite (fun h => keeps_trans ?_ (keeps_chooseStation _))
    (fun _ => keeps_setGroup _ s)
  refine keeps_link s _ fun k => ⟨?_, k.down, k.drive, k.replies, k.records, k.stationBad, k.trackBad⟩
  have : s.link.up.length < 8 := h
  show (s.link.up ++ [f]).length ≤ 8
  simp; omega

theorem keeps_offerDown (f : Frame) (s : State) : Keeps s (offerDown f s) := by
  unfold offerDown
  refine keeps_ite (fun _ => keeps_refl s) fun _ => keeps_ite (fun h => keeps_trans ?_ (keeps_chooseTrack _))
    (fun _ => keeps_setGroup _ s)
  refine keeps_link s _ fun k => ⟨k.up, ?_, k.drive, k.replies, k.records, k.stationBad, k.trackBad⟩
  have : s.link.down.length < 8 := h
  show (s.link.down ++ [f]).length ≤ 8
  simp; omega

theorem keeps_offerDrive (es : List DriveEntry) (s : State) : Keeps s (offerDrive es s) := by
  unfold offerDrive
  refine keeps_ite (fun _ => keeps_refl s) fun _ => keeps_ite (fun h => keeps_trans ?_ (keeps_chooseTrack _))
    (fun _ => keeps_trans ?_ (keeps_trans (keeps_setGroup .link _) (keeps_chooseTrack _)))
  · refine keeps_link s _ fun k => ⟨k.up, k.down, ?_, k.replies, k.records, k.stationBad, k.trackBad⟩
    have : s.link.drive.length < 2 := h
    show (s.link.drive ++ [es]).length ≤ 2
    simp; omega
  · refine keeps_link s _ fun k => ⟨k.up, k.down, ?_, k.replies, k.records, k.stationBad, k.trackBad⟩
    have := k.drive
    show (s.link.drive.drop 1 ++ [es]).length ≤ 2
    simp; omega

theorem keeps_badFrame (p : Port) (s : State) : Keeps s (badFrame p s) := by
  unfold badFrame
  refine keeps_trans ?_ (keeps_setGroup .link _)
  cases p
  · exact keeps_link s _ fun k => ⟨k.up, k.down, k.drive, k.replies, k.records, Nat.min_le_left _ _, k.trackBad⟩
  · exact keeps_link s _ fun k => ⟨k.up, k.down, k.drive, k.replies, k.records, k.stationBad, Nat.min_le_left _ _⟩

theorem keeps_received (p : Port) (s : State) : Keeps s (received p s) := by
  cases p <;> exact keeps_link s _ fun k => ⟨k.up, k.down, k.drive, k.replies, k.records, k.stationBad, k.trackBad⟩

theorem keeps_setGate (g : GateId) (slot : GateSlot) (s : State) (h : GateKept (gate s g) slot) :
    Keeps s (setGate g slot s) := by
  refine keeps_clock s _ rfl (fun h k => ⟨h, k⟩) ⟨fun f => ?_, List.Sublist.refl _, id, fun _ => id, fun _ => id,
    orderShape_key rfl (fun _ => rfl) fun _ => id⟩
  show GateKept _ (gate (setGate g slot s) f)
  by_cases x : f = g
  · rw [x, gate_setGate_self]; exact h
  · rw [gate_setGate_ne x]; exact gateKept_refl _

theorem keeps_setMark (e : Entry) (m : Option Ticks) (s : State) : Keeps s (setMark e m s) := keeps_pit s _

theorem keeps_setHold (e : Entry) (b : Bool) (s : State) : Keeps s (setHold e b s) := keeps_pit s _

theorem keeps_foldl {α : Type} (f : State → α → State) (h : ∀ s a, Keeps s (f s a)) (l : List α) (s : State) :
    Keeps s (l.foldl f s) := by
  induction l generalizing s with
  | nil => exact keeps_refl s
  | cons a l ih => exact keeps_trans (h s a) (ih _)

end Sys2Proof.Safety
end

