-- ==== Sys2Proof/Laws/KeepsRace.lean ====
section
/-! SUPPORT. What the operations of the race blocks keep: alignment, order, pit service, the session's moves,
penalties, laps, crossings, drive frames. -/

namespace Sys2Proof.Safety

open Sys2Proof Machine

-- One theorem after another: the proofs of many at once would need too many threads.
set_option Elab.async false

/-! ### Alignment (file 02) -/

theorem keeps_emitGate (g : GateId) (t : Ticks) (c : GateCondition) (e : Option Int) (s : State) :
    Keeps s (emitGate g t c e s) := by
  unfold emitGate
  exact keeps_ite (fun _ => keeps_emit _ s) fun _ => keeps_trans (keeps_emit _ s) (keeps_setGroup _ _)

theorem keeps_alignment (g : GateId) (a : Machine.Alignment) (s : State) :
    Keeps s (setGate g { gate s g with alignment := a } s) :=
  keeps_setGate g _ s ⟨rfl, rfl, rfl, rfl, rfl, id, id⟩

theorem keeps_struck (g : GateId) (a : Machine.Alignment) (n : Nat) (s : State) (h : n ≤ 3) :
    Keeps s (setGate g { gate s g with alignment := a, strikes := n } s) :=
  keeps_setGate g _ s ⟨rfl, rfl, rfl, rfl, rfl, fun _ => h, id⟩

theorem keeps_fullAlign (g : GateId) (sent : Ticks) (n : Count) (a : Ticks) (s : State) :
    Keeps s (fullAlign g sent n a s) := by
  unfold fullAlign
  exact keeps_trans (keeps_struck g _ 0 s (by decide)) (keeps_emitGate _ _ _ _ _)

theorem keeps_demote (g : GateId) (e : Int) (a : Ticks) (s : State) : Keeps s (demote g e a s) := by
  unfold demote
  exact keeps_trans (keeps_struck g _ 3 s (by decide)) (keeps_emitGate _ _ _ _ _)

theorem keeps_trimAlign (g : GateId) (ref : Reference) (sent : Ticks) (n : Count) (a : Ticks) (s : State) :
    Keeps s (trimAlign g ref sent n a s) := by
  unfold trimAlign
  refine keeps_ite (fun _ => keeps_demote _ _ _ s) fun _ => ?_
  refine keeps_ite (fun _ => keeps_struck g _ 0 s (by decide)) fun _ => ?_
  exact keeps_ite (fun _ => keeps_demote _ _ _ s) fun h =>
    keeps_trans (keeps_struck g _ ((gate s g).strikes + 1) s (by omega)) (keeps_emitGate _ _ _ _ _)

theorem keeps_applyReply (g : GateId) (r : Round) (n : Count) (a : Ticks) (s : State) :
    Keeps s (applyReply g r n a s) := by
  unfold applyReply
  dsimp only
  have k : Keeps s { s with clock := { s.clock with round := some { r with replied := r.replied ++ [g] } } } :=
    keeps_clock s _ rfl fun h k => ⟨h, k⟩
  generalize ({ s with clock := { s.clock with round := some { r with replied := r.replied ++ [g] } } } : State) = u at k
  refine keeps_trans k ?_
  split
  · exact keeps_fullAlign _ _ _ _ _
  · exact keeps_trimAlign _ _ _ _ _ _
  · exact keeps_trimAlign _ _ _ _ _ _

theorem keeps_beaconReply (g : GateId) (k : Byte) (n : Count) (a : Ticks) (s : State) :
    Keeps s (beaconReply g k n a s) := by
  unfold beaconReply
  split
  · exact keeps_refl s
  · exact keeps_ite (fun _ => keeps_applyReply _ _ _ _ s) (fun _ => keeps_refl s)

theorem keeps_ageGate (s : State) (g : GateId) : Keeps s (ageGate s g) := by
  unfold ageGate
  dsimp only
  split
  · exact keeps_refl s
  · refine keeps_ite (fun _ => keeps_trans (keeps_alignment g _ s) (keeps_emitGate _ _ _ _ _)) fun _ => ?_
    exact keeps_ite (fun _ => keeps_trans (keeps_alignment g _ s) (keeps_emitGate _ _ _ _ _)) fun _ => keeps_refl s
  · exact keeps_ite (fun _ => keeps_trans (keeps_alignment g _ s) (keeps_emitGate _ _ _ _ _)) fun _ => keeps_refl s

theorem keeps_ageGates (s : State) : Keeps s (ageGates s) := keeps_foldl _ keeps_ageGate _ s

theorem keeps_raiseBalance (s : State) : Keeps s (raiseBalance s) := by
  refine keeps_clock s _ rfl fun h k => ?_
  show -8 ≤ (if s.clock.balance = 8 then 8 else s.clock.balance + 1) ∧ (if s.clock.balance = 8 then 8 else s.clock.balance + 1) ≤ 8
  split <;> omega

theorem keeps_closeRound (s : State) : Keeps s (closeRound s) := keeps_clock s _ rfl fun h k => ⟨h, k⟩

/-! ### Order and pit service (files 05, 08) -/

theorem keeps_dropSnapshot (s : State) : Keeps s (dropSnapshot s) := keeps_snapshot s _

theorem keeps_takeSnapshot (s : State) : Keeps s (takeSnapshot s) :=
  keeps_trans (keeps_snapshot s _) (keeps_updAllCtx _ _ fun _ => contextKept_of rfl rfl rfl)

theorem keeps_emitFinish (s : State) : Keeps s (emitFinish s) := keeps_foldl _ (fun _ _ => keeps_emit _ _) _ s

theorem keeps_emitServe (e : Entry) (t : Ticks) (o : ServeOutcome) (k : Sanction) (st : Option Ticks) (s : State) :
    Keeps s (emitServe e t o k st s) := keeps_emit _ s

/-- A change of the owed queue and the transit alone. -/
theorem contextKept_owed {c d : Context} (h : d = { c with owed := d.owed, transit := d.transit })
    (ho : c.owed.length ≤ 4 → (∀ o ∈ c.owed.drop 1, o.inService = false) →
      d.owed.length ≤ 4 ∧ ∀ o ∈ d.owed.drop 1, o.inService = false) : ContextKept c d := by
  rw [h]
  exact ⟨fun cap x => ⟨(ho x.owed x.head).1, (ho x.owed x.head).2, x.seconds, x.deductions, x.laps, x.counts, x.ring,
    x.fuel, x.unused, x.flagged⟩, rfl, id⟩

theorem contextKept_seconds (n : Nat) (c : Context) : ContextKept c (addSeconds n c) :=
  ⟨fun _ x => ⟨x.owed, x.head, Nat.min_le_left _ _, x.deductions, x.laps, x.counts, x.ring, x.fuel, x.unused, x.flagged⟩,
    rfl, id⟩

theorem contextKept_setHead (b : Bool) (c : Context) (t : Option Transit) :
    ContextKept c { c with owed := setHeadService b c.owed, transit := t } := by
  refine contextKept_owed rfl fun h1 h2 => ?_
  cases hq : c.owed with
  | nil => exact ⟨by simp [setHeadService], by simp [setHeadService]⟩
  | cons o rest =>
    rw [hq] at h1 h2
    exact ⟨by simpa [setHeadService] using h1, by simpa [setHeadService] using h2⟩

theorem contextKept_sublist (c : Context) (l : List Owed) (t : Option Transit) (hd : l.Sublist c.owed) :
    ContextKept c { c with owed := l, transit := t } := by
  refine contextKept_owed rfl fun h1 h2 => ⟨le_trans hd.length_le h1, fun o ho => ?_⟩
  have hs : (l.drop 1).Sublist (c.owed.drop 1) := by
    cases hc : c.owed with
    | nil => rw [hc] at hd; simp [List.sublist_nil.1 hd]
    | cons a m =>
      rw [hc] at hd
      cases hq : l with
      | nil => simp
      | cons b n =>
        rw [hq] at hd
        simpa using hd.tail
  exact h2 o (hs.subset ho)

theorem keeps_endService (e : Entry) (s : State) : Keeps s (endService e s) := by
  refine keeps_trans (keeps_updCtx s e _ ?_) (keeps_trans (keeps_setMark _ _ _) (keeps_setHold _ _ _))
  exact contextKept_setHead false _ _

theorem keeps_dropTransit (e : Entry) (s : State) : Keeps s (dropTransit e s) :=
  keeps_updCtx s e _ (contextKept_of rfl rfl rfl)

theorem keeps_startService (e : Entry) (s : State) : Keeps s (startService e s) := by
  unfold startService
  refine keeps_ite (fun _ => keeps_refl s) fun _ => keeps_trans (keeps_updCtx s e _ ?_) (keeps_setMark _ _ _)
  exact contextKept_setHead true _ _

theorem keeps_evaluateService (e : Entry) (t : Ticks) (s : State) : Keeps s (evaluateService e t s).1 := by
  unfold evaluateService
  dsimp only
  split
  · exact keeps_dropTransit e s
  · split
    · refine keeps_trans (keeps_updCtx s e _ ?_) (keeps_trans (keeps_emitServe _ _ _ _ _ _)
        (keeps_trans (keeps_setMark _ _ _) (keeps_setHold _ _ _)))
      exact contextKept_sublist _ _ none (List.drop_sublist _ _)
    · refine keeps_trans (keeps_emitServe _ _ _ _ _ _) (keeps_trans (keeps_updCtx _ e _ ?_)
        (keeps_trans (keeps_setMark _ _ _) (keeps_setHold _ _ _)))
      exact contextKept_setHead false _ _

theorem keeps_convertOwed (e : Entry) (t : Ticks) (s : State) : Keeps s (convertOwed e t s) := by
  unfold convertOwed
  refine keeps_trans (keeps_updCtx s e _ (contextKept_sublist _ [] _ (List.nil_sublist _))) (keeps_foldl _ (fun u o => ?_) _ _)
  · exact keeps_trans (keeps_updCtx u e _ (contextKept_seconds _ _)) (keeps_emitServe _ _ _ _ _ _)

theorem keeps_closePit (a : Bool) (s : State) : Keeps s (closePit a s) := by
  have k : Keeps s (endAllServices s) := by
    unfold endAllServices
    exact keeps_foldl _ (fun u e => keeps_ite (fun _ => keeps_endService e u) fun _ => keeps_refl u) _ s
  unfold closePit
  exact keeps_ite (fun _ => k) fun _ => keeps_trans k (keeps_foldl _ (fun _ _ => keeps_convertOwed _ _ _) _ _)

theorem keeps_clearMarks (s : State) : Keeps s (clearMarks s) := keeps_pit s _

/-! ### The session (file 06) -/

theorem keeps_markNeutral (s : State) : Keeps s (markNeutral s) := by
  refine keeps_updAllCtx s _ fun c => ?_
  split
  · exact contextKept_of rfl rfl rfl
  · exact contextKept_of rfl rfl rfl

theorem mem_dropLast_append {α : Type} {a : α} {l : List α} {b : α} (h : a ∈ (l ++ [b]).dropLast) : a ∈ l := by
  simpa using h

/-- Opening a period keeps the list's shape (R119). -/
theorem periodsShape_open (s : State) (h : PeriodsShape s) (ho : periodOpen s.session.periods = false) (n : Ticks) :
    ((if s.session.periods.length < 32 then s.session.periods else mergeOldest s.session.periods) ++
      [(⟨n, none⟩ : Period)]).length ≤ 32 ∧
    ∀ p ∈ ((if s.session.periods.length < 32 then s.session.periods else mergeOldest s.session.periods) ++
      [(⟨n, none⟩ : Period)]).dropLast, p.stop.isSome = true := by
  have all : ∀ p ∈ s.session.periods, p.stop.isSome = true := by
    intro p hp
    have := ho
    simp only [periodOpen, List.any_eq_false] at this
    have := this p hp
    cases hq : p.stop <;> simp_all
  have hl := h.length
  constructor
  · split
    · simp; omega
    · rcases hp : s.session.periods with _ | ⟨a, _ | ⟨b, rest⟩⟩
      · simp [mergeOldest]
      · simp [mergeOldest]
      · rw [hp] at hl; simp [mergeOldest] at *; omega
  · intro p hp
    have hp := mem_dropLast_append hp
    split at hp
    · exact all p hp
    · rcases hq : s.session.periods with _ | ⟨a, _ | ⟨b, rest⟩⟩
      · rw [hq] at hp; simp [mergeOldest] at hp
      · rw [hq] at hp; exact all p (by rw [hq]; exact hp)
      · rw [hq] at hp all
        simp only [mergeOldest, List.mem_cons] at hp
        rcases hp with rfl | hp
        · exact all b (by simp)
        · exact all p (by simp [hp])

theorem keeps_openPeriod (s : State) : Keeps s (openPeriod s) := by
  unfold openPeriod
  refine keeps_ite (fun _ => keeps_refl s) fun h => keeps_trans (keeps_session s _ ?_ ?_ ?_) (keeps_markNeutral _)
  · exact fun k => ⟨k.held, k.origin, k.countdown, k.red, k.steps⟩
  · intro k
    have := periodsShape_open s k (by simpa using h) s.clock.now
    exact ⟨this.1, this.2⟩
  · exact id

theorem keeps_closePeriod (s : State) : Keeps s (closePeriod s) := by
  refine keeps_session s _ (fun k => ⟨k.held, k.origin, k.countdown, k.red, k.steps⟩) (fun k => ⟨?_, ?_⟩) id
  · simpa using k.length
  · intro p hp
    have hp : p ∈ s.session.periods.map fun p => if p.stop.isNone then { p with stop := some s.clock.now } else p :=
      List.mem_of_mem_dropLast hp
    obtain ⟨q, _, rfl⟩ := List.mem_map.1 hp
    cases hq : q.stop <;> simp [hq]

theorem keeps_suspendDeadlines (s : State) : Keeps s (suspendDeadlines s) :=
  keeps_updAllCtx s _ fun _ => contextKept_of rfl rfl rfl

theorem keeps_rearmDeadlines (s : State) : Keeps s (rearmDeadlines s) :=
  keeps_updAllCtx s _ fun _ => contextKept_of rfl rfl rfl

theorem keeps_clearDeadlines (s : State) : Keeps s (clearDeadlines s) :=
  keeps_updAllCtx s _ fun _ => contextKept_of rfl rfl rfl

theorem keeps_showLamp (s : State) : Keeps s (showLamp s) := keeps_issueLamp _ s

theorem keeps_emitSession (c : Cause) (s : State) : Keeps s (emitSession c s) :=
  keeps_trans (keeps_emit _ s) (keeps_setGroup _ _)

theorem keeps_announce (c : Cause) (s : State) : Keeps s (announce c s) :=
  keeps_trans (keeps_showLamp s) (keeps_emitSession c _)

/-- A state of the session that has neither held-from nor a countdown. -/
def plainState : SessionState → Bool
  | .held | .countdown => false
  | _ => true

/-- A session in a heat does not rest. -/
theorem not_resting {s : State} {p : Prop} {st : SessionState} (h : s.session.state = st)
    (hi : st ≠ .idle := by decide) (hc : st ≠ .closed := by decide) (r : Resting s) : p :=
  (fun k : Resting s => k.elim (fun x => absurd (h.symm.trans x) hi) fun x => absurd (h.symm.trans x) hc) r

theorem plainState_of {st : SessionState} (h : plainState st = true) : st ≠ .held ∧ st ≠ .countdown := by
  cases st <;> simp_all [plainState]

/-- A move between plain states that leaves the rest of the session's shape (R111). -/
theorem keeps_plainMove (s : State) (x : Session) (ha : plainState s.session.state = true)
    (hb : plainState x.state = true) (hf : x.heldFrom = s.session.heldFrom) (hc : x.countdown = s.session.countdown)
    (hp : x.periods = s.session.periods) (hr : Resting s → x.state = .idle ∨ x.state = .closed) :
    Keeps s { s with session := x } := by
  obtain ⟨a1, a2⟩ := plainState_of ha
  obtain ⟨b1, b2⟩ := plainState_of hb
  refine keeps_session s x (fun k => ⟨?_, ?_, ?_, ?_, k.steps⟩) (fun k => ⟨?_, ?_⟩) hr
  · show x.heldFrom.isSome = true ↔ x.state = .held
    rw [hf, k.held]; exact ⟨fun h => absurd h a1, fun h => absurd h b1⟩
  · intro st h; exact k.origin st (by rw [← hf]; exact h)
  · show x.countdown.isSome = true ↔ x.state = .countdown
    rw [hc, k.countdown]; exact ⟨fun h => absurd h a2, fun h => absurd h b2⟩
  · intro c h; exact k.red c (by rw [← hc]; exact h)
  · show x.periods.length ≤ 32; rw [hp]; exact k.length
  · show ∀ p ∈ x.periods.dropLast, p.stop.isSome = true; rw [hp]; exact k.ended

theorem keeps_toCaution (c : Cause) (s : State) (h : s.session.state = .green) : Keeps s (toCaution c s) := by
  have k : Keeps s (setSession .caution s) := keeps_plainMove s _ (by rw [h]; rfl) rfl rfl rfl rfl (fun r => not_resting h (r := r))
  unfold toCaution
  exact keeps_trans (keeps_trans (keeps_trans k (keeps_openPeriod _)) (keeps_takeSnapshot _)) (keeps_announce _ _)

theorem keeps_toGreen (c : Cause) (s : State) (h : s.session.state = .caution) : Keeps s (toGreen c s) := by
  have k : Keeps s (setSession .green s) := keeps_plainMove s _ (by rw [h]; rfl) rfl rfl rfl rfl (fun r => not_resting h (r := r))
  unfold toGreen
  exact keeps_trans (keeps_trans (keeps_trans k (keeps_closePeriod _)) (keeps_dropSnapshot _)) (keeps_announce _ _)

theorem holdable_of {st : SessionState} (h : holdable st = true) : st = .green ∨ st = .caution ∨ st = .chequered := by
  cases st <;> simp_all [holdable]

theorem keeps_enterHeld (s : State) (h : holdable s.session.state = true) : Keeps s (enterHeld s) := by
  have k : Keeps s { s with session := { s.session with heldFrom := some s.session.state, state := .held } } := by
    refine keeps_session s _ (fun k => ⟨?_, ?_, ?_, k.red, k.steps⟩) (fun k => ⟨k.length, k.ended⟩)
      fun r => by rcases holdable_of h with e | e | e <;> exact not_resting e (r := r)
    · simp
    · intro st hs
      have : s.session.state = st := by simpa using hs
      rw [← this]; exact holdable_of h
    · have hc := k.countdown
      have : s.session.state ≠ .countdown := by rcases holdable_of h with e | e | e <;> rw [e] <;> simp
      show s.session.countdown.isSome = true ↔ SessionState.held = .countdown
      rw [hc]; simp [this]
  unfold enterHeld
  exact keeps_trans (keeps_trans k (keeps_suspendDeadlines _)) (keeps_clearMarks _)

theorem keeps_toHeld (c : Cause) (s : State) (h : holdable s.session.state = true) : Keeps s (toHeld c s) := by
  unfold toHeld
  exact keeps_trans (keeps_trans (keeps_enterHeld s h) (keeps_openPeriod _)) (keeps_announce _ _)

theorem keeps_setGrace (s : State) (n : Ticks) :
    Keeps s { s with session := { s.session with grace := some n } } :=
  keeps_session s _ (fun k => ⟨k.held, k.origin, k.countdown, k.red, k.steps⟩) (fun k => ⟨k.length, k.ended⟩) id

theorem keeps_enterChequered (c : Cause) (s : State) (h : plainState s.session.state = true) (hr : ¬Resting s) :
    Keeps s (enterChequered c s) := by
  have k : Keeps s (closePeriod (setSession .chequered s)) :=
    keeps_trans (keeps_plainMove s { s.session with state := .chequered } h rfl rfl rfl rfl (fun r => absurd r hr)) (keeps_closePeriod _)
  unfold enterChequered
  exact keeps_trans (keeps_trans (keeps_trans k (keeps_setGrace _ _)) (keeps_dropSnapshot _)) (keeps_announce _ _)

theorem keeps_closeSession (c : Cause) (a : Bool) (s : State) : Keeps s (closeSession c a s) := by
  have k : Keeps s { s with session := { s.session with
        state := .closed, aborted := a, countdown := none, heldFrom := none, grace := none } } :=
    keeps_session s _ (fun k => ⟨by simp, by simp, by simp, by simp, k.steps⟩) (fun k => ⟨k.length, k.ended⟩) fun _ => .inr rfl
  unfold closeSession
  exact keeps_trans (keeps_trans k (keeps_closePeriod _)) (keeps_announce _ _)

theorem keeps_clearResolver (s : State) : Keeps s (clearResolver s) := keeps_resolver s _ id (List.nil_sublist _)

theorem keeps_closeHeat (c : Cause) (a : Bool) (s : State) : Keeps s (closeHeat c a s) := by
  have k : Keeps s (closePit a (clearResolver (clearDeadlines (dropSnapshot (closeSession c a s))))) :=
    keeps_trans (keeps_trans (keeps_trans (keeps_trans (keeps_closeSession c a s) (keeps_dropSnapshot _))
      (keeps_clearDeadlines _)) (keeps_clearResolver _)) (keeps_closePit a _)
  unfold closeHeat
  exact keeps_ite (fun _ => k) fun _ => keeps_trans k (keeps_emitFinish _)

theorem keeps_closeTest (s : State) : Keeps s (closeTest s) := by
  unfold closeTest
  exact keeps_ite (fun _ => keeps_closeHeat _ _ s) fun _ => keeps_refl s

theorem keeps_tellClose (n : Nat) (s : State) : Keeps s (tellClose n s) := by
  unfold tellClose
  refine keeps_ite (fun _ => ?_) fun _ => keeps_refl s
  split
  · rename_i h; exact keeps_enterChequered _ s (by rw [h]; rfl) (fun r => not_resting h (r := r))
  · rename_i h; exact keeps_enterChequered _ s (by rw [h]; rfl) (fun r => not_resting h (r := r))
  · rename_i h
    refine keeps_ite (fun hf => keeps_session s _ (fun k => ⟨?_, ?_, k.countdown, k.red, k.steps⟩) (fun k => ⟨k.length, k.ended⟩) id)
      fun _ => keeps_refl s
    · show (some SessionState.chequered).isSome = true ↔ s.session.state = .held
      simp [h]
    · intro st hs; simp at hs; simp [← hs]
  · exact keeps_refl s

/-! ### Penalties (file 07) -/

theorem keeps_joinStopSet (e : Entry) (s : State) : Keeps s (joinStopSet e s) := by
  unfold joinStopSet
  exact keeps_ite (fun _ => keeps_refl s) fun _ => keeps_stopSet s _

/-- A black flag as one change of the context, the order list and the pit service unit. -/
theorem blackFlag_split (e : Entry) (b : Bool) (s : State) : blackFlag e b s =
    (fun u => if b then joinStopSet e u else u) (setHold e false (setMark e none
      ((if (ctx s e).disqualified then id else moveToTail e)
        (setCtx e { flaggedContext (ctx s e) with owed := [] } s)))) := by
  have h : dropOwed e (updCtx e flaggedContext s) =
      setHold e false (setMark e none (setCtx e { flaggedContext (ctx s e) with owed := [] } s)) := by
    unfold dropOwed
    rw [updCtx_updCtx]
    rfl
  have j : ∀ u, moveToTail e (joinStopSet e u) = joinStopSet e (moveToTail e u) := by
    intro u
    by_cases h : e ∈ u.penalty.stopSet
    · rw [joinStopSet, if_pos h, joinStopSet, if_pos (by simpa using h)]
    · rw [joinStopSet, if_neg h, joinStopSet, if_neg (by simpa using h)]; rfl
  unfold blackFlag
  rw [h]
  cases b <;> cases (ctx s e).disqualified <;> simp only [id, if_true, if_false, Bool.false_eq_true] <;>
    first | rfl | (rw [j]; rfl)

theorem keeps_blackFlag (e : Entry) (b : Bool) (s : State) (hu : (ctx s e).state ≠ .unused) : Keeps s (blackFlag e b s) := by
  rw [blackFlag_split]
  dsimp only
  have shape : ∀ cap, ContextShape cap (ctx s e) → ContextShape cap { flaggedContext (ctx s e) with owed := [] } :=
    fun cap x => ⟨by simp, by simp, x.seconds, x.deductions, x.laps, x.counts, x.ring, x.fuel, by simp [flaggedContext],
      fun _ => rfl⟩
  have k : Keeps s ((if (ctx s e).disqualified then id else moveToTail e)
      (setCtx e { flaggedContext (ctx s e) with owed := [] } s)) := by
    split
    · rename_i hd
      refine keeps_setCtx s e _ ⟨shape, ?_, by simp [flaggedContext]⟩
      have e1 : (CarState.retired == .unused) = ((ctx s e).state == .unused) := by
        rw [beq_eq_false_iff_ne.2 hu]; rfl
      unfold orderKey flaggedContext
      rw [if_pos rfl, if_pos hd, e1]
    · exact keeps_tail s e _ shape hu ⟨by simp [flaggedContext], by simp [flaggedContext]⟩ rfl
  have k2 := keeps_trans k (keeps_trans (keeps_setMark e none _) (keeps_setHold e false _))
  exact keeps_ite (fun _ => keeps_trans k2 (keeps_joinStopSet e _)) fun _ => k2

theorem contextKept_append (c : Context) (o : Owed) (ho : o.inService = false) (hl : c.owed.length < 4) :
    ContextKept c { c with owed := c.owed ++ [o] } := by
  refine contextKept_owed rfl fun _ h2 => ⟨by simp; omega, ?_⟩
  cases hq : c.owed with
  | nil => simp
  | cons a l =>
    rw [hq] at h2
    intro q hm
    simp at hm
    rcases hm with hm | rfl
    · exact h2 q (by simpa using hm)
    · exact ho

theorem keeps_applySanction (e : Entry) (k : IncidentKind) (r : Ruling) (s : State) (hu : (ctx s e).state ≠ .unused) :
    Keeps s (applySanction e k r s).1 := by
  unfold applySanction
  split
  · exact keeps_refl s
  · exact keeps_updCtx s e _ (contextKept_seconds _ _)
  · dsimp only
    refine keeps_updCtx s e _ ⟨fun _ x => ?_, rfl, id⟩
    exact ⟨x.owed, x.head, x.seconds, Nat.min_le_left _ _, x.laps, x.counts, x.ring, x.fuel, x.unused, x.flagged⟩
  · exact keeps_blackFlag e _ s hu
  · split
    · rename_i h
      dsimp only
      exact keeps_updCtx s e _ (contextKept_append _ _ rfl h)
    · exact keeps_updCtx s e _ (contextKept_seconds _ _)

theorem keeps_emitCall (e : Entry) (k : IncidentKind) (t : Ticks) (i : CallInfo) (r : Ruling) (d : Option Nat) (s : State) :
    Keeps s (emitCall e k t i r d s) := by
  unfold emitCall
  exact keeps_ite (fun _ => keeps_trans (keeps_emit _ s) (keeps_setGroup _ _)) fun _ => keeps_emit _ s

theorem keeps_penalise (e : Entry) (k : IncidentKind) (t : Ticks) (n : Nat) (r : Ruling) (s : State)
    (hu : (ctx s e).state ≠ .unused) : Keeps s (penalise e k t n r s).1 := by
  have h := keeps_trans (keeps_applySanction e k r s hu)
    (keeps_emitCall e k t ⟨.penalty, n, (applySanction e k r s).2.converted⟩ r (applySanction e k r s).2.deadlineLap _)
  unfold penalise
  exact keeps_ite (fun _ => keeps_trans h (keeps_closeTest _)) fun _ => h

theorem contextKept_setCount (k : IncidentKind) (n : Nat) (c : Context) (h : n ≤ 255) : ContextKept c (setCount k n c) := by
  refine ⟨fun _ x => ⟨x.owed, x.head, x.seconds, x.deductions, x.laps, fun i => ?_, x.ring, x.fuel, x.unused, x.flagged⟩,
    rfl, id⟩
  have := x.counts i
  unfold countOf setCount at *
  dsimp only
  rw [Fin.getElem_fin, Vector.getElem_set]
  split
  · exact h
  · exact this

theorem takesIncidents_used {st : CarState} (h : takesIncidents st = true) : st ≠ .unused := by
  cases st <;> simp_all [takesIncidents]

theorem keeps_incidentCall (e : Entry) (k : IncidentKind) (t : Ticks) (s : State) : Keeps s (incidentCall e k t s).1 := by
  unfold incidentCall
  split
  · rename_i ht
    dsimp only
    have h : Keeps s (updCtx e (setCount k (saturate 255 (countOf (ctx s e) k + 1))) s) :=
      keeps_updCtx s e _ (contextKept_setCount _ _ _ (Nat.min_le_left _ _))
    split
    · exact keeps_trans h (keeps_emitCall _ _ _ _ _ _ _)
    · exact keeps_trans h (keeps_penalise _ _ _ _ _ _ (h.steady.used e (takesIncidents_used ht)))
  · exact keeps_refl s

theorem keeps_incident (e : Entry) (k : IncidentKind) (t : Ticks) (s : State) : Keeps s (incident e k t s) :=
  keeps_incidentCall e k t s

theorem keeps_jumpStart (e : Entry) (t : Ticks) (s : State) : Keeps s (jumpStart e t s) := by
  unfold jumpStart
  exact keeps_ite (fun _ => keeps_refl s) fun _ =>
    keeps_trans (keeps_updCtx s e _ (contextKept_of rfl rfl rfl)) (keeps_incident _ _ _ _)

end Sys2Proof.Safety
end

