-- ==== Sys2Proof/Laws/KeepsLap.lean ====
section
/-! SUPPORT. What the lap engine, the crossing resolver, the drill generator and the throttle gate keep. -/

namespace Sys2Proof.Safety

open Sys2Proof Machine

-- One theorem after another: the proofs of many at once would need too many threads.
set_option Elab.async false

/-! ### The lap engine (file 04) -/

theorem keeps_recordLast (x : Report) (s : State) : Keeps s (recordLast x s) :=
  keeps_updCtx s _ _ (contextKept_of rfl rfl rfl)

theorem keeps_unlessFlagged (x : Report) (s : State) (rest : State → State)
    (h : (ctx s x.entry).state ≠ .retired → Keeps s (rest s)) : Keeps s (unlessFlagged x s rest) := by
  unfold unlessFlagged
  exact keeps_ite (fun _ => keeps_recordLast x s) h

theorem keeps_checkFoul (x : Report) (s : State) : Keeps s (checkFoul x s) := by
  unfold checkFoul
  dsimp only
  split
  · exact keeps_refl s
  · exact keeps_ite (fun _ => keeps_incident _ _ _ s) fun _ => keeps_refl s

theorem keeps_checkPasses (a : Entry) (t : Ticks) (b : List Entry) (s : State) : Keeps s (checkPasses a t b s) := by
  unfold checkPasses
  split
  · refine keeps_foldl _ (fun u e => ?_) _ s
    unfold chargePass
    exact keeps_trans (keeps_updCtx u a _ (contextKept_of rfl rfl rfl)) (keeps_incident _ _ _ _)
  · exact keeps_refl s

/-- A car that is out takes a new context and is placed (R97, R102). -/
theorem keeps_placeCar (s : State) (e : Entry) (f : Context → Context) (t : Ticks)
    (h : ∀ cap, ContextShape cap (ctx s e) → ContextShape cap (f (ctx s e))) (ho : Out (ctx s e))
    (hs : (f (ctx s e)).state = (ctx s e).state) : Keeps s (placeCar e t (updCtx e f s)) := by
  unfold placeCar
  refine keeps_trans (keeps_placed s e _ h ho.1 ?_) (keeps_checkPasses _ _ _ _)
  unfold Out; rw [hs]; exact ho

theorem pushRing_length (p : Nat) (t : Ticks) (r : List (Nat × Ticks)) (h : r.length ≤ 10) :
    (pushRing p t r).length ≤ 10 := by
  unfold pushRing
  split
  · rename_i k; have : r.length < 10 := k; simp; omega
  · simp; omega

/-- A change of a context that leaves what its shape reads but for the ring, which it may push. -/
theorem contextShape_pushed {c d : Context} (cap : Nat) (x : ContextShape cap c)
    (ring : d.ring = c.ring ∨ ∃ p t, d.ring = pushRing p t c.ring) (h : d.owed = c.owed := by rfl)
    (k : d.penaltySeconds = c.penaltySeconds := by rfl)
    (m : d.deductions = c.deductions := by rfl) (laps : d.laps = c.laps := by rfl)
    (counts : d.counts = c.counts := by rfl) (fuel : d.fuel = c.fuel := by rfl) (state : d.state = c.state := by rfl)
    (flag : d.disqualified = c.disqualified := by rfl) : ContextShape cap d :=
  ⟨h ▸ x.owed, h ▸ x.head, k ▸ x.seconds, m ▸ x.deductions, laps ▸ x.laps,
    fun i => by have := x.counts i; unfold countOf at *; rw [counts]; exact this,
    by rcases ring with r | ⟨p, t, r⟩ <;> rw [r]; exact x.ring; exact pushRing_length _ _ _ x.ring,
    fuel ▸ x.fuel, state ▸ fuel ▸ x.unused, flag ▸ state ▸ x.flagged⟩

theorem keeps_emitSector (x : Report) (j : Line) (t : Option Ticks) (n : Nat) (s : State) :
    Keeps s (emitSector x j t n s) := keeps_emit _ s

theorem keeps_setOverdue (x : Report) (s : State) : Keeps s (setOverdue x s) := by
  unfold setOverdue
  exact keeps_updCtx s _ _ (contextKept_of rfl rfl rfl)

theorem keeps_emitLaunch (x : Report) (t : Option Ticks) (m : Nat) (v : Bool) (s : State) :
    Keeps s (emitLaunch x t m v s) := keeps_emit _ s

theorem keeps_launch (x : Report) (v : Bool) (s : State) (ho : Out (ctx s x.entry)) : Keeps s (launch x v s) := by
  unfold launch
  have k := keeps_checkFoul x s
  refine keeps_trans k (keeps_unlessFlagged x _ _ fun _ => ?_)
  dsimp only
  refine keeps_trans ?_ (keeps_unlessFlagged x _ _ fun _ => keeps_emitLaunch _ _ _ _ _)
  unfold setOverdue
  dsimp only
  rw [updCtx_updCtx]
  exact keeps_placeCar _ _ _ _ (fun cap y => contextShape_pushed cap y (.inr ⟨_, _, rfl⟩)) (k.steady.out _ ho) rfl

theorem keeps_ordinaryCrossing (x : Report) (s : State) (ho : Out (ctx s x.entry)) : Keeps s (ordinaryCrossing x s) := by
  unfold ordinaryCrossing
  have k := keeps_checkFoul x s
  refine keeps_trans k (keeps_unlessFlagged x _ _ fun _ => ?_)
  dsimp only
  refine keeps_trans ?_ (keeps_unlessFlagged x _ _ fun _ => keeps_trans (keeps_emitSector _ _ _ _ _) (keeps_setOverdue _ _))
  exact keeps_placeCar _ _ _ _ (fun cap y => contextShape_pushed cap y (.inr ⟨_, _, rfl⟩)) (k.steady.out _ ho) rfl

theorem keeps_lostLaunch (x : Report) (v : Bool) (s : State) (ho : Out (ctx s x.entry)) : Keeps s (lostLaunch x v s) := by
  unfold lostLaunch
  have k := keeps_checkFoul x s
  refine keeps_trans k (keeps_unlessFlagged x _ _ fun _ => ?_)
  dsimp only
  refine keeps_trans ?_ (keeps_unlessFlagged x _ _ fun _ => keeps_trans (keeps_emitLaunch _ _ _ _ _)
    (keeps_trans (keeps_emitSector _ _ _ _ _) (keeps_setOverdue _ _)))
  exact keeps_placeCar _ _ _ _ (fun cap y => contextShape_pushed cap y (.inr ⟨_, _, rfl⟩)) (k.steady.out _ ho) rfl

theorem keeps_reCross (x : Report) (s : State) : Keeps s (reCross x s) := by
  unfold reCross
  exact keeps_trans (keeps_updCtx s _ _ (contextKept_of rfl rfl rfl)) (keeps_setOverdue _ _)

theorem keeps_unservedWork (e : Entry) (t : Ticks) (l : List Owed) (s : State) : Keeps s (unservedWork e t l s) := by
  induction l generalizing s with
  | nil => exact keeps_refl s
  | cons o rest ih =>
    unfold unservedWork
    exact keeps_ite (fun _ => keeps_refl s) fun _ =>
      keeps_trans (keeps_trans (keeps_emitServe _ _ _ _ _ s) (keeps_incident _ _ _ _)) (ih _)

theorem keeps_checkDeadlines (e : Entry) (t : Ticks) (s : State) : Keeps s (checkDeadlines e t s) := by
  unfold checkDeadlines
  exact keeps_trans (keeps_updCtx s e _ (contextKept_sublist _ _ _ List.filter_sublist)) (keeps_unservedWork _ _ _ _)

theorem keeps_finishCar (x : Report) (s : State) (ho : Out (ctx s x.entry)) (hr : (ctx s x.entry).state ≠ .retired) :
    Keeps s (finishCar x s) := by
  unfold finishCar
  refine keeps_trans (keeps_updCtx s _ _ ?_) (keeps_convertOwed _ _ _)
  exact contextKept_state .finished ho hr

/-- What is told of a close leaves the contexts alone. -/
theorem tellClose_contexts (n : Nat) (s : State) : (tellClose n s).contexts = s.contexts := by
  have h : ∀ c (u : State), (announce c u).contexts = u.contexts := fun c u => by
    rw [(outputs_announce c u).rest]
  unfold tellClose
  split
  · split
    · exact h _ _
    · exact h _ _
    · split <;> rfl
    · rfl
  · rfl

theorem keeps_emitClose (x : Report) (j : Line) (n : Nat) (l : LapBody) (s : State) : Keeps s (emitClose x j n l s) :=
  keeps_ite (fun _ => keeps_emit _ s) fun _ => keeps_trans (keeps_emit _ s) (keeps_emitSector _ _ _ _ _)

theorem keeps_closeRest (x : Report) (j : Line) (a n : Nat) (l : LapBody) (s : State) (ho : Out (ctx s x.entry))
    (hr : (ctx s x.entry).state ≠ .retired) : Keeps s (closeRest x j a n l s) := by
  unfold closeRest
  dsimp only
  have hc := tellClose_contexts (ctx s x.entry).laps s
  generalize hu : tellClose (ctx s x.entry).laps s = u at hc
  have k : Keeps s u := hu ▸ keeps_tellClose _ s
  have hx : ctx u x.entry = ctx s x.entry := by unfold ctx; rw [hc]
  generalize hv : (if decide (u.session.state = .chequered) = true then finishCar x u else u) = v
  have k2 : Keeps s v := by
    rw [← hv]
    exact keeps_ite (fun _ => keeps_trans k (keeps_finishCar x u (hx ▸ ho) (hx ▸ hr))) fun _ => k
  refine keeps_trans k2 (keeps_trans (keeps_placeCar v x.entry _ x.time (fun cap y => ?_) (k2.steady.out _ ho) ?_)
    (keeps_unlessFlagged x _ _ fun _ => ?_))
  · unfold nextLap; dsimp only; split <;> split <;> exact contextShape_pushed cap y (.inr ⟨_, _, rfl⟩)
  · unfold nextLap; dsimp only; split <;> split <;> rfl
  · generalize (placeCar x.entry x.time _) = w
    generalize hq : emitClose x j n l w = q
    have k4 : Keeps w q := hq ▸ keeps_emitClose x j n l w
    refine keeps_ite (fun _ => keeps_trans k4 (keeps_closeTest q)) fun _ => ?_
    refine keeps_trans k4 (keeps_trans (b := if l.flags.counted = true then checkDeadlines x.entry x.time q else q) ?_
      (keeps_unlessFlagged x _ _ fun _ => keeps_setOverdue x _))
    exact keeps_ite (fun _ => keeps_checkDeadlines _ _ q) fun _ => keeps_refl q

theorem keeps_closeLap (x : Report) (j : Line) (v : Bool) (s : State) (ho : Out (ctx s x.entry)) :
    Keeps s (closeLap x j v s) := by
  unfold closeLap
  have k0 := keeps_checkFoul x s
  refine keeps_trans k0 (keeps_unlessFlagged x _ _ fun _ => ?_)
  have ho := k0.steady.out _ ho
  generalize checkFoul x s = u at ho
  dsimp only
  generalize hz : (if j = 0 then emitSector x 0 (splitOf x (ctx u x.entry))
    ((missedLines (lines u) (ctx u x.entry).expected j).length + 1) u else u) = z
  have k : Keeps u z := by
    rw [← hz]
    exact keeps_ite (fun _ => keeps_emitSector _ _ _ _ u) fun _ => keeps_refl u
  refine keeps_trans k ?_
  generalize hw : updCtx x.entry _ z = w
  have kw : Keeps z w := by
    rw [← hw]
    refine keeps_updCtx z x.entry _ ⟨fun cap y => ?_, rfl, id⟩
    refine ⟨y.owed, y.head, y.seconds, y.deductions, ?_, y.counts, y.ring, y.fuel, y.unused, y.flagged⟩
    dsimp only
    split
    · exact Nat.min_le_left _ _
    · exact y.laps
  refine keeps_trans kw ?_
  have kq : ∀ b : Bool, Keeps w (if b = true then w else incident x.entry .lineMiss x.time w) := fun b =>
    keeps_ite (fun _ => keeps_refl _) fun _ => keeps_incident _ _ _ _
  refine keeps_trans (kq _) (keeps_unlessFlagged x _ _ fun hr => ?_)
  have k5 : ∀ q, Keeps w q → (ctx q x.entry).state ≠ .retired → ∀ f : Context → Context,
      ContextKept (ctx q x.entry) (f (ctx q x.entry)) → (f (ctx q x.entry)).state = (ctx q x.entry).state →
      ∀ n b l, Keeps q (closeRest x j n b l (updCtx x.entry f q)) := by
    intro q kq hr f hf hs n b l
    have k6 := keeps_updCtx q x.entry f hf
    refine keeps_trans k6 (keeps_closeRest _ _ _ _ _ _ (k6.steady.out _ (kq.steady.out _ (kw.steady.out _
      (k.steady.out _ ho)))) ?_)
    rw [ctx_updCtx_self, hs]; exact hr
  exact k5 _ (kq _) hr _ (contextKept_of rfl rfl rfl) rfl _ _ _

theorem keeps_pitEntry (x : Report) (s : State) (ho : Out (ctx s x.entry)) : Keeps s (pitEntry x s) := by
  unfold pitEntry
  dsimp only
  have k : Keeps s (checkFoul x (updCtx x.entry (fun c => { c with
      missed := c.missed + (if (ctx s x.entry).progressTime.isSome = true then
        missedLines (lines s) (ctx s x.entry).expected 0 else []).length, expected := 0 }) s)) :=
    keeps_trans (keeps_updCtx s x.entry _ (contextKept_of rfl rfl rfl)) (keeps_checkFoul x _)
  refine keeps_trans k (keeps_unlessFlagged x _ _ fun hr => keeps_trans (keeps_updCtx _ x.entry _ ?_) (keeps_startService _ _))
  exact contextKept_state .inPit (k.steady.out _ ho) hr

theorem keeps_closeTransit (x : Report) (s : State) (ho : Out (ctx s x.entry)) (hr : (ctx s x.entry).state ≠ .retired) :
    Keeps s (closeTransit x s) := by
  unfold closeTransit
  dsimp only
  have k := keeps_trans (keeps_updCtx s x.entry (fun c => { c with state := .running })
    (contextKept_state .running ho hr)) (keeps_evaluateService x.entry x.time _)
  exact keeps_ite (fun _ => keeps_trans k (keeps_incident _ _ _ _)) fun _ => k

theorem keeps_crossFor (x : Report) (v : Bool) (s : State) (ho : Out (ctx s x.entry)) : Keeps s (crossFor x v s) := by
  unfold crossFor
  dsimp only
  refine keeps_ite (fun _ => keeps_ite (fun _ => keeps_launch x v s ho) fun _ => keeps_lostLaunch x v s ho) fun _ => ?_
  refine keeps_ite (fun _ => keeps_closeLap x 0 v s ho) fun _ => ?_
  exact keeps_ite (fun _ => keeps_closeLap x _ v s ho) fun _ => keeps_ordinaryCrossing x s ho

theorem keeps_runningCrossing (x : Report) (s : State) (ho : Out (ctx s x.entry)) : Keeps s (runningCrossing x s) := by
  unfold runningCrossing
  dsimp only
  refine keeps_ite (fun _ => keeps_pitEntry x s ho) fun _ => ?_
  exact keeps_ite (fun _ => keeps_reCross x s) fun _ => keeps_crossFor x false s ho

theorem keeps_pitCrossing (x : Report) (s : State) (ho : Out (ctx s x.entry)) (hr : (ctx s x.entry).state ≠ .retired) :
    Keeps s (pitCrossing x s) := by
  unfold pitCrossing
  refine keeps_ite (fun _ => ?_) fun _ => ?_
  · unfold repeatEntry
    exact keeps_trans (keeps_checkFoul x s) (keeps_recordLast x _)
  · have k := keeps_closeTransit x s ho hr
    exact keeps_trans k (keeps_unlessFlagged x _ _ fun _ => keeps_crossFor x true _ (k.steady.out _ ho))

/-- An accepted crossing (R70). -/
theorem keeps_acceptCrossing (x : Report) (s : State) : Keeps s (acceptCrossing x s) := by
  unfold acceptCrossing
  split
  · exact keeps_refl s
  · exact keeps_trans (keeps_jumpStart _ _ s) (keeps_recordLast x _)
  · rename_i h; exact keeps_runningCrossing x s (by unfold Out; rw [h]; decide)
  · rename_i h; exact keeps_pitCrossing x s (by unfold Out; rw [h]; decide) (by rw [h]; decide)
  · rename_i h
    have o : Out (ctx s x.entry) := by unfold Out; rw [h]; decide
    have k := keeps_updCtx s x.entry (fun c => { c with state := .running })
      (contextKept_state .running o (by rw [h]; decide))
    exact keeps_trans k (keeps_runningCrossing x _ (k.steady.out _ o))
  · exact keeps_recordLast x s
  · exact keeps_recordLast x s

/-! ### The resolver and the drill generator (file 03) -/

theorem keeps_stray (g : Nat) (t : Ticks) (c : Byte) (r : StrayReason) (s : State) : Keeps s (stray g t c r s) :=
  keeps_trans (keeps_emit _ s) (keeps_setGroup _ _)

theorem keeps_deliver (x : Report) (s : State) : Keeps s (deliver x s) := by
  unfold deliver
  dsimp only
  exact keeps_ite (fun _ => keeps_refl s) fun _ => keeps_ite (fun _ => keeps_stray _ _ _ _ s) fun _ => keeps_acceptCrossing _ s

theorem keeps_removePair (p : PendingPair) (s : State) : Keeps s (removePair p s) :=
  keeps_resolver s _ id (List.erase_sublist ..)

theorem keeps_releasePair (p : PendingPair) (s : State) : Keeps s (releasePair p s) := by
  unfold releasePair
  dsimp only
  refine keeps_trans (keeps_removePair p s) (keeps_trans ?_ (keeps_deliver _ _))
  split
  · exact keeps_setGate _ _ _ ⟨rfl, rfl, rfl, rfl, rfl, id, fun _ => Nat.min_le_left _ _⟩
  · exact keeps_refl _

theorem keeps_partnerArrives (p : PendingPair) (x : Report) (s : State) : Keeps s (partnerArrives p x s) := by
  unfold partnerArrives
  dsimp only
  refine keeps_ite (fun _ => keeps_trans (keeps_removePair p s) (keeps_deliver _ _)) fun _ => ?_
  exact keeps_trans (keeps_removePair p s) (keeps_trans (keeps_deliver _ _) (keeps_deliver _ _))

theorem keeps_mirror (f : Frame) (s : State) : Keeps s (mirror f s) := by
  unfold mirror
  exact keeps_ite (fun _ => keeps_offerUp f s) fun _ => keeps_refl s

/-- A step of the LFSR never yields 0 from a value that is not 0 (R66). -/
theorem lfsrStep_ne_zero (v : BitVec 16) (h : v ≠ 0) : lfsrStep v ≠ 0 := by
  intro hz
  apply h
  unfold lfsrStep at hz
  split at hz
  · have := congrArg (fun x => x.getLsbD 15) hz
    simp at this
  · rename_i h0
    ext i hi
    by_cases hc : i = 0
    · subst hc; simpa using h0
    · have := congrArg (fun x => x.getLsbD (i - 1)) hz
      simp at this
      have e : 1 + (i - 1) = i := by omega
      rw [e] at this
      simpa [BitVec.getLsbD, BitVec.getElem_eq_testBit_toNat, hi] using this

theorem keeps_draw (s : State) : Keeps s (draw s).1 := keeps_resolver s _ fun h => lfsrStep_ne_zero _ h

theorem keeps_setDrill (e : Entry) (d : Option DrillSchedule) (s : State) : Keeps s (setDrill e d s) := keeps_resolver s _ id

theorem keeps_drillLapTime (e : Entry) (n : Nat) (s : State) : Keeps s (drillLapTime e n s).1 := by
  unfold drillLapTime
  dsimp only
  split
  · exact keeps_refl s
  · exact keeps_draw s
  · exact keeps_refl s
  · exact keeps_refl s

theorem keeps_startDrills (s : State) : Keeps s (startDrills s) := by
  unfold startDrills
  refine keeps_ite (fun _ => keeps_foldl _ (fun u e => ?_) _ s) fun _ => keeps_refl s
  unfold startDrill
  exact keeps_ite (fun _ => keeps_trans (keeps_drillLapTime e 0 u) (keeps_setDrill _ _ _)) fun _ => keeps_refl u

theorem keeps_drillDue (e : Entry) (d : DrillSchedule) (s : State) : Keeps s (drillDue e d s) := by
  unfold drillDue
  refine keeps_ite (fun _ => keeps_setDrill _ _ s) fun _ => keeps_trans ?_ (keeps_deliver _ _)
  unfold advanceDrill
  refine keeps_trans ?_ (keeps_setDrill _ _ _)
  split
  · exact keeps_drillLapTime _ _ s
  · exact keeps_refl s

/-! ### The throttle gate (file 09) -/

theorem keeps_jumpWatch (e : Entry) (n : Nat) (t : Ticks) (s : State) : Keeps s (jumpWatch e n t s) := by
  unfold jumpWatch
  exact keeps_ite (fun _ => keeps_jumpStart _ _ s) fun _ => keeps_refl s

theorem keeps_stationaryStep (e : Entry) (n : Nat) (t : Ticks) (s : State) : Keeps s (stationaryStep e n t s) := by
  unfold stationaryStep
  split
  · exact keeps_refl s
  · unfold accrue
    refine keeps_ite (fun _ => keeps_setMark _ _ s) fun _ => ?_
    exact keeps_trans (keeps_updCtx s e _ (contextKept_of rfl rfl rfl)) (keeps_trans (keeps_setMark _ _ _) (keeps_setHold _ _ _))

/-- The level of the tank keeps within FUEL_CAP (R180). -/
theorem fuelAfter_le (f : FuelSettings) (c : Context) (w i o : Nat) (h : c.fuel ≤ f.cap) : fuelAfter f c w i o ≤ f.cap := by
  unfold fuelAfter
  split
  · omega
  · omega
  · split
    · exact Nat.min_le_left _ _
    · exact h
  · exact h

theorem fuelAfter_unused (f : FuelSettings) (c : Context) (w i o : Nat) (h : c.state = .unused) :
    fuelAfter f c w i o = c.fuel := by
  unfold fuelAfter; rw [h]

theorem keeps_emitFuel (e : Entry) (t : Ticks) (c : Option FuelCondition) (n : Nat) (s : State) :
    Keeps s (emitFuel e t c n s) := by
  unfold emitFuel
  split
  · exact keeps_refl _
  · exact keeps_trans (keeps_emit _ _) (keeps_setGroup _ _)

theorem keeps_fuelStep (e : Entry) (i o : Nat) (t : Ticks) (s : State) : Keeps s (fuelStep e i o t s) := by
  unfold fuelStep
  refine keeps_ite (fun _ => ?_) fun _ => keeps_refl s
  dsimp only
  refine keeps_ite (fun _ => keeps_refl s) fun _ => keeps_trans ?_ (keeps_emitFuel _ _ _ _ _)
  refine keeps_setCtx_cap s e _ (fun y => ?_) rfl id
  refine ⟨y.owed, y.head, y.seconds, y.deductions, y.laps, y.counts, y.ring, fuelAfter_le _ _ _ _ _ y.fuel,
    fun z => ?_, y.flagged⟩
  dsimp only at z ⊢
  rw [fuelAfter_unused _ _ _ _ _ z]; exact y.unused z

theorem keeps_editEntry (t : Ticks) (d : DriveEntry) (s : State) : Keeps s (editEntry t d s).1 := by
  unfold editEntry
  split
  · exact keeps_trans (keeps_jumpWatch _ _ _ s) (keeps_trans (keeps_stationaryStep _ _ _ _) (keeps_fuelStep _ _ _ _ _))
  · split
    · exact keeps_refl s
    · exact keeps_refl s

theorem keeps_editEntries (t : Ticks) (l : List DriveEntry) (s : State) : Keeps s (editEntries t l s).1 := by
  induction l generalizing s with
  | nil => exact keeps_refl s
  | cons d rest ih => exact keeps_trans (keeps_editEntry t d s) (ih _)

theorem keeps_editFrame (es : List DriveEntry) (t : Ticks) (s : State) : Keeps s (editFrame es t s) := by
  unfold editFrame
  dsimp only
  exact keeps_ite (fun _ => keeps_editEntries t es s) fun _ => keeps_trans (keeps_editEntries t es s) (keeps_offerDrive _ _)

end Sys2Proof.Safety
end

