-- ==== Sys2Proof/Laws/Requests.lean ====
section
/-! SUPPORT. What the frame of a request does: a request that is taken, one that is refused, and the reading of
argument bytes (R14, R185). -/

namespace Sys2Proof.Safety

open Sys2Proof Machine

/-! ### The frame of a request -/

/-- Every command with a request code is carried out in the frame of a request (R185). -/
theorem exec_of_requestCode {c : Instr} {s : State} (h : (requestCode c).isSome = true) : ∃ tag f, exec c s =
    complete (request tag f s) := by
  cases c <;> simp [requestCode] at h <;> exact ⟨_, _, rfl⟩

/-- A request whose work leaves the links alone: the next state differs from its own effect by the outputs only,
and the reply is placed (R14, R185). -/
theorem request_taken {s u : State} {c : Instr} {tag : Byte} {f : State → Answer} {r : Result} {b : List Byte}
    (he : exec c s = complete (request tag f s)) (hl : Listening s)
    (hf : f (received .station s) = ⟨received .station u, r, b⟩) (hu : u.rstnLow = false)
    (hr : u.link.replies = s.link.replies) (ht : u.link.stationTx = s.link.stationTx := by rfl) :
    ∃ t, exec c s = .next t ∧ Quiet u t ∧ Replied s t tag r b := by
  obtain ⟨t, h1, h2, h3⟩ := request_next hl tag f
  rw [hf] at h2 h3
  refine ⟨t, by rw [he, h1], quiet_trans (quiet_received .station u) h2, ?_⟩
  have := (h3 hu).1
  rw [show (received .station u).link.replies = s.link.replies from hr,
    show (received .station u).link.stationTx = s.link.stationTx from ht] at this
  exact replied_of this

/-- A request that its work refuses changes nothing and is answered with the result (R185). -/
theorem request_refused {s : State} {c : Instr} {tag : Byte} {f : State → Answer} {r : Result}
    (he : exec c s = complete (request tag f s)) (hl : Listening s)
    (hf : f (received .station s) = refuse r (received .station s)) : Refuses c s tag r :=
  request_taken he hl hf hl.1 rfl

/-- A request that only reads: nothing changes, and it is answered OK with its body. -/
theorem request_reads {s : State} {c : Instr} {tag : Byte} {f : State → Answer} {b : List Byte}
    (he : exec c s = complete (request tag f s)) (hl : Listening s)
    (hf : f (received .station s) = okay b (received .station s)) : ∃ t, exec c s = .next t ∧ Quiet s t ∧
        Replied s t tag .ok b :=
  request_taken he hl hf hl.1 rfl

/-- A request whose work also has outputs: they stand, and the reply is placed behind them (R14, R185). -/
theorem request_done {s v u : State} {c : Instr} {tag : Byte} {f : State → Answer} {r : Result} {b : List Byte}
    {g : Byte}
    (he : exec c s = complete (request tag f s)) (hl : Listening s) (hf : f (received .station s) = ⟨v, r, b⟩)
    (hv : v.rstnLow = false) (hq : RepliesKept s v) (ho : Outputs g u v) :
    ∃ t, exec c s = .next t ∧ Outputs g u t ∧ Replied s t tag r b ∧ Quiet v t ∧
      t = settle (pushReply ⟨tag, r, v.mgmt.summary, b⟩ v) := by
  have hr : request tag f s = pushReply ⟨tag, r, v.mgmt.summary, b⟩ v := by
    unfold request
    rw [if_neg (by rw [hl.1]; simp)]
    dsimp only
    rw [if_pos (show (received .station s).link.replies.length < Config.replyCapacity from hl.2), hf]
  have hm : (settle (pushReply ⟨tag, r, v.mgmt.summary, b⟩ v)).mgmt.summary = v.mgmt.summary := by
    rw [settle_mgmt, outputs_summary (quiet_pushReply _ _).outputs]
  have k := quiet_trans (quiet_pushReply ⟨tag, r, v.mgmt.summary, b⟩ v) (quiet_settle _)
  refine ⟨_, by rw [he, hr]; rfl, outputs_trans ho (outputs_zero k.outputs), ?_, k, rfl⟩
  apply replied_of
  rw [hm]
  exact drawn_trans (hq.append _) (drawn_trans (pushReply_link hv _) (replies_settle _))

/-- A received frame leaves the holding places alone. -/
theorem linkKept_received {s : State} {l : Link} (h : l = (received .station s).link) : LinkKept s.link l := by
  rw [h]; exact linkKept_of

/-- A frame received at the track port leaves the holding places alone. -/
theorem linkKept_receivedTrack {s : State} {l : Link} (h : l =
    (received .track s).link) : LinkKept s.link l := by
  rw [h]; exact linkKept_of

/-! ### Conditions of a request -/

/-- An argument part of the right length is passed on (R185). -/
theorem withLength_of_length {n : Nat} {args : List Byte} {f : State → Answer} {s : State} (h : args.length =
    n) : withLength n args f s = f s := by unfold withLength; rw [if_pos h]

/-- A session state that takes the request (R185). -/
theorem inStates_taken {ok : SessionState → Bool} {f} {s : State} (h : ok s.session.state =
    true) : inStates ok f (received .station s) = f (received .station
    s) := by unfold inStates; rw [if_pos (show ok (received .station s).session.state = true from h)]

/-- A session state that does not take the request (R185). -/
theorem inStates_refused {ok : SessionState → Bool} {f} {s : State} (h : ok s.session.state =
    false) : inStates ok f (received .station s) = refuse .wrongState (received .station
    s) := by unfold inStates; rw [if_neg (by show ¬ ok s.session.state = true; rw [h]; simp)]

/-- The states between heats. -/
theorem betweenHeats_iff (st : SessionState) : betweenHeats st = true ↔ st = .idle ∨ st =
    .closed := by cases st <;> simp [betweenHeats]

/-- The states before a start. -/
theorem beforeStart_iff (st : SessionState) : beforeStart st = true ↔ st = .idle ∨ st = .armed ∨ st =
    .closed := by cases st <;> simp [beforeStart]

/-- The states after a start. -/
theorem beforeStart_false {st} (h : ¬(st = SessionState.idle ∨ st = .armed ∨ st = .closed)) : beforeStart st =
    false := by revert h; cases st <;> simp [beforeStart]

/-- The states of a heat. -/
theorem betweenHeats_false {st} (h : ¬(st = SessionState.idle ∨ st = .closed)) : betweenHeats st =
    false := by revert h; cases st <;> simp [betweenHeats]

/-- The states of a heat. -/
theorem inHeat_iff (st : SessionState) : inHeat st = true ↔ st ≠ .idle ∧
    st ≠ .closed := by cases st <;> simp [inHeat]

/-- The states in which the heat is running or held. -/
theorem racing_iff (st : SessionState) : racing st = true ↔ (st = .green ∨ st = .caution ∨ st = .held ∨ st =
    .chequered) := by cases st <;> simp [racing]

/-! ### Argument bytes -/

/-- The nearer bound of a range (R187). -/
theorem clamp_eq (lo hi v : Nat) (h : lo ≤ hi) : clamp lo hi v =
    if v < lo then lo else if hi < v then hi else v := by
  unfold clamp; split
  · omega
  · split <;> omega

/-- A number in one byte. -/
theorem byte_toNat (n : Nat) (h : n < 256) : (BitVec.ofNat 8 n).toNat = n := by simp; omega

/-- A number in two bytes, high byte first (R5). -/
theorem word_toNat (n : Nat) (h : n < 65536) : ((BitVec.ofNat 8 (n / 256)).toNat * 256 + (BitVec.ofNat 8
    n).toNat) = n := by simp; omega

/-- A number in four bytes, high byte first (R5). -/
theorem long_toNat (n : Nat) (h : n < 4294967296) : (((BitVec.ofNat 8 (n / 16777216)).toNat * 256 +
    (BitVec.ofNat 8 (n / 65536)).toNat) * 65536 + ((BitVec.ofNat 8 (n / 256)).toNat * 256 + (BitVec.ofNat 8
    n).toNat)) = n := by
  simp; omega

/-- A yes or no byte (R5). -/
theorem yesNo_read (b : Bool) : (if (if b then (1 : Byte) else 0).toNat =
    0 then some false else if (if b then (1 : Byte) else 0).toNat = 1 then some true else none) =
    some b := by cases b <;> rfl

/-- RACE_KIND is read back. -/
theorem raceKindOf_code (k : RaceKind) : raceKindOf k.code.toNat = some k := by cases k <;> rfl

/-- MARSHAL_ACTION is read back. -/
theorem marshalActionOf_code (k : MarshalAction) : marshalActionOf k.code.toNat = some k := by cases k <;> rfl

/-- A zone mode is read back. -/
theorem zoneModeOf_code (k : ZoneMode) : zoneModeOf k.code.toNat = some k := by cases k <;> rfl

/-- A drill mode is read back. -/
theorem drillModeOf_code (k : DrillMode) : drillModeOf k.code.toNat = some k := by cases k <;> rfl

/-- A gate role is read back. -/
theorem roleOf_code (k : GateRole) : roleOf k.code.toNat = some k := by cases k <;> rfl

/-- A pair position is read back. -/
theorem positionOf_code (k : PairPosition) : positionOf k.code.toNat = some k := by cases k <;> rfl

/-- An incident kind is read back. -/
theorem kindOf_code (k : IncidentKind) : kindOf k.code.toNat = some k := by cases k <;> rfl

/-- A sanction is read back. -/
theorem sanctionOf_code (k : Sanction) : sanctionOf k.code.toNat = some k := by cases k <;> rfl

/-- A gate id is read back. -/
theorem gateOf_byte (g : GateId) : gateOf (BitVec.ofNat 8 (g.val + 1)).toNat = some g := by
  have : ∀ g : Fin 32, gateOf (BitVec.ofNat 8 (g.val + 1)).toNat = some g := by decide
  exact this g

/-- A line number is read back. -/
theorem lineOf_byte (j : Line) : lineOf (BitVec.ofNat 8 j.val).toNat = some j := by
  have : ∀ j : Fin 5, lineOf (BitVec.ofNat 8 j.val).toNat = some j := by decide
  exact this j

/-- An entry number is read back. -/
theorem entryOf_byte (j : Entry) : entryOf (BitVec.ofNat 8 (j.val + 1)).toNat = some j := by
  have : ∀ j : Fin 16, entryOf (BitVec.ofNat 8 (j.val+1)).toNat = some j := by decide
  exact this j

/-- A number outside 1 to 32 is no gate id. -/
theorem gateOf_none {n : Nat} (h : ¬(1 ≤ n ∧ n ≤ 32)) : gateOf n = none := by unfold gateOf; rw [dif_neg h]

/-- A number outside 1 to 16 is no entry. -/
theorem entryOf_none {n : Nat} (h : ¬(1 ≤ n ∧ n ≤ 16)) : entryOf n = none := by unfold entryOf; rw [dif_neg h]

/-- A number above 4 is no line. -/
theorem lineOf_none {n : Nat} (h : 4 < n) : lineOf n = none := by unfold lineOf; rw [dif_neg (by omega)]

/-- A number of a gate id is read. -/
theorem gateOf_some {n : Nat} (h : 1 ≤ n ∧ n ≤ 32) : ∃ g, gateOf n = some g := by
  unfold gateOf; rw [dif_pos h]; exact ⟨_, rfl⟩

/-- A number of an entry is read. -/
theorem entryOf_some {n : Nat} (h : 1 ≤ n ∧ n ≤ 16) : ∃ e, entryOf n = some e := by
  unfold entryOf; rw [dif_pos h]; exact ⟨_, rfl⟩

/-- A number of a line is read. -/
theorem lineOf_some {n : Nat} (h : n ≤ 4) : ∃ j, lineOf n = some j := by
  unfold lineOf; rw [dif_pos (by omega)]; exact ⟨_, rfl⟩

/-- A code outside the seven is no kind. -/
theorem kindOf_none {n : Nat} (h : 6 < n) : kindOf n = none := by unfold kindOf; split <;> first | omega | rfl

/-- A code of the seven is read. -/
theorem kindOf_some {n : Nat} (h : n ≤ 6) : ∃ k, kindOf n = some k := by
  have : n = 0 ∨ n = 1 ∨ n = 2 ∨ n = 3 ∨ n = 4 ∨ n = 5 ∨ n = 6 := by omega
  rcases this with rfl | rfl | rfl | rfl | rfl | rfl | rfl <;> exact ⟨_, rfl⟩

/-- A code outside the six is no sanction. -/
theorem sanctionOf_none {n : Nat} (h : 5 < n) : sanctionOf n = none := by
  unfold sanctionOf; split <;> first | omega | rfl

/-- A code outside the four is no gate role. -/
theorem roleOf_none {n : Nat} (h : 3 < n) : roleOf n = none := by unfold roleOf; split <;> first | omega | rfl

/-- A code above 1 is no pair position. -/
theorem positionOf_none {n : Nat} (h : 1 < n) : positionOf n = none := by
  unfold positionOf; split <;> first | omega | rfl

/-- A code outside the three is no zone mode. -/
theorem zoneModeOf_none {n : Nat} (h : 2 < n) : zoneModeOf n = none := by
  unfold zoneModeOf; split <;> first | omega | rfl

/-- A code outside the four is no drill mode. -/
theorem drillModeOf_none {n : Nat} (h : 3 < n) : drillModeOf n = none := by
  unfold drillModeOf; split <;> first | omega | rfl

/-- A code above 1 is no RACE_KIND. -/
theorem raceKindOf_none {n : Nat} (h : 1 < n) : raceKindOf n = none := by
  unfold raceKindOf; split <;> first | omega | rfl

/-- A code outside the three is no MARSHAL_ACTION. -/
theorem marshalActionOf_none {n : Nat} (h : 2 < n) : marshalActionOf n = none := by
  unfold marshalActionOf; split <;> first | omega | rfl

/-- A byte outside the seven is no allowance. -/
theorem allowanceOf_none {n : Nat} (h : n ∉ [0, 1, 2, 4, 8, 16, 255]) : allowanceOf n = none := by
  simp only [List.mem_cons, List.not_mem_nil, or_false, not_or] at h
  unfold allowanceOf; rw [if_neg (by omega), if_neg (by omega)]

/-- A byte above 1 is neither yes nor no. -/
theorem argBool_none {args : List Byte} {i : Nat} (h : 1 < (args.getD i 0).toNat) : argBool args i = none := by
  unfold argBool arg8; rw [if_neg (by omega), if_neg (by omega)]

end Sys2Proof.Safety
end

