-- ==== Sys2Proof/Laws/Emits.lean ====
section
/-! SUPPORT. Records: a relation for work that emits records, closed under composition, so that what an event emits
is put together from what its parts emit (R15). -/

namespace Sys2Proof.Safety

open Sys2Proof Machine

-- One theorem after another: the proofs of many at once would need too many threads.
set_option Elab.async false

/-! ### What outputs leave alone -/

theorem outputs_contexts {g : Byte} {s t : State} (h : Outputs g s t) : t.contexts =
    s.contexts := by rw [h.rest]

theorem outputs_session {g : Byte} {s t : State} (h : Outputs g s t) : t.session = s.session := by rw [h.rest]

theorem outputs_pit {g : Byte} {s t : State} (h : Outputs g s t) : t.pit = s.pit := by rw [h.rest]

theorem outputs_order {g : Byte} {s t : State} (h : Outputs g s t) : t.order = s.order := by rw [h.rest]

theorem outputs_ctx {g : Byte} {s t : State} (h : Outputs g s t) (e : Entry) : ctx t e =
    ctx s e := by unfold ctx; rw [outputs_contexts h]

/-- A record leaves the replies, or sends the first of them. -/
theorem replies_emit (r : Record) (s : State) : RepliesKept s (emit r s) := (keeps_emit r s).replies

/-- A move of the session leaves the replies, or sends the first of them. -/
theorem replies_announce (c : Cause) (s : State) : RepliesKept s (announce c s) :=
    (keeps_announce c s).replies

/-- A group that is set stays set where the summary only grows. -/
theorem groupSet_mono {g : Group} {s t : State} (h : groupSet g s =
    true) (k : s.mgmt.summary ||| t.mgmt.summary = t.mgmt.summary) : groupSet g t = true := by
  unfold groupSet at *
  rw [← k]
  generalize s.mgmt.summary = x at *
  generalize t.mgmt.summary = y at *
  generalize groupBit g = b at *
  have key : (x ||| y) &&& b = (x &&& b) ||| (y &&& b) := by ext i; simp; cases x[i] <;> cases y[i] <;> simp
  rw [key]
  simp at h ⊢
  intro e; exact absurd e h

/-- The choices of an event's end clear no group. -/
theorem groupSet_settle {g s} (h : groupSet g s = true) : groupSet g (settle s) = true :=
  groupSet_mono h (quiet_settle s).outputs.kept

/-- A move of the session sets SESSION (R129). -/
theorem group_announce (c : Cause) (w : State) : groupSet .session (announce c w) =
    true := groupSet_setGroup _ _

/-- A busy transmitter makes no choice (R16). -/
theorem chooseTrack_busy {s : State} (h : s.link.trackTx.isSome = true) : chooseTrack s =
    s := by unfold chooseTrack; simp [h]

/-- No choice while RSTN is low (R19). -/
theorem chooseStation_low {s : State} (h : s.rstnLow = true) : chooseStation s =
    s := by unfold chooseStation; simp [h]

/-- No choice while RSTN is low (R19). -/
theorem chooseTrack_low {s : State} (h : s.rstnLow = true) : chooseTrack s =
    s := by unfold chooseTrack; simp [h]

/-- No choice while RSTN is low (R19). -/
theorem settle_low {s : State} (h : s.rstnLow = true) : settle s =
    s := by unfold settle; rw [chooseTrack_low h, chooseStation_low h]

/-- A lamp at an idle transmitter with the balance at 0 goes out at once (R13, R18). -/
theorem issueLamp_idle {s : State} (l : Lamp) (h : s.rstnLow = false) (hb : s.clock.balance =
    0) (ht : s.link.trackTx = none) :
    (issueLamp l s).clock = s.clock ∧ (issueLamp l s).link.trackTx.isSome = true := by
  unfold issueLamp chooseTrack beaconOffer
  simp [h, hb, ht]
  cases s.link.drive <;> simp

@[simp] theorem emit_trackTx (r s) : (emit r s).link.trackTx = s.link.trackTx := by
  unfold emit; split
  · rfl
  · split <;> simp

@[simp] theorem emit_clock (r s) : (emit r s).clock = s.clock := by
  unfold emit; split
  · rfl
  · split <;> simp

@[simp] theorem emit_lamp (r s) : (emit r s).link.lamp = s.link.lamp := by
  unfold emit; split
  · rfl
  · split <;> simp

/-- A record leaves the lamp alone. -/
theorem lamp_emit (r : Record) (s : State) : LampKept s (emit r s) := by
  unfold LampKept; rw [emit_trackTx, emit_lamp]; exact drawn_same

/-- A record that finds room leaves the summary alone (R15). -/
theorem summary_emit {s : State} (r : Record) (h : s.rstnLow = true ∨
    s.link.records.length < 64) : (emit r s).mgmt.summary = s.mgmt.summary := by
  unfold emit
  split
  · rfl
  · rename_i h1
    rw [if_pos (show _ < Config.recordCapacity from h.resolve_left h1)]
    generalize hv : ({ s with link := { s.link with records := joinRecords s.link.records r } } : State) = v
    rw [outputs_summary (quiet_chooseStation v).outputs, ← hv]

/-! ### The relation -/

/-- Between two states some work emits at most `n` records, `L` among them, and sets at most the given groups:
where there is room for all of them, every record of `L` stands in the queue or is on the wire. -/
structure Emits (g : Byte) (n : Nat) (s t : State) (L : List Record) : Prop where
  out : Outputs g s t
  len : t.link.records.length ≤ s.link.records.length + n
  room : s.rstnLow = false → s.link.records.length + n ≤ 64 → (∀ x, Recorded s x → Recorded t x) ∧ ∀ x ∈ L,
      Recorded t x
  replies : RepliesKept s t
  lamp : LampKept s t
  keep : ∀ x : Record, x.isSector = false → Recorded s x → Recorded t x
  queue : s.rstnLow = false → s.link.stationTx.isSome = true → s.link.records.length + n ≤ 64 →
    t.link.records = s.link.records ++ L ∧ t.link.stationTx = s.link.stationTx

theorem Emits.shows {g n s t L} (h : Emits g n s t L) (l : Lamp) (k : Shows s l) : Shows t l := shows_kept h.lamp k

theorem emits_refl (g s) : Emits g 0 s s [] := ⟨outputs_refl _ _, le_refl _, fun _ _ => ⟨fun _ h =>
    h, by simp⟩, drawn_same, drawn_same, fun _ _ h => h, fun _ _ _ => ⟨by simp, rfl⟩⟩

theorem emits_trans {g n m a b c L M} (h : Emits g n a b L) (k : Emits g m b c M) : Emits g (n + m) a c (L ++
    M) where
  out := outputs_trans h.out k.out
  len := by have := h.len; have := k.len; omega
  room := by
    intro h1 h2
    have hb : b.rstnLow = false := by rw [h.out.rest]; exact h1
    have p := h.room h1 (by omega)
    have q := k.room hb (by have := h.len; omega)
    refine ⟨fun x hx => q.1 x (p.1 x hx), ?_⟩
    intro x hx
    rcases List.mem_append.1 hx with hx | hx
    · exact q.1 x (p.2 x hx)
    · exact q.2 x hx
  replies := drawn_trans h.replies k.replies
  lamp := drawn_trans h.lamp k.lamp
  keep x hx h1 := k.keep x hx (h.keep x hx h1)
  queue h1 h2 h3 := by
    obtain ⟨p1, p2⟩ := h.queue h1 h2 (by omega)
    obtain ⟨q1, q2⟩ := k.queue (by rw [h.out.rest]; exact h1) (by rw [p2]; exact h2) (by have := h.len; omega)
    exact ⟨by rw [q1, p1, List.append_assoc], by rw [q2, p2]⟩

theorem emits_mono {g g' n a b L} (h : Emits g n a b L) (m : g ||| g' =
    g') : Emits g' n a b L := ⟨outputs_mono h.out m, h.len, h.room, h.replies, h.lamp, h.keep,
    h.queue⟩

theorem emits_group (g s) : Emits (groupBit g) 0 s (setGroup g s) [] :=
  ⟨outputs_setGroup g s, le_refl _, fun _ _ => ⟨fun _ h => h, by simp⟩, drawn_same, drawn_same, fun _ _
      h => h, fun _ _ _ => ⟨by simp, rfl⟩⟩

/-- A record that stands keeps its place where the next finds room (R15). -/
theorem recorded_emit_room {s : State} {x : Record} (r : Record) (hq : s.link.records.length < 64) (h :
    Recorded s x) : Recorded (emit r s) x := by
  unfold emit
  split
  · exact h
  · rw [if_pos (show _ < Config.recordCapacity from hq)]
    apply recorded_chooseStation
    rcases h with h | h
    · left; simp [joinRecords, Config.recordCapacity, hq, h]
    · exact .inr h

theorem records_chooseStation (s : State) : (chooseStation s).link.records.length ≤ s.link.records.length := by
  exact (quiet_chooseStation s).records.suffix.length_le

theorem records_emit (r s) : (emit r s).link.records.length ≤ s.link.records.length + 1 := by
  have j : (joinRecords s.link.records r).length ≤ s.link.records.length + 1 := by
    unfold joinRecords; split
    · simp
    · split
      · rename_i h; have := dropSector_length s.link.records h; simp; omega
      · omega
  unfold emit
  split
  · omega
  · split
    · exact (records_chooseStation _).trans j
    · exact (records_chooseStation _).trans j

theorem chooseStation_busy {s : State} (h : s.link.stationTx.isSome = true) : chooseStation s = s := by
  unfold chooseStation; simp [h]

theorem records_settle_busy {s : State} (h : s.link.stationTx.isSome = true) :
    (settle s).link.records = s.link.records := by
  unfold settle
  rw [chooseStation_busy (by rw [chooseTrack_stationTx]; exact h), chooseTrack_records]

/-- A record joins a queue with room at its tail (R15). -/
theorem joinRecords_room {q : List Record} (r : Record) (h : q.length < 64) : joinRecords q r = q ++ [r] := by
  unfold joinRecords; rw [if_pos (show q.length < Config.recordCapacity from h)]

/-- The oldest SECTOR record leaves the queue (R15). -/
theorem dropSector_split : ∀ {before after : List Record} {x : Record}, x.isSector = true →
    (∀ y ∈ before, y.isSector = false) → dropSector (before ++ x :: after) = before ++ after
  | [], _, x, hx, _ => by simp [dropSector, hx]
  | y :: before, after, x, hx, hb => by
    have hy : y.isSector = false := hb y (by simp)
    have := dropSector_split (after := after) hx (fun z hz => hb z (List.mem_cons_of_mem y hz))
    simp [dropSector, hy, this]

/-- A full queue loses its oldest SECTOR record to a new record (R15). -/
theorem joinRecords_full {before after : List Record} {x : Record} (r : Record)
    (h : 64 ≤ (before ++ x :: after).length) (hx : x.isSector = true) (hb : ∀ y ∈ before, y.isSector = false) :
    joinRecords (before ++ x :: after) r = before ++ after ++ [r] := by
  unfold joinRecords
  rw [if_neg (show ¬(before ++ x :: after).length < Config.recordCapacity from Nat.not_lt.2 h),
    if_pos (by simp [hx]), dropSector_split hx hb]

/-- A full queue without a SECTOR record turns the new record away (R15). -/
theorem joinRecords_lost {q : List Record} (r : Record) (h : 64 ≤ q.length) (hq : ∀ y ∈ q, y.isSector = false) :
    joinRecords q r = q := by
  unfold joinRecords
  rw [if_neg (show ¬q.length < Config.recordCapacity from Nat.not_lt.2 h), if_neg (by simpa using hq)]

/-- A record emitted while the station transmitter is busy (R15). -/
theorem emit_busy {s : State} (r : Record) (h1 : s.rstnLow = false) (h2 : s.link.stationTx.isSome = true) :
    emit r s = (if s.link.records.length < 64 then { s with link := { s.link with records := joinRecords s.link.records r } }
      else setGroup .records { s with link := { s.link with records := joinRecords s.link.records r } }) := by
  unfold emit
  rw [if_neg (by simp [h1])]
  show (if s.link.records.length < 64 then _ else _) = _
  split <;> exact chooseStation_busy h2

/-- One record (R15). -/
theorem emits_emit (r s) : Emits 128 1 s (emit r s) [r] :=
  ⟨outputs_emit r s, records_emit r s, fun h1 h2 => ⟨fun x hx => recorded_emit_room r (by omega) hx, by
    intro x hx; simp at hx; rw [hx]; exact recorded_emit h1 (by omega) r⟩, replies_emit r s, lamp_emit r s, fun _ hx h => recorded_emit_of hx h r, fun h1 h2 h3 => by
      rw [emit_busy r h1 h2, if_pos (by omega)]
      refine ⟨?_, rfl⟩
      show joinRecords s.link.records r = _
      unfold joinRecords; rw [if_pos (show s.link.records.length < Config.recordCapacity from (by omega : _ < 64))]⟩

theorem emits_quiet {g : Byte} {s t : State} (h : Quiet s t) (r : RepliesKept s t) : Emits g 0 s t [] :=
  ⟨outputs_zero h.outputs, h.records.suffix.length_le, fun _ _ => ⟨fun _ k => recorded_quiet h k, by simp⟩, r,
    h.lamp, fun _ _ k => recorded_quiet h k,
    fun _ k _ => ⟨by rw [h.records.kept k]; simp, h.records.busy k⟩⟩

theorem emits_settle (g s) : Emits g 0 s (settle s) [] := emits_quiet (quiet_settle s) (replies_settle s)

theorem emits_chooseStation (s) : Emits 0 0 s (chooseStation s) [] :=
  emits_quiet (quiet_chooseStation s) (replies_chooseStation s)

/-- Outputs do not look at the blocks that they leave alone. -/
theorem outputs_congr {g s t} (o : Outputs g s t) (C P O R S Q T) : Outputs g
   { s with contexts := C, pit := P, order := O, resolver := R, session := S, penalty := Q, throttle := T }
   { t with contexts := C, pit := P, order := O, resolver := R, session := S, penalty := Q, throttle := T } := by
  refine ⟨o.link, o.clock, o.beacon, o.kept, o.only, ?_⟩
  have r0 : t.mgmt = { s.mgmt with summary := t.mgmt.summary } := (congrArg State.mgmt o.rest).trans rfl
  have r1 : t.settings = s.settings := (congrArg State.settings o.rest).trans rfl
  have r2 : t.rstnLow = s.rstnLow := (congrArg State.rstnLow o.rest).trans rfl
  have r3 : t.choices = s.choices := (congrArg State.choices o.rest).trans rfl
  have r4 : t.pending = s.pending := (congrArg State.pending o.rest).trans rfl
  show State.mk t.link t.clock R C O S Q P T t.mgmt t.settings t.rstnLow t.choices t.pending = State.mk t.link
      t.clock R C O S Q P T { s.mgmt with summary := t.mgmt.summary } s.settings s.rstnLow s.choices s.pending
  rw [← r0, r1, r2, r3, r4]

/-- The relation does not look at the blocks that outputs leave alone. -/
theorem emits_congr {g n s t L} (h : Emits g n s t L) (C P O R S Q T) : Emits g n
   { s with contexts := C, pit := P, order := O, resolver := R, session := S, penalty := Q, throttle := T }
   { t with contexts := C, pit := P, order := O, resolver := R, session := S, penalty := Q, throttle := T }
       L :=
  ⟨outputs_congr h.out C P O R S Q T, h.len, h.room, h.replies, h.lamp, h.keep, h.queue⟩

theorem emits_ctx {g n s t L} (h : Emits g n s t L) (C) : Emits g n { s with contexts := C }
    { t with contexts := C } L := by
  have o := h.out
  have := emits_congr h C s.pit s.order s.resolver s.session s.penalty s.throttle
  have e : ({ t with contexts := C, pit := s.pit, order := s.order, resolver := s.resolver, session := s.session, penalty := s.penalty, throttle := s.throttle }
      : State) = { t with contexts := C } := by
    have r1 : t.pit = s.pit := (congrArg State.pit o.rest).trans rfl
    have r2 : t.order = s.order := (congrArg State.order o.rest).trans rfl
    have r3 : t.resolver = s.resolver := (congrArg State.resolver o.rest).trans rfl
    have r4 : t.session = s.session := (congrArg State.session o.rest).trans rfl
    have r5 : t.penalty = s.penalty := (congrArg State.penalty o.rest).trans rfl
    have r6 : t.throttle = s.throttle := (congrArg State.throttle o.rest).trans rfl
    rw [← r1, ← r2, ← r3, ← r4, ← r5, ← r6]
  rw [e] at this; exact this

/-- A list of records, one after another. -/
theorem emits_all : ∀ (l : List Record) (s : State), Emits 128 l.length s (l.foldl (fun t r => emit r t) s) l
  | [], s => emits_refl _ _
  | r :: l, s => by
    have := emits_trans (emits_emit r s) (emits_all l (emit r s))
    rw [List.length_cons, Nat.add_comm]; exact this

/-- A group that outputs may not set stays as it was. -/
theorem groupSet_outputs {g : Group} {b : Byte} {s t : State} (h : Outputs b s t) (hb : b &&& groupBit g = 0) :
    groupSet g t = groupSet g s := by
  have key : ∀ x : Byte, x &&& groupBit g = (x &&& ~~~b) &&& groupBit g := by
    intro x
    have : ~~~b &&& groupBit g = groupBit g := by
      ext i hi
      have := congrArg (fun v : Byte => v[i]) hb
      simp only [BitVec.getElem_and, BitVec.getElem_not] at this ⊢
      revert this; cases b[i] <;> cases (groupBit g)[i] <;> simp
    rw [BitVec.and_assoc, this]
  unfold groupSet
  rw [key t.mgmt.summary, key s.mgmt.summary, h.only]

theorem groupSet_emits {g n s t L x} (h : Emits g n s t L) (k : groupSet x s = true) : groupSet x t =
    true := groupSet_mono k h.out.kept

/-! ### A session move and what follows it -/

theorem recorded_announce_room (c s) : ∀ x, s.rstnLow = false → s.link.records.length < 64 → Recorded s x →
    Recorded (announce c s) x := by
  intro x h1 h2 h
  unfold announce emitSession
  apply recorded_setGroup
  apply recorded_emit_room
  · unfold showLamp; simpa using h2
  · exact recorded_issueLamp h _

/-- Between two states a session move is announced and further records follow it. -/
structure EmitsMove (n : Nat) (w t : State) (L : List Record) : Prop where
  out : Outputs 0xC0 w t
  len : t.link.records.length ≤ w.link.records.length + n
  room : w.rstnLow = false → w.link.records.length + n ≤ 64 → (∀ x, Recorded w x → Recorded t x) ∧ ∀ x ∈ L,
      Recorded t x
  replies : RepliesKept w t
  group : groupSet .session t = true
  queue : w.rstnLow = false → w.link.stationTx.isSome = true → w.link.records.length + n ≤ 64 →
    t.link.records = w.link.records ++ L ∧ t.link.stationTx = w.link.stationTx

theorem emitsMove_announce (c w) : EmitsMove 1 w (announce c w) [⟨0, w.clock.now, .session w.session.state c
    w.session.heatClock⟩] where
  out := outputs_announce c w
  len := by
    unfold announce emitSession
    have := records_emit ⟨0, (showLamp w).clock.now, .session (showLamp w).session.state c (showLamp
        w).session.heatClock⟩ (showLamp w)
    have e : (showLamp w).link.records = w.link.records := by unfold showLamp; simp
    rw [e] at this; exact this
  room h1 h2 := ⟨fun x h => recorded_announce_room c w x h1 (by omega) h, by
    intro x hx; simp at hx; rw [hx]; exact recorded_announce h1 (by omega) c⟩
  replies := replies_announce c w
  group := group_announce c w
  queue h1 h2 h3 := by
    have e1 : (showLamp w).link.records = w.link.records := by unfold showLamp; simp
    have e2 : (showLamp w).link.stationTx = w.link.stationTx := by
      unfold showLamp issueLamp; split
      · rfl
      · rw [chooseTrack_stationTx]
    have hl : (showLamp w).rstnLow = false := by unfold showLamp; simpa using h1
    have o := (outputs_issueLamp (lampOf w.session) w)
    have q := (emits_emit ⟨0, (showLamp w).clock.now, .session (showLamp w).session.state c
      (showLamp w).session.heatClock⟩ (showLamp w)).queue hl (by rw [e2]; exact h2) (by rw [e1]; exact h3)
    rw [e1, e2] at q
    have e3 : (showLamp w).clock.now = w.clock.now := outputs_now o
    have e4 : (showLamp w).session = w.session := outputs_session o
    rw [e3, e4] at q
    unfold announce emitSession
    rw [e3, e4]; exact q

theorem emitsMove_then {n m w a t L M} (h : EmitsMove n w a L) (k : Emits 0xC0 m a t M) : EmitsMove (n + m) w t
    (L ++ M) where
  out := outputs_trans h.out k.out
  len := by have := h.len; have := k.len; omega
  room := by
    intro h1 h2
    have hb : a.rstnLow = false := by rw [h.out.rest]; exact h1
    have p := h.room h1 (by omega)
    have q := k.room hb (by have := h.len; omega)
    refine ⟨fun x hx => q.1 x (p.1 x hx), ?_⟩
    intro x hx
    rcases List.mem_append.1 hx with hx | hx
    · exact q.1 x (p.2 x hx)
    · exact q.2 x hx
  replies := drawn_trans h.replies k.replies
  group := groupSet_emits k h.group
  queue h1 h2 h3 := by
    obtain ⟨p1, p2⟩ := h.queue h1 h2 (by omega)
    obtain ⟨q1, q2⟩ := k.queue (by rw [h.out.rest]; exact h1) (by rw [p2]; exact h2) (by have := h.len; omega)
    exact ⟨by rw [q1, p1, List.append_assoc], by rw [q2, p2]⟩

theorem emitsMove_congr {n s t L} (h : EmitsMove n s t L) (C P O R S Q T) : EmitsMove n
   { s with contexts := C, pit := P, order := O, resolver := R, session := S, penalty := Q, throttle := T }
   { t with contexts := C, pit := P, order := O, resolver := R, session := S, penalty := Q, throttle := T }
       L :=
  ⟨outputs_congr h.out C P O R S Q T, h.len, h.room, h.replies, h.group, h.queue⟩

/-- Between two states some work sends exactly these records, whatever it does to the lamp: the relation that the
records of several moves are put together with. -/
structure Sends (g : Byte) (s t : State) (L : List Record) : Prop where
  out : Outputs g s t
  len : t.link.records.length ≤ s.link.records.length + L.length
  room : s.rstnLow = false → s.link.records.length + L.length ≤ 64 → (∀ x, Recorded s x → Recorded t x) ∧ ∀ x ∈ L,
      Recorded t x
  queue : s.rstnLow = false → s.link.stationTx.isSome = true → s.link.records.length + L.length ≤ 64 →
    t.link.records = s.link.records ++ L ∧ t.link.stationTx = s.link.stationTx

theorem Emits.sends {g n s t L} (h : Emits g n s t L) (hn : n ≤ L.length) : Sends g s t L :=
  ⟨h.out, h.len.trans (by omega), fun k1 k2 => h.room k1 (by omega), fun k1 k2 k3 => h.queue k1 k2 (by omega)⟩

theorem EmitsMove.sends {n s t L} (h : EmitsMove n s t L) (hn : n ≤ L.length) : Sends 0xC0 s t L :=
  ⟨h.out, h.len.trans (by omega), fun k1 k2 => h.room k1 (by omega), fun k1 k2 k3 => h.queue k1 k2 (by omega)⟩

theorem sends_trans {g a b c L M} (h : Sends g a b L) (k : Sends g b c M) : Sends g a c (L ++ M) where
  out := outputs_trans h.out k.out
  len := by have := h.len; have := k.len; rw [List.length_append]; omega
  room h1 h2 := by
    rw [List.length_append] at h2
    have p := h.room h1 (by omega)
    have q := k.room (by rw [h.out.rest]; exact h1) (by have := h.len; omega)
    refine ⟨fun x hx => q.1 x (p.1 x hx), fun x hx => ?_⟩
    rcases List.mem_append.1 hx with hx | hx
    · exact q.1 x (p.2 x hx)
    · exact q.2 x hx
  queue h1 h2 h3 := by
    rw [List.length_append] at h3
    obtain ⟨p1, p2⟩ := h.queue h1 h2 (by omega)
    obtain ⟨q1, q2⟩ := k.queue (by rw [h.out.rest]; exact h1) (by rw [p2]; exact h2) (by have := h.len; omega)
    exact ⟨by rw [q1, p1, List.append_assoc], by rw [q2, p2]⟩

theorem sends_mono {g g' a b L} (h : Sends g a b L) (m : g ||| g' = g') : Sends g' a b L :=
  ⟨outputs_mono h.out m, h.len, h.room, h.queue⟩

theorem sends_congr {g s t L} (h : Sends g s t L) (C P O R S Q T) : Sends g
   { s with contexts := C, pit := P, order := O, resolver := R, session := S, penalty := Q, throttle := T }
   { t with contexts := C, pit := P, order := O, resolver := R, session := S, penalty := Q, throttle := T } L :=
  ⟨outputs_congr h.out C P O R S Q T, h.len, h.room, h.queue⟩

/-- The records of some work, once the command is done. -/
theorem sends_settle {g s t L} (h : Sends g s t L) : Sends g s (settle t) L := by
  have := sends_trans h ((emits_settle g t).sends (Nat.le_refl _))
  rw [List.append_nil] at this; exact this

/-- An announced move, seen behind what goes out after it. -/
theorem announced_of {s w t : State} {cause : Cause} (hw : w.rstnLow = s.rstnLow)
    (hr : w.link.records = s.link.records) (ht : w.link.stationTx = s.link.stationTx) (q : Quiet (announce cause w) t) :
    Announced s t (lampOf w.session) w.session.state cause := by
  have hq : Outputs 0xC0 w t := outputs_trans (outputs_announce cause w) (outputs_zero q.outputs)
  have e1 : t.clock.now = w.clock.now := outputs_now hq
  have e2 : t.session = w.session := by rw [hq.rest]
  refine ⟨groupSet_mono (group_announce _ _) q.outputs.kept, fun h => shows_quiet q (shows_announce (by rw [hw]; exact h) _),
    fun h k => ?_, fun h b k => ?_⟩
  · rw [e1, e2]
    exact recorded_quiet q (recorded_announce (by rw [hw]; exact h) (by rw [hr]; exact k) _)
  · obtain ⟨p1, p2⟩ := (emitsMove_announce cause w).queue (by rw [hw]; exact h) (by rw [ht]; exact b) (by rw [hr]; exact k)
    rw [e1, e2, q.records.kept (by rw [p2, ht]; exact b), p1, hr]

/-- A move whose lamp and only record are known, seen behind what goes out after it. -/
theorem EmitsMove.announced {s w v t : State} {l : Lamp} {st : SessionState} {cause : Cause}
    (h : EmitsMove 1 w v [⟨0, w.clock.now, .session st cause w.session.heatClock⟩]) (hw : w.rstnLow = s.rstnLow)
    (hr : w.link.records = s.link.records) (ht : w.link.stationTx = s.link.stationTx)
    (sh : s.rstnLow = false → Shows v l) (q : Quiet v t) : Announced s t l st cause := by
  have hq : Outputs 0xC0 w t := outputs_trans h.out (outputs_zero q.outputs)
  have e1 : t.clock.now = w.clock.now := outputs_now hq
  have e2 : t.session = w.session := outputs_session hq
  refine ⟨groupSet_mono h.group q.outputs.kept, fun k => shows_quiet q (sh k), fun k m => ?_, fun k b m => ?_⟩
  · rw [e1, e2]
    exact recorded_quiet q ((h.room (hw.trans k) (by rw [hr]; omega)).2 _ (by simp))
  · obtain ⟨p1, p2⟩ := h.queue (hw.trans k) (by rw [ht]; exact b) (by rw [hr]; exact m)
    rw [e1, e2, q.records.kept (by rw [p2, ht]; exact b), p1, hr]

/-- A request that moves the session (R116, R117). -/
theorem request_moves {s u w : State} {c : Instr} {tag : Byte} {f : State → Answer} {cause : Cause}
    (he : exec c s = complete (request tag f s)) (hl : Listening s)
    (hf : f (received .station s) = okay [] (announce cause w))
    (hw : w.link = (received .station s).link) (hwl : w.rstnLow = s.rstnLow) (ho : Outputs 0 u w) :
    ∃ t, exec c s = .next t ∧ Outputs 0xC0 u t ∧ Announced s t (lampOf w.session) w.session.state cause ∧
      Replied s t tag .ok [] ∧ Outputs 0xC0 w t := by
  have o := outputs_announce cause w
  have hq : RepliesKept s (announce cause w) := by
    have := replies_announce cause w; unfold RepliesKept at *; rw [hw] at this; exact this
  obtain ⟨t, h1, h2, h3, h4, _⟩ := request_done he hl (v := announce cause w) (r := .ok) (b := []) hf
    (by rw [o.rest]; show w.rstnLow = false; rw [hwl]; exact hl.1) hq (outputs_trans (outputs_zero ho) o)
  have o2 : Outputs 0xC0 w t := outputs_trans o (outputs_zero h4.outputs)
  refine ⟨t, h1, h2, ?_, h3, o2⟩
  exact announced_of hwl (by rw [hw]; rfl) (by rw [hw]; rfl) h4

/-- A request whose work emits records. -/
theorem request_emits {s u v a : State} {c : Instr} {tag : Byte} {f : State → Answer} {r : Result}
    {b : List Byte} {g : Byte} {n L}
    (he : exec c s = complete (request tag f s)) (hl : Listening s) (hf : f (received .station s) = ⟨v, r, b⟩)
    (hk : Outputs 0 u a) (hal : a.link = (received .station s).link) (har : a.rstnLow =
        s.rstnLow) (hv : Emits g n a v L) :
    ∃ t, exec c s = .next t ∧ Outputs g u t ∧ Replied s t tag r b ∧ Quiet v t := by
  have hq : RepliesKept s v := by
    have := hv.replies; unfold RepliesKept at *; rw [hal] at this; exact this
  obtain ⟨t, h1, h2, h3, h4, _⟩ := request_done (g := g) (u := u) he hl hf
      (by rw [hv.out.rest]; show a.rstnLow = false; rw [har]; exact hl.1) hq (outputs_trans (outputs_zero hk) hv.out)
  exact ⟨t, h1, h2, h3, h4⟩

end Sys2Proof.Safety
end

