-- ==== Sys2Proof/Laws/Alignment.lean ====
section
/-! SUPPORT. Gate alignment: the arithmetic of a trim, GATE records and the ageing check (R34 to R39). -/

namespace Sys2Proof.Safety

open Sys2Proof Machine

/-- The signed difference modulo 16,777,216 (R34). -/
theorem signedDiff_eq (a b : Count) : signedDiff a b =
    (let v : Int := ((b.toNat : Int) - a.toNat) % 16777216; if 8388608 ≤ v then v - 16777216 else v) := by
  unfold signedDiff
  have h1 := a.isLt; have h2 := b.isLt
  have : (b - a).toNat = (2^24 - a.toNat + b.toNat) % 2^24 := BitVec.toNat_sub _ _
  dsimp only
  rw [this]
  have e : (((2^24 - a.toNat + b.toNat) % 2^24 : Nat) : Int) = ((b.toNat : Int) - a.toNat) %
      16777216 := by omega
  rw [← e]
  split <;> split <;> first | rfl | omega

/-- The correction of a trim (R36). -/
theorem correction_eq (l : Nat) (e : Int) : correction l e =
    if e < -(l:Int) then -(l:Int) else if (l:Int) < e then (l:Int) else e := by
  unfold correction; split
  · omega
  · split <;> omega

/-- A beacon reply while RSTN is high. -/
theorem exec_beaconReply (s : State) (g : GateId) (n c a) (hs : s.rstnLow =
    false) : exec (.beaconReply (BitVec.ofNat 8 (g.val + 1)) n c a) s =
    .next (settle (beaconReply g n c a (received .track s))) := by
  show complete (takeFrame _ _ _) = _
  simp only [takeFrame, hs, gateOf_byte]; rfl

theorem outputs_emitGate (g t k e s) : Outputs 0x82 s (emitGate g t k e s) := by
  unfold emitGate
  dsimp only
  split
  · exact outputs_mono (outputs_emit _ s) (by decide)
  · exact outputs_trans (outputs_mono (outputs_emit _ s) (by decide)) (outputs_mono (outputs_setGroup .gate _)
        (by decide))

theorem recorded_emitGate {s : State} (g t k e) (hs : s.rstnLow =
    false) (hq : s.link.records.length < 64) : Recorded (emitGate g t k e s) ⟨gateNumber g, t, .gate k e⟩ := by
  unfold emitGate; dsimp only
  have := recorded_emit hs hq ⟨gateNumber g, t, .gate k e⟩
  split
  · exact this
  · exact recorded_setGroup this _

theorem groupSet_emitGate {s : State} (g t k e) (hk : k ≠ .alignedFull) : groupSet .gate (emitGate g t k e s) =
    true := by
  unfold emitGate; dsimp only; rw [if_neg hk]; exact groupSet_setGroup _ _

theorem records_emitGate (g t k e s) : (emitGate g t k e s).link.records.length ≤ s.link.records.length +
    1 := by
  unfold emitGate; dsimp only; split <;> exact records_emit _ _

theorem emitGate_clock (g t k e s) : (emitGate g t k e s).clock = s.clock := by
  unfold emitGate; dsimp only; split <;> simp [emit_clock]

/-! ### Ageing (R38) -/

/-- What the ageing check makes of a slot: its alignment state and the condition it reports, if any. -/
def aged (now ivl : Nat) (slot : GateSlot) : Machine.Alignment × Option GateCondition :=
      match slot.alignment with
      | .unaligned => (.unaligned, none)
      | .aligned ref =>
        if 6000000 < now - ref.aligned then (.unaligned, some .unaligned)
        else if 9 * ivl < now - ref.aligned then (.stale ref, some .stale)
        else (.aligned ref, none)
      | .stale ref =>
        if 6000000 < now - ref.aligned then (.unaligned, some .unaligned) else (.stale ref, none)

theorem ageGate_eq (v : State) (g : GateId) : ageGate v g = match (aged v.clock.now v.settings.timing.beaconIvl (gate v g)).2 with
   | none => v
   | some k => emitGate g v.clock.now k none (setGate g { gate v g with alignment := (aged v.clock.now v.settings.timing.beaconIvl (gate v g)).1 } v) := by
  unfold ageGate aged
  dsimp only
  cases (gate v g).alignment with
  | unaligned => rfl
  | aligned ref =>
    by_cases h1 : 6000000 < v.clock.now - ref.aligned
    · simp only [Config.alignmentLimit, h1, if_true]
    · by_cases h2 : 9 * v.settings.timing.beaconIvl < v.clock.now - ref.aligned
      · simp only [Config.alignmentLimit, h1, if_false, h2, if_true]
      · simp only [Config.alignmentLimit, h1, if_false, h2]
  | stale ref =>
    by_cases h1 : 6000000 < v.clock.now - ref.aligned
    · simp only [Config.alignmentLimit, h1, if_true]
    · simp only [Config.alignmentLimit, h1, if_false]

theorem aged_of_none {n i slot} (h : (aged n i slot).2 = none) : (aged n i slot).1 = slot.alignment := by
  unfold aged at *
  cases ha : slot.alignment with
  | unaligned => rfl
  | aligned ref =>
    rw [ha] at h; dsimp only at h ⊢
    split at h
    · simp at h
    · split at h
      · simp at h
      · rename_i h1 h2; rw [if_neg h1, if_neg h2]
  | stale ref =>
    rw [ha] at h; dsimp only at h ⊢
    split at h
    · simp at h
    · rename_i h1; rw [if_neg h1]

theorem aged_not_alignedFull {n i slot k} (h : (aged n i slot).2 = some k) : k ≠ .alignedFull := by
  unfold aged at h
  revert h
  split
  · simp
  · split
    · intro h; simp at h; rw [← h]; simp
    · split
      · intro h; simp at h; rw [← h]; simp
      · simp
  · split
    · intro h; simp at h; rw [← h]; simp
    · simp

/-- Some slots have been through the ageing check. -/
structure Aged (v w : State) (l : List GateId) : Prop where
  out : Outputs 0x82 { v with clock := { v.clock with gates := w.clock.gates } } w
  gates : ∀ g, gate w g = if g ∈ l then
      { gate v g with alignment := (aged v.clock.now v.settings.timing.beaconIvl (gate v g)).1 } else gate v g
  recd : ∀ g ∈ l, ∀ k, (aged v.clock.now v.settings.timing.beaconIvl (gate v g)).2 = some k → groupSet .gate w
      = true ∧ (v.rstnLow = false → v.link.records.length + l.length ≤ 64 → Recorded w ⟨g.val + 1, v.clock.now,
      .gate k none⟩)
  none : (∀ g ∈ l, (aged v.clock.now v.settings.timing.beaconIvl (gate v g)).2 = none) → w = v
  old : ∀ r, r.isSector = false → Recorded v r → Recorded w r
  grp : groupSet .gate v = true → groupSet .gate w = true

/-- The ageing check of some slots (R38). -/
theorem ageGate_fold (l : List GateId) (v : State) (hl : l.Nodup) : Aged v (l.foldl ageGate v) l := by
  induction l generalizing v with
  | nil => exact ⟨outputs_refl _ _, by simp, by simp, by simp, fun _ _ h => h, fun h => h⟩
  | cons a l ih =>
    simp only [List.nodup_cons] at hl
    rw [List.foldl_cons]
    have k := ih (ageGate v a) hl.2
    have h1 : (ageGate v a).clock = { v.clock with gates := (ageGate v a).clock.gates } ∧ (ageGate v
        a).settings = v.settings ∧ (ageGate v a).rstnLow = v.rstnLow ∧ Outputs 0x82
        { v with clock := { v.clock with gates := (ageGate v a).clock.gates } } (ageGate v a) ∧ (∀ g, gate
        (ageGate v a) g = if g = a then
        { gate v g with alignment := (aged v.clock.now v.settings.timing.beaconIvl (gate v g)).1 } else gate v
        g) ∧ (∀ r, r.isSector = false → Recorded v r → Recorded (ageGate v a) r) ∧ (ageGate v
        a).link.records.length ≤ v.link.records.length + 1 ∧ (groupSet .gate v = true → groupSet .gate (ageGate
        v a) = true) := by
      rw [ageGate_eq]
      cases hq : (aged v.clock.now v.settings.timing.beaconIvl (gate v a)).2 with
      | none =>
        refine ⟨rfl, rfl, rfl, outputs_refl _ _, ?_, fun _ _ h => h, by simp, fun h => h⟩
        intro g
        by_cases hg : g = a
        · rw [if_pos hg, hg, aged_of_none hq]
        · rw [if_neg hg]
      | some q =>
        dsimp only
        have o := outputs_emitGate a v.clock.now q none (setGate a
            { gate v a with alignment := (aged v.clock.now v.settings.timing.beaconIvl (gate v a)).1 } v)
        have e := emitGate_clock a v.clock.now q none (setGate a
            { gate v a with alignment := (aged v.clock.now v.settings.timing.beaconIvl (gate v a)).1 } v)
        refine ⟨by rw [e]; rfl, by rw [o.rest]; rfl, by rw [o.rest]; rfl, ?_, ?_, ?_, ?_, ?_⟩
        · rw [e]; exact o
        · intro g
          rw [gate, e]
          by_cases hg : g = a
          · rw [if_pos hg, hg]; simp [setGate]
          · rw [if_neg hg]
            have := gate_setGate_ne hg
                { gate v a with alignment := (aged v.clock.now v.settings.timing.beaconIvl (gate v a)).1 } v
            exact this
        · intro r hr h
          unfold emitGate; dsimp only
          have : Recorded (setGate a
              { gate v a with alignment := (aged v.clock.now v.settings.timing.beaconIvl (gate v a)).1 } v)
              r := h
          split
          · exact recorded_emit_of hr this _
          · exact recorded_setGroup (recorded_emit_of hr this _) _
        · exact records_emitGate _ _ _ _ _
        · intro _; exact groupSet_emitGate _ _ _ _ (aged_not_alignedFull hq)
    obtain ⟨c1, c2, c3, c4, c5, c6, c7, c8⟩ := h1
    have hnow : (ageGate v a).clock.now = v.clock.now := by rw [c1]
    have hk : ∀ g, g ∈ l → gate (ageGate v a) g = gate v g := by
      intro g hg; rw [c5, if_neg]; intro e; rw [e] at hg; exact hl.1 hg
    refine ⟨?_, ?_, ?_, ?_, ?_, ?_⟩
    · refine outputs_trans ?_ k.out
      have o := c4
      refine ⟨o.link, ?_, ?_, o.kept, o.only, ?_⟩
      · left; dsimp only; rw [c1]
      · left; dsimp only; rw [c1]
      · have := o.rest
        generalize ageGate v a = w at *
        rw [this, c1]
    · intro g
      rw [k.gates, hnow, c2, c5]
      by_cases h1 : g = a
      · have : ¬ g ∈ l := by rw [h1]; exact hl.1
        simp [h1, hl.1]
      · simp [h1]
    · intro g hg q hq
      rcases List.mem_cons.1 hg with rfl | hg
      · have hagain := ageGate_eq v g
        rw [hq] at hagain
        dsimp only at hagain
        have g1 : groupSet .gate (ageGate v g) =
            true := by rw [hagain]; exact groupSet_emitGate _ _ _ _ (aged_not_alignedFull hq)
        refine ⟨k.grp g1, ?_⟩
        intro hr hlen
        refine k.old _ rfl ?_
        rw [hagain]
        exact recorded_emitGate (s := setGate g _ v) _ _ _ _ hr
            (by simp at hlen; show v.link.records.length < 64; omega)
      · have := k.recd g hg q (by rw [hnow, c2, hk g hg]; exact hq)
        refine ⟨this.1, ?_⟩
        intro hr hlen
        rw [hnow] at this
        exact this.2 (by rw [c3]; exact hr) (by simp at hlen; omega)
    · intro h
      have e : ageGate v a = v := by rw [ageGate_eq, h a (by simp)]
      rw [e] at k ⊢
      exact k.none fun g hg => h g (by simp [hg])
    · intro r hr h; exact k.old r hr (c6 r hr h)
    · intro h; exact k.grp (c8 h)

end Sys2Proof.Safety
end

