-- ==== Sys2Proof/Laws/Moves.lean ====
section
/-! SUPPORT. The session controller and the blocks that a close brings in: each move, the close test and the move to
CLOSED, as one equation or one description (R113 to R124, R162). -/

namespace Sys2Proof.Safety

open Sys2Proof Machine

-- One theorem after another: the proofs of many at once would need too many threads.
set_option Elab.async false

/-! ### Gates, lanes and entries -/

theorem any_allGates (P : GateId → Bool) : allGates.any P = true ↔ ∃ g, P g = true := by
  rw [List.any_eq_true]
  have : ∀ g : GateId, g ∈ allGates := by decide
  exact ⟨fun ⟨g, _, h⟩ => ⟨g, h⟩, fun ⟨g, h⟩ => ⟨g, this g, h⟩⟩

theorem all_allGates (P : GateId → Bool) : allGates.all P = true ↔ ∀ g, P g = true := by
  rw [List.all_eq_true]
  have : ∀ g : GateId, g ∈ allGates := by decide
  exact ⟨fun h g => h g (this g), fun h g _ => h g⟩

theorem any_allEntries (P : Entry → Bool) : allEntries.any P = true ↔ ∃ g, P g = true := by
  rw [List.any_eq_true]
  have : ∀ g : Entry, g ∈ allEntries := by decide
  exact ⟨fun ⟨g, _, h⟩ => ⟨g, h⟩, fun ⟨g, h⟩ => ⟨g, this g, h⟩⟩

theorem mem_allLanes (k : Nat) : k ∈ allLanes ↔ 1 ≤ k ∧ k ≤ 6 := by
  unfold allLanes; simp; omega

theorem laneIn_iff (b : Byte) (k : Nat) : laneIn b k = true ↔ 1 ≤ k ∧ b.getLsbD (k - 1) = true := by
  unfold laneIn; simp

/-- ARM's test (R112). -/
theorem lanesGated_iff (s : State) : lanesGated s = true ↔ LanesGated s := by
  unfold lanesGated LanesGated
  rw [List.all_eq_true]
  simp only [Bool.or_eq_true, Bool.not_eq_true', any_allGates, Bool.and_eq_true, beq_iff_eq, mem_allLanes]
  constructor
  · intro h lane h1 h2 h3
    rcases h lane ⟨h1, h2⟩ with k | ⟨g, k⟩
    · rw [← Bool.not_eq_true, laneIn_iff] at k; exact absurd ⟨h1, h3⟩ k
    · exact ⟨g, k.1.1, k.1.2, k.2⟩
  · intro h lane ⟨h1, h2⟩
    by_cases k : laneIn s.settings.timing.lanesEnabled lane = true
    · right; obtain ⟨g, a, b, c⟩ := h lane h1 h2 ((laneIn_iff _ _).1 k).2; exact ⟨g, ⟨a, b⟩, c⟩
    · left; simpa using k

theorem alignmentCode_iff (a : Machine.Alignment) : (a.code == 1) = true ↔ ∃ r, a = .aligned r := by
  cases a <;> simp [Alignment.code]

/-- The test of START and RESUME (R113, R118). -/
theorem gatesAligned_iff (s : State) : gatesAligned s = true ↔ GatesReady s := by
  unfold gatesAligned GatesReady
  rw [← lanesGated_iff]
  unfold lanesGated
  rw [List.all_eq_true, List.all_eq_true]
  simp only [Bool.or_eq_true, Bool.not_eq_true', any_allGates, all_allGates, Bool.and_eq_true, mem_allLanes,
      alignmentCode_iff]
  simp only [Bool.and_eq_false_iff, beq_iff_eq, beq_eq_false_iff_ne]
  constructor
  · intro h
    refine ⟨fun lane hl => ?_, ?_⟩
    · rcases h lane hl with k | k
      · exact .inl k
      · exact .inr k.1
    · intro g a b c d e
      rcases h _ ⟨c, d⟩ with k | k
      · rw [← Bool.not_eq_true, laneIn_iff] at k; exact absurd ⟨c, e⟩ k
      · rcases k.2 g with k | k
        · rcases k with (k | k) | k
          · exact absurd a k
          · exact absurd b k
          · exact absurd rfl k
        · exact k
  · intro ⟨h, k⟩ lane hl
    rcases h lane hl with a | a
    · exact .inl a
    · by_cases z : laneIn s.settings.timing.lanesEnabled lane = true
      · right
        refine ⟨a, fun g => ?_⟩
        by_cases q : ((gate s g).role = .line ∧ (gate s g).line = 0) ∧ (gate s g).lane = lane
        · right
          refine k g q.1.1 q.1.2 (by rw [q.2]; exact hl.1) (by rw [q.2]; exact hl.2) ?_
          rw [q.2]; exact ((laneIn_iff _ _).1 z).2
        · left
          by_cases q1 : (gate s g).role = .line
          · by_cases q2 : (gate s g).line = 0
            · right; intro q3; exact q ⟨⟨q1, q2⟩, q3⟩
            · left; right; exact q2
          · left; left; exact q1
      · left; simpa using z

/-! ### Neutral periods (R119) -/

theorem periodOpen_iff (s : State) : periodOpen s.session.periods = true ↔ PeriodOpen s := by
  unfold periodOpen PeriodOpen; rw [List.any_eq_true]; simp

theorem closePeriod_eq (s : State) : closePeriod s =
    { s with session := { s.session with periods := ended s.clock.now s.session.periods } } := by
  unfold closePeriod ended; simp

theorem ended_ended (n : Nat) (l) : ended n (ended n l) = ended n l := by
      unfold ended; rw [List.map_map]
      apply List.map_congr_left; intro p _; simp only [Function.comp]
      split <;> rename_i h
      · simp
      · simp

theorem openPeriod_of_open {s : State} (h : PeriodOpen s) : openPeriod s = s := by
  unfold openPeriod; rw [if_pos ((periodOpen_iff s).2 h)]

theorem openPeriod_of_closed {s : State} (h : ¬PeriodOpen s) : openPeriod s = { s with
    contexts := s.contexts.map neutralised
    session := { s.session with periods := opened s.clock.now s.session.periods } } := by
  unfold openPeriod; rw [if_neg (by rw [periodOpen_iff]; exact h)]
  unfold markNeutral updAllCtx
  have : (if s.session.periods.length < Config.periodCapacity then s.session.periods else mergeOldest
      s.session.periods) ++ [⟨s.clock.now, none⟩] = opened s.clock.now s.session.periods := by
    unfold opened mergeOldest Config.periodCapacity
    split
    · rfl
    · rcases s.session.periods with _ | ⟨a, _ | ⟨b, l⟩⟩ <;> rfl
  dsimp only; rw [this]; rfl

/-! ### Moves -/

/-- GREEN to CAUTION (R116). -/
theorem toCaution_eq (cause : Cause) (s : State) : ∃ (w : State), toCaution cause s = announce cause w ∧ w =
    { s with
      contexts := w.contexts, order := { s.order with snapshot := some s.order.list },
      session := { s.session with state := .caution, periods := w.session.periods } } ∧
      (PeriodOpen s → w.session.periods = s.session.periods ∧ ∀ e : Entry, ctx w e =
          { ctx s e with charged := [] }) ∧
      (¬PeriodOpen s → w.session.periods = opened s.clock.now s.session.periods ∧
        ∀ e : Entry, ctx w e = { neutralised (ctx s e) with charged := [] }) := by
  refine ⟨_, rfl, ?_⟩
  by_cases h : PeriodOpen (setSession .caution s)
  · rw [openPeriod_of_open h]
    refine ⟨rfl, fun _ => ⟨rfl, fun e => ?_⟩, fun k => absurd h k⟩
    simp [takeSnapshot, ctx, updAllCtx, setSession]
  · rw [openPeriod_of_closed h]
    refine ⟨rfl, fun k => absurd k h, fun _ => ⟨rfl, fun e => ?_⟩⟩
    simp [takeSnapshot, ctx, updAllCtx, setSession]

/-- What becoming HELD changes (R87, R117, R157). -/
theorem enterHeld_eq (s : State) : enterHeld s = { s with
    contexts := s.contexts.map fun c => { c with deadline := c.deadline.map (suspendDeadline s.clock.now) }
    pit := { s.pit with marks := Vector.replicate 16 none }
    session := { s.session with heldFrom := some s.session.state, state := .held } } := rfl

/-- GREEN, CAUTION or CHEQUERED to HELD (R117). -/
theorem toHeld_eq (cause : Cause) (s : State) : ∃ (w : State), toHeld cause s = announce cause w ∧ w = { s with
      contexts := w.contexts, pit := { s.pit with marks := w.pit.marks }
      session := { s.session with state := .held, heldFrom := some s.session.state, periods := w.session.periods } }
          ∧
      (∀ e : Entry, w.pit.marks[e] = none) ∧
      (PeriodOpen s → w.session.periods = s.session.periods ∧ ∀ e : Entry, ctx w e =
          { ctx s e with deadline := (ctx s e).deadline.map (suspendDeadline s.clock.now) }) ∧
      (¬PeriodOpen s → w.session.periods = opened s.clock.now s.session.periods ∧
        ∀ e : Entry, ctx w e = neutralised
            { ctx s e with deadline := (ctx s e).deadline.map (suspendDeadline s.clock.now) }) := by
  refine ⟨_, rfl, ?_⟩
  by_cases h : PeriodOpen (enterHeld s)
  · rw [openPeriod_of_open h]
    refine ⟨rfl, fun e => by simp [enterHeld_eq], fun _ => ⟨rfl, fun e => ?_⟩, fun k => absurd h k⟩
    simp [enterHeld_eq, ctx]
  · rw [openPeriod_of_closed h]
    refine ⟨rfl, fun e => by simp [enterHeld_eq], fun k => absurd k h, fun _ => ⟨rfl, fun e => ?_⟩⟩
    simp [enterHeld_eq, ctx]

/-- An entry to CHEQUERED (R122). -/
theorem enterChequered_eq (cause : Cause) (s : State) : enterChequered cause s = announce cause { s with
        order := { s.order with snapshot := none }
        session := { s.session with
          state := .chequered, periods := ended s.clock.now s.session.periods
          grace := some (s.settings.heat.finishGrace * 100000) } } := by
  unfold enterChequered; rw [closePeriod_eq]; rfl

theorem stillRunning_iff (s : State) : stillRunning s = true ↔ Afield s := by
  unfold stillRunning Afield; rw [any_allEntries]; simp [or_assoc]

/-- The close test where the heat goes on (R123). -/
theorem closeTest_stay {s : State} (h : s.session.state ≠ .chequered ∨ Afield s) : closeTest s = s := by
  unfold closeTest; rw [if_neg]
  rw [← stillRunning_iff] at h
  simp; intro k; rcases h with h | h
  · exact absurd k h
  · exact h

/-- The close test where the session closes (R123). -/
theorem closeTest_close {s : State} (h : s.session.state = .chequered) (k : ¬Afield s) : closeTest s =
    closeHeat .allFinished false s := by
  unfold closeTest; rw [if_pos]
  rw [← stillRunning_iff] at k
  simp [h, k]

theorem afield_ctx {s t : State} (h : ∀ e, (ctx t e).state = (ctx s e).state) : Afield t ↔ Afield s := by
  unfold Afield; simp [h]

/-- RESUME to CHEQUERED (R118, R123). -/
theorem resumeTo_chequered (u : State) : resumeTo .chequered u = closeTest (announce .request { u with
          contexts := u.contexts.map fun c => { c with deadline := c.deadline.map (rearmDeadline u.clock.now) }
          order := { u.order with snapshot := none }
          throttle := { u.throttle with zoneOverride := false }
          session := { u.session with
            state := .chequered, heldFrom := none
            grace := some (u.session.grace.getD (u.settings.heat.finishGrace * 100000))
            periods := ended u.clock.now u.session.periods } }) := by
  unfold resumeTo
  dsimp only; rw [if_pos rfl, if_pos (show SessionState.chequered = .green ∨ SessionState.chequered =
      .chequered from .inr rfl), closePeriod_eq]
  obtain ⟨link, clock, resolver, contexts, order, session, penalty, pit, throttle, mgmt, settings, rl, ch,
      pe⟩ := u
  obtain ⟨a, b, c, d, e, f, g, h, i⟩ := session
  cases g with
  | none =>
    rw [if_neg (by unfold rearmDeadlines updAllCtx; simp), enterChequered_eq]
    congr 2
    show State.mk _ _ _ _ _ (Session.mk _ _ _ _ _ _ _ (ended clock.now (ended clock.now h)) _) _ _ _ _ _ _ _ _
        = State.mk _ _ _ _ _ _ _ _ _ _ _ _ _ _
    rw [ended_ended]; rfl
  | some g =>
    rw [if_pos (by unfold rearmDeadlines updAllCtx; simp)]
    rfl

/-! ### Services and owed entries at a close (R124, R162) -/

theorem headInService_iff (c : Context) : (headInService c).isSome = true ↔ Serving c := by
  unfold headInService Serving
  cases c.owed with
  | nil => simp
  | cons o l => dsimp only; split <;> simp_all

/-- A context whose service has ended. -/
def serviceEnded (c : Context) : Context := { c with
            owed := c.owed.modifyHead fun o => { o with inService := false }
            transit := c.transit.map fun x => { x with service := false } }

theorem endService_eq (e : Entry) (s : State) : endService e s = { s with
    contexts := s.contexts.set e (serviceEnded (ctx s e))
    pit := { marks := s.pit.marks.set e none, holds := s.pit.holds.set e false } } := by
  have h : ∀ l, setHeadService false l = l.modifyHead fun o =>
      { o with inService := false } := by intro l; cases l <;> rfl
  unfold endService setHold setMark updCtx setCtx serviceEnded setService
  dsimp only; rw [h]

open Classical in
/-- Every service ends, entry by entry. -/
theorem services_fold (l : List Entry) (hl : l.Nodup) (s : State) :
    ∃ C P, l.foldl (fun t e => if (headInService (ctx t e)).isSome then endService e t else t) s =
        { s with contexts := C, pit := P } ∧
     (∀ e : Entry, e ∈ l → Serving (ctx s e) → C[e] = serviceEnded (ctx s e) ∧ P.marks[e] = none ∧ P.holds[e] =
         false) ∧
     (∀ e : Entry, (e ∉ l ∨ ¬Serving (ctx s e)) → C[e] = ctx s e ∧ P.marks[e] = s.pit.marks[e] ∧ P.holds[e] =
         s.pit.holds[e]) := by
  induction l generalizing s with
  | nil => exact ⟨s.contexts, s.pit, rfl, by simp, fun e _ => ⟨rfl, rfl, rfl⟩⟩
  | cons a l ih =>
    have ha : a ∉ l := (List.nodup_cons.1 hl).1
    rw [List.foldl_cons]
    by_cases h : Serving (ctx s a)
    · rw [if_pos ((headInService_iff _).2 h), endService_eq]
      obtain ⟨C, P, e1, e2, e3⟩ := ih (List.nodup_cons.1 hl).2 { s with
        contexts := s.contexts.set a (serviceEnded (ctx s a))
        pit := { marks := s.pit.marks.set a none, holds := s.pit.holds.set a false } }
      refine ⟨C, P, by rw [e1], ?_, ?_⟩
      · intro e he hs
        by_cases hea : e = a
        · have := e3 e (.inl (by rw [hea]; exact ha))
          rw [hea] at this ⊢
          simpa [ctx] using this
        · have hv : ¬ (a.val = e.val) := fun h => hea (Fin.ext h.symm)
          have := e2 e ((List.mem_cons.1 he).resolve_left hea) (by simpa [ctx, Vector.getElem_set, hv] using hs)
          simpa [ctx, Vector.getElem_set, hv] using this
      · intro e he
        have hea : e ≠ a := by
          rintro rfl
          rcases he with he | he
          · simp at he
          · exact he h
        have hv : ¬ (a.val = e.val) := fun h => hea (Fin.ext h.symm)
        have := e3 e (by
          rcases he with he | he
          · left; intro h; exact he (List.mem_cons_of_mem _ h)
          · right; simpa [ctx, Vector.getElem_set, hv] using he)
        simpa [ctx, Vector.getElem_set, hv] using this
    · rw [if_neg (by rw [headInService_iff]; exact h)]
      obtain ⟨C, P, e1, e2, e3⟩ := ih (List.nodup_cons.1 hl).2 s
      refine ⟨C, P, e1, ?_, ?_⟩
      · intro e he hs
        rcases List.mem_cons.1 he with rfl | he
        · exact absurd hs h
        · exact e2 e he hs
      · intro e he
        by_cases hs : Serving (ctx s e)
        · refine e3 e (.inl ?_)
          rcases he with he | he
          · exact fun h => he (List.mem_cons_of_mem _ h)
          · exact absurd hs he
        · exact e3 e (.inr hs)

/-- Every service ends (R124). -/
theorem endAllServices_eq (s : State) : ∃ C P, endAllServices s = { s with contexts := C, pit := P } ∧
     (∀ e : Entry, Serving (ctx s e) → C[e] = serviceEnded (ctx s e) ∧ P.marks[e] = none ∧ P.holds[e] = false) ∧
     (∀ e : Entry, ¬Serving (ctx s e) → C[e] = ctx s e ∧ P.marks[e] = s.pit.marks[e] ∧ P.holds[e] =
         s.pit.holds[e]) := by
  obtain ⟨C, P, h1, h2, h3⟩ := services_fold allEntries (by decide) s
  exact ⟨C, P, h1, fun e => h2 e (mem_allEntries e), fun e h => h3 e (.inr h)⟩

theorem set_set (v : Vector Context 16) (e : Entry) (x y : Context) : (v.set e x).set e y = v.set e y := by
  apply Vector.ext; intro i hi; simp only [Vector.getElem_set]; split <;> rfl

theorem get_set (v : Vector Context 16) (e : Entry) (x : Context) : (v.set e x)[e] = x := by simp

theorem get_set_ne (v : Vector Context 16) {e f : Entry} (x : Context) (h : f ≠ e) : (v.set e x)[f] = v[f] := by
  have : ¬ (e.val = f.val) := fun k => h (Fin.ext k.symm)
  simp [this]

theorem set_get_self (v : Vector Context 16) (e : Entry) : v.set e v[e] = v := by
  apply Vector.ext; intro i hi; simp only [Vector.getElem_set]; split
  · rename_i h; subst h; rfl
  · rfl

/-- The penalty seconds after the fallback seconds of some owed entries. -/
def secondsAfter (os : List Owed) (n : Nat) : Nat := os.foldl (fun n o => min 65535 (n + o.fallback)) n

/-- The SERVE record of a converted entry (R162). -/
def serveConverted (e : Entry) (time : Ticks) (o : Owed) : Record := ⟨e.val + 1, time, .serve .converted
    o.sanction none⟩

theorem convert_fold (e : Entry) (time : Ticks) : ∀ (os : List Owed) (s : State),
    Emits 128 os.length
        { s with contexts := s.contexts.set e { ctx s e with penaltySeconds := secondsAfter os (ctx s e).penaltySeconds } }
      (os.foldl (fun t o => emitServe e time .converted o.sanction none (updCtx e (addSeconds o.fallback) t))
          s) (os.map (serveConverted e time))
  | [], s => by
    have : s.contexts.set e { ctx s e with penaltySeconds := secondsAfter [] (ctx s e).penaltySeconds } =
        s.contexts := set_get_self _ e
    rw [this]; exact emits_refl _ _
  | o :: os, s => by
    let s1 := emitServe e time .converted o.sanction none (updCtx e (addSeconds o.fallback) s)
    have h1 : Emits 128 1 (updCtx e (addSeconds o.fallback) s) s1 [serveConverted e time o] := emits_emit _ _
    have h2 := convert_fold e time os s1
    have hc : s1.contexts = s.contexts.set e (addSeconds o.fallback (ctx s e)) := by rw [h1.out.rest]; rfl
    have hcc : ctx s1 e = addSeconds o.fallback (ctx s e) := by unfold ctx; rw [hc]; exact get_set _ _ _
    have h3 := emits_ctx h1 (s1.contexts.set e
        { ctx s1 e with penaltySeconds := secondsAfter os (ctx s1 e).penaltySeconds })
    have h4 := emits_trans h3 h2
    have : (os.length + 1) = 1 + os.length := by omega
    rw [List.foldl_cons, List.length_cons, this]
    have e2 : s.contexts.set e
        { ctx s e with penaltySeconds := secondsAfter (o :: os) (ctx s e).penaltySeconds } = s1.contexts.set e
        { ctx s1 e with penaltySeconds := secondsAfter os (ctx s1 e).penaltySeconds } := by
      rw [hc, set_set, hcc]; rfl
    rw [e2]; exact h4

/-- A context whose owed entries are converted. -/
def owedConverted (c : Context) : Context :=
    { c with owed := [], penaltySeconds := secondsAfter c.owed c.penaltySeconds }

/-- The owed entries of a car are converted (R162). -/
theorem emits_convertOwed (e : Entry) (time : Ticks) (s : State) : Emits 128 (ctx s e).owed.length
    { s with contexts := s.contexts.set e (owedConverted (ctx s e)) } (convertOwed e time s) ((ctx s
        e).owed.map (serveConverted e time)) := by
  have := convert_fold e time (ctx s e).owed (updCtx e (fun c => { c with owed := [] }) s)
  unfold convertOwed
  have e2 : (updCtx e (fun c => { c with owed := [] }) s).contexts = s.contexts.set e
      { ctx s e with owed := [] } := rfl
  have e3 : ctx (updCtx e (fun c => { c with owed := [] }) s) e =
      { ctx s e with owed := [] } := by unfold ctx; rw [e2]; exact get_set _ _ _
  rw [e3, e2, set_set] at this
  exact this

/-- The owed entries of some cars are converted (R162). -/
theorem emits_convertAll (l : List Entry) (hl : l.Nodup) (s : State) : ∃ C,
    Emits 128 ((l.map fun e => (ctx s e).owed.length).sum) { s with contexts := C } (l.foldl (fun t e =>
        convertOwed e t.clock.now t) s) (l.flatMap fun e => (ctx s e).owed.map (serveConverted e s.clock.now)) ∧
    (∀ e ∈ l, C[e] = owedConverted (ctx s e)) ∧ (∀ e, e ∉ l → C[e] = ctx s e) := by
  induction l generalizing s with
  | nil => exact ⟨s.contexts, emits_refl _ _, by simp, fun e _ => rfl⟩
  | cons a l ih =>
    have ha := (List.nodup_cons.1 hl).1
    let s1 := convertOwed a s.clock.now s
    have h1 : Emits 128 (ctx s a).owed.length { s with contexts := s.contexts.set a (owedConverted (ctx s a)) }
        s1 ((ctx s a).owed.map (serveConverted a s.clock.now)) := emits_convertOwed a s.clock.now s
    have hc : s1.contexts = s.contexts.set a (owedConverted (ctx s a)) := by rw [h1.out.rest]
    have hn : s1.clock.now = s.clock.now := (outputs_now h1.out).trans rfl
    obtain ⟨C, h2, h3, h4⟩ := ih (List.nodup_cons.1 hl).2 s1
    have hx : ∀ e, e ≠ a → ctx s1 e = ctx s e := by intro e he; unfold ctx; rw [hc]; exact get_set_ne _ _ he
    have hl2 : (l.map fun e => (ctx s1 e).owed.length) = l.map fun e => (ctx s e).owed.length := by
      apply List.map_congr_left; intro e he; rw [hx e (by rintro rfl; exact ha he)]
    have hl3 : (l.flatMap fun e => (ctx s1 e).owed.map (serveConverted e s1.clock.now)) = l.flatMap fun e =>
        (ctx s e).owed.map (serveConverted e s.clock.now) := by
      rw [hn]
      apply List.flatMap_congr; intro e he; rw [hx e (by rintro rfl; exact ha he)]
    refine ⟨C, ?_, ?_, ?_⟩
    · rw [List.foldl_cons, List.map_cons, List.sum_cons, ← hl2, List.flatMap_cons, ← hl3]
      exact emits_trans (emits_ctx h1 C) h2
    · intro e he
      by_cases hea : e = a
      · rw [hea, h4 a ha]; unfold ctx; rw [hc]; exact get_set _ _ _
      · rw [h3 e ((List.mem_cons.1 he).resolve_left hea), hx e hea]
    · intro e he
      have hea : e ≠ a := by rintro rfl; simp at he
      rw [h4 e (fun h => he (List.mem_cons_of_mem _ h)), hx e hea]

theorem finishRecords_length (s : State) : ∀ (l : List Entry) (k : Nat), (finishRecords s k l).length = l.length
  | [], _ => rfl
  | e :: l, k => by unfold finishRecords; simp [finishRecords_length s l]

theorem finishRecords_mem (s : State) : ∀ (l : List Entry) (k i : Nat) (e : Entry), l[i]? = some e →
    (⟨entryNumber e, s.clock.now, .finish (finishBody s (k + i) e)⟩ : Record) ∈ finishRecords s k l
  | [], _, _, _, h => by simp at h
  | a :: l, k, 0, e, h => by simp at h; rw [h]; unfold finishRecords; simp
  | a :: l, k, i + 1, e, h => by
    unfold finishRecords
    apply List.mem_cons_of_mem
    have := finishRecords_mem s l (k + 1) i e (by simpa using h)
    rw [show k + (i + 1) = k + 1 + i by omega]; exact this

/-- The FINISH records of a list, by place (R109). -/
theorem finishRecords_eq (s : State) : ∀ (l : List Entry) (k : Nat), finishRecords s k l =
    l.mapIdx fun i e => ⟨entryNumber e, s.clock.now, .finish (finishBody s (k + i) e)⟩
  | [], _ => rfl
  | a :: l, k => by
    unfold finishRecords
    rw [finishRecords_eq s l, List.mapIdx_cons]
    simp [Nat.add_assoc, Nat.add_comm 1]

theorem classification_congr {a b : State} (hc : a.contexts = b.contexts) (ho : a.order.list =
    b.order.list) (hs : a.session.heatLines = b.session.heatLines) :
    classification a = classification b := by
  have h0 : ctx a = ctx b := by funext e; unfold ctx; rw [hc]
  have h1 : groupOf a = groupOf b := by funext e; unfold groupOf; rw [h0]
  have h2 : classedAhead a = classedAhead b := by funext x y; unfold classedAhead linesInLap; rw [h0, hs]
  have h3 : ∀ l, classSort a l = classSort b l := by
    intro l; induction l with
    | nil => rfl
    | cons x l ih => unfold classSort; rw [ih, h2]
  have h4 : groupMembers a = groupMembers b := by funext g; unfold groupMembers; rw [h0, h1]
  unfold classification; rw [h3, h3, h4, h1, ho]

theorem finishBody_congr {a b : State} (hc : a.contexts = b.contexts) (hs : a.session.heatLines =
    b.session.heatLines) (k e) : finishBody a k e = finishBody b k e := by
  have h0 : ctx a = ctx b := by funext e; unfold ctx; rw [hc]
  unfold finishBody linesInLap; rw [h0, hs]

/-! ### The move to CLOSED (R124) -/

/-- A close by ABORT or by the clock limit: contexts and pit service as they become, one SESSION record, the
lamp DARK. -/
theorem closeHeat_aborted (cause : Cause) (s : State) : ∃ v w C P, closeHeat cause true s = v ∧
    EmitsMove 1 w v [⟨0, w.clock.now, .session .closed cause s.session.heatClock⟩] ∧
    (∀ l, s.rstnLow = false → l = Lamp.mk .dark 0 → Shows v l) ∧ w = { s with
        contexts := C, pit := P
        order := { s.order with snapshot := none }
        resolver := { s.resolver with pairs := [], drillOn := false, drills := State.reset.resolver.drills }
        session := { s.session with
          state := .closed, aborted := true, countdown := none, heldFrom := none, grace := none
          periods := ended s.clock.now s.session.periods } } ∧
     (∀ e : Entry, Serving (ctx s e) → C[e] = { serviceEnded (ctx s e) with deadline := none } ∧ P.marks[e] =
         none ∧ P.holds[e] = false) ∧
     (∀ e : Entry, ¬Serving (ctx s e) → C[e] = { ctx s e with deadline := none } ∧ P.marks[e] =
         s.pit.marks[e] ∧ P.holds[e] = s.pit.holds[e]) := by
  let w0 : State := { s with session := { s.session with
          state := .closed, aborted := true, countdown := none, heldFrom := none, grace := none
          periods := ended s.clock.now s.session.periods } }
  have e0 : closeSession cause true s = announce cause w0 := by
    unfold closeSession; rw [closePeriod_eq]
  let a := announce cause w0
  have ao : Outputs 0xC0 w0 a := outputs_announce cause w0
  let b : State := clearResolver (clearDeadlines (dropSnapshot a))
  obtain ⟨C, P, h1, h2, h3⟩ := endAllServices_eq b
  have hc : closeHeat cause true s = endAllServices b := by
    unfold closeHeat closePit; rw [e0]; rfl
  have actx : ∀ e, ctx a e = ctx s e := fun e => outputs_ctx ao e
  have bctx : ∀ e, ctx b e = { ctx s e with deadline := none } := by
    intro e
    have : ctx b e = { ctx a e with deadline := none } := by
      show (a.contexts.map _)[e] = _
      simp [ctx]
    rw [this, actx]
  have bpit : b.pit = s.pit := (show b.pit = a.pit from rfl).trans ((outputs_pit ao).trans rfl)
  have bser : ∀ e, Serving (ctx b e) ↔ Serving (ctx s e) := by intro e; rw [bctx]; rfl
  refine ⟨_, { s with
        contexts := C, pit := P
        order := { s.order with snapshot := none }
        resolver := { s.resolver with pairs := [], drillOn := false, drills := State.reset.resolver.drills }
        session := w0.session }, C, P, rfl, ?_, ?_, rfl, ?_, ?_⟩
  · rw [hc, h1]
    have := emitsMove_congr (emitsMove_announce cause w0) C P { s.order with snapshot := none }
        { s.resolver with pairs := [], drillOn := false, drills := State.reset.resolver.drills } w0.session
        s.penalty s.throttle
    have hb : ({ b with contexts := C, pit := P } : State) =
        { a with contexts := C, pit := P, order := { s.order with snapshot := none }, resolver := { s.resolver with pairs := [], drillOn := false, drills := State.reset.resolver.drills }, session := w0.session, penalty := s.penalty, throttle := s.throttle } := by
      have r := ao.rest
      have r1 : a.order = s.order := by rw [r]
      have r2 : a.resolver = s.resolver := by rw [r]
      have r3 : a.session = w0.session := by rw [r]
      have r4 : a.penalty = s.penalty := by rw [r]
      have r5 : a.throttle = s.throttle := by rw [r]
      show ({ clearResolver (clearDeadlines (dropSnapshot a)) with contexts := C, pit := P } : State) = _
      unfold clearResolver clearDeadlines dropSnapshot updAllCtx
      dsimp only
      rw [r1, r2, r3, r4, r5]; rfl
    rw [hb]; exact this
  · intro l hl hd
    rw [hc, h1, hd]
    exact shows_announce (s := w0) hl cause
  · intro e he
    have := h2 e ((bser e).2 he)
    rw [bctx] at this; exact this
  · intro e he
    have := h3 e (fun k => he ((bser e).1 k))
    rw [bctx, bpit] at this; exact this

/-- A close that is no abort: besides, the owed entries are converted and the FINISH records follow in the order
of the classification. -/
theorem closeHeat_finished (cause : Cause) (s : State) : ∃ v w C P n, closeHeat cause false s = v ∧
    EmitsMove n w v (⟨0, s.clock.now, .session .closed cause s.session.heatClock⟩ ::
      ((allEntries.flatMap fun e => (ctx s e).owed.map (serveConverted e s.clock.now)) ++
        finishRecords v 1 (classification v))) ∧
    n = 1 + (allEntries.map fun e => (ctx s e).owed.length).sum + (classification v).length ∧
    (∀ l, s.rstnLow = false → l = Lamp.mk .dark 0 → Shows v l) ∧
    (s.rstnLow = false → s.link.records.length < 64 →
        Recorded v ⟨0, s.clock.now, .session .closed cause s.session.heatClock⟩) ∧
    (∀ x : Record, x.isSector = false → Recorded s x → Recorded v x) ∧ w = { s with
        contexts := C, pit := P
        order := { s.order with snapshot := none }
        resolver := { s.resolver with pairs := [], drillOn := false, drills := State.reset.resolver.drills }
        session := { s.session with
          state := .closed, aborted := false, countdown := none, heldFrom := none, grace := none
          periods := ended s.clock.now s.session.periods } } ∧
     (∀ e : Entry, Serving (ctx s e) → C[e] = owedConverted { serviceEnded (ctx s e) with deadline := none } ∧
         P.marks[e] = none ∧ P.holds[e] = false) ∧
     (∀ e : Entry, ¬Serving (ctx s e) → C[e] = owedConverted { ctx s e with deadline := none } ∧ P.marks[e] =
         s.pit.marks[e] ∧ P.holds[e] = s.pit.holds[e]) := by
  let w0 : State := { s with session := { s.session with
          state := .closed, aborted := false, countdown := none, heldFrom := none, grace := none
          periods := ended s.clock.now s.session.periods } }
  have e0 : closeSession cause false s = announce cause w0 := by
    unfold closeSession; rw [closePeriod_eq]
  let a := announce cause w0
  have ao : Outputs 0xC0 w0 a := outputs_announce cause w0
  let b : State := clearResolver (clearDeadlines (dropSnapshot a))
  obtain ⟨C, P, h1, h2, h3⟩ := endAllServices_eq b
  have actx : ∀ e, ctx a e = ctx s e := fun e => outputs_ctx ao e
  have bctx : ∀ e, ctx b e = { ctx s e with deadline := none } := by
    intro e
    have : ctx b e = { ctx a e with deadline := none } := by
      show (a.contexts.map _)[e] = _
      simp [ctx]
    rw [this, actx]
  have bpit : b.pit = s.pit := (show b.pit = a.pit from rfl).trans ((outputs_pit ao).trans rfl)
  have bser : ∀ e, Serving (ctx b e) ↔ Serving (ctx s e) := by intro e; rw [bctx]; rfl
  have bnow : b.clock.now = s.clock.now := (outputs_now ao).trans rfl
  let d : State := { b with contexts := C, pit := P }
  have dctx : ∀ e, ctx d e = C[e] := fun e => rfl
  have dowed : ∀ e, (ctx d e).owed.length = (ctx s e).owed.length := by
    intro e; rw [dctx]
    by_cases k : Serving (ctx s e)
    · rw [(h2 e ((bser e).2 k)).1, bctx]; show (List.modifyHead _ _).length = _; simp
    · rw [(h3 e (fun q => k ((bser e).1 q))).1, bctx]
  have dmap : ∀ e, (ctx d e).owed.map (serveConverted e s.clock.now) =
      (ctx s e).owed.map (serveConverted e s.clock.now) := by
    intro e; rw [dctx]
    by_cases k : Serving (ctx s e)
    · rw [(h2 e ((bser e).2 k)).1, bctx]
      show ((ctx s e).owed.modifyHead _).map _ = _
      cases (ctx s e).owed <;> rfl
    · rw [(h3 e (fun q => k ((bser e).1 q))).1, bctx]
  obtain ⟨C2, k1, k2, k3⟩ := emits_convertAll allEntries (by decide) d
  have dnow : d.clock.now = s.clock.now := bnow
  rw [dnow, show (allEntries.flatMap fun e => (ctx d e).owed.map (serveConverted e s.clock.now)) =
    allEntries.flatMap fun e => (ctx s e).owed.map (serveConverted e s.clock.now) from
    List.flatMap_congr fun e _ => dmap e] at k1
  have hbn : ({ d with contexts := C2 } : State).clock.now = s.clock.now := bnow
  generalize hf : allEntries.foldl (fun t e => convertOwed e t.clock.now t) d = f at k1
  have hc : closeHeat cause false s = emitFinish f := by
    unfold closeHeat closePit; rw [e0]; show emitFinish (List.foldl _ (endAllServices b) _) = _; rw [h1, ← hf]
  have k5 := emits_all (finishRecords f 1 (classification f)) f
  rw [finishRecords_length] at k5
  have hev : (finishRecords f 1 (classification f)).foldl (fun t r => emit r t) f = emitFinish f := rfl
  rw [hev] at k5
  generalize emitFinish f = v at *
  have fv : Outputs 128 f v := k5.out
  have cv : classification v = classification f := classification_congr (by rw [fv.rest]) (by rw [fv.rest])
      (by rw [fv.rest])
  have bv : ∀ k e, finishBody v k e = finishBody f k e := fun k e => finishBody_congr (by rw [fv.rest])
      (by rw [fv.rest]) k e
  have fnow : f.clock.now = s.clock.now := by rw [outputs_now k1.out]; exact hbn
  have vnow : v.clock.now = f.clock.now := outputs_now fv
  have vfr : finishRecords f 1 (classification f) = finishRecords v 1 (classification v) := by
    rw [finishRecords_eq, finishRecords_eq, cv, vnow]; simp only [bv]
  rw [vfr] at k5
  have k6 := emits_trans k1 k5
  have hb : ({ d with contexts := C2 } : State) =
      { a with contexts := C2, pit := P, order := { s.order with snapshot := none }, resolver := { s.resolver with pairs := [], drillOn := false, drills := State.reset.resolver.drills }, session := w0.session, penalty := s.penalty, throttle := s.throttle } := by
      have r := ao.rest
      have r1 : a.order = s.order := by rw [r]
      have r2 : a.resolver = s.resolver := by rw [r]
      have r3 : a.session = w0.session := by rw [r]
      have r4 : a.penalty = s.penalty := by rw [r]
      have r5 : a.throttle = s.throttle := by rw [r]
      show ({ clearResolver (clearDeadlines (dropSnapshot a)) with contexts := C2, pit := P } : State) = _
      unfold clearResolver clearDeadlines dropSnapshot updAllCtx
      dsimp only
      rw [r1, r2, r3, r4, r5]; rfl
  rw [hb] at k6
  have hsum : (allEntries.map fun e => (ctx d e).owed.length).sum = (allEntries.map fun e => (ctx s
      e).owed.length).sum := by
    rw [List.map_congr_left (fun e _ => dowed e)]
  rw [hsum, ← cv] at k6
  have := emitsMove_congr (emitsMove_announce cause w0) C2 P { s.order with snapshot := none }
      { s.resolver with pairs := [], drillOn := false, drills := State.reset.resolver.drills } w0.session
      s.penalty s.throttle
  have kk := emitsMove_then this (emits_mono k6 (by decide))
  have kn : 1 + ((allEntries.map fun e => (ctx s e).owed.length).sum + (classification v).length) = 1 +
      (allEntries.map fun e => (ctx s e).owed.length).sum + (classification v).length :=
      (Nat.add_assoc _ _ _).symm
  generalize hN : 1 + ((allEntries.map fun e => (ctx s e).owed.length).sum + (classification v).length) =
      N at kk kn
  refine ⟨v, { s with
        contexts := C2, pit := P
        order := { s.order with snapshot := none }
        resolver := { s.resolver with pairs := [], drillOn := false, drills := State.reset.resolver.drills }
        session := w0.session }, C2, P, N, hc, kk, kn, ?_, ?_, ?_, rfl, ?_, ?_⟩
  · intro l hl hd
    refine k6.shows _ ?_
    rw [hd]; exact shows_announce (s := w0) hl cause
  · intro hl hq
    refine k6.keep _ rfl ?_
    exact recorded_announce (s := w0) hl hq cause
  · intro x hx h
    refine k6.keep _ hx ?_
    show Recorded a x
    unfold a announce emitSession
    apply recorded_setGroup
    apply recorded_emit_of hx
    exact recorded_issueLamp (s := w0) h _
  · intro e he
    have := h2 e ((bser e).2 he)
    rw [bctx] at this
    refine ⟨?_, this.2⟩
    rw [k2 e (mem_allEntries e), dctx, this.1]; rfl
  · intro e he
    have := h3 e (fun k => he ((bser e).1 k))
    rw [bctx, bpit] at this
    refine ⟨?_, this.2⟩
    rw [k2 e (mem_allEntries e), dctx, this.1]

/-- What a close that is no abort leaves: the session CLOSED, the records and groups that stood, the car states.
-/
theorem closeHeat_keeps (cause : Cause) (a : State) : ∃ v, closeHeat cause false a = v ∧ v.session.state =
    .closed ∧ v.session.aborted = false ∧
    (∀ x : Record, x.isSector = false → Recorded a x → Recorded v x) ∧ RepliesKept a v ∧
    (∀ g, groupSet g a = true → groupSet g v = true) ∧ v.rstnLow = a.rstnLow ∧ (∀ f, (ctx v f).state =
        (ctx a f).state) ∧ (∀ g, 0xC0 &&& groupBit g = 0 → groupSet g v = groupSet g a) := by
  obtain ⟨v, w, C, P, n, e1, hA, hn, hsh, hsr, hsk, e2, h1, h2⟩ := closeHeat_finished cause a
  have hv := outputs_session hA.out
  refine ⟨v, e1, by rw [hv, e2], by rw [hv, e2], hsk, ?_, ?_, ?_, ?_, ?_⟩
  · have := hA.replies
    rw [e2] at this; exact this
  · intro g hg
    refine groupSet_mono ?_ hA.out.kept
    rw [e2]; exact hg
  · rw [hA.out.rest, e2]
  · intro f
    have hc : ctx v f = C[f] := by unfold ctx; rw [outputs_contexts hA.out, e2]
    rw [hc]
    by_cases k : Serving (ctx a f)
    · rw [(h1 f k).1]; rfl
    · rw [(h2 f k).1]; rfl
  · intro g hg
    rw [groupSet_outputs hA.out hg]
    unfold groupSet; rw [e2]

/-- The owed entries' seconds do not depend on which of them is in service. -/
theorem secondsAfter_service : ∀ (os : List Owed) n, secondsAfter (os.modifyHead fun o => { o with inService := false }) n =
    os.foldl (fun n o => min 65535 (n + o.fallback)) n := by
  intro os n; cases os <;> rfl

/-- A close that is no abort, behind work that has sent some records (R58, R61, R100, R109, R124, R162, R163). -/
theorem heatCloses_of {g} {B a : State} {L : List Record} {cause : Cause} (h : Sends g B a L) (hr : B.rstnLow = false) :
    HeatCloses (g ||| 0xC0) B (closeHeat cause false a) cause L := by
  obtain ⟨out, len, room, queue⟩ := h
  obtain ⟨v, w, C, P, m, e1, hA, hm, hsh, hsr, hsk, e2, h1, h2⟩ := closeHeat_finished cause a
  rw [e1]
  have ar : a.rstnLow = false := by rw [out.rest]; exact hr
  have an : a.clock.now = B.clock.now := outputs_now out
  have as := outputs_session out
  have ac : ∀ e, ctx a e = ctx B e := fun e => outputs_ctx out e
  have ap := outputs_pit out
  have ao := outputs_order out
  have arv : a.resolver = B.resolver := by rw [out.rest]
  have hw : w = { a with
      contexts := C, pit := P
      order := { B.order with snapshot := none }
      resolver := { B.resolver with pairs := [], drillOn := false, drills := State.reset.resolver.drills }
      session := closedSession B.clock.now B.session
      penalty := B.penalty, throttle := B.throttle } := by
    have r1 : a.penalty = B.penalty := by rw [out.rest]
    have r2 : a.throttle = B.throttle := by rw [out.rest]
    rw [e2, ao, arv, as, an, ← r1, ← r2]; rfl
  have o1 := (outputs_congr out C P { B.order with snapshot := none }
    { B.resolver with pairs := [], drillOn := false, drills := State.reset.resolver.drills }
    (closedSession B.clock.now B.session) B.penalty B.throttle)
  rw [← hw] at o1
  have tc : v.contexts = C := by rw [outputs_contexts hA.out, e2]
  have tp : v.pit = P := by rw [outputs_pit hA.out, e2]
  have th : v.session.heatLines = a.session.heatLines := by rw [outputs_session hA.out, e2]
  have vn : v.clock.now = a.clock.now := by rw [outputs_now hA.out, e2]
  have wl : w.link.records = a.link.records := by rw [e2]
  have wt : w.link.stationTx = a.link.stationTx := by rw [e2]
  have wr : w.rstnLow = false := by rw [e2]; exact ar
  have hfin : ∀ i e, (⟨entryNumber e, v.clock.now, .finish (finishBody v (1 + i) e)⟩ : Record) = finishRecord v i e := by
    intro i e
    have e3 : min Config.clockMax (((ctx v e).progressTime.map (· + Config.second * (ctx v e).penaltySeconds)).getD Config.clockMax) = (match (ctx v e).progressTime with
            | some p => min 4294967295 (p + 100000 * (ctx v e).penaltySeconds)
            | none => 4294967295) := by
      cases (ctx v e).progressTime <;> simp [Config.clockMax, Config.second]
    unfold finishBody linesInLap adjustedLaps adjustedTime
    dsimp only
    rw [e3, Nat.add_comm 1 i]; rfl
  have hlist : finishRecords v 1 (classification v) = (classification v).mapIdx (finishRecord v) := by
    rw [finishRecords_eq]
    exact congrArg (fun f => (classification v).mapIdx f) (funext fun i => funext fun e => hfin i e)
  rw [hlist] at hA
  simp only [ac] at hA hm
  rw [an, as] at hA hsr
  refine ⟨?_, hA.group, hsh _ ar rfl, ?_, ?_, ?_, ?_⟩
  · rw [tc, tp]
    exact outputs_trans (outputs_mono o1 (by ext i; simp))
      (outputs_mono hA.out (by ext i; simp; cases g[i] <;> simp))
  · intro hq; exact hsr ar (by omega)
  · intro hq r hr2 hs2; exact hsk r hs2 ((room hr (by omega)).2 r hr2)
  · intro e
    by_cases k : Serving (ctx a e)
    · have := h1 e k
      rw [ac] at k this
      refine ⟨fun _ => by rw [tp]; exact this.2, fun q => absurd k q, (ctx B e).transit.map (fun y => { y with service := false }), ?_, fun _ => rfl, fun q => absurd k q⟩
      unfold ctx at this ⊢; rw [tc, this.1]
      unfold owedConverted serviceEnded
      dsimp only
      rw [secondsAfter_service]
    · have := h2 e k
      rw [ac, ap] at this
      rw [ac] at k
      refine ⟨fun q => absurd q k, fun _ => by rw [tp]; exact this.2, (ctx B e).transit, ?_, fun q => absurd q k, fun _ => rfl⟩
      unfold ctx at this ⊢; rw [tc, this.1]; rfl
  · intro converted hq
    have hroom := (hA.room wr (by rw [wl, hm]; omega)).2
    refine ⟨fun r hr2 => ?_, fun e o ho => hroom _ ?_, fun i e hi => hroom _ ?_, fun hb => ?_⟩
    · refine (hA.room wr (by rw [wl, hm]; omega)).1 r ?_
      have := (room hr (by omega)).2 r hr2
      unfold Recorded at *; rw [wl, wt]; exact this
    · apply List.mem_cons_of_mem; apply List.mem_append_left
      rw [List.mem_flatMap]
      exact ⟨e, mem_allEntries e, List.mem_map.2 ⟨o, ho, rfl⟩⟩
    · apply List.mem_cons_of_mem; apply List.mem_append_right
      obtain ⟨hlt, hge⟩ := List.getElem?_eq_some_iff.1 hi
      exact List.mem_mapIdx.2 ⟨i, hlt, by rw [hge]⟩
    · obtain ⟨p1, p2⟩ := queue hr hb (by omega)
      obtain ⟨q1, q2⟩ := hA.queue wr (by rw [wt, p2]; exact hb) (by rw [wl, hm]; omega)
      rw [q1, wl, p1]
      simp only [List.append_assoc, List.cons_append, List.nil_append]
      have hcv : ∀ e : Entry, serveConverted e B.clock.now = converted e := fun e => rfl
      simp only [hcv]

/-- What goes out behind a close leaves it as it is. -/
theorem HeatCloses.quiet {g u v t cause L} (h : HeatCloses g u v cause L) (q : Quiet v t) : HeatCloses g u t cause L := by
  have r := q.outputs.rest
  have tc : t.contexts = v.contexts := by rw [r]
  have ec : ∀ e, ctx t e = ctx v e := fun e => outputs_ctx q.outputs e
  have tp := outputs_pit q.outputs
  have tn := outputs_now q.outputs
  have cv : classification t = classification v := classification_congr tc (by rw [r]) (by rw [r])
  have fv : ∀ i e, finishRecord t i e = finishRecord v i e := by
    intro i e; unfold finishRecord; rw [ec, tn, outputs_session q.outputs]
  refine ⟨?_, groupSet_mono h.group q.outputs.kept, shows_quiet q h.lamp, fun k => recorded_quiet q (h.session k),
    fun k r hr hs => recorded_quiet q (h.kept k r hr hs), ?_, ?_⟩
  · rw [tc, tp]; exact outputs_trans h.out (outputs_zero q.outputs)
  · intro e; rw [tp, ec]; exact h.cars e
  · intro conv hq
    rw [cv] at hq ⊢
    obtain ⟨h1, h2, h3, h4⟩ := h.records hq
    refine ⟨fun r hr => recorded_quiet q (h1 r hr), fun e o ho => recorded_quiet q (h2 e o ho), fun i e hi => ?_, fun hb => ?_⟩
    · rw [fv]; exact recorded_quiet q (h3 i e hi)
    · have hvb : v.link.stationTx = u.link.stationTx := (h.out.link.stationBusy hb)
      rw [q.records.kept (by rw [hvb]; exact hb), h4 hb]
      congr 1
      exact congrArg (fun f => (classification v).mapIdx f) (funext fun i => funext fun e => (fv i e).symm)

/-- A close seen from a state before it from which only outputs have gone, none of them a new record. -/
theorem HeatCloses.since {g u' u t cause L} (h : HeatCloses g u t cause L) (o : Outputs g u' u)
    (hl : u.link.records.length ≤ u'.link.records.length)
    (hq : u'.link.stationTx.isSome = true → u'.link.records.length ≤ 64 →
      u.link.records = u'.link.records ∧ u.link.stationTx = u'.link.stationTx) :
    HeatCloses g u' t cause L := by
  have ec : ∀ e, ctx u e = ctx u' e := fun e => outputs_ctx o e
  have ep := outputs_pit o
  have es := outputs_session o
  have en := outputs_now o
  have eo := outputs_order o
  have er : u.resolver = u'.resolver := by rw [o.rest]
  have ex1 : u.penalty = u'.penalty := by rw [o.rest]
  have ex2 : u.throttle = u'.throttle := by rw [o.rest]
  obtain ⟨h1, h2, h3, h4, h5, h6, h7⟩ := h
  rw [en, es] at h4
  simp only [ec, ep] at h6
  simp only [ec, en, es] at h7
  refine ⟨?_, h2, h3, fun k => h4 (by omega), fun k => h5 (by omega), h6, ?_⟩
  rotate_left
  · intro conv k
    obtain ⟨k1, k2, k3, k4⟩ := h7 (by omega)
    refine ⟨k1, k2, k3, fun hb => ?_⟩
    obtain ⟨q1, q2⟩ := hq hb (by omega)
    rw [← q1]; exact k4 (by rw [q2]; exact hb)
  refine outputs_trans ?_ h1
  rw [eo, er, en, es]
  have := outputs_congr o t.contexts t.pit { u'.order with snapshot := none }
    { u'.resolver with pairs := [], drillOn := false, drills := State.reset.resolver.drills }
    (closedSession u'.clock.now u'.session) u'.penalty u'.throttle
  have e : ∀ C P O R S, ({ u with contexts := C, pit := P, order := O, resolver := R, session := S } : State) =
      { u with contexts := C, pit := P, order := O, resolver := R, session := S, penalty := u'.penalty, throttle := u'.throttle } := by
    intro C P O R S; rw [← ex1, ← ex2]
  rw [e]; exact this

/-- More groups may have been set. -/
theorem HeatCloses.mono {g g' u t cause L} (h : HeatCloses g u t cause L) (m : g ||| g' = g') : HeatCloses g' u t cause L :=
  ⟨outputs_mono h.out m, h.group, h.lamp, h.session, h.kept, h.cars, h.records⟩

/-! ### A close and the last accepted crossing (R70) -/

/-- The state with a car's last accepted crossing replaced. -/
def withLast (e : Entry) (y : Option LastCrossing) (s : State) : State :=
  { s with contexts := s.contexts.set e { ctx s e with last := y } }

theorem ctx_withLast (e y) (s : State) (f : Entry) :
    ctx (withLast e y s) f = { ctx s f with last := if f = e then y else (ctx s f).last } := by
  unfold withLast ctx
  by_cases h : f = e
  · subst h; rw [get_set, if_pos rfl]
  · rw [get_set_ne _ _ h, if_neg h]

theorem classification_withLast (e y) (s : State) : classification (withLast e y s) = classification s := by
  have h1 : groupOf (withLast e y s) = groupOf s := by funext f; unfold groupOf; rw [ctx_withLast]
  have h2 : classedAhead (withLast e y s) = classedAhead s := by
    funext b a; unfold classedAhead; rw [ctx_withLast, ctx_withLast]; rfl
  have h3 : ∀ l, classSort (withLast e y s) l = classSort s l := by
    intro l; induction l with
    | nil => rfl
    | cons x l ih => unfold classSort; rw [ih, h2]
  have h4 : groupMembers (withLast e y s) = groupMembers s := by
    funext g; unfold groupMembers; rw [h1]
    apply List.filter_congr; intro x _; rw [ctx_withLast]
  unfold classification; rw [h3, h3, h4, h1]; rfl

theorem finishRecord_withLast (e y) (s : State) (i f) : finishRecord (withLast e y s) i f = finishRecord s i f := by
  unfold finishRecord; rw [ctx_withLast]; rfl

/-- The last accepted crossing may be replaced behind a close or before it. -/
theorem HeatCloses.withLast {g u t cause L} (h : HeatCloses g u t cause L) (e : Entry) (y : Option LastCrossing) :
    HeatCloses g (withLast e y u) (withLast e y t) cause L := by
  have hs : ∀ f, Serving (ctx (Safety.withLast e y u) f) ↔ Serving (ctx u f) := by
    intro f; rw [ctx_withLast]; rfl
  have ho : ∀ f, (ctx (Safety.withLast e y u) f).owed = (ctx u f).owed := by intro f; rw [ctx_withLast]
  refine ⟨?_, h.group, h.lamp, h.session, h.kept, ?_, ?_⟩
  · have := outputs_congr h.out (Safety.withLast e y t).contexts t.pit { u.order with snapshot := none }
      { u.resolver with pairs := [], drillOn := false, drills := State.reset.resolver.drills }
      (closedSession u.clock.now u.session) u.penalty u.throttle
    have r := h.out.rest
    have r1 : t.order = { u.order with snapshot := none } := by rw [r]
    have r2 : t.resolver = { u.resolver with pairs := [], drillOn := false, drills := State.reset.resolver.drills } := by
      rw [r]
    have r3 : t.session = closedSession u.clock.now u.session := by rw [r]
    have r4 : t.penalty = u.penalty := by rw [r]
    have r5 : t.throttle = u.throttle := by rw [r]
    have e2 : ({ t with
        contexts := (Safety.withLast e y t).contexts, pit := t.pit, order := { u.order with snapshot := none }
        resolver := { u.resolver with pairs := [], drillOn := false, drills := State.reset.resolver.drills }
        session := closedSession u.clock.now u.session, penalty := u.penalty, throttle := u.throttle } : State) =
        Safety.withLast e y t := by
      rw [← r1, ← r2, ← r3, ← r4, ← r5]; rfl
    rw [e2] at this; exact this
  · intro f
    obtain ⟨h1, h2, x, h3, h4, h5⟩ := h.cars f
    rw [hs]
    refine ⟨h1, h2, x, ?_, ?_, ?_⟩
    · rw [ctx_withLast, ctx_withLast, h3]
    · rw [ctx_withLast]; exact h4
    · rw [ctx_withLast]; exact h5
  · intro conv hq
    simp only [ho, classification_withLast] at hq ⊢
    obtain ⟨h1, h2, h3, h4⟩ := h.records hq
    refine ⟨h1, h2, fun i f hf => ?_, fun k => ?_⟩
    · rw [finishRecord_withLast]; exact h3 i f hf
    · rw [show finishRecord (Safety.withLast e y t) = finishRecord t from
        funext fun i => funext fun f => finishRecord_withLast e y t i f]
      exact h4 k

end Sys2Proof.Safety
end

