-- ==== Sys2Proof/Laws/Incidents.lean ====
section
/-! SUPPORT. The penalty engine: an incident or a direct sanction leaves the car struck as the ruling says, emits
its CALL record and may close the heat (R134 to R148). -/

namespace Sys2Proof.Safety

open Sys2Proof Machine

-- One theorem after another: the proofs of many at once would need too many threads.
set_option Elab.async false

/-! ### A struck car -/

theorem struck_struck (e : Entry) (x y : Context) (f : Option Bool) (s : State) : struck e x f (struck e y none
    s) = struck e x f s := by
  unfold struck; cases f
  · dsimp only; rw [set_set]
  · dsimp only; rw [set_set]

theorem updCtx_eq_struck (e : Entry) (f) (s : State) : updCtx e f s = struck e (f (ctx s e)) none s := rfl

theorem ctx_struck (e : Entry) (x : Context) (f) (s : State) : ctx (struck e x f s) e = x := by
  unfold struck ctx; cases f <;> exact get_set _ _ _

theorem ctx_struck_ne {e g : Entry} (x : Context) (f) (s : State) (h : g ≠ e) : ctx (struck e x f s) g =
    ctx s g := by
  unfold struck ctx; cases f <;> exact get_set_ne _ _ h

theorem struck_session (e x f s) : (struck e x f s).session = s.session := by unfold struck; cases f <;> rfl

theorem struck_link (e x f s) : (struck e x f s).link = s.link := by unfold struck; cases f <;> rfl

theorem struck_mgmt (e x f s) : (struck e x f s).mgmt = s.mgmt := by unfold struck; cases f <;> rfl

theorem groupSet_struck (g : Group) (e x f s) : groupSet g (struck e x f s) = groupSet g s := by
  unfold groupSet; rw [struck_mgmt]

theorem struck_rstnLow (e x f s) : (struck e x f s).rstnLow = s.rstnLow := by unfold struck; cases f <;> rfl

theorem struck_clock (e x f s) : (struck e x f s).clock = s.clock := by unfold struck; cases f <;> rfl

theorem ruleOf_struck (e x f s k) : ruleOf (struck e x f s) k =
    ruleOf s k := by unfold struck ruleOf; cases f <;> rfl

theorem outputs_struck_received (e x f s) : Outputs 0 (struck e x f s) (struck e x f (received .station
    s)) := by
  unfold struck; cases f <;> exact outputs_link _ _ (linkKept_received rfl)

/-- The cars whose incidents count (R134). -/
theorem takesIncidents_iff (st : CarState) : takesIncidents st = true ↔ (st = .grid ∨ st = .running ∨ st =
    .inPit ∨ st = .offTrack) := by cases st <;> simp [takesIncidents]

/-! ### Sanctions (R141 to R146) -/

/-- A black flag (R144). -/
theorem blackFlag_eq (e : Entry) (enforce : Bool) (s : State) (h : (ctx s e).disqualified = false) :
    blackFlag e enforce s = struck e
        { ctx s e with state := .retired, disqualified := true, deadline := none, transit := none, owed := [] }
        (some enforce) s := by
  unfold blackFlag dropOwed
  dsimp only
  rw [h, updCtx_eq_struck e _ (updCtx _ _ _), updCtx_eq_struck e flaggedContext s, struck_struck, ctx_struck]
  unfold struck setMark setHold joinStopSet moveToTail flaggedContext
  cases enforce
  · simp
  · by_cases hh : e ∈ s.penalty.stopSet
    · simp [hh]
    · simp [hh]

theorem callAmount_eq (r : Ruling) : callAmount r = calledAmount r := by
  unfold callAmount calledAmount; cases r.sanction <;> simp

/-- The mark of the disqualified-stop set that a ruling leaves (R145). -/
def stopFlag (r : Ruling) : Option Bool := if r.sanction = .blackFlag then some r.enforce else none

/-- A sanction applied to a car (R141 to R145). -/
theorem applySanction_eq (e : Entry) (kind) (r : Ruling) (s : State) (h : r.sanction = .blackFlag →
    (ctx s e).disqualified = false) :
    applySanction e kind r s = (struck e (sanctioned kind r (ctx s e)).1 (stopFlag r) s, ⟨(sanctioned kind r
        (ctx s e)).2.1, (sanctioned kind r (ctx s e)).2.2⟩) := by
  have hself : s = struck e (ctx s e) none s := by
    unfold struck ctx; dsimp only; rw [set_get_self]
  have ho : ∀ k, r.sanction = k → (k = .driveThrough ∨ k = .stopGo) → ((if (ctx s e).owed.length <
      Config.owedCapacity then
      (updCtx e (fun c => { c with owed := c.owed ++ [owedOf kind r (ctx s e).laps] }) s, (⟨false, some (owedOf
          kind r (ctx s e).laps).deadlineLap⟩ : Applied))
    else (updCtx e (addSeconds r.fallback) s, ⟨true, none⟩)) = (struck e (sanctioned kind r (ctx s e)).1
        (stopFlag r) s, ⟨(sanctioned kind r (ctx s e)).2.1, (sanctioned kind r (ctx s e)).2.2⟩)) := by
    intro k hk h2
    have hn : stopFlag r = none := by unfold stopFlag; rw [hk, if_neg]; rcases h2 with rfl | rfl <;> simp
    rw [hn]
    have hs : sanctioned kind r (ctx s e) = if (ctx s e).owed.length < 4 then
      ({ (ctx s e) with owed := (ctx s e).owed ++ [⟨kind, k, if k = .stopGo then r.amount else 0, (ctx s e).laps, (ctx s e).laps + r.window,
          r.fallback, r.enforce, false⟩] }, false, some ((ctx s e).laps + r.window))
      else ({ (ctx s e) with penaltySeconds := min 65535 ((ctx s e).penaltySeconds + r.fallback) }, true,
          none) := by
      unfold sanctioned; rw [hk]; rcases h2 with rfl | rfl <;> rfl
    rw [hs]
    by_cases hl : (ctx s e).owed.length < 4
    · rw [if_pos hl, if_pos (show (ctx s e).owed.length < Config.owedCapacity from hl)]
      unfold owedOf; rw [hk]; rfl
    · rw [if_neg hl, if_neg (show ¬(ctx s e).owed.length < Config.owedCapacity from hl)]; rfl
  unfold applySanction
  cases hk : r.sanction with
  | note =>
    have hn : stopFlag r = none := by unfold stopFlag; rw [hk]; rfl
    rw [hn]; unfold sanctioned; rw [hk]; dsimp only; rw [← hself]
  | timeAdd =>
    have hn : stopFlag r = none := by unfold stopFlag; rw [hk]; rfl
    rw [hn]; unfold sanctioned; rw [hk]; rfl
  | lapDeduct =>
    have hn : stopFlag r = none := by unfold stopFlag; rw [hk]; rfl
    rw [hn]; unfold sanctioned; rw [hk]; rfl
  | driveThrough => exact ho _ hk (.inl rfl)
  | stopGo => exact ho _ hk (.inr rfl)
  | blackFlag =>
    have hn : stopFlag r = some r.enforce := by unfold stopFlag; rw [hk]; rfl
    rw [hn]; unfold sanctioned; rw [hk]; dsimp only; rw [blackFlag_eq _ _ _ (h hk)]

/-- The CALL record (R146, R147). -/
theorem emits_emitCall (e kind time info r d s) : Emits 0x88 1 s (emitCall e kind time info r d s)
    [⟨e.val + 1, time, .call ⟨kind, info.cls, info.number, r.sanction, calledAmount r, info.converted, d⟩⟩] ∧
    groupSet .call (emitCall e kind time info r d s) = ((ruleOf s kind).attention || groupSet .call s) := by
  rw [← callAmount_eq]
  unfold emitCall
  obtain ⟨q, hq⟩ : ∃ q : Record, q = ⟨entryNumber e, time, .call ⟨kind, info.cls, info.number, r.sanction,
      callAmount r, info.converted, d⟩⟩ := ⟨_, rfl⟩
  have he := emits_mono (emits_emit q s) (g' := 0x88) (by decide)
  have hr : ruleOf (emit q s) kind = ruleOf s kind := by unfold ruleOf; rw [he.out.rest]
  show Emits 0x88 1 s (if (ruleOf (emit _ s) kind).attention then setGroup .call (emit _ s) else emit _ s) _ ∧
      groupSet .call (if (ruleOf (emit _ s) kind).attention then setGroup .call (emit _ s) else emit _ s) = _
  rw [← hq]
  have hq2 : (⟨e.val + 1, time, .call ⟨kind, info.cls, info.number, r.sanction, callAmount r, info.converted,
      d⟩⟩ : Record) = q := by rw [hq]; rfl
  rw [hq2, hr]
  by_cases h : (ruleOf s kind).attention = true
  · rw [if_pos h]
    refine ⟨?_, by rw [groupSet_setGroup, h]; rfl⟩
    have := emits_trans he (emits_mono (emits_group .call (emit q s)) (g' := 0x88) (by decide))
    simpa using this
  · rw [if_neg h]
    refine ⟨he, ?_⟩
    rw [groupSet_outputs (g := .call) (outputs_emit q s) (by decide), Bool.eq_false_iff.2 h]; rfl

theorem applySanction_link (e kind r) (s : State) : (applySanction e kind r s).1.link = s.link ∧
    (applySanction e kind r s).1.session = s.session ∧ (applySanction e kind r s).1.mgmt = s.mgmt := by
  unfold applySanction
  split
  · exact ⟨rfl, rfl, rfl⟩
  · exact ⟨rfl, rfl, rfl⟩
  · exact ⟨rfl, rfl, rfl⟩
  · unfold blackFlag joinStopSet moveToTail dropOwed
    dsimp only
    split <;> split <;> first | exact ⟨rfl, rfl, rfl⟩ | (split <;> exact ⟨rfl, rfl, rfl⟩)
  · split <;> exact ⟨rfl, rfl, rfl⟩

/-- A sanction leaves a car's state or retires it. -/
theorem applySanction_state (e kind r) (s : State) : (ctx (applySanction e kind r s).1 e).state =
    (ctx s e).state ∨ (ctx (applySanction e kind r s).1 e).state = .retired := by
  unfold applySanction
  split
  · exact .inl rfl
  · left; rw [updCtx_eq_struck, ctx_struck]; rfl
  · left; rw [updCtx_eq_struck, ctx_struck]
  · right
    have : (ctx (dropOwed e (updCtx e flaggedContext s)) e).state = .retired := by
      have h1 : ∀ w, ctx (dropOwed e w) e = { ctx w e with owed := [] } := fun w => get_set _ _ _
      rw [h1, updCtx_eq_struck, ctx_struck]; rfl
    unfold blackFlag
    dsimp only
    unfold joinStopSet moveToTail
    split <;> split <;> first | exact this | (split <;> exact this)
  · left; split
    · show (ctx (updCtx e _ _) e).state = _; rw [updCtx_eq_struck, ctx_struck]
    · show (ctx (updCtx e _ _) e).state = _; rw [updCtx_eq_struck, ctx_struck]; rfl

/-! ### Telling the session controller (R123, R148) -/

theorem closeTest_told_stay {s a : State} {e : Entry} (_h1 : (ctx a e).state = .retired) (h2 : ∀ f, f ≠ e →
    (ctx a f).state = (ctx s f).state)
    (h3 : a.session.state = s.session.state) (h : GoesOn s e) : closeTest a = a := by
  apply closeTest_stay
  rw [h3]
  rcases h with h | ⟨f, hf, h⟩
  · exact .inl h
  · right; exact ⟨f, by rw [h2 f hf]; exact h⟩

theorem closeTest_told_close {s a : State} {e : Entry} (h1 : (ctx a e).state = .retired) (h2 : ∀ f, f ≠ e →
    (ctx a f).state = (ctx s f).state)
    (h3 : a.session.state = s.session.state) (h : ¬GoesOn s e) : closeTest a =
        closeHeat .allFinished false a := by
  apply closeTest_close
  · rw [h3]; by_contra k; exact h (.inl k)
  · rintro ⟨f, hf⟩
    by_cases hfe : f = e
    · rw [hfe, h1] at hf; simp at hf
    · exact h (.inr ⟨f, hfe, by rw [← h2 f hfe]; exact hf⟩)

/-- A penalty in full (R148). -/
theorem penalise_spec (e : Entry) (kind) (time n) (r : Ruling) (s : State) (h : r.sanction = .blackFlag →
    (ctx s e).disqualified = false) :
    let p := sanctioned kind r (ctx s e)
    ∃ a, penalise e kind time n r s = (if r.sanction = .blackFlag then closeTest a else a, ⟨.penalty, n,
        p.2.1⟩) ∧
      Emits 0x88 1 (struck e p.1 (stopFlag r) s) a [⟨e.val + 1, time, .call ⟨kind, .penalty, n, r.sanction,
          calledAmount r, p.2.1, p.2.2⟩⟩] ∧
      groupSet .call a = ((ruleOf s kind).attention || groupSet .call s) := by
  intro p
  unfold penalise
  rw [applySanction_eq e kind r s h]
  obtain ⟨h1, h2⟩ := emits_emitCall e kind time ⟨.penalty, n, p.2.1⟩ r p.2.2 (struck e p.1 (stopFlag r) s)
  rw [ruleOf_struck, groupSet_struck] at h2
  exact ⟨_, rfl, h1, h2⟩

/-- An incident that is counted, in full: the car struck as judged, the CALL record, the close that a black flag
may bring (R134, R140, R148). -/
theorem incident_spec (e : Entry) (kind) (time) (s : State) (ht : takesIncidents (ctx s e).state =
    true) (h : FlagsCar (judged s kind (ctx s e)).2 → (ctx s e).disqualified = false) :
    let p := judged s kind (ctx s e)
    ∃ a, incidentCall e kind time s = ((open Classical in if FlagsCar p.2 then closeTest a else a), some
        ⟨p.2.cls, p.2.number, p.2.converted⟩) ∧
      (¬FlagsCar p.2 → Emits 0x88 1 (struck e p.1 none s) a [⟨e.val + 1, time, .call p.2⟩]) ∧
      (FlagsCar p.2 → Emits 0x88 1 (struck e p.1 (some (ruleOf s kind).enforce) s) a [⟨e.val + 1, time, .call
          p.2⟩]) ∧
      groupSet .call a = ((ruleOf s kind).attention || groupSet .call s) ∧ p.2.kind = kind ∧ (FlagsCar p.2 →
          p.1.state = .retired) := by
  intro p
  unfold incidentCall; rw [if_pos ht]
  obtain ⟨n, hn⟩ : ∃ n, n = min 255 (countOf (ctx s e) kind + 1) := ⟨_, rfl⟩
  have hn' : saturate 255 (countOf (ctx s e) kind + 1) = n := by rw [hn]; rfl
  rw [hn']
  obtain ⟨row, hrow⟩ : ∃ row, row = ruleOf s kind := ⟨_, rfl⟩
  obtain ⟨c, hc⟩ : ∃ c : Context, c = { ctx s e with counts := (ctx s e).counts.set (kindIndex kind) n } := ⟨_,
      rfl⟩
  have hsc : updCtx e (setCount kind n) s = struck e c none s := by rw [hc]; rfl
  have hc1 : ctx (struck e c none s) e = c := ctx_struck _ _ _ _
  dsimp only
  rw [hsc, ← hrow]
  have hj : p = if row.allowance = none ∨ ∃ k, row.allowance = some k ∧ n ≤ k then
      (c, ⟨kind, .warning, n, row.sanction, calledAmount (rulingOf row), false, none⟩)
      else ((sanctioned kind (rulingOf row) c).1, ⟨kind, .penalty, n, row.sanction, calledAmount (rulingOf
          row), (sanctioned kind (rulingOf row) c).2.1, (sanctioned kind (rulingOf row) c).2.2⟩) := by
    show judged s kind (ctx s e) = _
    unfold judged; rw [← hn, ← hrow, hc]; rfl
  have hw : withinAllowance row.allowance n = true ↔ (row.allowance = none ∨ ∃ k, row.allowance = some k ∧ n ≤
      k) := by
    unfold withinAllowance; cases row.allowance <;> simp
  by_cases hwa : withinAllowance row.allowance n = true
  · rw [if_pos hwa]
    rw [if_pos (hw.1 hwa)] at hj
    have hnf : ¬FlagsCar p.2 := by rw [hj]; rintro ⟨k, _⟩; cases k
    obtain ⟨h1, h2⟩ := emits_emitCall e kind time ⟨.warning, n, false⟩ (rulingOf row) none (struck e c none s)
    rw [ruleOf_struck, ← hrow, groupSet_struck] at h2
    refine ⟨_, ?_, fun _ => ?_, fun k => absurd k hnf, h2, by rw [hj], fun k => absurd k hnf⟩
    · rw [if_neg hnf, hj]
    · rw [hj]; exact h1
  · rw [if_neg hwa]
    rw [if_neg (by rw [← hw]; exact hwa)] at hj
    have hf : FlagsCar p.2 ↔ (rulingOf row).sanction = .blackFlag := by
      rw [hj]; unfold FlagsCar; simp; rfl
    obtain ⟨a, h1, h2, h3⟩ := penalise_spec e kind time n (rulingOf row) (struck e c none s) (fun k
        => by rw [hc1, hc]; exact h (hf.2 k))
    rw [hc1, struck_struck] at h2
    rw [ruleOf_struck, ← hrow, groupSet_struck] at h3
    rw [hc1] at h1
    rw [h1]
    refine ⟨a, ?_, ?_, ?_, h3, by rw [hj], ?_⟩
    · by_cases k : FlagsCar p.2
      · rw [if_pos k, if_pos (hf.1 k), hj]
      · rw [if_neg k, if_neg (by rw [← hf]; exact k), hj]
    · intro k
      have : stopFlag (rulingOf row) = none := by unfold stopFlag; rw [if_neg (by rw [← hf]; exact k)]
      rw [this] at h2; rw [hj]; exact h2
    · intro k
      have : stopFlag (rulingOf row) = some row.enforce := by unfold stopFlag; rw [if_pos (hf.1 k)]; rfl
      rw [this] at h2; rw [hj]; exact h2
    · intro k
      rw [hj]; unfold sanctioned; rw [hf.1 k]

/-- The same for a car that is not disqualified. -/
theorem incident_spec_of_not_disqualified (e : Entry) (kind) (time) (s : State) (ht : takesIncidents (ctx s
    e).state = true) (h : (ctx s e).disqualified = false) :
    let p := judged s kind (ctx s e)
    ∃ a, incidentCall e kind time s = ((open Classical in if FlagsCar p.2 then closeTest a else a), some
        ⟨p.2.cls, p.2.number, p.2.converted⟩) ∧
      (¬FlagsCar p.2 → Emits 0x88 1 (struck e p.1 none s) a [⟨e.val + 1, time, .call p.2⟩]) ∧
      (FlagsCar p.2 → Emits 0x88 1 (struck e p.1 (some (ruleOf s kind).enforce) s) a [⟨e.val + 1, time, .call
          p.2⟩]) ∧
      groupSet .call a = ((ruleOf s kind).attention || groupSet .call s) ∧ p.2.kind = kind ∧ (FlagsCar p.2 →
          p.1.state = .retired) :=
  incident_spec e kind time s ht (fun _ => h)

/-- An incident outside CHEQUERED. -/
theorem incident_called (e : Entry) (kind) (time) (s : State) (ht : takesIncidents (ctx s e).state =
    true) (hs : s.rstnLow = false) (hq : s.session.state ≠ .chequered) :
    let p := judged s kind (ctx s e)
    Called s (incident e kind time s) e time p.2 ∧ (incident e kind time s).session = s.session := by
  intro p
  unfold incident incidentCall; rw [if_pos ht]
  obtain ⟨n, hn⟩ : ∃ n, n = min 255 (countOf (ctx s e) kind + 1) := ⟨_, rfl⟩
  have hn' : saturate 255 (countOf (ctx s e) kind + 1) = n := by rw [hn]; rfl
  rw [hn']
  obtain ⟨row, hrow⟩ : ∃ row, row = ruleOf s kind := ⟨_, rfl⟩
  obtain ⟨c, hc⟩ : ∃ c : Context, c = { ctx s e with counts := (ctx s e).counts.set (kindIndex kind) n } := ⟨_,
      rfl⟩
  have hsc : updCtx e (setCount kind n) s = struck e c none s := by rw [hc]; rfl
  have hc1 : ctx (struck e c none s) e = c := ctx_struck _ _ _ _
  dsimp only
  rw [hsc, ← hrow]
  have hj : p = if row.allowance = none ∨ ∃ k, row.allowance = some k ∧ n ≤ k then
      (c, ⟨kind, .warning, n, row.sanction, calledAmount (rulingOf row), false, none⟩)
      else ((sanctioned kind (rulingOf row) c).1, ⟨kind, .penalty, n, row.sanction, calledAmount (rulingOf
          row), (sanctioned kind (rulingOf row) c).2.1, (sanctioned kind (rulingOf row) c).2.2⟩) := by
    show judged s kind (ctx s e) = _
    unfold judged; rw [← hn, ← hrow, hc]; rfl
  have hw : withinAllowance row.allowance n = true ↔ (row.allowance = none ∨ ∃ k, row.allowance = some k ∧ n ≤
      k) := by
    unfold withinAllowance; cases row.allowance <;> simp
  by_cases hwa : withinAllowance row.allowance n = true
  · rw [if_pos hwa]
    rw [if_pos (hw.1 hwa)] at hj
    obtain ⟨h1, h2⟩ := emits_emitCall e kind time ⟨.warning, n, false⟩ (rulingOf row) none (struck e c none s)
    rw [ruleOf_struck, groupSet_struck] at h2
    refine ⟨⟨?_, ?_⟩, ?_⟩
    · rw [hj]; exact h2
    · intro _ hq2; rw [hj]
      exact (h1.room (by rw [struck_rstnLow]; exact hs) (by rw [struck_link]; omega)).2 _ (by simp; rfl)
    · exact (outputs_session h1.out).trans (struck_session _ _ _ _)
  · rw [if_neg hwa]
    rw [if_neg (by rw [← hw]; exact hwa)] at hj
    unfold penalise
    obtain ⟨w, hw⟩ : ∃ w, w = struck e c none s := ⟨_, rfl⟩
    have hap : ((applySanction e kind (rulingOf row) w).2.converted = (sanctioned kind (rulingOf row) c).2.1) ∧
        ((applySanction e kind (rulingOf row) w).2.deadlineLap = (sanctioned kind (rulingOf row) c).2.2) := by
      rw [← hw] at hc1
      unfold applySanction sanctioned; rw [hc1]
      cases (rulingOf row).sanction
      · exact ⟨rfl, rfl⟩
      · exact ⟨rfl, rfl⟩
      · exact ⟨rfl, rfl⟩
      · dsimp only; by_cases hl : c.owed.length < 4
        · rw [if_pos hl, if_pos (show c.owed.length < Config.owedCapacity from hl)]; exact ⟨rfl, rfl⟩
        · rw [if_neg hl, if_neg (show ¬c.owed.length < Config.owedCapacity from hl)]; exact ⟨rfl, rfl⟩
      · dsimp only; by_cases hl : c.owed.length < 4
        · rw [if_pos hl, if_pos (show c.owed.length < Config.owedCapacity from hl)]; exact ⟨rfl, rfl⟩
        · rw [if_neg hl, if_neg (show ¬c.owed.length < Config.owedCapacity from hl)]; exact ⟨rfl, rfl⟩
      · exact ⟨rfl, rfl⟩
    obtain ⟨al, as, am⟩ := applySanction_link e kind (rulingOf row) w
    have ak := keeps_applySanction e kind (rulingOf row) w (by
      rw [hw, hc1, hc]; exact takesIncidents_used ht)
    rw [← hw]
    generalize applySanction e kind (rulingOf row) w = A at *
    dsimp only
    obtain ⟨h1, h2⟩ := emits_emitCall e kind time ⟨.penalty, n, A.2.converted⟩ (rulingOf row) A.2.deadlineLap
        A.1
    have hru : ruleOf A.1 kind = ruleOf s kind := by
      unfold ruleOf; rw [ak.rules, hw]; exact congrArg (fun r : Rule => r) (ruleOf_struck e c none s kind)
    rw [hru, show groupSet .call A.1 = groupSet .call s by
      unfold groupSet; rw [am, hw]; exact groupSet_struck _ _ _ _ _] at h2
    have ts := outputs_session h1.out
    have ws : w.session = s.session := by rw [hw]; exact struck_session _ _ _ _
    rw [closeTest_stay (.inl (by rw [ts, as, ws]; exact hq)), ite_self]
    refine ⟨⟨?_, ?_⟩, by rw [ts, as, ws]⟩
    · rw [hj]; exact h2
    · intro _ hq2; rw [hj]
      refine (h1.room (by rw [ak.rstnLow, hw, struck_rstnLow]; exact hs)
          (by rw [al, hw, struck_link]; omega)).2 _ ?_
      rw [hap.1, hap.2]; simp; rfl

/-- An incident outside CHEQUERED leaves a car's state or retires it. -/
theorem incident_state (e : Entry) (kind time) (s : State) (hq : s.session.state ≠ .chequered) : (ctx (incident
    e kind time s) e).state = (ctx s e).state ∨ (ctx (incident e kind time s) e).state = .retired := by
  unfold incident incidentCall
  split
  · have hc : (ctx (updCtx e (setCount kind (saturate 255 (countOf (ctx s e) kind + 1))) s) e).state = (ctx s
        e).state := by
      rw [updCtx_eq_struck, ctx_struck]; rfl
    have hss : (updCtx e (setCount kind (saturate 255 (countOf (ctx s e) kind + 1))) s).session = s.session :=
        rfl
    dsimp only
    generalize updCtx e (setCount kind (saturate 255 (countOf (ctx s e) kind + 1))) s = w at *
    split
    · dsimp only; rw [outputs_ctx (emits_emitCall _ _ _ _ _ _ _).1.out, hc]; exact .inl rfl
    · unfold penalise
      have := applySanction_state e kind (rulingOf (ruleOf s kind)) w
      have hs2 := (applySanction_link e kind (rulingOf (ruleOf s kind)) w).2.1
      generalize applySanction e kind (rulingOf (ruleOf s kind)) w = A at *
      dsimp only
      generalize hB : emitCall e kind time _ _ _ A.1 = B
      have ho : Outputs 0x88 A.1 B := by rw [← hB]; exact (emits_emitCall _ _ _ _ _ _ _).1.out
      rw [closeTest_stay (.inl (by rw [outputs_session ho, hs2, hss]; exact hq)), ite_self, outputs_ctx ho, ←
          hc]; exact this
  · exact .inl rfl

/-- A jump start is raised once (R71). -/
theorem jumpStart_of_flagged {e t s} (h : (ctx s e).jumpFlagged = true) : jumpStart e t s =
    s := by unfold jumpStart; rw [if_pos h]

/-- A request whose work calls a penalty or a warning, and may close the heat (R148, R150). -/
theorem request_calls {s v a : State} {c : Instr} {tag : Byte} {f : State → Answer} {e : Entry} {x : Context}
    {fl : Option Bool} {call : CallBody} {r : Result} {b : List Byte}
    (he : exec c s = complete (request tag f s)) (hl : Listening s) (hf : f (received .station s) = ⟨v, r, b⟩)
    (ha : Emits 0x88 1 (struck e x fl (received .station s)) a [⟨e.val + 1, s.clock.now, .call call⟩])
    (hg : groupSet .call a = ((ruleOf s call.kind).attention || groupSet .call s))
    (hv : v = a ∨ (v = closeHeat .allFinished false a)) :
    ∃ t, exec c s = .next t ∧ (v = a → Outputs 0x88 (struck e x fl s) t ∧ LampKept s t ∧
        Joined s t [⟨e.val + 1, s.clock.now, .call call⟩]) ∧
      (v = closeHeat .allFinished false a →
        HeatCloses 0xC8 (struck e x fl s) t .allFinished [⟨e.val + 1, s.clock.now, .call call⟩]) ∧
      Called s t e s.clock.now call ∧ Replied s t tag r b := by
  have al : (struck e x fl (received .station s)).link = (received .station s).link := struck_link _ _ _ _
  have sl : (struck e x fl s).link = s.link := struck_link _ _ _ _
  have br : (struck e x fl (received .station s)).rstnLow = false := by rw [struck_rstnLow]; exact hl.1
  have ar : a.rstnLow = false := by rw [ha.out.rest]; exact br
  have arp : RepliesKept s a := by have := ha.replies; unfold RepliesKept at *; rw [al] at this; exact this
  have hc := heatCloses_of (cause := .allFinished) (ha.sends (le_refl _)) br
  obtain ⟨v', e1, e2, e3, e4, e5, e6, e7, _, e9⟩ := closeHeat_keeps .allFinished a
  rw [e1] at hv hc
  have e1' := e1
  generalize closeHeat .allFinished false a = H at *
  subst e1'
  have vr : v.rstnLow = false := by
    rcases hv with h | h
    · rw [h]; exact ar
    · rw [h, e7]; exact ar
  have vrp : RepliesKept s v := by
    rcases hv with h | h
    · rw [h]; exact arp
    · rw [h]; exact drawn_trans arp e5
  have vk : ∀ x : Record, x.isSector = false → Recorded a x → Recorded v x := by
    rcases hv with h | h
    · rw [h]; exact fun x _ h => h
    · rw [h]; exact e4
  have vg : groupSet .call v = groupSet .call a := by
    rcases hv with h | h
    · rw [h]
    · rw [h]; exact e9 _ (by decide)
  obtain ⟨t, h1, h2, h3, h4, _⟩ := request_done (g := 0) (u := v) he hl hf vr vrp (outputs_refl _ _)
  refine ⟨t, h1, ?_, ?_, ⟨?_, ?_⟩, h3⟩
  · intro h
    have q := outputs_trans ha.out (outputs_zero (h ▸ h2))
    refine ⟨outputs_trans (outputs_zero (outputs_struck_received _ _ _ _)) q, ?_, fun hb hq => ?_⟩
    · have := drawn_trans ha.lamp (h ▸ h4.lamp)
      unfold LampKept at *; rw [al] at this; exact this
    · obtain ⟨p1, p2⟩ := ha.queue br (by rw [al]; exact hb) (by rw [al]; exact hq)
      have := (h ▸ h4.records).kept (by rw [p2, al]; exact hb)
      rw [this, p1, al]; rfl
  · intro h
    exact ((h ▸ hc).quiet h4).since (outputs_zero (outputs_struck_received _ _ _ _)) (by rw [al, sl]; exact Nat.le_refl _)
      (fun _ _ => by rw [al, sl]; exact ⟨rfl, rfl⟩)
  · rw [groupSet_outputs h2 (by decide), vg, hg]
  · intro _ hq
    refine recorded_quiet h4 (vk _ rfl ?_)
    exact (ha.room br (by rw [al]; show s.link.records.length + 1 ≤ 64; omega)).2 _ (by simp)

theorem sanctioned_keeps (kind) (r : Ruling) (c : Context) (h : r.sanction ≠ .blackFlag) : (sanctioned kind r
    c).1.state = c.state ∧ (sanctioned kind r c).1.laps = c.laps ∧ (sanctioned kind r c).1.bestLap =
    c.bestLap ∧ (sanctioned kind r c).1.counts = c.counts := by
  unfold sanctioned
  cases hk : r.sanction with
  | blackFlag => exact absurd hk h
  | note => exact ⟨rfl, rfl, rfl, rfl⟩
  | timeAdd => exact ⟨rfl, rfl, rfl, rfl⟩
  | lapDeduct => exact ⟨rfl, rfl, rfl, rfl⟩
  | driveThrough => dsimp only; split <;> exact ⟨rfl, rfl, rfl, rfl⟩
  | stopGo => dsimp only; split <;> exact ⟨rfl, rfl, rfl, rfl⟩

theorem get_set_count {n : Nat} (v : Vector Nat n) (i : Fin n) (a : Nat) : (v.set i a)[i] = a := by simp

theorem judged_keeps (s) (kind) (c : Context) (h : (ruleOf s kind).sanction ≠ .blackFlag) : (judged s kind
    c).1.state = c.state ∧ (judged s kind c).1.laps = c.laps ∧ (judged s kind c).1.bestLap = c.bestLap ∧
    countOf (judged s kind c).1 kind = min 255 (countOf c kind + 1) ∧ ¬FlagsCar (judged s kind c).2 := by
  unfold judged
  dsimp only
  split
  · refine ⟨rfl, rfl, rfl, ?_, ?_⟩
    · exact get_set_count _ _ _
    · rintro ⟨k, _⟩; cases k
  · have := sanctioned_keeps kind ⟨(ruleOf s kind).sanction, (ruleOf s kind).amount, (ruleOf s kind).window,
        (ruleOf s kind).fallback, (ruleOf s kind).enforce⟩
        { c with counts := c.counts.set (kindIndex kind) (min 255 (countOf c kind + 1)) } h
    refine ⟨this.1, this.2.1, this.2.2.1, ?_, ?_⟩
    · show (sanctioned _ _ _).1.counts[kindIndex kind] = _
      rw [this.2.2.2]; exact get_set_count _ _ _
    · rintro ⟨_, k⟩; exact h k

end Sys2Proof.Safety
end

