-- ==== Sys2Proof/Laws/Order.lean ====
section
/-! SUPPORT. The order unit: a placement puts the car behind the last car that ranks ahead of it, and the
classification is in order (R96 to R98, R107). -/

namespace Sys2Proof.Safety

open Sys2Proof Machine

theorem ahead_congr {s t : State} (h : t.contexts = s.contexts) (b a) : Ahead t b a ↔ Ahead s b a := by
  have : ctx t = ctx s := by funext e; unfold ctx; rw [h]
  unfold Ahead groupOf; rw [this]

/-- A placement (R97). -/
theorem place_placed (e : Entry) (v t : State) (hc : t.contexts = v.contexts) (ho : t.order.list =
    (place e v).order.list) (s : State) (hs : v.order = s.order) : Placed s t e := by
  obtain ⟨pre, post, p1, p2, p3, p4⟩ := insertBy_split (ranksAhead v) e (v.order.list.erase e)
  refine ⟨pre, post, by rw [← hs]; exact p1, by rw [ho]; exact p2, ?_, ?_⟩
  · intro b hb; rw [ahead_congr hc, ← ranksAhead_iff]; exact p3 b hb
  · intro b hb; rw [ahead_congr hc, ← ranksAhead_iff]; exact p4 b hb

theorem place_eq (e : Entry) (v : State) : place e v =
    { v with order := { v.order with list := (place e v).order.list } } := rfl

theorem standing_congr {a b : State} (hc : a.contexts = b.contexts) (ho : a.order.list =
    b.order.list) (hl : a.settings = b.settings) (e) : standing a e = standing b e := by
  have : ctx a = ctx b := by funext x; unfold ctx; rw [hc]
  unfold standing lines; rw [this, ho, hl]

theorem standing_congr_marks {t w : State} {e : Entry} (h1 : t.order.list = w.order.list) (h2 : t.settings =
    w.settings) (h : ∀ f, (ctx t f).progress = (ctx w f).progress ∧ (ctx t f).progressTime =
    (ctx w f).progressTime ∧ (ctx t f).ring = (ctx w f).ring) : standing w e = standing t e := by
  unfold standing lines
  rw [h1, h2]
  simp only [(h _).1, (h _).2.1, (h _).2.2]

/-! ### Classification (R107) -/

/-- The key by which a group is classified. -/
def classKey (s : State) (e : Entry) : Lex (Int × Lex (Int × Lex (WithTop Nat × Entry))) :=
  toLex (-(adjustedLaps (ctx s e) : Int), toLex (-(linesInLap s (ctx s e) : Int), toLex (topOf (adjustedTime
      (ctx s e)), e)))

theorem classedAhead_iff_key (s : State) (b a : Entry) : classedAhead s b a = true ↔
    classKey s b < classKey s a := by
  unfold classedAhead classKey
  rw [Prod.Lex.toLex_lt_toLex, Prod.Lex.toLex_lt_toLex, ← timeAhead_iff_key]
  dsimp only
  by_cases h1 : adjustedLaps (ctx s b) = adjustedLaps (ctx s a)
  · rw [if_neg (by simp [h1])]
    by_cases h2 : linesInLap s (ctx s b) = linesInLap s (ctx s a)
    · rw [if_neg (by simp [h2]), timeBefore_iff]; simp [h1, h2]
    · rw [if_pos h2]; simp [h1, h2]
  · rw [if_pos h1]; simp [h1]

theorem insertBy_pairwise (s : State) (e : Entry) (l : List Entry) (h : l.Pairwise fun b a => classKey s b <
    classKey s a) (he : e ∉ l) :
    (insertBy (classedAhead s) e l).Pairwise fun b a => classKey s b < classKey s a := by
  induction l with
  | nil => unfold insertBy; simp
  | cons b l ih =>
    rw [List.pairwise_cons] at h
    unfold insertBy
    by_cases hb : classedAhead s b e = true
    · rw [if_pos hb, List.pairwise_cons]
      refine ⟨?_, ih h.2 (fun k => he (List.mem_cons_of_mem _ k))⟩
      intro x hx
      obtain ⟨pre, post, h1, h2, _⟩ := insertBy_split (classedAhead s) e l
      rw [h2] at hx
      rcases List.mem_append.1 hx with hx | hx
      · exact h.1 x (by rw [h1]; exact List.mem_append_left _ hx)
      · rcases List.mem_cons.1 hx with rfl | hx
        · exact (classedAhead_iff_key _ _ _).1 hb
        · exact h.1 x (by rw [h1]; exact List.mem_append_right _ hx)
    · rw [if_neg hb, List.pairwise_cons]
      have hne : e ≠ b := fun k => he (by rw [k]; exact List.mem_cons_self)
      have hlt : classKey s e < classKey s b := by
        rw [classedAhead_iff_key] at hb
        rcases lt_trichotomy (classKey s e) (classKey s b) with k | k | k
        · exact k
        · unfold classKey at k
          have := congrArg (fun z => (ofLex (ofLex (ofLex z).2).2).2) k
          exact absurd this hne
        · exact absurd k hb
      refine ⟨?_, List.pairwise_cons.2 h⟩
      intro x hx
      rcases List.mem_cons.1 hx with rfl | hx
      · exact hlt
      · exact hlt.trans (h.1 x hx)

theorem classSort_perm (s : State) : ∀ l, (classSort s l).Perm l
  | [] => .refl _
  | e :: l => by unfold classSort; exact (insertBy_perm _ _ _).trans ((classSort_perm s l).cons e)

theorem classSort_pairwise (s : State) : ∀ l : List Entry, l.Nodup →
    (classSort s l).Pairwise fun b a => classKey s b < classKey s a
  | [], _ => by unfold classSort; simp
  | e :: l, h => by
    unfold classSort
    exact insertBy_pairwise s e _ (classSort_pairwise s l (List.nodup_cons.1 h).2) (fun k => (List.nodup_cons.1
        h).1 ((classSort_perm s l).mem_iff.1 k))

theorem groupMembers_nodup (s g) : (groupMembers s g).Nodup := by
  unfold groupMembers; exact List.Nodup.filter _ (by decide)

theorem mem_groupMembers (s g e) : e ∈ groupMembers s g ↔ (ctx s e).state ≠ .unused ∧ groupOf s e = g := by
  unfold groupMembers; simp [mem_allEntries]

theorem mem_classSort (s g e) : e ∈ classSort s (groupMembers s g) ↔ (ctx s e).state ≠ .unused ∧ groupOf s e =
    g := by
  rw [(classSort_perm s _).mem_iff, mem_groupMembers]

end Sys2Proof.Safety
end

