-- ==== Sys2Proof/Laws/Crossings.lean ====
section
/-! SUPPORT. The path of a crossing report: the mirror copy, the checks, conversion, identity, the delivery window
and the two last checks (R45 to R59). -/

namespace Sys2Proof.Safety

open Sys2Proof Machine

-- One theorem after another: the proofs of many at once would need too many threads.
set_option Elab.async false

/-! ### A state that differs by its outputs only -/

/-- The blocks that a crossing reads are the same in both states. -/
structure SameAs (s m : State) : Prop where
  gates : m.clock.gates = s.clock.gates
  now : m.clock.now = s.clock.now
  contexts : m.contexts = s.contexts
  session : m.session = s.session
  settings : m.settings = s.settings
  throttle : m.throttle = s.throttle
  penalty : m.penalty = s.penalty
  resolver : m.resolver = s.resolver
  order : m.order = s.order
  pit : m.pit = s.pit
  rstnLow : m.rstnLow = s.rstnLow

theorem mirrored_link (s g code count) : ∃ l, mirrored s g code count = { s with link := l } ∧ l.records =
    s.link.records := by
  unfold mirrored; split
  · exact ⟨_, rfl, rfl⟩
  · exact ⟨s.link, rfl, rfl⟩

theorem sameAs_mirrored (s g code count) : SameAs s (mirrored s g code count) := by
  obtain ⟨l, h, _⟩ := mirrored_link s g code count; rw [h]; exact ⟨rfl, rfl, rfl, rfl, rfl, rfl, rfl, rfl, rfl,
      rfl, rfl⟩

theorem sameAs_outputs {b : Byte} {s m t : State} (h : SameAs s m) (o : Outputs b m t) : SameAs s t :=
  ⟨(outputs_gates o).trans h.gates, (outputs_now o).trans
      h.now, by rw [outputs_contexts o, h.contexts], by rw [outputs_session o, h.session], by rw [o.rest]; exact h.settings,
   by rw [o.rest]; exact h.throttle, by rw [o.rest]; exact h.penalty, by rw [o.rest]; exact h.resolver, by rw [o.rest]; exact h.order, by rw [o.rest]; exact h.pit, by rw [o.rest]; exact h.rstnLow⟩

/-- The mirror copy (R45). -/
theorem emits_mirror (s : State) (g : GateId) (code : Byte) (count : Count) (hs : s.rstnLow = false) :
    Emits 1 0 (mirrored s g code count) (mirror (xingFrame (BitVec.ofNat 8 (g.val + 1)) code count) (received
        .track s)) [] ∧
    RecordsKept s (mirror (xingFrame (BitVec.ofNat 8 (g.val + 1)) code count) (received .track s)) := by
  generalize hf : xingFrame (BitVec.ofNat 8 (g.val + 1)) code count = f
  by_cases h : s.settings.timing.mirror = true
  · by_cases hl : s.link.up.length < 8
    · have e1 : mirror f (received .track s) = chooseStation
          { received .track s with link := { (received .track s).link with up := s.link.up ++ [f] } } := by
        unfold mirror; rw [if_pos (show (received .track s).settings.timing.mirror = true from h)]
        unfold offerUp; rw [if_neg (by show ¬ s.rstnLow = true; rw [hs]; simp), if_pos (show (received .track
            s).link.up.length < Config.passCapacity from hl)]
        rfl
      have e2 : mirrored s g code count = { s with link := { s.link with up := s.link.up ++ [f] } } := by
        unfold mirrored; rw [if_pos ⟨h, hl⟩, hf]
      rw [e1, e2]
      constructor
      · refine emits_trans (n := 0) (L := []) (b :=
            { received .track s with link := { (received .track s).link with up := s.link.up ++ [f] } }) ?_
            (emits_mono (emits_chooseStation _) (by simp))
        exact ⟨outputs_link { s with link := { s.link with up := s.link.up ++ [f] } } _ linkKept_of, Nat.le_refl _, fun _ _ => ⟨fun x h =>
            h, by simp⟩, drawn_same, drawn_same, fun _ _ h => h, fun _ _ _ => ⟨(List.append_nil _).symm, rfl⟩⟩
      · have := (quiet_chooseStation
            { received .track s with link := { (received .track s).link with up := s.link.up ++ [f] } }).records
        exact this
    · have e1 : mirror f (received .track s) = setGroup .link (received .track s) := by
        unfold mirror; rw [if_pos (show (received .track s).settings.timing.mirror = true from h)]
        unfold offerUp; rw [if_neg (by show ¬ s.rstnLow = true; rw [hs]; simp), if_neg (show ¬(received .track
            s).link.up.length < Config.passCapacity from hl)]
      have e2 : mirrored s g code count = s := by
        unfold mirrored; rw [if_neg (fun k => hl k.2)]
      rw [e1, e2]
      constructor
      · refine emits_trans (n := 0) (L := []) (b := received .track s) ?_ (emits_group .link _)
        refine ⟨outputs_link _ _ (linkKept_receivedTrack rfl), Nat.le_refl _, fun _ _ => ⟨fun x h =>
            h, by simp⟩, drawn_same, drawn_same, fun _ _ h => h, fun _ _ _ => ⟨(List.append_nil _).symm, rfl⟩⟩
      · exact drawn_same
  · have e1 : mirror f (received .track s) = (received .track s) := by
      unfold mirror; rw [if_neg (show ¬(received .track s).settings.timing.mirror = true from h)]
    have e2 : mirrored s g code count = s := by
      unfold mirrored; rw [if_neg (fun k => h k.1)]
    rw [e1, e2]
    exact ⟨⟨outputs_link _ _ (linkKept_receivedTrack rfl), Nat.le_refl _, fun _ _ => ⟨fun x h => h, by simp⟩,
        drawn_same, drawn_same, fun _ _ h => h, fun _ _ _ => ⟨(List.append_nil _).symm, rfl⟩⟩, drawn_same⟩

/-- A good XING frame while RSTN is high. -/
theorem exec_xingReceived (s : State) (g : GateId) (code : Byte) (count : Count) (arrival : Ticks) (hs :
    s.rstnLow = false) (hc : code.toNat ≤ 15 ∨ code.toNat = 31) :
    exec (.xingReceived (BitVec.ofNat 8 (g.val + 1)) code count arrival) s =
      .next (settle (resolveReport g code count arrival (mirror (xingFrame (BitVec.ofNat 8 (g.val + 1)) code
          count) (received .track s)))) := by
  show Host.Outcome.next (settle (takeFrame _ _ s)) = _
  unfold takeFrame; rw [if_neg (by rw [hs]; simp), gateOf_byte]
  have : codeInRange code = true := by
    unfold codeInRange; simp
    rcases hc with h | h
    · exact .inl h
    · right; exact h
  dsimp only
  rw [this]; rfl

theorem same_gate {s m : State} (h : SameAs s m) (g) : gate m g = gate s g := by unfold gate; rw [h.gates]

theorem same_ctx {s m : State} (h : SameAs s m) (e) : ctx m e = ctx s e := by unfold ctx; rw [h.contexts]

theorem same_entryRow {s m : State} (h : SameAs s m) (e) : entryRow m e =
    entryRow s e := by unfold entryRow; rw [h.throttle]

theorem same_lineRow {s m : State} (h : SameAs s m) (e) : lineRow m e =
    lineRow s e := by unfold lineRow; rw [h.throttle]

theorem same_lines {s m : State} (h : SameAs s m) : lines m =
    s.settings.timing.lines := by unfold lines; rw [h.settings]

theorem same_gateCheck {s m : State} (h : SameAs s m) (g : GateId) : gateCheck m g = gateCheck s g := by
  unfold gateCheck; rw [same_gate h, h.settings, h.session, same_lines h]; rfl

theorem same_convert {s m : State} (h : SameAs s m) (g : GateId) (count arrival) : convert m (gate m g) count
    arrival = convert s (gate s g) count arrival := by
  unfold convert; rw [same_gate h, h.settings]

theorem same_identify {s m : State} (h : SameAs s m) (g : GateId) (code) (t : Ticks) : identify m g code t =
    identify s g code t := by
  have h1 : partnerPair m g = partnerPair s g := by unfold partnerPair; rw [same_gate h, h.resolver]
  have h2 : candidates m (gate m g) t = candidates s (gate s g) t := by
    unfold candidates
    rw [same_gate h]
    apply List.filter_congr; intro e _
    unfold candidateLane candidateTime zoneOpen
    rw [same_ctx h, same_lineRow h, h.throttle, h.session, h.settings]
  have h3 : entryWithCode m code = entryWithCode s code := by
    unfold entryWithCode mapped; congr 1; funext e; rw [same_entryRow h]
  unfold identify; rw [h1, h2, h3]

theorem emits_mirror_congr {s m M : State} (hm : SameAs s m) (hM : SameAs s M) (em : Emits 1 0 M m []) (C :
    Vector Context 16) (P : Pit) (O : Order) :
    Emits 1 0 { M with contexts := C, pit := P, order := O } { m with contexts := C, pit := P, order := O }
        [] := by
  have := emits_congr em C P O s.resolver s.session s.penalty s.throttle
  have e1 : ({ M with contexts := C, pit := P, order := O, resolver := s.resolver, session := s.session, penalty := s.penalty, throttle := s.throttle }
      : State) = { M with contexts := C, pit := P, order := O } := by
    rw [← hM.resolver, ← hM.session, ← hM.penalty, ← hM.throttle]
  have e2 : ({ m with contexts := C, pit := P, order := O, resolver := s.resolver, session := s.session, penalty := s.penalty, throttle := s.throttle }
      : State) = { m with contexts := C, pit := P, order := O } := by
    rw [← hm.resolver, ← hm.session, ← hm.penalty, ← hm.throttle]
  rw [e1, e2] at this; exact this

/-! ### Checks, conversion and identity (R42, R46 to R51) -/

/-- Conversion (R41, R42). -/
theorem convert_eq (s : State) (g : GateId) (count : Count) (arrival : Ticks) : convert s (gate s g) count
    arrival = converted s g count arrival := by
  have hraw : rawTime (gate s g) count arrival = (match (gate s g).alignment with
    | .aligned ref => (ref.time + (let v : Int := ((count.toNat : Int) - ref.count.toNat) % 16777216; if 8388608 ≤ v then v - 16777216 else v), false)
    | .stale ref => (ref.time + (let v : Int := ((count.toNat : Int) - ref.count.toNat) % 16777216; if 8388608 ≤ v then v - 16777216 else v), true)
    | .unaligned => ((arrival : Int) - (gate s g).hop, true)) := by
    unfold rawTime; cases (gate s g).alignment with
    | unaligned => rfl
    | aligned ref => dsimp only; rw [signedDiff_eq]
    | stale ref => dsimp only; rw [signedDiff_eq]
  have h2 : converted s g count arrival = (fun raw : Int × Bool => if (arrival : Int) < raw.1 then (arrival,
      true)
      else if raw.1 < ((arrival - s.settings.timing.lagMax : Nat) : Int) then ((arrival -
          s.settings.timing.lagMax : Nat), true)
      else (raw.1.toNat, raw.2)) (rawTime (gate s g) count arrival) := by
    rw [hraw]; rfl
  rw [h2]
  unfold convert intoWindow windowLow
  dsimp only
  generalize rawTime (gate s g) count arrival = q
  split
  · simp
  · split
    · simp
    · simp

theorem laneOn_iff (s : State) (g : GateId) : laneIn s.settings.timing.lanesEnabled (gate s g).lane = true ↔
    LaneOn s g := laneIn_iff _ _

theorem gateCheck_none {s g} (h1 : ¬GateUnused s g) (h2 : LaneOn s g) (h3 : s.session.state ≠ .idle ∧
    s.session.state ≠ .closed) : gateCheck s g = none := by
  unfold gateCheck; dsimp only
  rw [if_neg (by exact h1), if_neg (by rw [(laneOn_iff s g).2 h2]; simp), if_neg (by simp [h3])]

/-- A STRAY record (R60). -/
theorem emits_stray (gt time code r s) : Emits 0x84 1 s (stray gt time code r s) [⟨gt, time, .stray code
    r⟩] := by
  have := emits_trans (emits_mono (emits_emit ⟨gt, time, .stray code r⟩ s) (g' := 0x84) (by decide))
      (emits_mono (emits_group .stray _) (g' := 0x84) (by decide))
  exact this

/-- A candidate (R50). -/
theorem candidate_iff (s : State) (g : GateId) (t : Ticks) (e : Entry) : (candidatePosition (gate s g) (ctx s
    e) && candidateLane s (gate s g) (ctx s e) && candidateTime s (gate s g) t (ctx s e)) = true ↔
    Candidate s g t e := by
  unfold Candidate candidatePosition candidateLane candidateTime
  have hz : slotLine (gate s g) = zoneLine s g := rfl
  have hzo : ∀ j, zoneOpen s j = true ↔ ((lineRow s j).mode ≠ .veto ∧ s.throttle.zoneOverride = false ∧
      ¬(s.session.state = .caution ∧ s.settings.timing.cautionClose = true)) := by
    intro j; unfold zoneOpen; simp [and_assoc]; intros; exact Decidable.imp_iff_not_or.symm
  rw [hz]
  simp only [Bool.and_eq_true, and_assoc]
  have hp : (match (gate s g).role with
      | .line => (ctx s e).state == .running && (ctx s e).expected == (gate s g).line
      | .pitEntry => (ctx s e).state == .running && (ctx s e).expected == 0
      | .pitExit => (ctx s e).state == .inPit
      | .unused => false) = true ↔ (match (gate s g).role with
      | .line => (ctx s e).state = .running ∧ (ctx s e).expected = (gate s g).line
      | .pitEntry => (ctx s e).state = .running ∧ (ctx s e).expected = 0
      | .pitExit => (ctx s e).state = .inPit
      | .unused => False) := by cases (gate s g).role <;> simp
  refine and_congr hp ?_
  cases (ctx s e).last with
  | none => simp
  | some l =>
    dsimp only
    simp only [Bool.or_eq_true, Bool.and_eq_true, beq_iff_eq, hzo, decide_eq_true_eq]
    constructor
    · rintro ⟨h1, h2⟩ l' hl; cases hl; exact ⟨h1, h2⟩
    · intro h; exact h l rfl

theorem mem_candidates (s : State) (g : GateId) (t : Ticks) (e : Entry) : e ∈ candidates s (gate s g) t ↔
    Candidate s g t e := by
  unfold candidates; rw [List.mem_filter]
  rw [← candidate_iff]; exact ⟨fun h => h.2, fun h => ⟨mem_allEntries e, h⟩⟩

theorem candidates_nodup (s g t) : (candidates s (gate s g) t).Nodup := List.Nodup.filter _ (by decide)

theorem candidates_one {s g t e} (h : ∀ f, Candidate s g t f ↔ f = e) : candidates s (gate s g) t = [e] := by
  have hn := candidates_nodup s g t
  have hm : ∀ f, f ∈ candidates s (gate s g) t ↔ f = e := fun f => (mem_candidates s g t f).trans (h f)
  revert hn hm
  generalize candidates s (gate s g) t = l
  intro hn hm
  match l with
  | [] => have := (hm e).2 rfl; simp at this
  | [a] => rw [(hm a).1 (by simp)]
  | a :: b :: l' =>
    have h1 := (hm a).1 (by simp)
    have h2 := (hm b).1 (by simp)
    rw [h1, h2] at hn; simp at hn

theorem partnerPair_none {s g} (h : NoPartner s g) : partnerPair s g = none := by
  unfold partnerPair; split
  · rename_i hr
    rw [List.find?_eq_none]; intro p hp
    have := h hr p hp
    simp only [Bool.and_eq_true, beq_iff_eq, bne_iff_ne, not_and]
    intro h1; have := this h1.1 h1.2; simp [this]
  · rfl

theorem unreadable_iff (code : Byte) : code = unreadable ↔ code.toNat = 31 := by
  constructor
  · rintro rfl; rfl
  · intro h; exact BitVec.eq_of_toNat_eq (by simpa [unreadable] using h)

/-- Identity (R48 to R51). -/
theorem identify_attributed {s g code t e inf} (h : Attributed s g code t e inf) : identify s g code t =
    .inl (e, inf) := by
  unfold identify
  rcases h with ⟨h1, h2, h3⟩ | ⟨h1, h2, h3, h4⟩
  · rw [if_neg (by rw [unreadable_iff]; omega)]
    have : entryWithCode s code = some e := by
      unfold entryWithCode
      cases hf : allEntries.find? (fun e => mapped s e && (entryRow s e).code == code) with
      | none =>
        rw [List.find?_eq_none] at hf
        have k := (h3 e).2 rfl
        have := hf e (mem_allEntries e)
        simp [mapped, Option.isSome_iff_ne_none, k.1, k.2] at this
      | some f =>
        have k := List.find?_some hf
        simp only [Bool.and_eq_true, beq_iff_eq, mapped, Option.isSome_iff_ne_none] at k
        rw [(h3 f).1 k]
    rw [this, h2]
  · rw [if_pos ((unreadable_iff code).2 h1), partnerPair_none h3, candidates_one h4, h2]

/-! ### Window, holdoff and order (R56, R57) -/

theorem samePlace_iff {s m : State} (_hm : SameAs s m) (g : GateId) (x : Report) (l : LastCrossing) (hr : x.role
    = (gate s g).role) (hl : x.line = (gate s g).line) : samePlace x l = true ↔ SamePlace s g l := by
  unfold samePlace SamePlace; rw [hr, hl]
  simp only [Bool.or_eq_true, Bool.and_eq_true, beq_iff_eq]
  constructor
  · rintro ((h | h) | h)
    · exact ⟨by rw [h.1.1, h.1.2], .inl ⟨h.1.1, h.2⟩⟩
    · exact ⟨by rw [h.1, h.2], .inr (.inl h.1)⟩
    · exact ⟨by rw [h.1, h.2], .inr (.inr h.1)⟩
  · rintro ⟨h1, h2 | h2 | h2⟩
    · exact .inl (.inl ⟨⟨h2.1, by rw [← h1, h2.1]⟩, h2.2⟩)
    · exact .inl (.inr ⟨h2, by rw [← h1, h2]⟩)
    · exact .inr ⟨h2, by rw [← h1, h2]⟩

theorem window_toNat (r : Int) (a l : Nat) (h1 : ¬ (a:Int) < r) (h2 : ¬ r < ((a - l : Nat):Int)) : r.toNat ≤ a
    ∧ a - l ≤ r.toNat := by omega

theorem window_cast (t a l : Nat) (h1 : t ≤ a) (h2 : a - l ≤ t) : ¬ (a : Int) < t ∧
    ¬ (t:Int) < ((a-l:Nat):Int) := by omega

theorem converted_window (s : State) (g count arrival) : (converted s g count arrival).1 ≤ arrival ∧
    arrival - s.settings.timing.lagMax ≤ (converted s g count arrival).1 := by
  rw [← convert_eq]
  unfold convert intoWindow windowLow
  dsimp only
  split
  · exact ⟨le_refl _, Nat.sub_le _ _⟩
  · split
    · exact ⟨Nat.sub_le _ _, le_refl _⟩
    · exact window_toNat _ _ _ ‹_› ‹_›

theorem deliveryWindow_id (s : State) (x : Report) (h1 : x.time ≤ x.arrival) (h2 : x.arrival -
    s.settings.timing.lagMax ≤ x.time) : deliveryWindow s x = x := by
  unfold deliveryWindow intoWindow windowLow
  rw [if_neg (window_cast _ _ _ h1 h2).1, if_neg (window_cast _ _ _ h1 h2).2]
  simp

theorem intoWindow_time (lag : Nat) (a t : Ticks) : (intoWindow lag a t).1 =
    if a < t then a else if t < a - lag then a - lag else t := by
  unfold intoWindow windowLow
  by_cases h1 : a < t
  · rw [if_pos h1, if_pos (Int.ofNat_lt.2 h1)]
  · rw [if_neg h1, if_neg (fun k => h1 (Int.ofNat_lt.1 k))]
    by_cases h2 : t < a - lag
    · rw [if_pos h2, if_pos (Int.ofNat_lt.2 h2)]
    · rw [if_neg h2, if_neg (fun k => h2 (Int.ofNat_lt.1 k))]; rfl

theorem not_paired_of_single {s m g} (hm : SameAs s m) (h : Single s g) (hr : (gate s g).role =
    .line) : isPaired m (gate s g).line (gate s g).lane = false := by
  obtain ⟨pos, hp⟩ := h hr
  have hz : ∀ p, hasLineGate m (gate s g).line (gate s g).lane p = true → ∃ k, (gate s k).role = .line ∧ (gate
      s k).line = (gate s g).line ∧ (gate s k).lane = (gate s g).lane ∧ (gate s k).position = p := by
    intro p hp
    unfold hasLineGate at hp
    rw [any_allGates] at hp
    obtain ⟨k, hk⟩ := hp
    rw [same_gate hm] at hk
    simp only [Bool.and_eq_true, beq_iff_eq] at hk
    exact ⟨k, hk.1.1.1, hk.1.1.2, hk.1.2, hk.2⟩
  unfold isPaired
  rw [← Bool.not_eq_true, Bool.and_eq_true]
  rintro ⟨a, b⟩
  cases pos
  · obtain ⟨k, h1, h2, h3, h4⟩ := hz _ a; exact hp k h1 h2 h3 h4
  · obtain ⟨k, h1, h2, h3, h4⟩ := hz _ b; exact hp k h1 h2 h3 h4

/-- A report of an unpaired line-lane is delivered as a single report (R53). -/
theorem resolveReport_eq {s m : State} (hm : SameAs s m) {g : GateId} {code : Byte} {count : Count}
    {arrival : Ticks} {e : Entry} {inf : Bool}
    (h1 : ¬GateUnused s g) (h2 : LaneOn s g) (h3 : s.session.state ≠ .idle ∧ s.session.state ≠ .closed)
    (h4 : Attributed s g code (converted s g count arrival).1 e inf) (h5 : Single s g) :
    resolveReport g code count arrival m = deliver (singleReport s g code count arrival e inf) m := by
  unfold resolveReport
  rw [same_gateCheck hm, gateCheck_none h1 h2 h3]; dsimp only
  rw [same_convert hm, convert_eq, same_identify hm, identify_attributed h4]; dsimp only
  have hr : reportOf m g code (converted s g count arrival).1 (converted s g count arrival).2 arrival (e, inf)
      = singleReport s g code count arrival e inf := by
    unfold reportOf singleReport; rw [same_gate hm]; rfl
  rw [hr]
  unfold pairStep
  rw [if_pos]
  show (!((gate s g).role == .line && isPaired m (gate s g).line (gate s g).lane)) = true
  by_cases hro : (gate s g).role = .line
  · rw [not_paired_of_single hm h5 hro]; simp
  · simp [hro]

/-- Delivery (R56, R57, R59). -/
theorem deliver_eq {s m : State} (hm : SameAs s m) (g code count arrival e inf) : deliver (singleReport s g
    code count arrival e inf) m =
    if heldOff m (singleReport s g code count arrival e inf) then m else if outOfOrder m (singleReport s g code
        count arrival e inf) then
      stray (g.val + 1) (converted s g count arrival).1 code .order m else acceptCrossing (singleReport s g
          code count arrival e inf) m := by
  unfold deliver; dsimp only
  have := converted_window s g count arrival
  rw [deliveryWindow_id m _ this.1 (by rw [hm.settings]; exact this.2)]; rfl

/-- Holdoff (R56). -/
theorem heldOff_iff {s m : State} (hm : SameAs s m) (g code count arrival e inf) : heldOff m (singleReport s g
    code count arrival e inf) = true ↔ ∃ l, (ctx s e).last = some l ∧ SamePlace s g l ∧
    (converted s g count arrival).1 < l.time + s.settings.timing.lineHoldoff := by
  unfold heldOff
  show (match (ctx m e).last with | none => false | some l => samePlace (singleReport s g code count arrival e inf) l && decide ((converted s g count arrival).1 < l.time + m.settings.timing.lineHoldoff)) = true ↔ _
  rw [same_ctx hm, hm.settings]
  cases (ctx s e).last with
  | none => simp
  | some l => simp [samePlace_iff hm g (singleReport s g code count arrival e inf) l rfl rfl]

/-- Order (R57). -/
theorem outOfOrder_iff {s m : State} (hm : SameAs s m) (g code count arrival e inf) : outOfOrder m
    (singleReport s g code count arrival e inf) = true ↔ ∃ l, (ctx s e).last = some l ∧
    (converted s g count arrival).1 ≤ l.time := by
  unfold outOfOrder
  show (match (ctx m e).last with | none => false | some l => decide ((converted s g count arrival).1 ≤ l.time)) = true ↔ _
  rw [same_ctx hm]
  cases (ctx s e).last with
  | none => simp
  | some l => simp

/-- A crossing that is accepted reaches the lap engine (R59). -/
theorem exec_accepted {s : State} {g : GateId} {code : Byte} {count : Count} {arrival : Ticks} {e : Entry}
    {inf : Bool} (h : Accepts s g code count arrival e inf) :
    ∃ m, exec (.xingReceived (BitVec.ofNat 8 (g.val + 1)) code count arrival) s =
        .next (settle (acceptCrossing (singleReport s g code count arrival e inf) m)) ∧
      SameAs s m ∧ Emits 1 0 (mirrored s g code count) m [] ∧ RecordsKept s m := by
  have hcode : code.toNat ≤ 15 ∨ code.toNat = 31 := by
    rcases h.who with k | k
    · exact .inl k.1
    · exact .inr k.1
  have key := exec_xingReceived s g code count arrival h.high hcode
  obtain ⟨em, er⟩ := emits_mirror s g code count h.high
  generalize mirror (xingFrame (BitVec.ofNat 8 (g.val + 1)) code count) (received .track s) = m at *
  have hm : SameAs s m := sameAs_outputs (sameAs_mirrored s g code count) em.out
  refine ⟨m, ?_, hm, em, er⟩
  rw [key, resolveReport_eq hm h.used h.lane h.heat h.who h.single, deliver_eq hm, if_neg, if_neg]
  · rw [outOfOrder_iff hm]; rintro ⟨l, h1, h2⟩
    exact absurd (h.later l h1) (Nat.not_lt.2 h2)
  · rw [heldOff_iff hm]; rintro ⟨l, h1, h2, h3⟩
    exact absurd (h.clear l h1 h2) (Nat.not_le.2 h3)

end Sys2Proof.Safety
end

