-- ==== Sys2Proof/Laws/Laps.lean ====
section
/-! SUPPORT. Parts of the lap engine: missed lines, closed zones, placement outside CAUTION, the overdue deadline and the
neutral flag of a lap's start (R75, R81, R85, R86). Its stages stand in Laws/Stages.lean. -/

namespace Sys2Proof.Safety

open Sys2Proof Machine

/-! ### Parts of a crossing -/

/-- The missed lines (R75). -/
theorem missedLines_facts : ∀ (L : Nat) (k j : Line), k.val < L → j.val < L → L ≤ 5 →
    (missedLines L k j).length = (j.val + L - k.val) % L ∧
    ((0 : Line) ∈ missedLines L k j ↔ j ≠ 0 ∧ (k = 0 ∨ j < k)) := by
  have : ∀ L : Fin 6, ∀ k j : Line, k.val < L.val → j.val < L.val →
    (missedLines L.val k j).length = (j.val + L.val - k.val) % L.val ∧
    ((0 : Line) ∈ missedLines L.val k j ↔ j ≠ 0 ∧ (k = 0 ∨ j < k)) := by decide
  intro L k j h1 h2 h3
  exact this ⟨L, by omega⟩ k j h1 h2

theorem missedFrom_not_mem (L : Nat) (j : Line) : ∀ n k, j ∉ missedFrom L j n k
  | 0, k => by simp [missedFrom]
  | n + 1, k => by
    unfold missedFrom
    split
    · simp
    · rename_i h
      simp only [List.mem_cons, not_or]
      exact ⟨fun q => h q.symm, missedFrom_not_mem L j n _⟩

theorem closingMisses_all : ∀ l : List Line, (0 : Line) ∉ l → closingMisses l = l
  | [], _ => rfl
  | k :: l, h => by
    simp only [List.mem_cons, not_or] at h
    unfold closingMisses; rw [if_neg (fun q => h.1 q.symm), closingMisses_all l h.2]

/-- A zone closed to lane changes (R85). -/
theorem foulZone_iff (s : State) (j : Line) : foulZone s j = true ↔ ((lineRow s j).mode ≠ .openZone ∨
     (s.session.state = .caution ∧ s.settings.timing.cautionClose = true) ∨ s.throttle.zoneOverride =
         true) := by
  unfold foulZone; simp [or_assoc]

theorem unlessFlagged_of_running {x : Report} {v : State} {rest} (h : (ctx v x.entry).state ≠ .retired) :
    unlessFlagged x v rest = rest v := by
  unfold unlessFlagged; rw [if_neg h]

/-- A placement outside CAUTION. -/
theorem placeCar_calm {e t v} (h : v.session.state ≠ .caution) : placeCar e t v = place e v := by
  unfold placeCar checkPasses
  have : (place e v).session.state = v.session.state := rfl
  split
  · rename_i h1 _; exact absurd (this ▸ h1) h
  · rfl

/-- The overdue deadline (R86). -/
theorem setOverdue_eq {v s : State} {x : Report} (hs : v.session = s.session) (ht : v.throttle =
    s.throttle) (hn : v.clock.now = s.clock.now) (hp : (ctx v x.entry).state ≠ .inPit) :
    setOverdue x v = struck x.entry
        { ctx v x.entry with deadline := overdueFrom s x.time (ctx v x.entry).expected } none v := by
  unfold setOverdue overdueFrom
  have hl : lineRow v (ctx v x.entry).expected = lineRow s (ctx v
      x.entry).expected := by unfold lineRow; rw [ht]
  dsimp only
  rw [updCtx_eq_struck, hl, hs, hn]
  congr 2
  by_cases h0 : (lineRow s (ctx v x.entry).expected).overdue = 0
  · rw [if_pos (.inl h0), if_pos h0]
  · rw [if_neg (by rintro (k | k); exact h0 k; exact hp k), if_neg h0]

/-- The neutral candidate flag at a lap start (R81). -/
theorem neutralAtStart_iff {v s : State} (hs : v.session = s.session) (hn : v.clock.now =
    s.clock.now) (t : Ticks) : neutralAtStart v (some t) = true ↔ NeutralStart s t := by
  unfold neutralAtStart NeutralStart; rw [hs, hn, List.any_eq_true]
  constructor
  · rintro ⟨p, h1, h2⟩
    refine ⟨p, h1, ?_⟩
    simp only [Bool.and_eq_true, decide_eq_true_eq] at h2
    refine ⟨h2.1, ?_⟩
    intro x hx; rw [hx] at h2; simpa using h2.2
  · rintro ⟨p, h1, h2, h3⟩
    refine ⟨p, h1, ?_⟩
    simp only [Bool.and_eq_true, decide_eq_true_eq]
    refine ⟨h2, ?_⟩
    cases hx : p.stop with
    | none => rfl
    | some y => simpa using h3 y hx

end Sys2Proof.Safety
end

