-- ==== Sys2Proof/Laws/Stages.lean ====
section
/-! SUPPORT. The work of a crossing as a chain of stages: each stage replaces the car's context, the pit places or the
running order and sends records, and what a chain has done so far is one relation (R85, R97, R102, R134). -/

namespace Sys2Proof.Safety

open Sys2Proof Machine

-- One theorem after another: the proofs of many at once would need too many threads.
set_option Elab.async false

/-- The records of one car and one time. -/
def recordsOf (e : Entry) (time : Ticks) (l : List RecordBody) : List Record := l.map fun b => ⟨e.val + 1, time, b⟩

/-- The work of a crossing of car e at a time has come from `m` to `v`: the car's context, the pit places and the order
block are these, these records have gone out, and CALL is set as they ask. -/
structure At (m : State) (e : Entry) (time : Ticks) (d : Context) (P : Pit) (O : Order) (v : State)
    (l : List RecordBody) : Prop where
  out : Emits 0x88 l.length { m with contexts := m.contexts.set e d, pit := P, order := O } v (recordsOf e time l)
  call : groupSet .call v = (l.any (asksCall m) || groupSet .call m)

section
variable {m v : State} {e : Entry} {time : Ticks} {d : Context} {P : Pit} {O : Order} {l : List RecordBody}

theorem at_start (m : State) (e : Entry) (time : Ticks) : At m e time (ctx m e) m.pit m.order m [] := by
  refine ⟨?_, by simp⟩
  have : ({ m with contexts := m.contexts.set e (ctx m e), pit := m.pit, order := m.order } : State) = m := by
    unfold ctx; rw [set_get_self]
  rw [this]; exact emits_refl _ _

theorem At.contexts (h : At m e time d P O v l) : v.contexts = m.contexts.set e d := outputs_contexts h.out.out

theorem At.ctx (h : At m e time d P O v l) : ctx v e = d := by
  unfold Machine.ctx; rw [h.contexts]; exact get_set _ _ _

theorem At.ctx_ne (h : At m e time d P O v l) {f : Entry} (n : f ≠ e) : Machine.ctx v f = Machine.ctx m f := by
  unfold Machine.ctx; rw [h.contexts]; exact get_set_ne _ _ n

theorem At.session (h : At m e time d P O v l) : v.session = m.session :=
  (outputs_session h.out.out).trans rfl

theorem At.pit (h : At m e time d P O v l) : v.pit = P := outputs_pit h.out.out

theorem At.order (h : At m e time d P O v l) : v.order = O := outputs_order h.out.out

theorem At.now (h : At m e time d P O v l) : v.clock.now = m.clock.now :=
  (outputs_now h.out.out).trans rfl

theorem At.settings (h : At m e time d P O v l) : v.settings = m.settings := by rw [h.out.out.rest]

theorem At.throttle (h : At m e time d P O v l) : v.throttle = m.throttle := by rw [h.out.out.rest]

theorem At.penalty (h : At m e time d P O v l) : v.penalty = m.penalty := by rw [h.out.out.rest]

theorem At.resolver (h : At m e time d P O v l) : v.resolver = m.resolver := by rw [h.out.out.rest]

theorem At.ruleOf (h : At m e time d P O v l) (k) : ruleOf v k = Machine.ruleOf m k := by
  unfold Machine.ruleOf; rw [h.penalty]

theorem At.judged (h : At m e time d P O v l) (k c) : judged v k c = Safety.judged m k c := by
  unfold Safety.judged; rw [h.ruleOf]

theorem At.lines (h : At m e time d P O v l) : lines v = m.settings.timing.lines := by
  unfold Machine.lines; rw [h.settings]

/-- The blocks that a stage may replace are replaced. -/
theorem At.put (h : At m e time d P O v l) (d' : Context) (P' : Pit) (O' : Order) :
    At m e time d' P' O' { v with contexts := m.contexts.set e d', pit := P', order := O' } l := by
  refine ⟨?_, h.call⟩
  have q := emits_congr h.out (m.contexts.set e d') P' O' m.resolver m.session m.penalty m.throttle
  have r : ({ v with contexts := m.contexts.set e d', pit := P', order := O', resolver := m.resolver, session := m.session, penalty := m.penalty, throttle := m.throttle }
      : State) = { v with contexts := m.contexts.set e d', pit := P', order := O' } := by
    rw [← h.resolver, ← h.session, ← h.penalty, ← h.throttle]
  rw [r] at q; exact q

/-- The car's context is replaced. -/
theorem At.struck (h : At m e time d P O v l) (d' : Context) : At m e time d' P O (struck e d' none v) l := by
  have q := h.put d' P O
  have r : ({ v with contexts := m.contexts.set e d', pit := P, order := O } : State) = Safety.struck e d' none v := by
    unfold Safety.struck; dsimp only
    rw [h.contexts, set_set, ← h.pit, ← h.order]
  rw [r] at q; exact q

theorem At.updCtx (h : At m e time d P O v l) (f : Context → Context) :
    At m e time (f d) P O (updCtx e f v) l := by
  rw [updCtx_eq_struck, h.ctx]; exact h.struck _

/-- The pit places are replaced. -/
theorem At.setPit (h : At m e time d P O v l) (P' : Pit) : At m e time d P' O { v with pit := P' } l := by
  have q := h.put d P' O
  rw [← h.contexts, ← h.order] at q; rw [← h.order]; exact q

/-- The order block is replaced. -/
theorem At.setOrder (h : At m e time d P O v l) (O' : Order) : At m e time d P O' { v with order := O' } l := by
  have q := h.put d P O'
  rw [← h.contexts, ← h.pit] at q; rw [← h.pit]; exact q

theorem recordsOf_append (e : Entry) (time : Ticks) (a b : List RecordBody) :
    recordsOf e time (a ++ b) = recordsOf e time a ++ recordsOf e time b := List.map_append

/-- A record of the car at the crossing's time, no CALL, goes out. -/
theorem At.emit (h : At m e time d P O v l) {b : RecordBody} (hb : asksCall m b = false) :
    At m e time d P O (emit ⟨e.val + 1, time, b⟩ v) (l ++ [b]) := by
  refine ⟨?_, ?_⟩
  · rw [recordsOf_append, List.length_append]
    exact emits_trans h.out (emits_mono (emits_emit _ _) (by decide))
  · rw [groupSet_outputs (outputs_emit _ v) (by decide), h.call, List.any_append]; simp [hb]

/-- An incident that costs no black flag. -/
theorem At.incident (h : At m e time d P O v l) {k : IncidentKind} (ht : takesIncidents d.state = true)
    (hf : ¬FlagsCar (Safety.judged m k d).2) :
    At m e time (Safety.judged m k d).1 P O (incident e k time v) (l ++ [.call (Safety.judged m k d).2]) := by
  obtain ⟨a, h1, h2, _, h4, h5, _⟩ := incident_spec e k time v (by rw [h.ctx]; exact ht)
    (fun x => absurd x (by rw [h.ctx, h.judged]; exact hf))
  rw [h.ctx, h.judged] at h1 h2 h5
  have ia : Machine.incident e k time v = a := by unfold Machine.incident; rw [h1]; exact if_neg hf
  rw [ia]
  refine ⟨?_, ?_⟩
  · rw [recordsOf_append, List.length_append]
    exact emits_trans (h.struck _).out (h2 hf)
  · rw [h4, h.ruleOf, h.call, List.any_append]
    simp only [List.any_cons, List.any_nil, Bool.or_false, asksCall, h5]
    cases (Machine.ruleOf m k).attention <;> cases l.any (asksCall m) <;> cases groupSet .call m <;> rfl

/-- A placement outside CAUTION. -/
theorem At.place (h : At m e time d P O v l) :
    At m e time d P { O with list := (place e v).order.list } (place e v) l := by
  have q := h.setOrder { O with list := (Machine.place e v).order.list }
  have r : ({ v with order := { O with list := (Machine.place e v).order.list } } : State) = Machine.place e v := by
    conv_rhs => rw [place_eq]
    rw [h.order]
  rw [r] at q; exact q

/-- A context with the overdue deadline that a crossing sets (R86). -/
def withDeadline (m : State) (time : Ticks) (j : Line) (c : Context) : Context :=
  { c with deadline := overdueFrom m time j }

/-- The overdue deadline is set (R86). -/
theorem At.setOverdue (h : At m e time d P O v l) {x : Report} (hx : x.entry = e) (ht : x.time = time)
    (hs : d.state ≠ .inPit) {j : Line} (hj : d.expected = j) :
    At m e time (withDeadline m time j d) P O (setOverdue x v) l := by
  subst hj
  rw [setOverdue_eq (s := m) h.session h.throttle h.now (by rw [hx, h.ctx]; exact hs), hx, h.ctx, ht]
  exact h.struck _

/-! ### Incidents of a crossing -/

/-- What an incident without a black flag may change in a car's context. -/
structure Charged (c d : Context) : Prop where
  same : d = { c with
    owed := d.owed, penaltySeconds := d.penaltySeconds, deductions := d.deductions, counts := d.counts
    charged := d.charged }

theorem charged_refl (c : Context) : Charged c c := ⟨rfl⟩

theorem charged_trans {a b c : Context} (h : Charged a b) (k : Charged b c) : Charged a c := by
  constructor; rw [k.same, h.same]

theorem charged_judged {s : State} {k : IncidentKind} {c : Context} (h : ¬FlagsCar (judged s k c).2) :
    Charged c (judged s k c).1 ∧ (judged s k c).1.charged = c.charged := by
  unfold judged FlagsCar at *
  dsimp only at *
  split
  · exact ⟨⟨rfl⟩, rfl⟩
  · rename_i hw
    rw [if_neg hw] at h
    unfold sanctioned
    cases hk : (ruleOf s k).sanction with
    | blackFlag => exact absurd ⟨rfl, hk⟩ h
    | note => exact ⟨⟨rfl⟩, rfl⟩
    | timeAdd => exact ⟨⟨rfl⟩, rfl⟩
    | lapDeduct => exact ⟨⟨rfl⟩, rfl⟩
    | driveThrough => dsimp only; split <;> exact ⟨⟨rfl⟩, rfl⟩
    | stopGo => dsimp only; split <;> exact ⟨⟨rfl⟩, rfl⟩

theorem not_flagsCar {s : State} {k : IncidentKind} (h : (ruleOf s k).sanction ≠ .blackFlag) (c : Context) :
    ¬FlagsCar (judged s k c).2 := (judged_keeps s k c h).2.2.2.2

/-- The change-foul check (R85). -/
theorem At.checkFoul (h : At m e time d P O v l) {x : Report} (hx : x.entry = e) (ht : x.time = time)
    (hs : d.state = .running ∨ d.state = .inPit) (foul : Bool)
    (hf : foul = true ↔ ∃ q, d.last = some q ∧ q.lane ≠ x.lane ∧ m.session.state ≠ .held ∧
      foulZone m x.countsFor = true)
    (hn : foul = true → ¬FlagsCar (Safety.judged m .changeFoul d).2) :
    At m e time (if foul then charge m .changeFoul (d, l) else (d, l)).1 P O (Machine.checkFoul x v)
      (if foul then charge m .changeFoul (d, l) else (d, l)).2 := by
  have hz : foulZone v x.countsFor = foulZone m x.countsFor := by
    unfold foulZone lineRow; rw [h.session, h.settings, h.throttle]
  have hc : ∀ q, d.last = some q → ((d.state = .running ∨ d.state = .inPit ∨ d.state = .offTrack) ∧ q.lane ≠ x.lane ∧
      v.session.state ≠ .held ∧ foulZone v x.countsFor = true ↔ foul = true) := by
    intro q hq
    rw [hf, h.session, hz]
    constructor
    · rintro ⟨_, a, b, c⟩; exact ⟨q, hq, a, b, c⟩
    · rintro ⟨q', hq', a, b, c⟩
      rw [hq] at hq'; cases hq'
      exact ⟨by tauto, a, b, c⟩
  unfold Machine.checkFoul
  rw [hx, h.ctx]
  dsimp only
  cases hl : d.last with
  | none =>
    have : foul = false := by
      rw [← Bool.not_eq_true, hf]; rintro ⟨q, hq, _⟩; rw [hl] at hq; cases hq
    rw [this]; exact h
  | some q =>
    dsimp only
    cases hfo : foul with
    | false => rw [if_neg (mt (hc q hl).1 (by rw [hfo]; simp))]; exact h
    | true =>
      rw [if_pos ((hc q hl).2 hfo), ht]
      exact h.incident (by rcases hs with k | k <;> rw [k] <;> rfl) (hn hfo)

/-! ### A black flag -/

/-- The work of a crossing has met a black flag: the car is struck, these records have gone out, and where no other car
is left afield in CHEQUERED the heat has closed behind them (R123, R144, R148). -/
structure FlaggedAt (m : State) (e : Entry) (time : Ticks) (d : Context) (P : Pit) (O : Order) (f : Bool) (v : State)
    (l : List RecordBody) : Prop where
  stays : GoesOn m e →
    Emits 0x88 l.length (Safety.struck e d (some f) { m with pit := P, order := O }) v (recordsOf e time l)
  closes : ¬GoesOn m e → m.rstnLow = false →
    HeatCloses 0xC8 (Safety.struck e d (some f) { m with pit := P, order := O }) v .allFinished (recordsOf e time l)
  call : groupSet .call v = (l.any (asksCall m) || groupSet .call m)
  retired : (Machine.ctx v e).state = .retired

/-- An incident that costs a black flag (R144, R148). -/
theorem At.flag (h : At m e time d P O v l) {k : IncidentKind} (ht : takesIncidents d.state = true)
    (hf : FlagsCar (Safety.judged m k d).2) (hd : d.disqualified = false) :
    FlaggedAt m e time (Safety.judged m k d).1 P O (Machine.ruleOf m k).enforce (Machine.incident e k time v)
      (l ++ [.call (Safety.judged m k d).2]) := by
  obtain ⟨a, h1, _, h3, h4, h5, h6⟩ := incident_spec e k time v (by rw [h.ctx]; exact ht)
    (fun _ => by rw [h.ctx]; exact hd)
  rw [h.ctx, h.judged] at h1 h3 h5 h6
  have h3 := h3 hf
  have hst := h6 hf
  rw [h.ruleOf] at h3
  have ia : Machine.incident e k time v = closeTest a := by unfold Machine.incident; rw [h1]; exact if_pos hf
  have hac : (Machine.ctx a e).state = .retired := by rw [outputs_ctx h3.out, ctx_struck]; exact hst
  have hoth : ∀ f, f ≠ e → (Machine.ctx a f).state = (Machine.ctx m f).state := by
    intro f hf'; rw [outputs_ctx h3.out, ctx_struck_ne _ _ _ hf', h.ctx_ne hf']
  have hses : a.session.state = m.session.state := by rw [outputs_session h3.out, struck_session, h.session]
  let B := Safety.struck e (Safety.judged m k d).1 (some (Machine.ruleOf m k).enforce) { m with pit := P, order := O }
  have q : Emits 0x88 (l ++ [RecordBody.call (Safety.judged m k d).2]).length B a
      (recordsOf e time (l ++ [.call (Safety.judged m k d).2])) := by
    have q1 := emits_congr h.out B.contexts B.pit B.order m.resolver m.session B.penalty m.throttle
    have r1 : ({ v with contexts := B.contexts, pit := B.pit, order := B.order, resolver := m.resolver, session := m.session, penalty := B.penalty, throttle := m.throttle }
        : State) = Safety.struck e (Safety.judged m k d).1 (some (Machine.ruleOf m k).enforce) v := by
      unfold B Safety.struck
      dsimp only
      rw [h.contexts, set_set, h.pit, h.order, h.penalty, ← h.resolver, ← h.session, ← h.throttle]
    rw [r1] at q1
    rw [recordsOf_append, List.length_append]
    exact emits_trans q1 h3
  have hcall : groupSet .call a = ((l ++ [RecordBody.call (Safety.judged m k d).2]).any (asksCall m) || groupSet .call m) := by
    rw [h4, h.ruleOf, h.call, List.any_append]
    simp only [List.any_cons, List.any_nil, Bool.or_false, asksCall, h5]
    cases (Machine.ruleOf m k).attention <;> cases l.any (asksCall m) <;> cases groupSet .call m <;> rfl
  rw [ia]
  by_cases hg : GoesOn m e
  · rw [closeTest_told_stay hac hoth hses hg]
    exact ⟨fun _ => q, fun k => absurd hg k, hcall, hac⟩
  · rw [closeTest_told_close hac hoth hses hg]
    obtain ⟨w, e1, _, _, _, _, _, _, e2, e3⟩ := closeHeat_keeps .allFinished a
    refine ⟨fun k => absurd k hg, fun _ hr => ?_, ?_, ?_⟩
    · exact heatCloses_of (q.sends (by unfold recordsOf; rw [List.length_map])) (by rw [struck_rstnLow]; exact hr)
    · rw [e1, e3 _ (by decide)]; exact hcall
    · rw [e1, e2]; exact hac

/-- The crossing becomes the last accepted crossing behind a black flag (R70, R144). -/
theorem FlaggedAt.last {f : Bool} (h : FlaggedAt m e time d P O f v l) (y : Option LastCrossing) :
    FlaggedAt m e time { d with last := y } P O f (Machine.updCtx e (fun c => { c with last := y }) v) l := by
  have hw : Machine.updCtx e (fun c => { c with last := y }) v = withLast e y v := rfl
  have hb : withLast e y (Safety.struck e d (some f) { m with pit := P, order := O }) =
      Safety.struck e { d with last := y } (some f) { m with pit := P, order := O } := by
    unfold withLast; rw [ctx_struck]; unfold Safety.struck; dsimp only; rw [set_set]
  rw [hw]
  refine ⟨fun g => ?_, fun g r => ?_, h.call, ?_⟩
  · have q := h.stays g
    have hv : v.contexts = m.contexts.set e d := (outputs_contexts q.out).trans rfl
    have hc : Machine.ctx v e = d := by unfold Machine.ctx; rw [hv]; exact get_set _ _ _
    have := emits_ctx q (m.contexts.set e { d with last := y })
    have e1 : ({ v with contexts := m.contexts.set e { d with last := y } } : State) = withLast e y v := by
      unfold withLast; rw [hc, hv, set_set]
    rw [e1] at this; exact this
  · rw [← hb]; exact (h.closes g r).withLast e y
  · rw [ctx_withLast]; exact h.retired

/-- More is done to a struck car's context while the heat goes on. -/
theorem FlaggedAt.updCtx {f : Bool} (h : FlaggedAt m e time d P O f v l) (hg : GoesOn m e) (k : Context → Context)
    (hk : (k d).state = .retired) : FlaggedAt m e time (k d) P O f (Machine.updCtx e k v) l := by
  have q := h.stays hg
  have hv : v.contexts = m.contexts.set e d := (outputs_contexts q.out).trans rfl
  have hc : Machine.ctx v e = d := by unfold Machine.ctx; rw [hv]; exact get_set _ _ _
  have e1 : ({ v with contexts := m.contexts.set e (k d) } : State) = Machine.updCtx e k v := by
    rw [updCtx_eq_struck, hc]; unfold Safety.struck; dsimp only; rw [hv, set_set]
  refine ⟨fun _ => ?_, fun n => absurd hg n, h.call, ?_⟩
  · have := emits_ctx q (m.contexts.set e (k d))
    rw [e1] at this; exact this
  · rw [updCtx_eq_struck, hc, ctx_struck]; exact hk

/-- A crossing's work stops at a black flag (R144). -/
theorem FlaggedAt.unless {f : Bool} (h : FlaggedAt m e time d P O f v l) {x : Report} (hx : x.entry = e) (rest) :
    FlaggedAt m e time { d with last := some x.toLast } P O f (unlessFlagged x v rest) l := by
  unfold unlessFlagged
  rw [if_pos (by rw [hx]; exact h.retired)]
  unfold recordLast; rw [hx]; exact h.last _

/-- An incident of a retired car is discarded (R134). -/
theorem incident_retired (e : Entry) (k time) {v : State} (h : (Machine.ctx v e).state = .retired) :
    Machine.incident e k time v = v := by
  unfold Machine.incident incidentCall; rw [if_neg (by rw [h]; decide)]

theorem flagsCar_retired {s : State} {k : IncidentKind} {c : Context} (h : FlagsCar (Safety.judged s k c).2) :
    (Safety.judged s k c).1.state = .retired := by
  unfold Safety.judged FlagsCar at *
  dsimp only at *
  split
  · rename_i hw; rw [if_pos hw] at h; exact absurd h.1 (by simp)
  · rename_i hw
    rw [if_neg hw] at h
    have hb : (ruleOf s k).sanction = .blackFlag := h.2
    unfold sanctioned; dsimp only; rw [hb]

theorem sanctioned_last (k : IncidentKind) (r : Ruling) (c : Context) : (sanctioned k r c).1.last = c.last := by
  unfold sanctioned
  cases r.sanction <;> dsimp only <;> split <;> rfl

theorem judged_last (s : State) (k : IncidentKind) (c : Context) : (Safety.judged s k c).1.last = c.last := by
  unfold Safety.judged; dsimp only; split
  · rfl
  · exact sanctioned_last _ _ _

theorem goesOn_of {s : State} {e : Entry} (h : s.session.state ≠ .chequered) : GoesOn s e := .inl h

/-! ### Passes -/

/-- One pass of a placement, charged (R102). -/
def passStep (s : State) (p : Context × List RecordBody) (b : Entry) : Context × List RecordBody :=
  let q : Context × List RecordBody := ({ p.1 with charged := p.1.charged ++ [b] }, p.2)
  if p.1.state = .retired then q else charge s .cautionPass q

/-- The passes behind a black flag (R134). -/
theorem passes_flagged {f : Bool} (hg : GoesOn m e) (bs : List Entry) :
    ∀ {v : State} {p : Context × List RecordBody}, FlaggedAt m e time p.1 P O f v (l ++ p.2) → p.1.state = .retired →
    FlaggedAt m e time (bs.foldl (passStep m) p).1 P O f (bs.foldl (chargePass e time) v) (l ++ (bs.foldl (passStep m) p).2) ∧
      (bs.foldl (passStep m) p).1.state = .retired := by
  induction bs with
  | nil => intro v p h hs; exact ⟨h, hs⟩
  | cons b bs ih =>
    intro v p h hs
    have h1 := h.updCtx hg (fun c => { c with charged := c.charged ++ [b] }) hs
    have e1 : passStep m p b = ({ p.1 with charged := p.1.charged ++ [b] }, p.2) := by unfold passStep; exact if_pos hs
    have e2 : chargePass e time v b = Machine.updCtx e (fun c => { c with charged := c.charged ++ [b] }) v :=
      incident_retired _ _ _ h1.retired
    rw [List.foldl_cons, List.foldl_cons, e1, e2]
    exact ih h1 hs

/-- The passes of a placement: all of them without a black flag, or one with it (R102, R144). -/
theorem at_passes (hg : GoesOn m e) (bs : List Entry) :
    ∀ {v : State} {p : Context × List RecordBody}, At m e time p.1 P O v (l ++ p.2) → p.1.state = .running →
    let q := bs.foldl (passStep m) p
    (q.1.state ≠ .retired → At m e time q.1 P O (bs.foldl (chargePass e time) v) (l ++ q.2) ∧ Charged p.1 q.1) ∧
    (q.1.state = .retired → p.1.disqualified = false →
      FlaggedAt m e time q.1 P O (Machine.ruleOf m .cautionPass).enforce (bs.foldl (chargePass e time) v) (l ++ q.2)) := by
  induction bs with
  | nil =>
    intro v p h hs
    exact ⟨fun _ => ⟨h, charged_refl _⟩, fun k => absurd k (by show p.1.state ≠ _; rw [hs]; simp)⟩
  | cons b bs ih =>
    intro v p h hs
    have h1 := h.updCtx (fun c => { c with charged := c.charged ++ [b] })
    have e1 : passStep m p b = charge m .cautionPass ({ p.1 with charged := p.1.charged ++ [b] }, p.2) := by
      unfold passStep; exact if_neg (by rw [hs]; simp)
    have ht : takesIncidents ({ p.1 with charged := p.1.charged ++ [b] } : Context).state = true := by
      show takesIncidents p.1.state = true; rw [hs]; rfl
    dsimp only
    rw [List.foldl_cons, List.foldl_cons, e1]
    by_cases hf : FlagsCar (Safety.judged m .cautionPass { p.1 with charged := p.1.charged ++ [b] }).2
    · have hret := flagsCar_retired hf
      refine ⟨fun k => absurd ?_ k, fun _ hd => ?_⟩
      · have stay : ∀ (bs : List Entry) (p : Context × List RecordBody), p.1.state = .retired →
            (bs.foldl (passStep m) p).1.state = .retired := by
          intro bs; induction bs with
          | nil => intro p h; exact h
          | cons b bs ih =>
            intro p h; rw [List.foldl_cons]; apply ih
            unfold passStep; dsimp only; rw [if_pos h]; exact h
        exact stay bs _ hret
      · have h2 := h1.flag (k := .cautionPass) ht hf hd
        rw [List.append_assoc] at h2
        exact (passes_flagged hg bs (p := charge m .cautionPass ({ p.1 with charged := p.1.charged ++ [b] }, p.2))
          h2 hret).1
    · have h2 := h1.incident (k := .cautionPass) ht hf
      have c1 := charged_judged hf
      rw [List.append_assoc] at h2
      have := ih (p := charge m .cautionPass ({ p.1 with charged := p.1.charged ++ [b] }, p.2)) h2 (by
        show (Safety.judged m .cautionPass { p.1 with charged := p.1.charged ++ [b] }).1.state = _
        rw [c1.1.same]; exact hs)
      refine ⟨fun k => ⟨(this.1 k).1, charged_trans (charged_trans ⟨rfl⟩ c1.1) (this.1 k).2⟩, fun k hd => ?_⟩
      refine this.2 k ?_
      show (Safety.judged m .cautionPass { p.1 with charged := p.1.charged ++ [b] }).1.disqualified = _
      rw [c1.1.same]; exact hd

theorem passesCharged_last (s : State) (l : List Entry) (c : Context) : (passesCharged s c l).1.last = c.last := by
  have : ∀ (l : List Entry) (p : Context × List RecordBody), (l.foldl (passStep s) p).1.last = p.1.last := by
    intro l; induction l with
    | nil => intro p; rfl
    | cons b l ih =>
      intro p; rw [List.foldl_cons, ih]
      unfold passStep charge; dsimp only
      split
      · rfl
      · exact judged_last _ _ _
  exact this l (c, [])

theorem overtaken_congr {s t w : State} (h : t.order.list = w.order.list) (e) : overtaken s t e = overtaken s w e := by
  unfold overtaken; rw [h]

/-- A placement with its caution-pass check (R97, R102). -/
theorem At.placeCar (h : At m e time d P m.order v l) (hc : d.charged = (Machine.ctx m e).charged)
    (hs : d.state = .running) :
    let w := Machine.place e v
    let q := passesCharged m d (overtaken m w e)
    (q.1.state ≠ .retired →
      At m e time q.1 P { m.order with list := w.order.list } (placeCar e time v) (l ++ q.2) ∧ Charged d q.1) ∧
    (q.1.state = .retired → d.disqualified = false →
      FlaggedAt m e time q.1 P { m.order with list := w.order.list } (Machine.ruleOf m .cautionPass).enforce
        (placeCar e time v) (l ++ q.2)) := by
  intro w q
  have hw : At m e time d P { m.order with list := w.order.list } w l := h.place
  have stay : overtaken m w e = [] → Machine.placeCar e time v = w →
      (q.1.state ≠ .retired → At m e time q.1 P { m.order with list := w.order.list } (Machine.placeCar e time v)
        (l ++ q.2) ∧ Charged d q.1) ∧
      (q.1.state = .retired → d.disqualified = false →
        FlaggedAt m e time q.1 P { m.order with list := w.order.list } (Machine.ruleOf m .cautionPass).enforce
          (Machine.placeCar e time v) (l ++ q.2)) := by
    intro h1 h2
    have hq : q = (d, []) := by show passesCharged m d _ = _; rw [h1]; rfl
    rw [hq, h2]
    exact ⟨fun _ => by simpa using ⟨hw, charged_refl d⟩, fun k => absurd k (by show d.state ≠ _; rw [hs]; simp)⟩
  have ws : w.session = m.session := hw.session
  have wo : w.order.snapshot = m.order.snapshot := by rw [hw.order]
  by_cases hca : m.session.state = .caution
  · cases hsn : m.order.snapshot with
    | none =>
      apply stay
      · unfold overtaken; rw [hsn]
      · unfold Machine.placeCar checkPasses
        show (match w.session.state, w.order.snapshot with | .caution, some snap => _ | _, _ => w) = w
        rw [ws, hca, wo, hsn]
    | some snap =>
      have hp : Machine.placeCar e time v = (overtaken m w e).foldl (chargePass e time) w := by
        unfold Machine.placeCar checkPasses
        show (match w.session.state, w.order.snapshot with
          | .caution, some snap => (passedUnder w e v.order.list w.order.list snap).foldl (chargePass e time) w
          | _, _ => w) = _
        rw [ws, hca, wo, hsn]
        dsimp only
        congr 1
        unfold passedUnder overtaken
        rw [hsn, hca]
        simp only [ne_eq, not_true_eq_false, if_false]
        apply List.filter_congr
        intro b _
        rw [h.order]
        by_cases hb : b = e
        · subst hb; simp
        · rw [hw.ctx_ne hb, hw.ctx, hc]
      rw [hp]
      exact at_passes (goesOn_of (by rw [hca]; simp)) _ (p := (d, [])) (by simpa using hw) hs
  · apply stay
    · unfold overtaken; cases m.order.snapshot <;> simp [hca]
    · exact placeCar_calm (by rw [h.session]; exact hca)

/-! ### The pit lane -/

theorem At.setMark (h : At m e time d P O v l) (x : Option Ticks) :
    At m e time d { P with marks := P.marks.set e x } O (setMark e x v) l := by
  have q := h.setPit { P with marks := P.marks.set e x }
  unfold Machine.setMark; rw [h.pit]; exact q

theorem At.setHold (h : At m e time d P O v l) (x : Bool) :
    At m e time d { P with holds := P.holds.set e x } O (setHold e x v) l := by
  have q := h.setPit { P with holds := P.holds.set e x }
  unfold Machine.setHold; rw [h.pit]; exact q

/-- The pit places when a car's service has ended. -/
def serviceOver (P : Pit) (e : Entry) : Pit := { marks := P.marks.set e none, holds := P.holds.set e false }

/-- A car's context when the work of its crossing has begun. -/
structure Began (c d : Context) : Prop where
  same : d = { c with
    state := .running, transit := d.transit
    owed := d.owed, penaltySeconds := d.penaltySeconds, deductions := d.deductions, counts := d.counts }

theorem Began.running {c d : Context} (h : Began c d) : d.state = .running := by rw [h.same]

theorem Began.judged {c d : Context} (h : Began c d) {s : State} {k : IncidentKind} (n : ¬FlagsCar (Safety.judged s k d).2) :
    Began c (Safety.judged s k d).1 := by
  obtain ⟨q, r⟩ := charged_judged n
  constructor; rw [q.same, r, h.same]

/-- The pit places when a car's transit has ended. -/
def pitAfter (P : Pit) (e : Entry) (c : Context) : Pit :=
  if (c.owed.head?.map fun o => o.inService) = some true then serviceOver P e else P

/-- A pit transit closes: without a short stop, or with one that is then charged (R91, R159, R160). -/
theorem At.transit (h : At m e time d P O v l) {x : Report} (hx : x.entry = e) (ht : x.time = time) :
    (At m e time (transitEnded m d).1 (pitAfter P e d) O (closeTransit x v) (l ++ (transitEnded m d).2) ∧
      (∀ b, .call b ∉ (transitEnded m d).2) ∧ Began d (transitEnded m d).1) ∨
    (∃ w d' b, At m e time d' (pitAfter P e d) O w (l ++ [b]) ∧ (∀ c, b ≠ .call c) ∧
      closeTransit x v = Machine.incident e .pitShort time w ∧
      transitEnded m d = charge m .pitShort (d', [b]) ∧ Began d d') := by
  have h0 := h.updCtx (fun c => { c with state := .running })
  unfold Machine.closeTransit pitAfter
  rw [hx, ht]
  generalize Machine.updCtx e (fun c => { c with state := .running }) v = w at *
  unfold evaluateService
  dsimp only
  rw [h0.ctx]
  unfold headInService transitEnded
  dsimp only
  cases ho : d.owed with
  | nil =>
    left
    simp only [List.head?_nil, Option.map_none, reduceCtorEq, if_false, Bool.false_eq_true, List.append_nil]
    unfold dropTransit
    have := h0.updCtx (fun c => { c with transit := none })
    rw [ho] at this; exact ⟨this, by simp, ⟨rfl⟩⟩
  | cons o rest =>
    dsimp only
    by_cases hs : o.inService = false
    · left
      simp only [hs, if_true, if_false, Bool.false_eq_true, List.head?_cons, Option.map_some, Option.some.injEq, List.append_nil]
      have := h0.updCtx (fun c => { c with transit := none })
      rw [ho] at this; unfold dropTransit
      exact ⟨this, by simp, ⟨rfl⟩⟩
    · have hs' : o.inService = true := by simpa using hs
      simp only [hs', if_true, List.head?_cons, Option.map_some]
      rw [if_neg (by simp)]
      have he : (fun x : Transit => x.stationary) = Transit.stationary := rfl
      unfold stationaryOf
      dsimp only
      rw [he] at *
      generalize (d.transit.map Transit.stationary).getD 0 = ticks at *
      by_cases hsv : o.sanction = .stopGo ∧ ticks < o.amount * 100000
      · right
        have hi : isServed o ticks = false := by
          unfold isServed Config.second; simp [hsv.1]; exact hsv.2
        rw [if_pos hsv, hi]
        simp only [Bool.false_eq_true, if_false, if_true]
        have h1 := ((h0.emit (b := .serve .short .stopGo (some ticks)) rfl).updCtx
          (fun c => { c with owed := setHeadService false c.owed, transit := none })).setMark none |>.setHold false
        refine ⟨_, _, _, h1, by simp, rfl, ?_, ?_⟩
        · dsimp only; rw [ho]; rfl
        · constructor; rfl
      · left
        have hi : isServed o ticks = true := by
          unfold isServed Config.second; simp
          rw [not_and] at hsv
          by_cases k : o.sanction = .stopGo
          · exact .inr (Nat.not_lt.1 (hsv k))
          · exact .inl k
        rw [if_neg hsv, hi]
        simp only [if_true]
        have h1 := ((h0.updCtx (fun c => { c with owed := c.owed.drop 1, transit := none })).emit
          (b := .serve .served o.sanction (if o.sanction = .stopGo then some ticks else none)) rfl).setMark none |>.setHold false
        rw [ho] at h1
        exact ⟨h1, by simp, ⟨rfl⟩⟩

/-! ### Placement and figures -/

/-- The running order once a car with a context has been placed in it (R97). -/
def placedList (m : State) (e : Entry) (d : Context) : List Entry :=
  insertBy (ranksAhead (Safety.struck e d none m)) e (m.order.list.erase e)

theorem ranksAhead_congr {a b : State} (h : a.contexts = b.contexts) : ranksAhead a = ranksAhead b := by
  have hc : Machine.ctx a = Machine.ctx b := by funext x; unfold Machine.ctx; rw [h]
  funext x y; unfold ranksAhead groupOf; rw [hc]

theorem At.placeList (h : At m e time d P m.order v l) : (Machine.place e v).order.list = placedList m e d := by
  show insertBy (ranksAhead v) e (v.order.list.erase e) = _
  rw [h.order, ranksAhead_congr (b := Safety.struck e d none m) h.contexts]; rfl

/-- Two contexts that rank alike and show alike. -/
structure Ranks (c d : Context) : Prop where
  state : d.state = c.state
  disqualified : d.disqualified = c.disqualified
  progress : d.progress = c.progress
  time : d.progressTime = c.progressTime
  ring : d.ring = c.ring

theorem ranks_refl (c : Context) : Ranks c c := ⟨rfl, rfl, rfl, rfl, rfl⟩

theorem Charged.ranks {c d : Context} (h : Charged c d) : Ranks c d := by
  rw [h.same]; exact ⟨rfl, rfl, rfl, rfl, rfl⟩

/-- A car placed with one context stands so with another that ranks alike. -/
theorem placed_of {t : State} {d' : Context} (ho : t.order.list = placedList m e d)
    (hc : t.contexts = m.contexts.set e d') (k : Ranks d d') : Placed m t e := by
  obtain ⟨pre, post, p1, p2, p3, p4⟩ := insertBy_split (ranksAhead (Safety.struck e d none m)) e (m.order.list.erase e)
  have hcx : ∀ f, Ranks (Machine.ctx (Safety.struck e d none m) f) (Machine.ctx t f) := by
    intro f
    have h1 : Machine.ctx t f = (m.contexts.set e d')[f] := by unfold Machine.ctx; rw [hc]
    by_cases hf : f = e
    · subst hf; rw [h1, ctx_struck, get_set]; exact k
    · rw [h1, ctx_struck_ne _ _ _ hf, get_set_ne _ _ hf]; exact ranks_refl _
  have ahd : ∀ b, Ahead t b e ↔ Ahead (Safety.struck e d none m) b e := by
    intro b
    have hg : ∀ f, groupOf t f = groupOf (Safety.struck e d none m) f := by
      intro f; unfold groupOf; rw [(hcx f).disqualified, (hcx f).state]
    unfold Ahead
    rw [hg, hg, (hcx b).progress, (hcx b).time, (hcx e).progress, (hcx e).time]
  refine ⟨pre, post, p1, by rw [ho]; exact p2, ?_, ?_⟩
  · intro b hb; rw [ahd, ← ranksAhead_iff]; exact p3 b hb
  · intro b hb; rw [ahd, ← ranksAhead_iff]; exact p4 b hb

/-- The figures of a car with a context in a running order (R103 to R105). -/
def standingOf (m : State) (e : Entry) (d : Context) (k : List Entry) : Standing :=
  standing { m with contexts := m.contexts.set e d, order := { m.order with list := k } } e

theorem standing_of {t : State} {d' : Context} {k : List Entry} (ho : t.order.list = k)
    (hc : t.contexts = m.contexts.set e d') (hs : t.settings = m.settings) (h : Ranks d d') :
    standing t e = standingOf m e d k := by
  refine (standing_congr_marks ?_ ?_ ?_).symm
  · exact ho
  · exact hs
  · intro f
    have h1 : Machine.ctx t f = (m.contexts.set e d')[f] := by unfold Machine.ctx; rw [hc]
    have h2 : Machine.ctx ({ m with contexts := m.contexts.set e d, order := { m.order with list := k } } : State) f =
      (m.contexts.set e d)[f] := rfl
    rw [h1, h2]
    by_cases hf : f = e
    · subst hf; rw [get_set, get_set]; exact ⟨h.progress, h.time, h.ring⟩
    · rw [get_set_ne _ _ hf, get_set_ne _ _ hf]; exact ⟨rfl, rfl, rfl⟩

/-- The order block once a car with a context has been placed. -/
abbrev placedOrder (m : State) (e : Entry) (d : Context) : Order := { m.order with list := placedList m e d }

/-- The passes that a placement is charged with (R102). -/
def passedBy (m : State) (e : Entry) (d : Context) : List Entry :=
  overtaken m { m with order := placedOrder m e d } e

theorem passedBy_eq {t : State} (ho : t.order.list = placedList m e d) : overtaken m t e = passedBy m e d :=
  overtaken_congr ho e

/-- The placement stage, by lists. -/
theorem At.placed (h : At m e time d P m.order v l) (hc : d.charged = (Machine.ctx m e).charged)
    (hs : d.state = .running) :
    let q := passesCharged m d (passedBy m e d)
    (q.1.state ≠ .retired →
      At m e time q.1 P (placedOrder m e d) (Machine.placeCar e time v) (l ++ q.2) ∧ Charged d q.1) ∧
    (q.1.state = .retired → d.disqualified = false →
      FlaggedAt m e time q.1 P (placedOrder m e d) (Machine.ruleOf m .cautionPass).enforce
        (Machine.placeCar e time v) (l ++ q.2)) := by
  have := h.placeCar hc hs
  dsimp only at this
  rw [h.placeList, passedBy_eq h.placeList] at this
  exact this

theorem At.standing {k : List Entry} {c : Context} (h : At m e time d P { m.order with list := k } v l) (r : Ranks c d) :
    standing v e = standingOf m e c k :=
  standing_of (by rw [h.order]) h.contexts h.settings r

theorem At.fuelField (h : At m e time d P O v l) :
    fuelField v e = if m.settings.fuel.cap = 0 then none else some d.fuel := by
  unfold Machine.fuelField; rw [h.settings, h.ctx]

/-! ### Crossings -/

theorem At.unless (h : At m e time d P O v l) {x : Report} (hx : x.entry = e) (hs : d.state ≠ .retired) (rest) :
    unlessFlagged x v rest = rest v := unlessFlagged_of_running (by rw [hx, h.ctx]; exact hs)

/-- The context of a car that launches (R73). -/
def launched (m : State) (x : Report) (neutral : Bool) (d : Context) : Context :=
  let L := m.settings.timing.lines
  { d with
    lapStart := some x.time, crossed := [], splits := [], missed := 0
    marks := ⟨neutral, x.lowConf, x.inferred, x.drill⟩
    expected := nextLine L 0, last := some x.toLast
    progress := 0, progressTime := some x.time, ring := ringed d.ring 0 x.time
    deadline := overdueFrom m x.time (nextLine L 0) }

/-- The LAP record of a launch (R73, R74). -/
def launchLap (m : State) (x : Report) (time : Option Ticks) (missed : Nat) (viaPit : Bool) (d : Context)
    (k : Standing) : RecordBody :=
  .lap {
    number := 0
    time := time
    flags := ⟨false, false, x.lowConf, x.inferred, x.drill, viaPit, false⟩
    missed := missed, splits := [], standing := k
    fuel := if m.settings.fuel.cap = 0 then none else some d.fuel }

theorem withLast_passes (s : State) (l : List Entry) {d : Context} {y : LastCrossing} (h : d.last = some y) :
    ({ (passesCharged s d l).1 with last := some y } : Context) = (passesCharged s d l).1 := by
  rw [← h, ← passesCharged_last s l d]

/-- The launch (R73). -/
theorem At.launch {v0 : State} {x : Report} {viaPit : Bool} (hv : Machine.checkFoul x v0 = v)
    (h : At m e time d P m.order v l) (hx : x.entry = e) (ht : x.time = time) (hs : d.state = .running)
    (hc : d.charged = (Machine.ctx m e).charged) :
    ∃ neutral : Bool, (neutral = true ↔ NeutralStart m time) ∧
      let d1 := launched m x neutral d
      let q := passesCharged m d1 (passedBy m e d1)
      (q.1.state ≠ .retired → Charged d1 q.1 ∧
        At m e time q.1 P (placedOrder m e d1) (launch x viaPit v0) (l ++ q.2 ++
          [launchLap m x (m.session.greenTime.map fun y => time - y) 0 viaPit d
            (standingOf m e d1 (placedList m e d1))])) ∧
      (q.1.state = .retired → d.disqualified = false →
        FlaggedAt m e time q.1 P (placedOrder m e d1) (Machine.ruleOf m .cautionPass).enforce (launch x viaPit v0)
          (l ++ q.2)) := by
  subst ht
  refine ⟨neutralAtStart v (some x.time), neutralAtStart_iff h.session h.now _, ?_⟩
  intro d1 q
  unfold Machine.launch
  rw [hv, h.unless hx (by rw [hs]; simp)]
  dsimp only
  rw [hx, h.lines]
  have h1 : At m e x.time d1 P m.order _ l :=
    (h.updCtx (fun c => { setProgress 0 x.time (beginLap x (some x.time) (neutralAtStart v (some x.time)) c) with
      expected := nextLine m.settings.timing.lines 0, last := some x.toLast })).setOverdue hx rfl
      (by show d.state ≠ _; rw [hs]; simp) rfl
  have hp := h1.placed hc hs
  have hq : passesCharged m d1 (passedBy m e d1) = q := rfl
  dsimp only at hp
  rw [hq] at hp
  refine ⟨fun hret => ?_, fun hret hd => by
    have := (hp.2 hret hd).unless hx
    rw [withLast_passes m (passedBy m e d1) (d := d1) rfl] at this
    exact this _⟩
  obtain ⟨h2, hch⟩ := hp.1 hret
  have q1 : q.1.state = .running := by rw [hch.ranks.state]; exact hs
  refine ⟨hch, ?_⟩
  rw [h2.unless hx (by rw [q1]; simp)]
  unfold emitLaunch
  rw [hx, h2.standing hch.ranks, h2.fuelField, h2.session]
  have hf : q.1.fuel = d.fuel := by rw [hch.same]; rfl
  rw [hf]
  exact h2.emit rfl

/-- The context of a car that crosses a line, but for the deadline (R76, steps 2 to 6). -/
def lineCrossed (m : State) (x : Report) (missed : Nat) (split : Option Ticks) (d : Context) : Context :=
  let L := m.settings.timing.lines
  let p := d.laps * L + x.line.val
  { d with
    missed := d.missed + missed
    crossed := d.crossed ++ [x.line]
    splits := d.splits ++ (split.map fun t => (x.line, t)).toList
    expected := nextLine L x.line, last := some x.toLast
    marks := ⟨d.marks.neutral, d.marks.lowConf || x.lowConf, d.marks.inferred || x.inferred, d.marks.drill || x.drill⟩
    progress := p, progressTime := some x.time, ring := ringed d.ring p x.time }

theorem Charged.withDeadline_ranks {c d : Context} (h : Charged c d) (m time j) :
    Ranks c (withDeadline m time j d) := by rw [h.same]; exact ⟨rfl, rfl, rfl, rfl, rfl⟩

/-- An ordinary line crossing (R76). -/
theorem At.ordinaryCrossing {v0 : State} {x : Report} (hv : Machine.checkFoul x v0 = v)
    (h : At m e time d P m.order v l) (hx : x.entry = e) (ht : x.time = time) (hs : d.state = .running)
    (hc : d.charged = (Machine.ctx m e).charged) :
    let n := (missedLines m.settings.timing.lines d.expected x.line).length
    let split := d.last.map fun k => time - k.time
    let d1 := lineCrossed m x n split d
    let q := passesCharged m d1 (passedBy m e d1)
    (q.1.state ≠ .retired → Charged d1 q.1 ∧
      At m e time (withDeadline m time (nextLine m.settings.timing.lines x.line) q.1) P (placedOrder m e d1)
        (ordinaryCrossing x v0) (l ++ q.2 ++ [.sector x.line x.lane split (n + 1)])) ∧
    (q.1.state = .retired → d.disqualified = false →
      FlaggedAt m e time q.1 P (placedOrder m e d1) (Machine.ruleOf m .cautionPass).enforce (ordinaryCrossing x v0)
        (l ++ q.2)) := by
  subst ht
  intro n split d1 q
  unfold Machine.ordinaryCrossing
  rw [hv, h.unless hx (by rw [hs]; simp)]
  dsimp only
  rw [hx, h.lines, h.ctx]
  have h1 : At m e x.time d1 P m.order _ l := h.updCtx (crossLine x m.settings.timing.lines n split)
  have hp := h1.placed hc hs
  have hq : passesCharged m d1 (passedBy m e d1) = q := rfl
  dsimp only at hp
  rw [hq] at hp
  refine ⟨fun hret => ?_, fun hret hd => by
    have := (hp.2 hret hd).unless hx
    rw [withLast_passes m (passedBy m e d1) (d := d1) rfl] at this
    exact this _⟩
  obtain ⟨h2, hch⟩ := hp.1 hret
  have q1 : q.1.state = .running := by rw [hch.ranks.state]; exact hs
  refine ⟨hch, ?_⟩
  have hsp : splitOf x d = split := rfl
  rw [hsp]
  rw [h2.unless hx (by rw [q1]; simp)]
  unfold emitSector
  rw [hx]
  have h3 := (h2.emit (b := .sector x.line x.lane split (n + 1)) rfl).setOverdue hx rfl (by rw [q1]; simp)
    (j := nextLine m.settings.timing.lines x.line) (by rw [hch.same]; rfl)
  exact h3

/-- The context of a car that begins a lap without a start at a crossing (R74, R80, R81). -/
def lapOpened (x : Report) (start : Option Ticks) (neutral : Bool) (d : Context) : Context :=
  { d with
    lapStart := start, crossed := [], splits := [], missed := 0
    marks := ⟨neutral, x.lowConf, x.inferred, x.drill⟩ }

/-- A lost launch (R74). -/
theorem At.lostLaunch {v0 : State} {x : Report} {viaPit : Bool} (hv : Machine.checkFoul x v0 = v)
    (h : At m e time d P m.order v l) (hx : x.entry = e) (ht : x.time = time) (hs : d.state = .running)
    (hc : d.charged = (Machine.ctx m e).charged) :
    ∃ neutral : Bool, (neutral = true ↔ NeutralStart m m.clock.now) ∧
      let d1 := lineCrossed m x (x.line.val - 1) none (lapOpened x none neutral d)
      let q := passesCharged m d1 (passedBy m e d1)
      (q.1.state ≠ .retired → Charged d1 q.1 ∧
        At m e time (withDeadline m time (nextLine m.settings.timing.lines x.line) q.1) P (placedOrder m e d1)
          (lostLaunch x viaPit v0) (l ++ q.2 ++
            [launchLap m x none 1 viaPit d (standingOf m e d1 (placedList m e d1)),
             .sector x.line x.lane none (x.line.val + 1)])) ∧
      (q.1.state = .retired → d.disqualified = false →
        FlaggedAt m e time q.1 P (placedOrder m e d1) (Machine.ruleOf m .cautionPass).enforce (lostLaunch x viaPit v0)
          (l ++ q.2)) := by
  subst ht
  have hneu : neutralAtStart v none = true ↔ NeutralStart m m.clock.now := by
    rw [← neutralAtStart_iff h.session h.now]
    unfold neutralAtStart; rw [h.now]; rfl
  refine ⟨neutralAtStart v none, hneu, ?_⟩
  intro d1 q
  unfold Machine.lostLaunch
  rw [hv, h.unless hx (by rw [hs]; simp)]
  dsimp only
  rw [hx, h.lines]
  have h1 : At m e x.time d1 P m.order _ l := h.updCtx (fun c =>
    crossLine x m.settings.timing.lines (x.line.val - 1) none (beginLap x none (neutralAtStart v none) c))
  have hp := h1.placed hc hs
  have hq : passesCharged m d1 (passedBy m e d1) = q := rfl
  dsimp only at hp
  rw [hq] at hp
  refine ⟨fun hret => ?_, fun hret hd => by
    have := (hp.2 hret hd).unless hx
    rw [withLast_passes m (passedBy m e d1) (d := d1) rfl] at this
    exact this _⟩
  obtain ⟨h2, hch⟩ := hp.1 hret
  have q1 : q.1.state = .running := by rw [hch.ranks.state]; exact hs
  refine ⟨hch, ?_⟩
  rw [h2.unless hx (by rw [q1]; simp)]
  unfold emitSector emitLaunch
  rw [hx, h2.standing hch.ranks, h2.fuelField]
  have hf : q.1.fuel = d.fuel := by rw [hch.same]; rfl
  rw [hf]
  have h3 := ((h2.emit (b := launchLap m x none 1 viaPit d (standingOf m e d1 (placedList m e d1))) rfl).emit
    (b := .sector x.line x.lane none (x.line.val + 1)) rfl).setOverdue hx rfl (by rw [q1]; simp)
    (j := nextLine m.settings.timing.lines x.line) (by rw [hch.same]; rfl)
  rw [List.append_assoc (l ++ q.2)] at h3
  exact h3

/-! ### Closing a lap -/

/-- One expired entry of a deadline check (R161). -/
def unservedStep (s : State) (p : Context × List RecordBody) (o : Owed) : Context × List RecordBody :=
  if p.1.state = .retired then p else charge s .unserved (p.1, p.2 ++ [.serve .unserved o.sanction none])

theorem unserved_stays (s : State) : ∀ (os : List Owed) {p : Context × List RecordBody}, p.1.state = .retired →
    os.foldl (unservedStep s) p = p
  | [], _, _ => rfl
  | o :: os, p, h => by
    have e : unservedStep s p o = p := if_pos h
    rw [List.foldl_cons, e]; exact unserved_stays s os h

theorem unservedWork_retired (e : Entry) (time : Ticks) {v : State} (h : (Machine.ctx v e).state = .retired) :
    ∀ os, unservedWork e time os v = v
  | [] => rfl
  | _ :: _ => if_pos h

/-- The deadline check: all of it without a black flag, or up to one (R144, R161). -/
theorem at_unserved (os : List Owed) :
    ∀ {v : State} {p : Context × List RecordBody}, At m e time p.1 P O v (l ++ p.2) → p.1.state = .running →
    let q := os.foldl (unservedStep m) p
    (q.1.state ≠ .retired → At m e time q.1 P O (unservedWork e time os v) (l ++ q.2) ∧ Charged p.1 q.1) ∧
    (q.1.state = .retired → p.1.disqualified = false →
      FlaggedAt m e time q.1 P O (Machine.ruleOf m .unserved).enforce (unservedWork e time os v) (l ++ q.2)) := by
  induction os with
  | nil =>
    intro v p h hs
    exact ⟨fun _ => ⟨h, charged_refl _⟩, fun k => absurd k (by show p.1.state ≠ _; rw [hs]; simp)⟩
  | cons o os ih =>
    intro v p h hs
    unfold unservedWork
    rw [h.ctx, if_neg (by rw [hs]; simp)]
    have h1 := h.emit (b := .serve .unserved o.sanction none) rfl
    have ht : takesIncidents p.1.state = true := by rw [hs]; rfl
    have hl : l ++ p.2 ++ [.serve .unserved o.sanction none] ++ [.call (Safety.judged m .unserved p.1).2] =
        l ++ (charge m .unserved (p.1, p.2 ++ [.serve .unserved o.sanction none])).2 := by
      show _ = l ++ (p.2 ++ _ ++ _)
      simp only [List.append_assoc]
    have e0 : unservedStep m p o = charge m .unserved (p.1, p.2 ++ [.serve .unserved o.sanction none]) :=
      if_neg (by rw [hs]; simp)
    obtain ⟨b, hb⟩ : ∃ b, b = charge m .unserved (p.1, p.2 ++ [.serve .unserved o.sanction none]) := ⟨_, rfl⟩
    have e1 : (Safety.judged m .unserved p.1).1 = b.1 := by rw [hb]; rfl
    dsimp only
    rw [List.foldl_cons, e0, ← hb]
    rw [← hb] at hl
    by_cases hf : FlagsCar (Safety.judged m .unserved p.1).2
    · have hret := flagsCar_retired hf
      rw [e1] at hret
      rw [unserved_stays m os hret]
      refine ⟨fun k => absurd hret k, fun _ hd => ?_⟩
      have h2 := h1.flag (k := .unserved) ht hf hd
      rw [hl, e1] at h2
      have r := h2.retired
      unfold emitServe
      rw [show (⟨entryNumber e, time, .serve .unserved o.sanction none⟩ : Record) =
        ⟨e.val + 1, time, .serve .unserved o.sanction none⟩ from rfl, unservedWork_retired e time r]
      exact h2
    · have h2 := h1.incident (k := .unserved) ht hf
      have c1 := charged_judged hf
      rw [hl, e1] at h2
      rw [e1] at c1
      have := ih h2 (by rw [c1.1.same]; exact hs)
      exact ⟨fun k => ⟨(this.1 k).1, charged_trans c1.1 (this.1 k).2⟩, fun k hd => this.2 k (by
        rw [c1.1.same]; exact hd)⟩

theorem unserved_last (s : State) : ∀ (os : List Owed) (p : Context × List RecordBody),
    (os.foldl (unservedStep s) p).1.last = p.1.last
  | [], _ => rfl
  | o :: os, p => by
    rw [List.foldl_cons, unserved_last s os]
    unfold unservedStep charge
    split
    · rfl
    · exact judged_last _ _ _

theorem deadlinesChecked_last (s : State) (c : Context) : (deadlinesChecked s c).1.last = c.last :=
  unserved_last s _ _

theorem At.checkDeadlines (h : At m e time d P O v l) (hs : d.state = .running) :
    let q := deadlinesChecked m d
    (q.1.state ≠ .retired → At m e time q.1 P O (checkDeadlines e time v) (l ++ q.2) ∧ Charged d q.1) ∧
    (q.1.state = .retired → d.disqualified = false →
      FlaggedAt m e time q.1 P O (Machine.ruleOf m .unserved).enforce (checkDeadlines e time v) (l ++ q.2)) := by
  unfold Machine.checkDeadlines
  rw [h.ctx]
  have := at_unserved (expiredOwed d) (p := ({ d with owed := keptOwed d }, []))
    (by simpa using h.updCtx fun c => { c with owed := keptOwed c }) hs
  exact ⟨fun k => ⟨(this.1 k).1, charged_trans ⟨rfl⟩ (this.1 k).2⟩, this.2⟩

/-- Every owed entry is turned into seconds (R162). -/
theorem At.convertOwed (h : At m e time d P O v l) :
    At m e time (owedConverted d) P O (convertOwed e time v)
      (l ++ d.owed.map fun o => .serve .converted o.sanction none) := by
  have k := emits_convertOwed e time v
  rw [h.ctx] at k
  have hb : ({ v with contexts := v.contexts.set e (owedConverted d) } : State) = Safety.struck e (owedConverted d) none v :=
    rfl
  rw [hb] at k
  have h1 := h.struck (owedConverted d)
  have hm : d.owed.map (serveConverted e time) =
      recordsOf e time (d.owed.map fun o => .serve .converted o.sanction none) := by
    unfold recordsOf; rw [List.map_map]; rfl
  refine ⟨?_, ?_⟩
  · rw [recordsOf_append, List.length_append, List.length_map]
    rw [hm] at k
    exact emits_trans h1.out (emits_mono k (by decide))
  · rw [groupSet_outputs k.out (by decide), h1.call, List.any_append]
    have : (d.owed.map fun o => RecordBody.serve .converted o.sanction none).any (asksCall m) = false := by
      rw [List.any_eq_false]; intro x hx
      obtain ⟨o, _, rfl⟩ := List.mem_map.1 hx
      simp [asksCall]
    rw [this]; simp

/-- The base of the work, the session replaced. -/
theorem At.setSession (h : At m e time d P O v l) (S : Session) :
    At { m with session := S } e time d P O { v with session := S } l := by
  refine ⟨?_, h.call⟩
  have q := emits_congr h.out (m.contexts.set e d) P O m.resolver S m.penalty m.throttle
  have r : ({ v with contexts := m.contexts.set e d, pit := P, order := O, resolver := m.resolver, session := S, penalty := m.penalty, throttle := m.throttle }
      : State) = { v with session := S } := by
    rw [← h.contexts, ← h.pit, ← h.order, ← h.resolver, ← h.penalty, ← h.throttle]
  rw [r] at q; exact q

/-- The context of a car whose lap closes, up to its count (R82, R76). -/
def lapEnded (x : Report) (n : Nat) (counted : Bool) (d : Context) : Context :=
  { d with
    missed := n
    marks := ⟨d.marks.neutral, d.marks.lowConf || x.lowConf, d.marks.inferred || x.inferred, d.marks.drill || x.drill⟩
    laps := if counted then min 9999 (d.laps + 1) else d.laps }

/-- The same with the LINE_MISS of a lap that is not counted (R80). -/
def lapJudged (m : State) (x : Report) (n : Nat) (counted : Bool) (d : Context) : Context × List RecordBody :=
  if counted then (lapEnded x n counted d, []) else charge m .lineMiss (lapEnded x n counted d, [])

/-- The LAP record's body of a close, but for its figures (R82, R84). -/
def closingLap (x : Report) (n : Nat) (counted viaPit : Bool) (time : Option Ticks) (best : Bool) (d : Context) : LapBody where
  number := d.laps + 1
  time := time
  flags := ⟨counted, d.marks.neutral, d.marks.lowConf || x.lowConf, d.marks.inferred || x.inferred,
    d.marks.drill || x.drill, viaPit, best⟩
  missed := n
  splits := d.splits
  standing := ⟨0, none, 0⟩
  fuel := none

/-- A close up to its fifth step (R80 to R83). -/
theorem At.closeLap {v0 : State} {x : Report} {j : Line} {viaPit : Bool} (hv : Machine.checkFoul x v0 = v)
    (h : At m e time d P m.order v l) (hx : x.entry = e) (ht : x.time = time) (hs : d.state = .running) :
    let missed := missedLines m.settings.timing.lines d.expected j
    let closing := (closingMisses missed).length
    let n := d.missed + closing
    let counted : Bool := decide (n ≤ m.settings.timing.missTol)
    let p := lapJudged m x n counted d
    let lapTime := if j = 0 then d.lapStart.map fun k => time - k else none
    let best := isNewBest d.bestLap lapTime (eligible counted (lapEnded x n counted d).marks viaPit)
    let split := d.last.map fun k => time - k.time
    let sector : List RecordBody := if j = 0 then [.sector 0 x.lane split (missed.length + 1)] else []
    (¬Spared p.2 → d.disqualified = false →
      FlaggedAt m e time { p.1 with last := some x.toLast } P m.order (Machine.ruleOf m .lineMiss).enforce
        (closeLap x j viaPit v0) (l ++ sector ++ p.2)) ∧
    (Spared p.2 →
    Charged (lapEnded x n counted d) p.1 ∧
    ∃ y, closeLap x j viaPit v0 = closeRest x j (missed.length - closing) (missed.length + 1)
        (closingLap x n counted viaPit lapTime best d) y ∧
      At m e time { p.1 with lastLap := lapTime, bestLap := if best then lapTime else p.1.bestLap } P m.order y
        (l ++ sector ++ p.2)) := by
  subst ht
  intro missed closing n counted p lapTime best split sector
  unfold Machine.closeLap
  rw [hv, h.unless hx (by rw [hs]; simp)]
  rw [hx, h.lines, h.ctx]
  dsimp only
  have h1 : ∃ w, w = (if j = 0 then emitSector x 0 (splitOf x d) (missed.length + 1) v else v) ∧
      At m e x.time d P m.order w (l ++ sector) := by
    refine ⟨_, rfl, ?_⟩
    by_cases hj : j = 0
    · rw [if_pos hj]; show At _ _ _ _ _ _ _ (l ++ if j = 0 then _ else _); rw [if_pos hj]
      unfold emitSector; rw [hx]; exact h.emit rfl
    · rw [if_neg hj]; show At _ _ _ _ _ _ _ (l ++ if j = 0 then _ else _); rw [if_neg hj]; simpa using h
  obtain ⟨w, hw, h2⟩ := h1
  rw [← hw]
  have hcnt : decide (d.missed + (closingMisses missed).length ≤ w.settings.timing.missTol) = counted := by
    rw [h2.settings]
  rw [hcnt]
  have h3 : At m e x.time (lapEnded x n counted d) P m.order _ (l ++ sector) := h2.updCtx (fun c =>
    { c with missed := n, marks := joinMarks x d.marks, laps := if counted = true then saturate 9999 (c.laps + 1) else c.laps })
  refine ⟨fun hsp hd => ?_, fun hsp => ?_⟩
  · have hp : p = lapJudged m x n counted d := rfl
    clear_value counted
    cases counted with
    | true =>
      exact absurd (by intro b hb; have : p = (lapEnded x n true d, []) := hp; rw [this] at hb; simp at hb) hsp
    | false =>
      have hp' : p = charge m .lineMiss (lapEnded x n false d, []) := hp
      have hf : FlagsCar (Safety.judged m .lineMiss (lapEnded x n false d)).2 := by
        by_contra k
        apply hsp; rw [hp']; intro b hb; simp [charge] at hb; rw [hb]; exact k
      have := (h3.flag (k := .lineMiss) (by show takesIncidents d.state = true; rw [hs]; rfl) hf hd).unless hx
      have hp2 : p = ((Safety.judged m .lineMiss (lapEnded x n false d)).1,
        [.call (Safety.judged m .lineMiss (lapEnded x n false d)).2]) := hp'
      rw [hp2, if_neg Bool.false_ne_true]
      exact this _
  have h4 : ∃ y, y = (if counted = true then Machine.updCtx e (fun c =>
        { c with missed := n, marks := joinMarks x d.marks, laps := if counted = true then saturate 9999 (c.laps + 1) else c.laps }) w
      else Machine.incident e .lineMiss x.time (Machine.updCtx e (fun c =>
        { c with missed := n, marks := joinMarks x d.marks, laps := if counted = true then saturate 9999 (c.laps + 1) else c.laps }) w)) ∧
      At m e x.time p.1 P m.order y (l ++ sector ++ p.2) ∧ Charged (lapEnded x n counted d) p.1 := by
    refine ⟨_, rfl, ?_⟩
    have hp : p = lapJudged m x n counted d := rfl
    clear_value counted n
    cases counted with
    | true =>
      rw [if_pos rfl]
      have : p = (lapEnded x n true d, []) := hp
      rw [this]; exact ⟨by simpa using h3, charged_refl _⟩
    | false =>
      rw [if_neg (by simp)]
      have hp' : p = charge m .lineMiss (lapEnded x n false d, []) := hp
      have hf : ¬FlagsCar (Safety.judged m .lineMiss (lapEnded x n false d)).2 := by
        apply hsp; rw [hp']; simp [charge]
      have := h3.incident (k := .lineMiss) (by show takesIncidents d.state = true; rw [hs]; rfl) hf
      rw [hp']; exact ⟨this, (charged_judged hf).1⟩
  obtain ⟨y, hy, h5, hch⟩ := h4
  rw [← hy]
  have p1 : p.1.state = .running := by rw [hch.ranks.state]; exact hs
  refine ⟨hch, ?_⟩
  rw [h5.unless hx (by rw [p1]; simp)]
  exact ⟨_, rfl, h5.updCtx (fun c => { c with lastLap := lapTime, bestLap := if best then lapTime else c.bestLap })⟩

/-- The context of a car whose next lap has begun at the crossing that closed one (R80, R81, R82). -/
def lapBegun (m : State) (x : Report) (j : Line) (after : Nat) (neutral : Bool) (d : Context) : Context :=
  let L := m.settings.timing.lines
  let p := d.laps * L + j.val
  { d with
    lapStart := if j = 0 then some x.time else none
    crossed := if j = 0 then [] else [j]
    splits := [], missed := if j = 0 then 0 else after
    marks := ⟨neutral, x.lowConf, x.inferred, x.drill⟩
    expected := nextLine L j, last := some x.toLast
    progress := p, progressTime := some x.time, ring := ringed d.ring p x.time }

/-- A LAP record's body with its figures. -/
def lapShown (m : State) (lap : LapBody) (fuel : Nat) (k : Standing) : RecordBody :=
  .lap { lap with standing := k, fuel := if m.settings.fuel.cap = 0 then none else some fuel }

theorem At.emitClose (h : At m e time d P O v l) {x : Report} (hx : x.entry = e) (ht : x.time = time) {j : Line}
    {spanned : Nat} (lap : LapBody) :
    At m e time d P O (emitClose x j spanned lap v)
      (l ++ [lapShown m lap d.fuel (Machine.standing v e)] ++ (if j = 0 then [] else [.sector j x.lane none spanned])) := by
  subst ht
  unfold Machine.emitClose
  dsimp only
  rw [hx, h.fuelField]
  have h4 := h.emit (b := lapShown m lap d.fuel (Machine.standing v e)) rfl
  by_cases k : j = 0
  · rw [if_pos k, if_pos k, List.append_nil]; exact h4
  · rw [if_neg k, if_neg k]
    unfold emitSector; rw [hx]
    exact h4.emit (b := .sector j x.lane none spanned) rfl

/-- The rest of a close at which the car races on (R82). -/
theorem At.closeOn {y0 : State} {x : Report} {j : Line} {after spanned : Nat} {lap : LapBody}
    (hv : tellClose (Machine.ctx y0 x.entry).laps y0 = v)
    (h : At m e time d P m.order v l) (hx : x.entry = e) (ht : x.time = time) (hs : d.state = .running)
    (hj : j ≠ 0 → x.line = j) (hch : m.session.state ≠ .chequered)
    (hc : d.charged = (Machine.ctx m e).charged) :
    ∃ neutral : Bool, (neutral = true ↔ NeutralStart m (if j = 0 then time else m.clock.now)) ∧
      let d1 := lapBegun m x j after neutral d
      let q := passesCharged m d1 (passedBy m e d1)
      let u := if lap.flags.counted then deadlinesChecked m q.1 else (q.1, [])
      let lapped := l ++ q.2 ++ [lapShown m lap d.fuel (standingOf m e d1 (placedList m e d1))] ++
        (if j = 0 then [] else [.sector j x.lane none spanned]) ++ u.2
      (q.1.state = .retired → d.disqualified = false →
        FlaggedAt m e time q.1 P (placedOrder m e d1) (Machine.ruleOf m .cautionPass).enforce
          (closeRest x j after spanned lap y0) (l ++ q.2)) ∧
      (q.1.state ≠ .retired → u.1.state ≠ .retired → Charged d1 u.1 ∧
        At m e time (withDeadline m time (nextLine m.settings.timing.lines j) u.1) P (placedOrder m e d1)
          (closeRest x j after spanned lap y0) lapped) ∧
      (q.1.state ≠ .retired → u.1.state = .retired → d.disqualified = false →
        FlaggedAt m e time u.1 P (placedOrder m e d1) (Machine.ruleOf m .unserved).enforce
          (closeRest x j after spanned lap y0) lapped) := by
  subst ht
  obtain ⟨start, hst⟩ : ∃ start : Option Ticks, start = if j = 0 then some x.time else none := ⟨_, rfl⟩
  have hneu : neutralAtStart v start = true ↔ NeutralStart m (if j = 0 then x.time else m.clock.now) := by
    rw [hst]
    by_cases k : j = 0
    · rw [if_pos k, if_pos k]; exact neutralAtStart_iff h.session h.now _
    · rw [if_neg k, if_neg k, ← neutralAtStart_iff h.session h.now]
      unfold neutralAtStart; rw [h.now]; rfl
  refine ⟨neutralAtStart v start, hneu, ?_⟩
  intro d1 q u lapped
  obtain ⟨T, hT⟩ : ∃ T, T = closeRest x j after spanned lap y0 := ⟨_, rfl⟩
  rw [← hT]
  unfold Machine.closeRest at hT
  rw [hv] at hT
  have hfin : decide (v.session.state = .chequered) = false := by rw [h.session]; simpa using hch
  dsimp only at hT
  rw [hfin, ← hst] at hT
  simp only [Bool.false_eq_true, if_false] at hT
  rw [hx, h.lines] at hT
  have h1 : At m e x.time d1 P m.order (Machine.updCtx e
      (nextLap x m.settings.timing.lines j after false start (neutralAtStart v start)) v) l := by
    have := h.updCtx (nextLap x m.settings.timing.lines j after false start (neutralAtStart v start))
    have e1 : d1 = nextLap x m.settings.timing.lines j after false start (neutralAtStart v start) d := by
      show lapBegun m x j after (neutralAtStart v start) d = _
      unfold lapBegun nextLap
      simp only [Bool.false_eq_true, if_false, or_false]
      by_cases k : j = 0
      · subst k; simp only [if_true]; rw [hst]; rfl
      · simp only [if_neg k]; rw [hst, if_neg k]
        have := hj k
        subst this
        unfold crossLine setProgress beginLap joinMarks
        simp only [Bool.or_self, Nat.zero_add, List.nil_append]
        rfl
    rw [e1]; exact this
  have hp := h1.placed hc hs
  have hq : passesCharged m d1 (passedBy m e d1) = q := rfl
  dsimp only at hp
  rw [hq] at hp
  have d1l : d1.last = some x.toLast := rfl
  refine ⟨fun hret hd => by
    rw [hT]
    have := (hp.2 hret hd).unless hx
    rw [withLast_passes m (passedBy m e d1) d1l] at this
    exact this _, ?_⟩
  have key : q.1.state ≠ .retired → q.1.state = .running ∧ Charged d1 q.1 ∧ ∃ w,
      T = unlessFlagged x (if lap.flags.counted then Machine.checkDeadlines e x.time w else w)
        (Machine.setOverdue x) ∧
      At m e x.time q.1 P (placedOrder m e d1) w (l ++ q.2 ++
        [lapShown m lap d.fuel (standingOf m e d1 (placedList m e d1))] ++
        (if j = 0 then [] else [.sector j x.lane none spanned])) := by
    intro hret
    obtain ⟨h2, hch2⟩ := hp.1 hret
    have q1 : q.1.state = .running := by rw [hch2.ranks.state]; exact hs
    have hf : q.1.fuel = d.fuel := by rw [hch2.same]; rfl
    have h5 := h2.emitClose hx rfl lap (j := j) (spanned := spanned)
    rw [h2.standing hch2.ranks, hf] at h5
    refine ⟨q1, hch2, _, ?_, h5⟩
    rw [hT, h2.unless hx (by rw [q1]; simp)]
  have final : q.1.state ≠ .retired →
      (u.1.state ≠ .retired → Charged d1 u.1 ∧
        At m e x.time (withDeadline m x.time (nextLine m.settings.timing.lines j) u.1) P (placedOrder m e d1)
          (T) lapped) ∧
      (u.1.state = .retired → d.disqualified = false →
        FlaggedAt m e x.time u.1 P (placedOrder m e d1) (Machine.ruleOf m .unserved).enforce
          (T) lapped) := by
    intro hret
    obtain ⟨q1, hch2, w, hw, h5⟩ := key hret
    rw [hw]
    have ul : u.1.last = some x.toLast := by
      show (if lap.flags.counted then deadlinesChecked m q.1 else (q.1, [])).1.last = _
      split
      · rw [deadlinesChecked_last]; exact passesCharged_last _ _ _
      · exact passesCharged_last _ _ _
    have h6 : (u.1.state ≠ .retired → At m e x.time u.1 P (placedOrder m e d1)
          (if lap.flags.counted = true then Machine.checkDeadlines e x.time w else w) lapped ∧ Charged q.1 u.1) ∧
        (u.1.state = .retired → q.1.disqualified = false →
          FlaggedAt m e x.time u.1 P (placedOrder m e d1) (Machine.ruleOf m .unserved).enforce
            (if lap.flags.counted = true then Machine.checkDeadlines e x.time w else w) lapped) := by
      by_cases k : lap.flags.counted = true
      · have hu' : u = deadlinesChecked m q.1 := if_pos k
        have hl : lapped = l ++ q.2 ++ [lapShown m lap d.fuel (standingOf m e d1 (placedList m e d1))] ++
          (if j = 0 then [] else [.sector j x.lane none spanned]) ++ u.2 := rfl
        rw [if_pos k, hl, hu']
        exact h5.checkDeadlines q1
      · have hu' : u = (q.1, []) := if_neg k
        have hl : lapped = l ++ q.2 ++ [lapShown m lap d.fuel (standingOf m e d1 (placedList m e d1))] ++
          (if j = 0 then [] else [.sector j x.lane none spanned]) ++ u.2 := rfl
        rw [if_neg k, hl, hu', List.append_nil]
        exact ⟨fun _ => ⟨h5, charged_refl _⟩, fun z => absurd z (by show q.1.state ≠ _; rw [q1]; simp)⟩
    refine ⟨fun hu => ?_, fun hu hd => ?_⟩
    · obtain ⟨h6, hch3⟩ := h6.1 hu
      have u1 : u.1.state = .running := by rw [hch3.ranks.state]; exact q1
      refine ⟨charged_trans hch2 hch3, ?_⟩
      rw [h6.unless hx hu]
      exact h6.setOverdue hx rfl (by rw [u1]; simp) (by rw [hch3.same, hch2.same]; rfl)
    · have := (h6.2 hu (by rw [hch2.same]; exact hd)).unless hx
      have e1 : ({ u.1 with last := some x.toLast } : Context) = u.1 := by rw [← ul]
      rw [e1] at this; exact this _
  exact ⟨fun a b => (final a).1 b, fun a b c => (final a).2 b c⟩

/-- The context of a car that has finished at a close, its owed entries turned into seconds (R82, R162). -/
def finishedAt (m : State) (x : Report) (j : Line) (d : Context) : Context :=
  let L := m.settings.timing.lines
  { d with
    state := .finished, finishTime := some x.time, deadline := none, owed := []
    penaltySeconds := d.owed.foldl (fun n o => min 65535 (n + o.fallback)) d.penaltySeconds
    expected := nextLine L j, last := some x.toLast
    progress := d.laps * L, progressTime := some x.time, ring := ringed d.ring (d.laps * L) x.time }

/-- The rest of a close at which the car finishes, up to the close test (R82, R123). -/
theorem At.closeFinish {y0 : State} {x : Report} {j : Line} {after spanned : Nat} {lap : LapBody}
    (hv : tellClose (Machine.ctx y0 x.entry).laps y0 = v)
    (h : At m e time d P m.order v l) (hx : x.entry = e) (ht : x.time = time)
    (hch : m.session.state = .chequered) :
    let d1 := finishedAt m x j d
    ∃ z, closeRest x j after spanned lap y0 = closeTest z ∧
      At m e time d1 P (placedOrder m e d1) z
        (l ++ (d.owed.map fun o => .serve .converted o.sanction none) ++
          [lapShown m lap d.fuel (standingOf m e d1 (placedList m e d1))] ++
          (if j = 0 then [] else [.sector j x.lane none spanned])) := by
  subst ht
  intro d1
  unfold Machine.closeRest
  rw [hv]
  have hfin : decide (v.session.state = .chequered) = true := by rw [h.session]; simpa using hch
  dsimp only
  rw [hfin]
  simp only [if_true]
  have hf : At m e x.time (owedConverted { d with state := .finished, finishTime := some x.time, deadline := none }) P
      m.order (finishCar x v) (l ++ d.owed.map fun o => .serve .converted o.sanction none) := by
    unfold finishCar; rw [hx]
    exact (h.updCtx fun c => { c with state := .finished, finishTime := some x.time, deadline := none }).convertOwed
  generalize finishCar x v = w at *
  rw [hx, hf.lines]
  generalize neutralAtStart w _ = neutral
  have h1 : At m e x.time d1 P m.order (Machine.updCtx e (nextLap x m.settings.timing.lines j after true
      (if j = 0 then some x.time else none) neutral) w) (l ++ d.owed.map fun o => .serve .converted o.sanction none) := by
    have := hf.updCtx (nextLap x m.settings.timing.lines j after true (if j = 0 then some x.time else none) neutral)
    have e1 : d1 = nextLap x m.settings.timing.lines j after true (if j = 0 then some x.time else none) neutral
        (owedConverted { d with state := .finished, finishTime := some x.time, deadline := none }) := by
      unfold nextLap
      simp only [if_true, or_true]
      rfl
    rw [e1]; exact this
  generalize Machine.updCtx e _ w = u at *
  rw [placeCar_calm (by rw [h1.session, hch]; simp)]
  have h2 := h1.place
  rw [h1.placeList] at h2
  rw [h2.unless hx (by show CarState.finished ≠ _; simp)]
  have h3 := h2.emitClose hx rfl lap (j := j) (spanned := spanned)
  rw [h2.standing (ranks_refl _)] at h3
  exact ⟨_, rfl, h3⟩

/-! ### How the work of a crossing begins -/

/-- The crossing of a moving car that is no pit entry and no re-cross (R70, R89, R91). -/
structure Moving (m : State) (x : Report) : Prop where
  state : (Machine.ctx m x.entry).state = .running ∨ (Machine.ctx m x.entry).state = .offTrack ∨
    (Machine.ctx m x.entry).state = .inPit
  role : x.role ≠ .pitEntry
  fresh : (Machine.ctx m x.entry).state ≠ .inPit → (Machine.ctx m x.entry).progressTime.isSome = true →
    isReCross (Machine.lines m) x (Machine.ctx m x.entry) = false

/-- A lane change in the zone that ends at a crossing's line (R85). -/
def FoulAt (m : State) (x : Report) : Prop :=
  ∃ q, (Machine.ctx m x.entry).last = some q ∧ q.lane ≠ x.lane ∧ m.session.state ≠ .held ∧
    foulZone m x.countsFor = true

/-- The state before the change-foul check. -/
theorem moving_starts {x : Report} (h : Moving m x) (hx : x.entry = e) (ht : x.time = time) :
    (∃ v0 d, acceptCrossing x m = (if (Machine.ctx m e).state = .inPit then
          unlessFlagged x v0 (crossFor x true) else crossFor x false v0) ∧
      At m e time d (pitBegun m e) m.order v0
        (onTrack m (Machine.ctx m e)).2 ∧
      d = (onTrack m (Machine.ctx m e)).1 ∧
      Began (Machine.ctx m e) d ∧
      (∀ b, .call b ∉ (onTrack m (Machine.ctx m e)).2)) ∨
    ((Machine.ctx m e).state = .inPit ∧ ∃ w d' b, At m e time d' (pitBegun m e) m.order w [b] ∧ (∀ c, b ≠ .call c) ∧
      acceptCrossing x m = unlessFlagged x (Machine.incident e .pitShort time w) (crossFor x true) ∧
      transitEnded m (Machine.ctx m e) = charge m .pitShort (d', [b]) ∧ Began (Machine.ctx m e) d') := by
  subst hx
  have h0 := at_start m x.entry time
  have off : (Machine.ctx m x.entry).state ≠ .inPit →
      onTrack m (Machine.ctx m x.entry) = ({ Machine.ctx m x.entry with state := .running }, []) ∧
      pitBegun m x.entry = m.pit := by
    intro k; unfold onTrack pitBegun
    exact ⟨if_neg k, if_neg (fun z => k z.1)⟩
  rcases h.state with hs | hs | hs
  · left
    have hd : ({ Machine.ctx m x.entry with state := .running } : Context) = Machine.ctx m x.entry := by rw [← hs]
    obtain ⟨o1, o2⟩ := off (by rw [hs]; simp)
    rw [o1, o2, hd]
    refine ⟨m, Machine.ctx m x.entry, ?_, h0, rfl, ⟨hd.symm⟩, by simp⟩
    rw [if_neg (by rw [hs]; simp)]
    unfold acceptCrossing; rw [hs]; dsimp only
    unfold runningCrossing; dsimp only
    rw [if_neg h.role, if_neg]
    intro k
    rw [Bool.and_eq_true] at k
    rw [h.fresh (by rw [hs]; simp) k.1] at k; cases k.2
  · left
    have h1 := h0.updCtx (fun c => { c with state := .running })
    obtain ⟨o1, o2⟩ := off (by rw [hs]; simp)
    rw [o1, o2]
    refine ⟨Machine.updCtx x.entry (fun c => { c with state := .running }) m, _, ?_, h1, rfl, ⟨rfl⟩, by simp⟩
    rw [if_neg (by rw [hs]; simp)]
    unfold acceptCrossing; rw [hs]; dsimp only
    unfold runningCrossing; dsimp only
    rw [if_neg h.role, if_neg]
    intro k
    rw [h1.ctx, h1.lines, Bool.and_eq_true] at k
    have := h.fresh (by rw [hs]; simp) k.1
    have e2 : isReCross m.settings.timing.lines x { Machine.ctx m x.entry with state := .running } =
      isReCross (Machine.lines m) x (Machine.ctx m x.entry) := rfl
    rw [e2, this] at k; cases k.2
  · have hp : pitAfter m.pit x.entry (Machine.ctx m x.entry) = pitBegun m x.entry := by
      unfold pitAfter pitBegun serviceOver; simp [hs]
    have ho : onTrack m (Machine.ctx m x.entry) = transitEnded m (Machine.ctx m x.entry) := if_pos hs
    have ha : acceptCrossing x m = unlessFlagged x (closeTransit x m) (crossFor x true) := by
      unfold acceptCrossing; rw [hs]; dsimp only
      unfold pitCrossing; rw [if_neg h.role]
    rcases h0.transit rfl ht with ⟨k1, k2, k3⟩ | ⟨w, d', b, k1, k2, k3, k4, k5⟩
    · left
      rw [hp] at k1
      rw [ho]
      refine ⟨closeTransit x m, _, by rw [if_pos hs]; exact ha, ?_, rfl, k3, k2⟩
      simpa using k1
    · right
      rw [hp] at k1
      exact ⟨hs, w, d', b, by simpa using k1, k2, by rw [ha, k3], k4, k5⟩

/-- The work of a crossing begins without a black flag (R85, R89, R91). -/
theorem moving_begun {x : Report} (h : Moving m x) (hx : x.entry = e) (ht : x.time = time) (foul : Bool)
    (hf : foul = true ↔ FoulAt m x) (hn : Spared (begun m e foul).2) :
    ∃ v0 d0, acceptCrossing x m = crossFor x (decide ((Machine.ctx m e).state = .inPit)) v0 ∧
      Machine.ctx v0 e = d0 ∧ Began (Machine.ctx m e) d0 ∧ Machine.lines v0 = m.settings.timing.lines ∧
      At m e time (begun m e foul).1 (pitBegun m e) m.order (Machine.checkFoul x v0) (begun m e foul).2 ∧
      Began (Machine.ctx m e) (begun m e foul).1 := by
  have main : ∀ v0 d l, At m e time d (pitBegun m e) m.order v0 l → onTrack m (Machine.ctx m e) = (d, l) →
      Began (Machine.ctx m e) d →
      Machine.ctx v0 e = d ∧ Machine.lines v0 = m.settings.timing.lines ∧
      At m e time (begun m e foul).1 (pitBegun m e) m.order (Machine.checkFoul x v0) (begun m e foul).2 ∧
      Began (Machine.ctx m e) (begun m e foul).1 := by
    intro v0 d l k ho kb
    have hb : begun m e foul = if foul then charge m .changeFoul (d, l) else (d, l) := by
      unfold begun; rw [ho]; dsimp only
      by_cases z : foul = true
      · rw [if_pos ⟨z, by rw [kb.running]; simp⟩, if_pos z]
      · rw [if_neg (fun y => z y.1), if_neg z]
    have hfc : foul = true → ¬FlagsCar (judged m .changeFoul d).2 := by
      intro z; apply hn; rw [hb, if_pos z]; simp [charge]
    have c := k.checkFoul hx ht (.inl kb.running) foul (by
      rw [hf]; unfold FoulAt; rw [hx, kb.same]) hfc
    refine ⟨k.ctx, k.lines, by rw [hb]; exact c, ?_⟩
    rw [hb]
    by_cases z : foul = true
    · rw [if_pos z]; exact kb.judged (hfc z)
    · rw [if_neg z]; exact kb
  rcases moving_starts h hx ht with ⟨v0, d, k1, k2, k3, k4, k5⟩ | ⟨hs, w, d', b, k1, k2, k3, k4, k5⟩
  · obtain ⟨a, b, c, f⟩ := main v0 d _ k2 (by rw [k3]) k4
    refine ⟨v0, d, ?_, a, k4, b, c, f⟩
    rw [k1]
    by_cases z : (Machine.ctx m e).state = .inPit
    · rw [if_pos z, decide_eq_true z, k2.unless hx (by rw [k4.running]; simp)]
    · rw [if_neg z, decide_eq_false z]
  · have ho : onTrack m (Machine.ctx m e) = charge m .pitShort (d', [b]) := by
      unfold onTrack; rw [if_pos hs, k4]
    have hps : ¬FlagsCar (judged m .pitShort d').2 := by
      apply hn
      unfold begun; rw [ho]; dsimp only
      split
      · simp [charge]
      · simp [charge]
    have k6 := k1.incident (k := .pitShort) (by rw [k5.running]; rfl) hps
    have kb := k5.judged (s := m) hps
    obtain ⟨a, b', c, f⟩ := main _ _ _ k6 ho kb
    refine ⟨_, _, ?_, a, kb, b', c, f⟩
    rw [k3, decide_eq_true hs, k6.unless hx (by rw [kb.running]; simp)]

theorem judged_kind (s : State) (k : IncidentKind) (c : Context) : (judged s k c).2.kind = k := by
  unfold judged; dsimp only; split <;> rfl

theorem struck_pitBegun (m : State) (e : Entry) (u : Context) (f : Bool) (O : Order) :
    Safety.struck e u (some f) { m with pit := pitBegun m e, order := O } =
      Safety.struck e u (some f) { m with order := O } := by
  unfold Safety.struck pitBegun
  dsimp only
  by_cases k : (Machine.ctx m e).state = .inPit ∧ ((Machine.ctx m e).owed.head?.map fun o => o.inService) = some true
  · simp only [if_pos k]
    have a : (m.pit.marks.set e none).set e none = m.pit.marks.set e none := by simp
    have b : (m.pit.holds.set e false).set e false = m.pit.holds.set e false := by simp
    rw [a, b]
  · simp only [if_neg k]

/-- The pit places at the start of a crossing's work do not show behind a black flag (R144). -/
theorem FlaggedAt.pit {f : Bool} (h : FlaggedAt m e time d (pitBegun m e) O f v l) :
    FlaggedAt m e time d m.pit O f v l := by
  have s := struck_pitBegun m e d f O
  have s2 : ({ m with pit := m.pit, order := O } : State) = { m with order := O } := rfl
  refine ⟨fun g => ?_, fun g r => ?_, h.call, h.retired⟩
  · have := h.stays g; rw [s] at this; rw [s2]; exact this
  · have := h.closes g r; rw [s] at this; rw [s2]; exact this

/-- Every crossing of a moving car stops at a black flag of its change-foul check (R144). -/
theorem crossFor_flagged {x : Report} {v : State} {viaPit : Bool} (hx : x.entry = e)
    (h : (Machine.ctx (Machine.checkFoul x v) e).state = .retired) :
    crossFor x viaPit v = recordLast x (Machine.checkFoul x v) := by
  have u : ∀ rest, unlessFlagged x (Machine.checkFoul x v) rest = recordLast x (Machine.checkFoul x v) := by
    intro rest; unfold unlessFlagged; rw [if_pos (by rw [hx]; exact h)]
  unfold crossFor Machine.launch Machine.lostLaunch Machine.closeLap Machine.ordinaryCrossing
  simp only [u, ite_self]

/-- The work of a crossing that costs a black flag as it begins (R85, R144, R160). -/
theorem moving_flagged {x : Report} (h : Moving m x) (hx : x.entry = e) (ht : x.time = time) (foul : Bool)
    (hf : foul = true ↔ FoulAt m x) (hd : (Machine.ctx m e).disqualified = false) {b : CallBody}
    (hb : .call b ∈ (begun m e foul).2) (hfl : FlagsCar b) :
    FlaggedAt m e time { (begun m e foul).1 with last := some x.toLast } m.pit m.order (Machine.ruleOf m b.kind).enforce
      (acceptCrossing x m) (begun m e foul).2 := by
  have hrl : ∀ v, recordLast x v = Machine.updCtx e (fun c => { c with last := some x.toLast }) v := by
    intro v; unfold recordLast; rw [hx]
  have main : ∀ (v0 : State) (d : Context) (l : List RecordBody) (A : State), At m e time d (pitBegun m e) m.order v0 l →
      onTrack m (Machine.ctx m e) = (d, l) → Began (Machine.ctx m e) d → Spared l →
      (∃ viaPit, A = crossFor x viaPit v0) →
      FlaggedAt m e time { (begun m e foul).1 with last := some x.toLast } m.pit m.order
        (Machine.ruleOf m b.kind).enforce A (begun m e foul).2 := by
    intro v0 d l A k ho kb hsp hA
    have hbe : begun m e foul = if foul then charge m .changeFoul (d, l) else (d, l) := by
      unfold begun; rw [ho]; dsimp only
      by_cases z : foul = true
      · rw [if_pos ⟨z, by rw [kb.running]; simp⟩, if_pos z]
      · rw [if_neg (fun y => z y.1), if_neg z]
    have z : foul = true := by
      rw [← Bool.not_eq_false]; intro z
      rw [hbe, z] at hb
      exact hsp b hb hfl
    have hbe : begun m e foul = charge m .changeFoul (d, l) := by rw [hbe, if_pos z]
    have hbj : b = (judged m .changeFoul d).2 := by
      rw [hbe] at hb
      rcases List.mem_append.1 hb with k | k
      · exact absurd hfl (hsp b k)
      · simpa using k
    have hkind : b.kind = .changeFoul := by rw [hbj]; exact judged_kind _ _ _
    have hcf : Machine.checkFoul x v0 = Machine.incident e .changeFoul time v0 := by
      obtain ⟨q, f1, f2, f3, f4⟩ := hf.1 z
      unfold Machine.checkFoul
      rw [hx, k.ctx]; dsimp only
      have : d.last = some q := by rw [kb.same]; rw [hx] at f1; exact f1
      rw [this]; dsimp only
      have hz : foulZone v0 x.countsFor = true := by
        rw [← f4]; unfold foulZone lineRow; rw [k.session, k.settings, k.throttle]
      rw [if_pos ⟨.inl kb.running, f2, by rw [k.session]; exact f3, hz⟩, ht]
    rw [hbj] at hfl
    have a := k.flag (k := .changeFoul) (by rw [kb.running]; rfl) hfl (by rw [kb.same]; exact hd)
    obtain ⟨vp, hA⟩ := hA
    rw [hbe, hkind, hA, crossFor_flagged hx (by rw [hcf]; exact a.retired), hrl, hcf]
    exact (a.last (some x.toLast)).pit
  rcases moving_starts h hx ht with ⟨v0, d, k1, k2, k3, k4, k5⟩ | ⟨hs, w, d', b', k1, k2, k3, k4, k5⟩
  · refine main v0 d _ _ k2 (by rw [k3]) k4 (fun b hb => absurd hb (k5 b)) ?_
    rw [k1]
    by_cases z : (Machine.ctx m e).state = .inPit
    · rw [if_pos z, k2.unless hx (by rw [k4.running]; simp)]; exact ⟨_, rfl⟩
    · rw [if_neg z]; exact ⟨_, rfl⟩
  · have ho : onTrack m (Machine.ctx m e) = charge m .pitShort (d', [b']) := by
      unfold onTrack; rw [if_pos hs, k4]
    by_cases hps : FlagsCar (judged m .pitShort d').2
    · have a := k1.flag (k := .pitShort) (by rw [k5.running]; rfl) hps (by rw [k5.same]; exact hd)
      have hbe : begun m e foul = charge m .pitShort (d', [b']) := by
        unfold begun; rw [ho]; dsimp only
        rw [if_neg]; rintro ⟨_, z⟩; exact z (flagsCar_retired hps)
      have hbj : b = (judged m .pitShort d').2 := by
        rw [hbe] at hb
        rcases List.mem_append.1 hb with k | k
        · simp at k; exact absurd k.symm (k2 b)
        · simpa using k
      have hkind : b.kind = .pitShort := by rw [hbj]; exact judged_kind _ _ _
      rw [hbe, hkind, k3]
      exact (a.unless hx _).pit
    · have k6 := k1.incident (k := .pitShort) (by rw [k5.running]; rfl) hps
      have kb := k5.judged (s := m) hps
      refine main _ _ _ _ k6 ho kb ?_ ⟨true, ?_⟩
      · intro b hb
        rcases List.mem_append.1 hb with k | k
        · simp at k; exact absurd k.symm (k2 b)
        · simp at k; rw [k]; exact hps
      · rw [k3, k6.unless hx (by rw [kb.running]; simp)]

end

end Sys2Proof.Safety
end

