-- ==== Sys2Proof/Laws/Accepted.lean ====
section
/-! SUPPORT. An accepted crossing of a gate, from its command to the state after it: what the mirror copy leaves as it
was, how the work of the crossing ends, and the pit entry (R45, R59, R90, R92). -/

namespace Sys2Proof.Safety

open Sys2Proof Machine

-- One theorem after another: the proofs of many at once would need too many threads.
set_option Elab.async false

/-! ### The state behind the mirror copy -/

section
variable {s m : State} (h : SameAs s m)
include h

theorem same_judged : judged m = judged s := by
  funext k c; unfold judged ruleOf; rw [h.penalty]

theorem same_charge : charge m = charge s := by funext k p; unfold charge; rw [same_judged h]

theorem same_asksCall : asksCall m = asksCall s := by
  funext b; unfold asksCall ruleOf; cases b <;> simp [h.penalty]

theorem same_ruleOf (k) : ruleOf m k = ruleOf s k := by unfold ruleOf; rw [h.penalty]

theorem same_begun (e foul) : begun m e foul = begun s e foul := by
  unfold begun onTrack transitEnded; rw [same_ctx h, same_charge h]

theorem same_pitBegun (e) : pitBegun m e = pitBegun s e := by unfold pitBegun; rw [same_ctx h, h.pit]

theorem same_overdueFrom (time j) : overdueFrom m time j = overdueFrom s time j := by
  unfold overdueFrom; rw [same_lineRow h, h.session, h.now]

theorem same_neutralStart (time) : NeutralStart m time ↔ NeutralStart s time := by
  unfold NeutralStart; rw [h.session, h.now]

theorem same_passesCharged : passesCharged m = passesCharged s := by
  funext c l; unfold passesCharged; rw [same_charge h]

theorem same_deadlinesChecked : deadlinesChecked m = deadlinesChecked s := by
  funext c; unfold deadlinesChecked; rw [same_charge h]

theorem same_overtaken (t e) : overtaken m t e = overtaken s t e := by
  have : ctx m = ctx s := by funext f; exact same_ctx h f
  unfold overtaken; rw [h.order, h.session, this]

theorem same_goesOn (e) : GoesOn m e ↔ GoesOn s e := by
  have : ctx m = ctx s := by funext f; exact same_ctx h f
  unfold GoesOn; rw [h.session, this]

theorem same_placed {t : State} {e : Entry} (k : Placed m t e) : Placed s t e := by
  unfold Placed at *; rw [← h.order]; exact k

theorem same_foul (g code count arrival e inf) :
    FoulAt m (singleReport s g code count arrival e inf) ↔ Foul s g e := by
  unfold FoulAt Foul
  simp only [foulZone_iff]
  show (∃ q, (ctx m e).last = some q ∧ q.lane ≠ (gate s g).lane ∧ m.session.state ≠ .held ∧
    ((lineRow m (zoneLine s g)).mode ≠ .openZone ∨ _ ∨ _)) ↔ _
  rw [same_ctx h, same_lineRow h, h.session, h.settings, h.throttle]

end

/-! ### How the work ends -/

/-- The work of a crossing has ended: what stands when the command is done. -/
theorem crossing_done {s m B B0 T : State} {i : Instr} {g : GateId} {code : Byte} {count : Count} {e : Entry}
    {time : Ticks} {l : List RecordBody} (hm : SameAs s m) (em : Emits 1 0 (mirrored s g code count) m [])
    (hs : s.rstnLow = false) (key : exec i s = .next (settle T))
    (hl : B0.link = (mirrored s g code count).link) (hr : B0.rstnLow = s.rstnLow)
    (e0 : Emits 1 0 B0 B []) (e1 : Emits 0x88 l.length B T (recordsOf e time l))
    (hc : groupSet .call T = (l.any (asksCall m) || groupSet .call m)) :
    ∃ t, exec i s = .next t ∧ Outputs 0x89 B0 t ∧ Told s t e time l ∧ RecordsKept T t ∧
      t = settle T := by
  have e2 := emits_trans (emits_mono e0 (g' := 0x89) (by decide)) (emits_mono e1 (g' := 0x89) (by decide))
  have e3 := emits_trans e2 (emits_settle 0x89 T)
  obtain ⟨k, hk1, hk2⟩ := mirrored_link s g code count
  have hrec : B0.link.records = s.link.records := by rw [hl, hk1]; exact hk2
  have htx : B0.link.stationTx = s.link.stationTx := by
    rw [hl]; unfold mirrored; split <;> rfl
  have hgc : groupSet .call m = groupSet .call s := by
    rw [groupSet_outputs em.out (by decide), hk1]; rfl
  have len : 0 + l.length + 0 = l.length := by omega
  rw [List.nil_append, List.append_nil, len] at e3
  refine ⟨settle T, key, e3.out, ⟨?_, ?_, ?_, ?_⟩, (quiet_settle T).records, rfl⟩
  · rw [groupSet_outputs (quiet_settle T).outputs (by simp), hc, same_asksCall hm, hgc]
  · intro hq b hb
    exact (e3.room (hr.trans hs) (by rw [hrec]; exact hq)).2 _ (List.mem_map.2 ⟨b, hb, rfl⟩)
  · intro h1 h2
    rw [List.length_map] at h2
    have := (e3.queue (hr.trans hs) (by rw [htx]; exact h1) (by rw [hrec]; exact h2)).1
    rw [this, hrec]; rfl
  · have e : (mirrored s g code count).link.trackTx = s.link.trackTx ∧ (mirrored s g code count).link.lamp = s.link.lamp := by
      unfold mirrored; split <;> exact ⟨rfl, rfl⟩
    have := e3.lamp
    unfold LampKept at *
    rw [hl, e.1, e.2] at this; exact this

/-- The same behind stages that no black flag ends; the session may have been replaced. -/
theorem At.doneIn {s m T : State} {i : Instr} {g : GateId} {code : Byte} {count : Count} {e : Entry} {time : Ticks}
    {d : Context} {P : Pit} {O : Order} {S : Session} {l : List RecordBody}
    (h : At { m with session := S } e time d P O T l) (hm : SameAs s m)
    (em : Emits 1 0 (mirrored s g code count) m []) (hs : s.rstnLow = false) (key : exec i s = .next (settle T)) :
    ∃ t, exec i s = .next t ∧
      Outputs 0x89 { mirrored s g code count with
        contexts := s.contexts.set e d, pit := P, order := O, session := S } t ∧
      Told s t e time l ∧ RecordsKept T t ∧ t.contexts = s.contexts.set e d ∧ t.order = O ∧
      t.settings = s.settings := by
  have e1 := h.out
  have hM := sameAs_mirrored s g code count
  have q := emits_congr em (s.contexts.set e d) P O s.resolver S s.penalty s.throttle
  have r1 : ({ mirrored s g code count with contexts := s.contexts.set e d, pit := P, order := O, resolver := s.resolver, session := S, penalty := s.penalty, throttle := s.throttle }
      : State) = { mirrored s g code count with contexts := s.contexts.set e d, pit := P, order := O, session := S } := by
    rw [← hM.resolver, ← hM.penalty, ← hM.throttle]
  have r2 : ({ m with contexts := s.contexts.set e d, pit := P, order := O, resolver := s.resolver, session := S, penalty := s.penalty, throttle := s.throttle }
      : State) = { ({ m with session := S } : State) with contexts := s.contexts.set e d, pit := P, order := O } := by
    rw [← hm.resolver, ← hm.penalty, ← hm.throttle]
  rw [r1, r2] at q
  rw [show ({ m with session := S } : State).contexts = s.contexts from hm.contexts] at e1
  obtain ⟨t, a1, a2, a3, a4, _⟩ := crossing_done hm em hs key
    (B0 := { mirrored s g code count with contexts := s.contexts.set e d, pit := P, order := O, session := S }) rfl
    hM.rstnLow q e1 h.call
  exact ⟨t, a1, a2, a3, a4, (outputs_contexts a2), (outputs_order a2), (by rw [a2.rest]; exact hM.settings)⟩

/-- The same with the session as it was. -/
theorem At.done {s m T : State} {i : Instr} {g : GateId} {code : Byte} {count : Count} {e : Entry} {time : Ticks}
    {d : Context} {P : Pit} {O : Order} {l : List RecordBody} (h : At m e time d P O T l) (hm : SameAs s m)
    (em : Emits 1 0 (mirrored s g code count) m []) (hs : s.rstnLow = false) (key : exec i s = .next (settle T)) :
    ∃ t, exec i s = .next t ∧
      Outputs 0x89 { mirrored s g code count with contexts := s.contexts.set e d, pit := P, order := O } t ∧
      Told s t e time l ∧ RecordsKept T t ∧ t.contexts = s.contexts.set e d ∧ t.order = O ∧
      t.settings = s.settings := by
  have := At.doneIn (S := m.session) h hm em hs key
  rw [hm.session, ← (sameAs_mirrored s g code count).session] at this
  exact this

/-- The same behind a black flag (R123, R144). -/
theorem flag_done {s m T : State} {i : Instr} {g : GateId} {code : Byte} {count : Count} {e : Entry} {time : Ticks}
    {u : Context} {f : Bool} {P : Pit} {O : Order} {l : List RecordBody} (h : FlaggedAt m e time u P O f T l)
    (hm : SameAs s m) (em : Emits 1 0 (mirrored s g code count) m []) (hs : s.rstnLow = false)
    (key : exec i s = .next (settle T)) :
    ∃ t, exec i s = .next t ∧
      FlagEnds s (struck e u (some f) { mirrored s g code count with pit := P, order := O }) t e time l := by
  have hM := sameAs_mirrored s g code count
  let B := struck e u (some f) { s with pit := P, order := O }
  have q := emits_congr em B.contexts B.pit B.order s.resolver s.session B.penalty s.throttle
  have r1 : ({ mirrored s g code count with contexts := B.contexts, pit := B.pit, order := B.order, resolver := s.resolver, session := s.session, penalty := B.penalty, throttle := s.throttle }
      : State) = struck e u (some f) { mirrored s g code count with pit := P, order := O } := by
    unfold B struck; dsimp only
    rw [hM.contexts, hM.penalty, ← hM.resolver, ← hM.session, ← hM.throttle]
  have r2 : ({ m with contexts := B.contexts, pit := B.pit, order := B.order, resolver := s.resolver, session := s.session, penalty := B.penalty, throttle := s.throttle }
      : State) = struck e u (some f) { m with pit := P, order := O } := by
    unfold B struck; dsimp only
    rw [hm.contexts, hm.penalty, ← hm.resolver, ← hm.session, ← hm.throttle]
  rw [r1, r2] at q
  have rl : (struck e u (some f) { mirrored s g code count with pit := P, order := O }).rstnLow = false := by
    rw [struck_rstnLow]; exact hM.rstnLow.trans hs
  by_cases hg : GoesOn s e
  · obtain ⟨t, a1, a2, a3, _⟩ := crossing_done hm em hs key
      (B0 := struck e u (some f) { mirrored s g code count with pit := P, order := O })
      (struck_link _ _ _ _) (by rw [struck_rstnLow]; exact hM.rstnLow) q (h.stays ((same_goesOn hm e).2 hg)) h.call
    exact ⟨t, a1, fun _ => ⟨a2, a3⟩, fun k => absurd hg k⟩
  · have c := (((h.closes (fun k => hg ((same_goesOn hm e).1 k)) (hm.rstnLow.trans hs)).quiet (quiet_settle T)).mono
      (g' := 0xC9) (by decide)).since (outputs_mono q.out (by decide)) q.len (fun k1 k2 => by
        simpa using q.queue rl k1 (by omega))
    refine ⟨settle T, key, fun k => absurd k hg, fun _ => ⟨c, ?_⟩⟩
    rw [groupSet_outputs (quiet_settle T).outputs (by simp), h.call, same_asksCall hm]
    congr 1
    obtain ⟨k, hk1, _⟩ := mirrored_link s g code count
    rw [groupSet_outputs em.out (by decide), hk1]; rfl

/-! ### Pit entries -/

section
variable {m v : State} {e : Entry} {time : Ticks} {d : Context} {P : Pit} {O : Order} {l : List RecordBody}

/-- A judged context with other misses (R90). -/
theorem judged_missed (s : State) (k : IncidentKind) (c : Context) (n : Nat) (j : Line) :
    judged s k { c with missed := n, expected := j } =
      ({ (judged s k c).1 with missed := n, expected := j }, (judged s k c).2) := by
  unfold judged
  have hc : countOf { c with missed := n, expected := j } k = countOf c k := rfl
  dsimp only
  rw [hc]
  split
  · rfl
  · unfold sanctioned
    cases (ruleOf s k).sanction <;> dsimp only
    · split <;> rfl
    · split <;> rfl

/-- The service of a car that enters the pit (R154). -/
theorem At.startService (h : At m e time d P O v l) (b : Ticks) (hd : d.transit = some ⟨b, 0, false⟩) :
    At m e time { d with
        transit := some ⟨b, 0, !d.owed.isEmpty⟩
        owed := d.owed.modifyHead fun o => { o with inService := true } }
      (if d.owed = [] then P else { P with marks := P.marks.set e none }) O (startService e v) l := by
  unfold Machine.startService
  rw [h.ctx]
  by_cases ho : d.owed = []
  · rw [if_pos ho, if_pos (by rw [ho]; rfl)]
    have : ({ d with
        transit := some ⟨b, 0, !d.owed.isEmpty⟩
        owed := d.owed.modifyHead fun o => { o with inService := true } } : Context) = d := by
      rw [ho, ← ho]; show ({ d with transit := some ⟨b, 0, !d.owed.isEmpty⟩, owed := _ } : Context) = d
      have e1 : (!d.owed.isEmpty) = false := by rw [ho]; rfl
      have e2 : (d.owed.modifyHead fun o => { o with inService := true }) = d.owed := by rw [ho]; rfl
      rw [e1, ← hd, e2]
    rw [this]; exact h
  · rw [if_neg ho, if_neg (by simpa using ho)]
    have h1 := (h.updCtx fun c => { c with owed := setHeadService true c.owed, transit := setService true c.transit }).setMark none
    have e1 : setHeadService true d.owed = d.owed.modifyHead fun o => { o with inService := true } := by
      cases d.owed <;> rfl
    have e2 : (!d.owed.isEmpty) = true := by simpa using ho
    have e3 : setService true d.transit = some ⟨b, 0, true⟩ := by rw [hd]; rfl
    rw [e1, e3] at h1
    rw [e2]; exact h1

/-- An accepted PIT_ENTRY crossing of a RUNNING or OFF_TRACK car, up to the change-foul check (R90). -/
theorem pitEntry_starts {x : Report} (hx : x.entry = e) (_ht : x.time = time) (hr : x.role = .pitEntry)
    (hs : (ctx m e).state = .running ∨ (ctx m e).state = .offTrack) (foul : Bool) (_hf : foul = true ↔ FoulAt m x) :
    let n := (ctx m e).missed +
      if (ctx m e).progressTime = none then 0 else (missedLines m.settings.timing.lines (ctx m e).expected 0).length
    let d0 : Context := { ctx m e with state := .running, missed := n, expected := 0 }
    ∃ w, At m e time d0 m.pit m.order w [] ∧
      acceptCrossing x m = unlessFlagged x (checkFoul x w) (fun s => startService x.entry (updCtx x.entry (fun c => { c with
        state := .inPit, transit := some ⟨x.time, 0, false⟩, deadline := none
        last := some x.toLast, marks := joinMarks x c.marks }) s)) := by
  intro n d0
  have h0 := at_start m e time
  have h1 : ∃ v, At m e time { ctx m e with state := .running } m.pit m.order v [] ∧
      acceptCrossing x m = pitEntry x v := by
    rcases hs with k | k
    · have hd : ({ ctx m e with state := .running } : Context) = ctx m e := by rw [← k]
      refine ⟨m, by rw [hd]; exact h0, ?_⟩
      unfold acceptCrossing runningCrossing; rw [hx, k]; dsimp only; rw [if_pos hr]
    · refine ⟨_, h0.updCtx (fun c => { c with state := .running }), ?_⟩
      unfold acceptCrossing runningCrossing; rw [hx, k]; dsimp only; rw [if_pos hr]
  obtain ⟨v, h1, ha⟩ := h1
  rw [ha]
  unfold pitEntry
  rw [hx, h1.ctx, h1.lines]
  dsimp only
  obtain ⟨k, hk⟩ : ∃ k, k = (if (ctx m e).progressTime.isSome = true then
    missedLines m.settings.timing.lines (ctx m e).expected 0 else []) := ⟨_, rfl⟩
  have hkl : n = (ctx m e).missed + k.length := by
    rw [hk]; show (ctx m e).missed + _ = _
    cases (ctx m e).progressTime <;> simp
  have h2 := h1.updCtx (fun c => { c with missed := c.missed + k.length, expected := 0 })
  rw [hk] at h2
  refine ⟨_, ?_, rfl⟩
  show At m e time { ctx m e with state := .running, missed := n, expected := 0 } _ _ _ _
  rw [hkl, hk]; exact h2

/-- The records before a pit entry's own work (R85). -/
theorem begun_entry (hs : (ctx m e).state = .running ∨ (ctx m e).state = .offTrack) (foul : Bool) :
    begun m e foul = if foul then charge m .changeFoul ({ ctx m e with state := .running }, [])
      else ({ ctx m e with state := .running }, []) := by
  have ho : onTrack m (ctx m e) = ({ ctx m e with state := .running }, []) := by
    unfold onTrack; rw [if_neg (by rcases hs with k | k <;> rw [k] <;> simp)]
  unfold begun; rw [ho]; dsimp only
  by_cases z : foul = true
  · rw [if_pos ⟨z, by simp⟩, if_pos z]
  · rw [if_neg (fun y => z y.1), if_neg z]

/-- A pit entry (R90, R154). -/
theorem pitEntry_at {x : Report} (hx : x.entry = e) (ht : x.time = time) (hr : x.role = .pitEntry)
    (hs : (ctx m e).state = .running ∨ (ctx m e).state = .offTrack) (foul : Bool) (hf : foul = true ↔ FoulAt m x)
    (hn : Spared (begun m e foul).2) :
    let d := (begun m e foul).1
    let n := (ctx m e).missed +
      if (ctx m e).progressTime = none then 0 else (missedLines m.settings.timing.lines (ctx m e).expected 0).length
    At m e time { d with
        missed := n, expected := 0, last := some x.toLast
        state := .inPit, deadline := none, marks := joinMarks x d.marks
        transit := some ⟨time, 0, !d.owed.isEmpty⟩
        owed := d.owed.modifyHead fun o => { o with inService := true } }
      (if d.owed = [] then m.pit else { m.pit with marks := m.pit.marks.set e none }) m.order
      (acceptCrossing x m) (begun m e foul).2 := by
  intro d n
  obtain ⟨w, h1, ha⟩ := pitEntry_starts hx ht hr hs foul hf
  have hbe := begun_entry hs foul
  have hj := judged_missed m .changeFoul { ctx m e with state := .running } n 0
  have c := h1.checkFoul hx ht (.inl rfl) foul (by rw [hf]; unfold FoulAt; rw [hx]) (by
    intro z
    have : begun m e foul = charge m .changeFoul ({ ctx m e with state := .running }, []) := by rw [hbe, if_pos z]
    have h2 := hn (judged m .changeFoul { ctx m e with state := .running }).2 (by rw [this]; simp [charge])
    rw [hj]; exact h2)
  rw [ha]
  have e1 : (if foul = true then charge m .changeFoul ({ ctx m e with state := .running, missed := n, expected := 0 }, [])
      else ({ ctx m e with state := .running, missed := n, expected := 0 }, [])) =
      ({ d with missed := n, expected := 0 }, (begun m e foul).2) := by
    show _ = ({ (begun m e foul).1 with missed := n, expected := 0 }, (begun m e foul).2)
    rw [hbe]
    by_cases z : foul = true
    · rw [if_pos z, if_pos z]; unfold charge; dsimp only; rw [hj]
    · rw [if_neg z, if_neg z]
  rw [e1] at c
  have hb : Began (ctx m e) d := by
    have hb0 : Began (ctx m e) { ctx m e with state := .running } := ⟨rfl⟩
    show Began _ (begun m e foul).1
    rw [hbe]
    by_cases z : foul = true
    · rw [if_pos z]; refine hb0.judged ?_
      have : begun m e foul = charge m .changeFoul ({ ctx m e with state := .running }, []) := by rw [hbe, if_pos z]
      exact hn _ (by rw [this]; simp [charge])
    · rw [if_neg z]; exact hb0
  rw [c.unless hx (by show d.state ≠ _; rw [hb.running]; simp)]
  rw [hx, ht]
  exact (c.updCtx (fun c => { c with
        state := .inPit, transit := some ⟨time, 0, false⟩, deadline := none
        last := some x.toLast, marks := joinMarks x c.marks })).startService time rfl

/-- A pit entry whose lane foul costs a black flag (R85, R144). -/
theorem pitEntry_flagged {x : Report} (hx : x.entry = e) (ht : x.time = time) (hr : x.role = .pitEntry)
    (hs : (ctx m e).state = .running ∨ (ctx m e).state = .offTrack) (foul : Bool) (hf : foul = true ↔ FoulAt m x)
    (hd : (ctx m e).disqualified = false) {b : CallBody}
    (hb : .call b ∈ (begun m e foul).2) (hfl : FlagsCar b) :
    let n := (ctx m e).missed +
      if (ctx m e).progressTime = none then 0 else (missedLines m.settings.timing.lines (ctx m e).expected 0).length
    FlaggedAt m e time { (begun m e foul).1 with missed := n, expected := 0, last := some x.toLast } m.pit m.order
      (ruleOf m b.kind).enforce (acceptCrossing x m) (begun m e foul).2 := by
  intro n
  obtain ⟨w, h1, ha⟩ := pitEntry_starts hx ht hr hs foul hf
  have z : foul = true := by
    rw [← Bool.not_eq_false]; intro z
    rw [begun_entry hs, z] at hb; simp at hb
  have hbe : begun m e foul = charge m .changeFoul ({ ctx m e with state := .running }, []) := by
    rw [begun_entry hs, if_pos z]
  have hbj : b = (judged m .changeFoul { ctx m e with state := .running }).2 := by
    rw [hbe] at hb; simpa [charge] using hb
  have hkind : b.kind = .changeFoul := by rw [hbj]; exact judged_kind _ _ _
  have hj := judged_missed m .changeFoul { ctx m e with state := .running } n 0
  have hcf : checkFoul x w = incident e .changeFoul time w := by
    obtain ⟨q, f1, f2, f3, f4⟩ := hf.1 z
    unfold checkFoul
    rw [hx, h1.ctx]; dsimp only
    rw [hx] at f1
    rw [f1]; dsimp only
    have hz : foulZone w x.countsFor = true := by
      rw [← f4]; unfold foulZone lineRow; rw [h1.session, h1.settings, h1.throttle]
    rw [if_pos ⟨.inl rfl, f2, by rw [h1.session]; exact f3, hz⟩, ht]
  rw [hbj] at hfl
  have a := h1.flag (k := .changeFoul) rfl (by rw [hj]; exact hfl) hd
  rw [hj] at a
  rw [ha, hbe, hkind, hcf]
  exact a.unless hx _

end

/-! ### Lap closes -/

theorem closingMisses_length : ∀ l : List Line, (0 : Line) ∈ l →
    (closingMisses l).length = (l.takeWhile fun k => k ≠ 0).length + 1
  | [], h => by simp at h
  | k :: l, h => by
    unfold closingMisses
    by_cases hk : k = 0
    · subst hk; simp
    · rw [if_neg hk, List.takeWhile_cons_of_pos (by simpa using hk)]
      rcases List.mem_cons.1 h with z | z
      · exact absurd z.symm hk
      · rw [List.length_cons, List.length_cons, closingMisses_length l z]

/-- The misses up to a missed line 0 (R80). -/
theorem missed_to_zero : ∀ (L : Nat) (k j : Line), k.val < L → j.val < L → L ≤ 5 → (0 : Line) ∈ missedLines L k j →
    ((missedLines L k j).takeWhile fun k => k ≠ 0).length = (L - k.val) % L := by
  have : ∀ L : Fin 6, ∀ k j : Line, k.val < L.val → j.val < L.val → (0 : Line) ∈ missedLines L.val k j →
    ((missedLines L.val k j).takeWhile fun k => k ≠ 0).length = (L.val - k.val) % L.val := by decide
  intro L k j h1 h2 h3
  exact this ⟨L, by omega⟩ k j h1 h2

/-- The laps end a LAPS heat in the state the session is in (R121). -/
def EndsHeat (s : State) (laps : Nat) : Prop :=
  (s.settings.heat.raceKind = .laps ∧ s.settings.heat.raceLaps ≤ laps) ∧
  (s.session.state = .green ∨ s.session.state = .caution ∨
    (s.session.state = .held ∧ (s.session.heldFrom = some .green ∨ s.session.heldFrom = some .caution)))

/-- What a lap close tells the session controller (R121). -/
theorem tellClose_eq (laps : Nat) (y : State) :
    (¬EndsHeat y laps → tellClose laps y = y) ∧
    (EndsHeat y laps → y.session.state = .held →
      tellClose laps y = { y with session := { y.session with heldFrom := some .chequered } }) ∧
    (EndsHeat y laps → y.session.state ≠ .held → tellClose laps y = enterChequered .lapsDone y) := by
  unfold EndsHeat tellClose
  by_cases h : y.settings.heat.raceKind = .laps ∧ y.settings.heat.raceLaps ≤ laps
  · rw [if_pos h]
    cases hs : y.session.state <;> simp [h]
    exact ⟨fun k1 k2 k3 => absurd k3 (by simp [k1, k2]), fun k1 k2 k3 => absurd k1 (by simp [k2, k3])⟩
  · rw [if_neg h]
    exact ⟨fun _ => rfl, fun k => absurd k.1 h, fun k => absurd k.1 h⟩

end Sys2Proof.Safety
end

