-- ==== Sys2Proof/Laws/Assembler.lean ====
section
/-! SUPPORT. The receive assembler: bytes into frames, and the layouts read back (R2, R3, R6). -/

namespace Sys2Proof.Safety

open Sys2Proof Machine

theorem count_of_bytes (n : Count) : ((n.extractLsb' 16 8 : Byte) ++ (n.extractLsb' 8 8 : Byte) ++
    (n.extractLsb' 0 8 : Byte) : BitVec 24) = n := by
  rw [BitVec.extractLsb'_append_extractLsb'_eq_extractLsb' (by omega)]
  rw [BitVec.extractLsb'_append_extractLsb'_eq_extractLsb' (by omega)]
  exact BitVec.extractLsb'_eq_self

theorem driveEntries_of_bytes (es : List DriveEntry) : driveEntries ((es.map DriveEntry.bytes).flatten) =
    some es := by
  induction es with
  | nil => rfl
  | cons e es ih =>
    simp only [List.map_cons, List.flatten_cons, DriveEntry.bytes, List.cons_append, List.nil_append]
    unfold driveEntries
    simp [ih]

theorem feedAll_cons (w s : Nat) (a : Assembler) (b : Byte) (l : List Byte) : a.feedAll w s (b :: l) =
    (((a.feed b s).1.feedAll w (s+w) l).1, (a.feed b s).2.toList ++ ((a.feed b s).1.feedAll w (s+w) l).2) := rfl

/-- A body (R2). -/
theorem feedAll_body (w : Nat) (rest : List Byte) : ∀ (l : List Byte) (a : Assembler) (s : Ticks), a.state =
    .body → a.body.length + l.length = a.length → l ≠ [] →
   a.feedAll w s (l ++ rest) = Assembler.feedAll w { a with state := .check, body := a.body ++ l } (s + w *
       l.length) rest := by
  intro l
  induction l with
  | nil => intro a s _ _ h; exact absurd rfl h
  | cons b l ih =>
    intro a s h hl _
    rw [List.cons_append, feedAll_cons]
    have e : a.feed b s =
        ({ a with body := a.body ++ [b], state := if a.body.length + 1 < a.length then .body else .check },
        none) := by
      unfold Assembler.feed; rw [h]
    rw [e]
    cases l with
    | nil =>
      simp at hl
      have : ¬ (a.body.length + 1 < a.length) := by omega
      simp [this]
    | cons c l =>
      simp at hl
      have : a.body.length + 1 < a.length := by omega
      simp only [this, if_true]
      have hx : (a.body ++ [b]).length + (c :: l).length = a.length := by simp; omega
      rw [ih { a with state := .body, body := a.body ++ [b] } (s + w) rfl hx (by simp)]
      have k : s + w + w * (c :: l).length = s + w * (b :: c :: l).length := by
        have : ∀ (s w n : Nat), s + w + w * n = s + w * (n+1) := by intro s w n; ring
        exact this s w _
      rw [k]; simp

/-- The two check bytes (R2). -/
theorem feedAll_check (w : Nat) (hi lo : Byte) (a : Assembler) (s : Ticks) (h : a.state =
    .check) (hc : a.checkHigh = none) :
  ∃ b, a.feedAll w s [hi, lo] = (b, [.frame a.arrival ⟨a.ftype, a.body⟩ (hi ++ lo)]) ∧ b.state = .hunt := by
  refine ⟨{ a with checkHigh := some hi, state := .hunt }, ?_, rfl⟩
  rw [feedAll_cons, feedAll_cons]
  have e : a.feed hi s = ({ a with checkHigh := some hi }, none) := by unfold Assembler.feed; rw [h]; simp [hc]
  rw [e]
  have e2 : ({ a with checkHigh := some hi } : Assembler).feed lo (s+w) =
      ({ a with checkHigh := some hi, state := .hunt }, some (.frame a.arrival ⟨a.ftype, a.body⟩ (hi ++
      lo))) := by
    unfold Assembler.feed; simp [h]
  rw [e2]; rfl

/-- A whole frame behind its start marker (R2). -/
theorem feedAll_frame (a : Assembler) (f : Frame) (hi lo : Byte) (width : Nat) (start : Ticks) (h : a.state =
    .hunt) (hl : f.body.length ≤ 60) :
    ∃ b, a.feedAll width start (0xA5 :: (f.covered ++ [hi, lo])) = (b, [.frame start f (hi ++ lo)]) ∧ b.state =
        .hunt := by
  unfold Frame.covered
  rw [feedAll_cons]
  have e1 : a.feed 0xA5 start = ({ idleAssembler with state := .type, arrival := start }, none) := by
    unfold Assembler.feed; rw [h]; rfl
  rw [e1, List.cons_append, feedAll_cons]
  have e2 (x : Assembler) (s : Ticks) (b : Byte) (hx : x.state = .type) : x.feed b s =
      ({ x with state := .length, ftype := b }, none) := by
    unfold Assembler.feed; rw [hx]
  rw [e2 _ _ _ rfl, List.cons_append, feedAll_cons]
  have hn : (BitVec.ofNat 8 f.body.length).toNat = f.body.length := by simp; omega
  have e3 (x : Assembler) (s : Ticks) (hx : x.state = .length) : x.feed (BitVec.ofNat 8 f.body.length) s =
      ({ x with state := if f.body = [] then .check else .body, length := f.body.length }, none) := by
    unfold Assembler.feed; rw [hx]
    simp only [hn]; rw [if_neg (by simp [Config.maxBody]; omega)]
    have : (BitVec.ofNat 8 f.body.length = 0) ↔ f.body = [] := by
      constructor
      · intro h
        have := congrArg BitVec.toNat h; rw [hn] at this; simpa using this
      · intro h; rw [h]; rfl
    simp only [this]
  rw [e3 _ _ rfl]
  by_cases hb : f.body = []
  · simp only [hb, if_true, List.nil_append, List.length_nil]
    obtain ⟨b, h1, h2⟩ := feedAll_check width hi lo
        { ({ idleAssembler with state := .type, arrival := start } : Assembler) with state := .check, ftype := f.ftype, length := 0 }
        (start + width + width + width) rfl rfl
    refine ⟨b, ?_, h2⟩
    have hf : f = ⟨f.ftype, []⟩ := by cases f; simp_all
    simp only [idleAssembler] at h1 ⊢
    rw [h1]; simp; exact hf.symm
  · simp only [hb, if_false]
    rw [feedAll_body _ _ _ _ _ rfl (by simp [idleAssembler]) hb]
    obtain ⟨b, h1, h2⟩ := feedAll_check width hi lo
        { ({ idleAssembler with state := .type, arrival := start } : Assembler) with state := .check, ftype := f.ftype, length := f.body.length, body := f.body }
        (start + width + width + width + width * f.body.length) rfl rfl
    refine ⟨b, ?_, h2⟩
    simp only [idleAssembler, List.nil_append] at h1 ⊢
    rw [h1]; simp

end Sys2Proof.Safety
end

