-- ==== Sys2Proof/Laws/Drills.lean ====
section
/-! SUPPORT. The drill generator at a start: every drill car gets its schedule, in ascending entry number, with one
draw of the LFSR for each SCATTER car (R62, R63). -/

namespace Sys2Proof.Safety

open Sys2Proof Machine

/-- One shift of the LFSR (R66). -/
def shifted (v : BitVec 16) : BitVec 16 := if v.getLsbD 0 then (v >>> 1) ^^^ 0xB400 else v >>> 1

/-- A drill car in SCATTER mode. -/
def scatterCar (s : State) (e : Entry) : Bool := mapped s e && (entryRow s e).drillMode == .scatter

/-- How many SCATTER cars have a lower entry number. -/
def scattersBefore (s : State) (n : Nat) : Nat := ((allEntries.filter fun e => decide (e.val < n)).filter
    (scatterCar s)).length

theorem take_allEntries_succ : ∀ k : Fin 16, allEntries.take (k.val+1) =
    allEntries.take k.val ++ [k] := by decide

theorem filter_allEntries_succ : ∀ k : Fin 16, (allEntries.filter fun e => decide (e.val < k.val + 1)) =
    (allEntries.filter fun e => decide (e.val < k.val)) ++ [k] := by decide

theorem scattersBefore_succ (s) (k : Fin 16) : scattersBefore s (k.val+1) =
    scattersBefore s k.val + if scatterCar s k then 1 else 0 := by
  unfold scattersBefore; rw [filter_allEntries_succ, List.filter_append, List.length_append]; simp
      [List.filter_cons]; split <;> simp_all

/-- A drill car (R62). -/
def isDrillCar (s : State) (e : Entry) : Prop := mapped s e = true ∧ (entryRow s e).drillMode ≠ .off

/-- The schedules of the first entries. -/
theorem startDrill_fold (s : State) : ∀ k, k ≤ 16 → ∃ D, (allEntries.take k).foldl startDrill s =
    { s with resolver := { s.resolver with drills := D, lfsr := shifted^[scattersBefore s k] s.resolver.lfsr } }
        ∧
    ∀ e : Entry, (¬(e.val < k ∧ isDrillCar s e) → D[e] = s.resolver.drills[e]) ∧ ((e.val < k ∧
        isDrillCar s e) → D[e] = some {
          lap := 0
          lapTime := if (entryRow s e).drillMode = .scatter
            then (entryRow s e).drillLap + (shifted^[scattersBefore s (e.val + 1)] s.resolver.lfsr).toNat % ((entryRow s e).drillStep + 1) else (entryRow s e).drillLap
          launchDue := true
          nextLine := 0
          remaining := (entryRow s e).drillLap / s.settings.timing.lines })
  | 0, _ => ⟨s.resolver.drills, rfl, fun e => ⟨fun _ => rfl, fun h => by omega⟩⟩
  | k + 1, hk => by
    obtain ⟨D, h1, h2⟩ := startDrill_fold s k (by omega)
    have hs := take_allEntries_succ ⟨k, by omega⟩
    dsimp only at hs
    obtain ⟨e0, he0⟩ : ∃ e0 : Entry, e0 = ⟨k, by omega⟩ := ⟨_, rfl⟩
    have hv : e0.val = k := by rw [he0]
    have hsc := scattersBefore_succ s e0
    rw [hv] at hsc
    rw [hs, List.foldl_append, h1, ← he0]
    obtain ⟨w, hw⟩ : ∃ w : State, w =
        { s with resolver := { s.resolver with drills := D, lfsr := shifted^[scattersBefore s k] s.resolver.lfsr } } :=
        ⟨_, rfl⟩
    rw [← hw]
    show ∃ D', startDrill w e0 = _ ∧ _
    have hm : mapped w e0 = mapped s e0 := by rw [hw]; rfl
    have hrow : entryRow w e0 = entryRow s e0 := by rw [hw]; rfl
    have hlin : lines w = s.settings.timing.lines := by rw [hw]; rfl
    have hwl : w.resolver.lfsr = shifted^[scattersBefore s k] s.resolver.lfsr := by rw [hw]
    unfold startDrill
    rw [hm, hrow]
    by_cases hd : isDrillCar s e0
    · rw [if_pos (by simp [hd.1, hd.2])]
      have hdl : drillLapTime e0 0 w =
          ({ w with resolver := { w.resolver with lfsr := shifted^[scattersBefore s (k+1)] s.resolver.lfsr } },
          if (entryRow s e0).drillMode = .scatter
            then (entryRow s e0).drillLap + (shifted^[scattersBefore s (e0.val + 1)] s.resolver.lfsr).toNat %
                ((entryRow s e0).drillStep + 1) else (entryRow s e0).drillLap) := by
        unfold drillLapTime; rw [hrow, hv]
        have hit : scatterCar s e0 = true → shifted^[scattersBefore s (k+1)] s.resolver.lfsr = lfsrStep
            w.resolver.lfsr := by
          intro h; rw [hsc, if_pos h, hwl, Function.iterate_succ_apply']; rfl
        have hno : scatterCar s e0 = false → shifted^[scattersBefore s (k+1)] s.resolver.lfsr =
            w.resolver.lfsr := by
          intro h; rw [hsc, h, hwl]; rfl
        dsimp only
        cases hmode : (entryRow s e0).drillMode with
        | off => exact absurd hmode hd.2
        | fixed => dsimp only; rw [hno (by unfold scatterCar; rw [hmode]; simp), if_neg (by simp)]
        | ramp => dsimp only; rw [hno (by unfold scatterCar; rw [hmode]; simp), if_neg (by simp)]; simp
        | scatter => dsimp only; rw [hit (by unfold scatterCar; rw [hmode, hd.1]; rfl), if_pos rfl]; rfl
      rw [hdl]
      refine ⟨D.set e0 (some {
          lap := 0
          lapTime := if (entryRow s e0).drillMode = .scatter
            then (entryRow s e0).drillLap + (shifted^[scattersBefore s (e0.val + 1)] s.resolver.lfsr).toNat % ((entryRow s e0).drillStep + 1) else (entryRow s e0).drillLap
          launchDue := true
          nextLine := 0
          remaining := (entryRow s e0).drillLap / s.settings.timing.lines }), ?_, ?_⟩
      · dsimp only; rw [hlin, hw]; rfl
      · intro e
        by_cases hee : e = e0
        · subst hee
          refine ⟨fun h => absurd ⟨by omega, hd⟩ h, fun _ => by simp⟩
        · have hne : ¬(e0.val = e.val) := fun h => hee (Fin.ext h.symm)
          have hx : ∀ y, (D.set e0 y)[e] = D[e] := by intro y; simp [hne]
          rw [hx]
          have := h2 e
          have h3 : (e.val < k + 1 ∧ isDrillCar s e) ↔ (e.val < k ∧ isDrillCar s e) := by
            constructor
            · intro h; exact ⟨by omega, h.2⟩
            · intro h; exact ⟨by omega, h.2⟩
          rw [h3]; exact this
    · rw [if_neg (by intro h; apply hd; simpa [isDrillCar] using h)]
      refine ⟨D, ?_, ?_⟩
      · rw [hw, hsc, if_neg]
        · rfl
        · intro h; apply hd; unfold scatterCar at h; simp at h; exact ⟨h.1, by rw [h.2]; simp⟩
      · intro e
        have := h2 e
        have h3 : (e.val < k + 1 ∧ isDrillCar s e) ↔ (e.val < k ∧ isDrillCar s e) := by
          constructor
          · intro h; refine ⟨?_, h.2⟩
            by_contra hc
            have : e = e0 := Fin.ext (by omega)
            rw [this] at h; exact hd h.2
          · intro h; exact ⟨by omega, h.2⟩
        rw [h3]; exact this

/-- The schedules of a start (R62, R63). -/
theorem startDrills_eq (s : State) : ∃ D, startDrills s =
    { s with resolver := { s.resolver with drills := D, lfsr := shifted^[if s.resolver.drillOn then scattersBefore s 16 else 0] s.resolver.lfsr } }
        ∧
    ∀ e : Entry, (¬(s.resolver.drillOn = true ∧ isDrillCar s e) → D[e] = s.resolver.drills[e]) ∧
        ((s.resolver.drillOn = true ∧ isDrillCar s e) → D[e] = some {
          lap := 0
          lapTime := if (entryRow s e).drillMode = .scatter
            then (entryRow s e).drillLap + (shifted^[scattersBefore s (e.val + 1)] s.resolver.lfsr).toNat % ((entryRow s e).drillStep + 1) else (entryRow s e).drillLap
          launchDue := true
          nextLine := 0
          remaining := (entryRow s e).drillLap / s.settings.timing.lines }) := by
  unfold startDrills
  by_cases h : s.resolver.drillOn = true
  · rw [if_pos h]
    obtain ⟨D, h1, h2⟩ := startDrill_fold s 16 (le_refl _)
    refine ⟨D, by rw [if_pos h]; exact h1, fun e => ⟨fun k => (h2 e).1 (fun q => k ⟨h, q.2⟩), fun k => (h2 e).2
        ⟨e.isLt, k.2⟩⟩⟩
  · rw [if_neg h]
    exact ⟨s.resolver.drills, by rw [if_neg h]; rfl, fun e => ⟨fun _ => rfl, fun k => absurd k.1 h⟩⟩

theorem add_sub_share (w z q : Nat) (h : z + q ≤ w) : q + (w - (z + q)) = w - z := by omega

/-- The ticks of one line of a drill lap (R63). -/
theorem drillShare_eq (L : Nat) (lapTime : Ticks) (line : Line) : drillShare L lapTime line = if line =
    0 then lapTime - (L - 1) * (lapTime / L) else lapTime / L := by
  unfold drillShare
  split
  · have h := Nat.mul_div_le lapTime L
    cases hL : L with
    | zero => simp
    | succ k =>
      rw [hL, Nat.succ_mul] at h
      rw [Nat.succ_mul, Nat.succ_sub_one]
      generalize lapTime / (k+1) = q at *
      generalize k * q = z at *
      exact add_sub_share lapTime z q h
  · rfl

end Sys2Proof.Safety
end

