-- ==== Sys2Proof/Laws/Drive.lean ====
section
/-! SUPPORT. The throttle gate: the mapping, the ceilings, stationary time and fuel of one drive entry (R156, R158,
R172 to R182). -/

namespace Sys2Proof.Safety

open Sys2Proof Machine

theorem editEntries_fold (time : Ticks) : ∀ (es : List DriveEntry) (s : State) (acc : List DriveEntry),
    es.foldl (fun (acc : State × List DriveEntry) d =>
        ((editEntry time d acc.1).1, acc.2 ++ (editEntry time d acc.1).2.toList)) (s, acc) =
            ((editEntries time es s).1, acc ++ (editEntries time es s).2)
  | [], s, acc => by simp [editEntries]
  | d :: es, s, acc => by
    rw [List.foldl_cons, editEntries_fold time es]
    show _ = (( (editEntries time es (editEntry time d s).1).1 : State), acc ++ ((editEntry time d s).2.toList
        ++ (editEntries time es (editEntry time d s).1).2))
    rw [List.append_assoc]

theorem entryWithController_some {s : State} {n : Nat} {e : Entry} (h : ∀ f : Entry, (entryRow s f).controller
    = some n ↔ f = e) : entryWithController s n = some e := by
  unfold entryWithController
  cases hf : allEntries.find? (fun e => (entryRow s e).controller == some n) with
  | none =>
    rw [List.find?_eq_none] at hf
    have := hf e (mem_allEntries e)
    have h2 := (h e).2 rfl
    rw [h2] at this; simp at this
  | some f =>
    have := List.find?_some hf
    rw [(h f).1 (by simpa using this)]

theorem entryWithController_none {s : State} {n : Nat} (h : ∀ e : Entry, (entryRow s e).controller ≠ some n) :
    entryWithController s n = none := by
  unfold entryWithController; rw [List.find?_eq_none]; intro e _; simpa using h e

theorem foldl_min_spec : ∀ (l : List Nat) (a : Nat), l.foldl min a ≤ a ∧ (∀ x ∈ l, l.foldl min a ≤ x) ∧
    (l.foldl min a = a ∨ l.foldl min a ∈ l)
  | [], a => ⟨le_refl _, by simp, .inl rfl⟩
  | x :: l, a => by
    obtain ⟨h1, h2, h3⟩ := foldl_min_spec l (min a x)
    rw [List.foldl_cons]
    refine ⟨h1.trans (min_le_left _ _), ?_, ?_⟩
    · intro y hy
      rcases List.mem_cons.1 hy with rfl | hy
      · exact h1.trans (min_le_right _ _)
      · exact h2 y hy
    · rcases h3 with h3 | h3
      · rw [h3]
        rcases Nat.le_total a x with h | h
        · left; exact min_eq_left h
        · right; rw [min_eq_right h]; exact List.mem_cons_self
      · right; exact List.mem_cons_of_mem _ h3

theorem mem_single_if {α} {b : Prop} [Decidable b] {x y : α} : x ∈ (if b then [y] else []) ↔ b ∧ x =
    y := by by_cases h : b <;> simp [h]

/-- The ceilings that hold for a car (R175). -/
theorem mem_ceilingSources (s : State) (e : Entry) (x : Nat) : x ∈ ceilingSources s e ↔
    ((s.settings.timing.startHold = true ∧ (s.session.state = .armed ∨ s.session.state = .countdown)) ∧ x = 0) ∨
    (s.session.state = .caution ∧ x = s.settings.timing.cautionCap) ∨ (s.session.state = .held ∧ x = 0) ∨
    ((ctx s e).state = .inPit ∧ x = s.settings.timing.pitCap) ∨ (s.pit.holds[e] = true ∧ x = 0) ∨
    ((ctx s e).fuelState = .out ∧ x = s.settings.fuel.limp) ∨ (e ∈ s.penalty.stopSet ∧ x = 0) := by
  unfold ceilingSources
  simp only [List.mem_append, mem_single_if, Bool.and_eq_true, Bool.or_eq_true, beq_iff_eq]
  tauto

/-- The least of some ceilings. -/
theorem ceiling_spec (src : List Nat) (caps : List (Prop × Nat)) (throttle : Nat) (h : ∀ x, x ∈ src ↔
    ∃ p ∈ caps, p.1 ∧ x = p.2) (ht : throttle ≤ 63) :
    min throttle (src.foldl min 63) ≤ throttle ∧ (∀ p ∈ caps, p.1 → min throttle (src.foldl min 63) ≤ p.2) ∧
    (min throttle (src.foldl min 63) = throttle ∨ ∃ p ∈ caps, p.1 ∧ min throttle (src.foldl min 63) = p.2) := by
  obtain ⟨m1, m2, m3⟩ := foldl_min_spec src 63
  refine ⟨min_le_left _ _, ?_, ?_⟩
  · intro p hp1 hp2
    exact (min_le_right _ _).trans (m2 _ ((h _).2 ⟨p, hp1, hp2, rfl⟩))
  · rcases Nat.le_total throttle (src.foldl min 63) with k | k
    · left; exact min_eq_left k
    · rw [min_eq_right k]
      rcases m3 with m3 | m3
      · left; omega
      · right; exact (h _).1 m3

/-- The stop-go in service, if any. -/
def headStopGo (c : Context) : Option Owed := match c.owed with
          | o :: _ => if c.state = .inPit ∧ o.inService = true ∧ o.sanction = .stopGo then some o else none
          | [] => none

theorem servingStop_eq (c : Context) : servingStop c = headStopGo c := by
  unfold servingStop headStopGo headInService
  cases c.owed with
  | nil => simp
  | cons o l =>
    dsimp only
    by_cases h1 : c.state = .inPit <;> by_cases h2 : o.inService = true <;> by_cases h3 : o.sanction = .stopGo
        <;> simp [h1, h2, h3, Option.filter]

/-- Stationary time of one entry (R156, R158). -/
theorem stationary_spec (e : Entry) (throttle : Nat) (time : Ticks) (s : State) : 
    let c := ctx s e
    let stop := headStopGo c
    let stood : Ticks := match stop, s.pit.marks[e] with
      | some _, some m => if s.session.state ≠ .held ∧ throttle = 0 then time - m else 0
      | _, _ => 0
    let transit := c.transit.map fun x => { x with stationary :=
          if stop = none ∨ s.session.state = .held then x.stationary else min 4294967295 (x.stationary + stood) }
    let ticks : Ticks := (transit.map fun x => x.stationary).getD 0
    let pit : Pit := match stop with
          | none => s.pit
          | some o =>
            if s.session.state = .held then { s.pit with marks := s.pit.marks.set e none }
            else {
              marks := s.pit.marks.set e (some time)
              holds := s.pit.holds.set e ((s.pit.holds[e] || (o.enforce && decide (throttle = 0))) &&
                decide (ticks < o.amount * 100000)) }
    stationaryStep e throttle time s =
        { s with contexts := s.contexts.set e { c with transit := transit }, pit := pit } := by
  intro c stop stood transit ticks pit
  have hself : s.contexts.set e c = s.contexts := set_get_self _ _
  have hid : c.transit.map (fun x => { x with stationary := x.stationary }) = c.transit := by
    cases c.transit <;> rfl
  unfold stationaryStep
  rw [servingStop_eq]
  show (match stop with | none => s | some o => accrue e o throttle time s) = _
  cases hs : stop with
  | none =>
    have ht : transit = c.transit := by
      show c.transit.map _ = _
      rw [← hid]; congr 1; funext x; rw [if_pos (.inl hs)]
    have hp : pit = s.pit := by show (match stop with | none => s.pit | some o => _) = _; rw [hs]
    rw [ht, hp]
    dsimp only
    show s = { s with contexts := s.contexts.set e c }
    rw [hself]
  | some o =>
    dsimp only
    unfold accrue
    by_cases hh : s.session.state = .held
    · rw [if_pos hh]
      have ht : transit = c.transit := by
        show c.transit.map _ = _
        rw [← hid]; congr 1; funext x; rw [if_pos (.inr hh)]
      have hp : pit = { s.pit with marks := s.pit.marks.set e none } := by
        show (match stop with | none => s.pit | some o => _) = _; rw [hs]; dsimp only; rw [if_pos hh]
      rw [ht, hp]
      show setMark e none s = { s with contexts := s.contexts.set e c, pit := _ }
      rw [hself]; rfl
    · rw [if_neg hh]
      have hst : accrued s.pit.marks[e] throttle time = stood := by
        show _ = (match stop, s.pit.marks[e] with
          | some _, some m => if s.session.state ≠ SessionState.held ∧ throttle = 0 then time - m else 0
          | _, _ => 0)
        rw [hs]; unfold accrued
        cases s.pit.marks[e] <;> simp [hh]
      have ht : transit = (addStationary stood c).transit := by
        show c.transit.map _ = c.transit.map _
        congr 1; funext x; rw [if_neg (by rw [hs]; simp [hh])]; rfl
      have hp : pit = {
              marks := s.pit.marks.set e (some time)
              holds := s.pit.holds.set e ((s.pit.holds[e] || (o.enforce && decide (throttle = 0))) &&
                decide (ticks < o.amount * 100000)) } := by
        show (match stop with | none => s.pit | some o => _) = _; rw [hs]; dsimp only; rw [if_neg hh]
      have hc2 : ctx (setMark e (some time) (updCtx e (addStationary stood) s)) e = addStationary stood c :=
          get_set _ _ _
      have hsta : stationaryOf (addStationary stood c) = ticks := by
        unfold stationaryOf; rw [← ht]
      dsimp only
      rw [hst, hc2, hsta, hp, ht]
      have hb : (!decide (o.amount * Config.second ≤ ticks)) = decide (ticks < o.amount * 100000) := by
        rw [← decide_not]; simp [Config.second]
      rw [hb]; rfl

/-- The fuel state and the FUEL record of a level (R181). -/
def fuelOutcome (c : Context) (warn level : Nat) : FuelState × Option FuelCondition :=
          if level = c.fuel then (c.fuelState, none)
          else if level = 0 then (.out, if c.fuelState = .out then none else some .out)
          else match c.fuelState with
            | .normal => if warn ≠ 0 ∧ level < warn then (.low, some .low) else (.normal, none)
            | .low => if warn < level then (.normal, some .recovered) else (.low, none)
            | .out => if warn ≠ 0 ∧ level ≤ warn then (.low, none) else (.normal, some .recovered)

open Classical in
/-- Fuel of one entry (R180, R181). -/
theorem fuel_spec (e : Entry) (throttle out : Nat) (time : Ticks) (s : State) (hs : s.rstnLow = false) :
    let c := ctx s e
    let burns : Prop := s.settings.fuel.cap ≠ 0 ∧
          (s.session.state = .green ∨ s.session.state = .caution ∨ s.session.state = .chequered)
    let level : Nat := if ¬burns then c.fuel else match c.state with
          | .running => c.fuel - out * (entryRow s e).weight
          | .offTrack => c.fuel - out * (entryRow s e).weight
          | .inPit => if throttle = 0 then min s.settings.fuel.cap (c.fuel + s.settings.fuel.refuel) else c.fuel
          | _ => c.fuel
    let fuel := fuelOutcome c s.settings.fuel.warn level
    Outputs 0xA0 { s with contexts := s.contexts.set e { c with fuel := level, fuelState := fuel.1 } }
        (fuelStep e throttle out time s) ∧
    LampKept s (fuelStep e throttle out time s) ∧
    (fuel.2 = none → groupSet .fuel (fuelStep e throttle out time s) = groupSet .fuel s ∧
      RecordsKept s (fuelStep e throttle out time s)) ∧
    ∀ k, fuel.2 = some k → groupSet .fuel (fuelStep e throttle out time s) = true ∧
      Joined s (fuelStep e throttle out time s) [⟨e.val + 1, time, .fuel k level⟩] ∧
      (s.link.records.length < 64 → Recorded (fuelStep e throttle out time s) ⟨e.val + 1, time, .fuel k
          level⟩) := by
  intro c burns level fuel
  have hself : s.contexts.set e c = s.contexts := set_get_self _ _
  have hb : (s.settings.fuel.cap ≠ 0 && fuelSession s.session.state) = true ↔ burns := by
    show _ ↔ (s.settings.fuel.cap ≠ 0 ∧
          (s.session.state = .green ∨ s.session.state = .caution ∨ s.session.state = .chequered))
    simp only [Bool.and_eq_true, decide_eq_true_eq]
    cases s.session.state <;> simp [fuelSession]
  have same : level = c.fuel → fuel = (c.fuelState, none) := by
    intro h; show fuelOutcome c _ level = _; unfold fuelOutcome; rw [if_pos h]
  have stay : level = c.fuel → fuelStep e throttle out time s = s → Outputs 0xA0
      { s with contexts := s.contexts.set e { c with fuel := level, fuelState := fuel.1 } } (fuelStep e
      throttle out time s) ∧
    LampKept s (fuelStep e throttle out time s) ∧
    (fuel.2 = none → groupSet .fuel (fuelStep e throttle out time s) = groupSet .fuel s ∧
      RecordsKept s (fuelStep e throttle out time s)) ∧
    ∀ k, fuel.2 = some k → groupSet .fuel (fuelStep e throttle out time s) = true ∧
      Joined s (fuelStep e throttle out time s) [⟨e.val + 1, time, .fuel k level⟩] ∧
      (s.link.records.length < 64 → Recorded (fuelStep e throttle out time s) ⟨e.val + 1, time, .fuel k
          level⟩) := by
    intro h1 h2
    rw [h2, same h1, h1]
    have : ({ c with fuel := c.fuel, fuelState := (c.fuelState, (none : Option FuelCondition)).1 } : Context) =
        c := rfl
    rw [this, hself]
    exact ⟨outputs_refl _ _, drawn_same, fun _ => ⟨rfl, drawn_same⟩, fun k h => by cases h⟩
  by_cases hbu : burns
  · have hlev : level = fuelAfter s.settings.fuel c (entryRow s e).weight throttle out := by
      show (if ¬burns then c.fuel else _) = _
      rw [if_neg (by simpa using hbu)]; rfl
    by_cases hl : level = c.fuel
    · refine stay hl ?_
      unfold fuelStep; rw [if_pos (hb.2 hbu)]; dsimp only
      rw [if_pos (by rw [← hl, hlev])]
    · have hf : fuel = fuelStateAfter s.settings.fuel.warn level c.fuelState := by
        show fuelOutcome c _ level = _
        unfold fuelOutcome fuelStateAfter; rw [if_neg hl]
        by_cases h0 : level = 0
        · rw [if_pos h0]; cases c.fuelState <;> simp [h0]
        · rw [if_neg h0]
          cases c.fuelState
          · simp [h0]
          · simp [h0]
          · simp only [if_neg h0]
            by_cases hw : s.settings.fuel.warn = 0
            · simp [hw]
            · simp [hw]
      obtain ⟨w, hw⟩ : ∃ w : State, w =
          { s with contexts := s.contexts.set e { c with fuel := level, fuelState := fuel.1 } } := ⟨_, rfl⟩
      have hfs : fuelStep e throttle out time s = emitFuel e time fuel.2 level w := by
        unfold fuelStep; rw [if_pos (hb.2 hbu)]
        rw [← hlev, if_neg hl, hw, hf]; rfl
      have same : s.link = w.link := by rw [hw]
      have wr : w.rstnLow = false := by rw [hw]; exact hs
      rw [hfs, ← hw]
      unfold emitFuel LampKept RecordsKept Joined
      rw [same]
      cases hk : fuel.2 with
      | none => exact ⟨outputs_refl _ _, drawn_same, fun _ => ⟨by rw [hw]; rfl, drawn_same⟩, fun k h => by cases h⟩
      | some k =>
        have m := emits_trans (emits_mono (g' := 0xA0) (emits_emit ⟨entryNumber e, time, .fuel k level⟩ w) (by decide))
          (emits_mono (emits_group .fuel _) (by decide))
        refine ⟨m.out, m.lamp, fun h => (by cases h), fun k' h => ?_⟩
        cases h
        exact ⟨groupSet_setGroup _ _, fun hb hl => (m.queue wr hb hl).1, fun hq => (m.room wr hq).2 _ (by simp; rfl)⟩
  · refine stay ?_ ?_
    · show (if ¬burns then c.fuel else _) = _
      rw [if_pos hbu]
    · unfold fuelStep; rw [if_neg (by rw [hb]; exact hbu)]

/-- An edited frame stands at the tail of the drive queue or is on the wire. -/
def DriveStands (r : List DriveEntry) (w : State) : Prop := w.link.drive.getLast? = some r ∨ (w.link.drive = []
    ∧ w.link.trackTx = some (transmit .track (driveFrameOf r)))

theorem driveStands_chooseTrack {r : List DriveEntry} {s : State} (h : DriveStands r s) : DriveStands r
    (chooseTrack s) := by
  rcases chooseTrack_cases s with e | ⟨_, h2, ⟨_, _, e⟩ | ⟨d, rest, h1, e⟩ | ⟨h1, x, _, e⟩ | ⟨h1, h0, f, rest, _, e⟩⟩ <;>
    rw [e] <;> rcases h with h | ⟨ha, hb⟩
  · exact .inl h
  · exact .inr ⟨ha, hb⟩
  · exact .inl h
  · simp [h2] at hb
  · rw [h1] at h
    cases rest with
    | nil => simp at h; right; simp [h]
    | cons y l => left; simpa using h
  · simp [h2] at hb
  · rw [h1] at h; simp at h
  · simp [h2] at hb
  · rw [h1] at h; simp at h
  · simp [h2] at hb

end Sys2Proof.Safety
end

