-- ==== Sys2Proof/Laws/Safe.lean ====
section
/-! SUPPORT. The invariants of Safety through the work of every request and through the moves that Laws/Keeps does
not cover. -/

namespace Sys2Proof.Safety

open Sys2Proof Machine

-- One theorem after another: the proofs of many at once would need too many threads.
set_option Elab.async false

/-! ### Requests -/

/-- What a step may do to the invariants of Safety: it keeps each of them, and leaves the queue and the count of
draws alone. -/
structure Safe (s t : State) : Prop where
  bounded : Bounded s → Bounded t
  range : InRange s → InRange t
  session : SessionShape s → SessionShape t
  periods : PeriodsShape s → PeriodsShape t
  contexts : ContextsShape s → ContextsShape t
  gates : GatesShape s → GatesShape t
  pairs : GatesShape s → PairsShape s → PairsShape t
  order : OrderShape s → OrderShape t
  tables : TablesShape s → TablesShape t
  choices : t.choices = s.choices
  pending : t.pending = s.pending

theorem safe_refl (s) : Safe s s := ⟨id, id, id, id, id, id, fun _ => id, id, id, rfl, rfl⟩

theorem safe_trans {a b c} (h : Safe a b) (k : Safe b c) : Safe a c :=
  ⟨k.bounded ∘ h.bounded, k.range ∘ h.range, k.session ∘ h.session, k.periods ∘ h.periods, k.contexts ∘ h.contexts,
    k.gates ∘ h.gates, fun g p => k.pairs (h.gates g) (h.pairs g p), k.order ∘ h.order, k.tables ∘ h.tables,
    k.choices.trans h.choices, k.pending.trans h.pending⟩

theorem tablesShape_same {s t : State} (he : t.throttle.entries = s.throttle.entries := by rfl)
    (hl : t.throttle.lines = s.throttle.lines := by rfl) (hr : t.penalty.rules = s.penalty.rules := by rfl)
    (hs : t.settings = s.settings := by rfl) (k : TablesShape s) : TablesShape t := by
  have e : entryRow t = entryRow s := by funext x; unfold entryRow; rw [he]
  have l : lineRow t = lineRow s := by funext x; unfold lineRow; rw [hl]
  have r : ruleOf t = ruleOf s := by funext x; unfold ruleOf; rw [hr]
  exact ⟨by rw [e]; exact k.entry, by rw [e]; exact k.apart, by rw [l]; exact k.line, by rw [r]; exact k.rule,
    by rw [r]; exact k.unserved, by rw [hs]; exact k.timing, by rw [hs]; exact k.heat, by rw [hs]; exact k.fuel⟩

/-- Whatever is steady and keeps the blocks' own invariants is safe. -/
theorem safe_steady {s t : State} (st : Steady s t) (b : Bounded s → Bounded t := by exact bounded_link)
    (r : InRange s → InRange t := by exact inRange_same)
    (x : SessionShape s → SessionShape t := by exact sessionShape_same)
    (p : PeriodsShape s → PeriodsShape t := by exact periodsShape_same)
    (c : ContextsShape s → ContextsShape t := by exact contextsShape_same)
    (y : TablesShape s → TablesShape t := by exact tablesShape_same)
    (hc : t.choices = s.choices := by rfl) (hp : t.pending = s.pending := by rfl) : Safe s t :=
  ⟨b, r, x, p, c, gatesShape_of st.gates, fun _ => pairsShape_of st.gates st.pairs st.rests, st.order, y, hc, hp⟩

/-- Whatever keeps the blocks is safe. -/
theorem safe_of_keeps {s t} (k : Keeps s t) : Safe s t :=
  safe_steady k.steady k.bounded k.range k.session k.periods k.contexts
    (tablesShape_same (by rw [k.throttle]) (by rw [k.throttle]) k.rules k.settings) k.choices k.pending

theorem safe_ite {b : Prop} [Decidable b] {s t u : State} (h : b → Safe s t) (k : ¬b → Safe s u) :
    Safe s (if b then t else u) := by
  split
  · exact h ‹_›
  · exact k ‹_›

/-- The capacities of the holding places and the bounds of the bad-frame counts are kept. -/
structure LinkBounded (a b : Link) : Prop where
  up : a.up.length ≤ 8 → b.up.length ≤ 8
  down : a.down.length ≤ 8 → b.down.length ≤ 8
  drive : a.drive.length ≤ 2 → b.drive.length ≤ 2
  replies : a.replies.length ≤ 4 → b.replies.length ≤ 4
  records : a.records.length ≤ 64 → b.records.length ≤ 64
  sb : a.stationBad ≤ 255 → b.stationBad ≤ 255
  tb : a.trackBad ≤ 255 → b.trackBad ≤ 255

theorem bounded_of {s t : State} (h : LinkBounded s.link t.link) (k : Bounded s) : Bounded t :=
  ⟨h.up k.up, h.down k.down, h.drive k.drive, h.replies k.replies, h.records k.records, h.sb k.stationBad, h.tb k.trackBad⟩

theorem keeps_pushReply_steady (r : Reply) (s : State) : Steady s (pushReply r s) := by
  unfold pushReply
  split
  · exact steady_same
  · exact steady_trans (b := { s with link := { s.link with replies := s.link.replies ++ [r] } }) steady_same
      (keeps_chooseStation _).steady

theorem safe_pushReply (r : Reply) (s : State) (h : s.link.replies.length < 4) : Safe s (pushReply r s) := by
  have hr := (quiet_pushReply r s).outputs
  refine safe_steady (keeps_pushReply_steady r s) (bounded_pushReply r s h) (fun k => ?_) (by rw [hr.rest]; exact sessionShape_same)
    (by rw [hr.rest]; exact periodsShape_same) (by rw [hr.rest]; exact contextsShape_same)
    (by rw [hr.rest]; exact tablesShape_same) (by rw [hr.rest]) (by rw [hr.rest])
  refine ⟨?_, ?_, by rw [outputs_now hr]; exact k.now, by rw [hr.rest]; exact k.lfsr⟩
  · rcases hr.clock with e | ⟨_, hb, e⟩ <;> rw [e]
    · exact k.low
    · have := k.low; simp [beaconSent]; omega
  · rcases hr.clock with e | ⟨_, hb, e⟩ <;> rw [e]
    · exact k.high
    · have := k.high; simp [beaconSent]; omega

/-- The frame of a request is safe where its work is (R14). -/
theorem safe_request (tag) (f : State → Answer) (h : ∀ u, Safe u (f u).state) (h2 : ∀ u, (f
    u).state.link.replies <:+ u.link.replies) (s : State) :
    Safe s (request tag f s) := by
  unfold request
  refine safe_ite (fun _ => safe_refl s) fun _ => ?_
  dsimp only
  refine safe_ite (fun hl => ?_) fun _ => safe_of_keeps (keeps_trans (keeps_received _ s) (keeps_setGroup _ _))
  refine safe_trans (safe_of_keeps (keeps_received _ s)) (safe_trans (h _) (safe_pushReply _ _ ?_))
  have := (h2 (received .station s)).length_le
  have hl : (received .station s).link.replies.length < 4 := hl
  omega

/-- The work of a request is safe and adds no reply. -/
def GoodWork (f : State → Answer) : Prop := ∀ u, Safe u (f u).state ∧ (f u).state.link.replies <:+
    u.link.replies

theorem good_refuse (r) : GoodWork (refuse r) := fun u => ⟨safe_refl u, List.suffix_rfl⟩

theorem good_withLength (n args f) (h : GoodWork f) : GoodWork (withLength n args f) := by
  intro u; unfold withLength; split
  · exact h u
  · exact good_refuse _ u

theorem good_inStates (p f) (h : GoodWork f) : GoodWork (inStates p f) := by
  intro u; unfold inStates; split
  · exact h u
  · exact good_refuse _ u

theorem good_refused (r u) : Safe u (refuse r u).state ∧
    (refuse r u).state.link.replies <:+ u.link.replies := good_refuse r u

theorem good_of_keeps {u t : State} (k : Keeps u t) : Safe u t ∧
    t.link.replies <:+ u.link.replies := ⟨safe_of_keeps k, k.replies.suffix⟩

/-- What a request changes of a state's tables, with the link, the clock's pace, the session and the contexts as they
were. -/
theorem good_table {s t : State} (h : Safe s t) (hr : t.link.replies = s.link.replies := by rfl) :
    Safe s t ∧ t.link.replies <:+ s.link.replies := ⟨h, by rw [hr]⟩

theorem clamp_bounds (lo hi n : Nat) (h : lo ≤ hi) : lo ≤ clamp lo hi n ∧
    clamp lo hi n ≤ hi := by unfold clamp; omega

theorem within_clamp {lo hi : Nat} (n : Nat) (h : lo ≤ hi) : Within lo hi (clamp lo hi n) := clamp_bounds lo hi n h

theorem lanesByte_spec {b : Byte} (h : lanesByte b = true) : b ≠ 0 ∧ b.toNat < 64 := by
  unfold lanesByte at h; simpa using h

theorem good_setTiming (a) : GoodWork (setTiming a) := by
  refine good_withLength _ _ _ fun u => ?_
  dsimp only
  split
  · exact good_refused _ u
  · rename_i x hx
    split
    · exact good_refused _ u
    · refine good_table (safe_steady steady_same (y := fun k => ?_))
      refine ⟨k.entry, k.apart, k.line, k.rule, k.unserved, ?_, k.heat, k.fuel⟩
      unfold timingOf at hx
      split at hx
      · split at hx
        · rename_i hl
          rw [← Option.some.inj hx]
          have := lanesByte_spec hl
          exact ⟨within_clamp _ (by decide), within_clamp _ (by decide), within_clamp _ (by decide),
            within_clamp _ (by decide), within_clamp _ (by decide), (within_clamp (lo := 0) _ (by decide)).2,
            within_clamp _ (by decide), within_clamp _ (by decide), (within_clamp (lo := 0) _ (by decide)).2,
            (within_clamp (lo := 0) _ (by decide)).2, this.1, this.2⟩
        · cases hx
      · cases hx

theorem heatOf_within {a : List Byte} {x : HeatSettings} (h : heatOf a = some x) :
    Within 1 9999 x.raceLaps ∧ Within 1 36000 x.heatLen ∧ Within 1 5 x.countSteps ∧ Within 50000 200000 x.stepIvl ∧
    x.randomMax ≤ 300000 ∧ Within 1 600 x.finishGrace := by
  unfold heatOf at h
  split at h
  · rw [← Option.some.inj h]
    exact ⟨within_clamp _ (by decide), within_clamp _ (by decide), within_clamp _ (by decide), within_clamp _ (by decide),
      (within_clamp (lo := 0) _ (by decide)).2, within_clamp _ (by decide)⟩
  · cases h

theorem good_setHeat (a) : GoodWork (setHeat a) := by
  refine good_withLength _ _ _ (good_inStates _ _ fun u => ?_)
  dsimp only
  split
  · exact good_refused _ u
  · rename_i h hh
    have hw := heatOf_within hh
    show Safe u (if _ then _ else _) ∧ _
    have y : ∀ t : State, t.throttle = u.throttle → t.penalty = u.penalty → t.settings = { u.settings with heat := h } →
        TablesShape u → TablesShape t := by
      intro t h1 h2 h3 k
      have e : entryRow t = entryRow u := by funext x; unfold entryRow; rw [h1]
      have l : lineRow t = lineRow u := by funext x; unfold lineRow; rw [h1]
      have r : ruleOf t = ruleOf u := by funext x; unfold ruleOf; rw [h2]
      exact ⟨by rw [e]; exact k.entry, by rw [e]; exact k.apart, by rw [l]; exact k.line, by rw [r]; exact k.rule,
        by rw [r]; exact k.unserved, by rw [h3]; exact k.timing, by rw [h3]; exact hw, by rw [h3]; exact k.fuel⟩
    split
    · exact ⟨safe_steady steady_same (x := fun k => ⟨k.held, k.origin, k.countdown, k.red, hw.2.2.1⟩)
        (y := y _ rfl rfl rfl), List.suffix_rfl⟩
    · exact ⟨safe_steady steady_same (x := fun k => ⟨k.held, k.origin, k.countdown, k.red, hw.2.2.1⟩)
        (y := y _ rfl rfl rfl), List.suffix_rfl⟩

theorem good_setFuel (a) : GoodWork (setFuel a) := by
  refine good_withLength _ _ _ (good_inStates _ _ fun u => ?_)
  refine good_table (safe_steady (steady_contexts (fun e => ?_) (fun e => ?_)) (c := fun k e => ?_) (y := fun k => ?_))
  · show orderKey (ctx (updAllCtx _ _) e) = _
    rw [ctx_updAllCtx]
    unfold refit; split
    · split <;> rfl
    · rfl
  · show (ctx (updAllCtx _ _) e).state = _ → _
    rw [ctx_updAllCtx]
    unfold refit; split
    · split <;> exact id
    · exact id
  · show ContextShape (fuelOf a).cap (ctx (updAllCtx _ _) e)
    rw [ctx_updAllCtx]
    have y := k e
    show ContextShape (fuelOf a).cap (refit _ _ (ctx u e))
    unfold refit; split
    · split
      · rename_i h
        exact ⟨y.owed, y.head, y.seconds, y.deductions, y.laps, y.counts, y.ring, by rw [y.unused h]; omega, y.unused,
          y.flagged⟩
      · rename_i h
        exact ⟨y.owed, y.head, y.seconds, y.deductions, y.laps, y.counts, y.ring, Nat.le_refl _, fun z => absurd z h,
          y.flagged⟩
    · exact ⟨y.owed, y.head, y.seconds, y.deductions, y.laps, y.counts, y.ring, Nat.min_le_left _ _,
        fun z => by have := y.unused z; dsimp only; omega, y.flagged⟩
  · refine ⟨k.entry, k.apart, k.line, k.rule, k.unserved, k.timing, k.heat, ?_⟩
    show (fuelOf a).cap ≤ 60000 ∧ (fuelOf a).warn ≤ (fuelOf a).cap ∧ (fuelOf a).limp ≤ 63 ∧ Within 1 1000 (fuelOf a).refuel
    exact ⟨(within_clamp (lo := 0) _ (by decide)).2, (within_clamp (lo := 0) _ (Nat.zero_le _)).2,
      (within_clamp (lo := 0) _ (by decide)).2, within_clamp _ (by decide)⟩

theorem arg8_lt (a i) : arg8 a i < 256 := by unfold arg8; exact BitVec.isLt _

theorem good_setSeed (a) : GoodWork (setSeed a) := by
  refine good_withLength _ _ _ (good_inStates _ _ fun u => ?_)
  dsimp only; split
  · exact good_refused _ u
  · rename_i h
    refine good_table (safe_steady steady_same (r := fun k => ⟨k.low, k.high, k.now, ?_⟩))
    show BitVec.ofNat 16 (arg16 a 0) ≠ 0
    intro hz
    apply h
    have := congrArg BitVec.toNat hz
    simp at this
    have h0 := arg8_lt a 0; have h1 := arg8_lt a (0+1)
    unfold arg16 at *; omega

theorem good_setAttnMask (a) : GoodWork (setAttnMask a) :=
  good_withLength _ _ _ fun _ => good_table (safe_steady steady_same)

/-! ### The gate table (R24 to R26) -/

/-- A slot as a write stores it keeps its fields in range (R24, R25). -/
theorem slotFor_shape (role : GateRole) (line : Line) (lane : Nat) (pos : PairPosition) (hop : Nat)
    (hl : 1 ≤ lane ∧ lane ≤ 6) (hh : hop ≤ 255) : let x := slotFor role line lane pos hop
    x.strikes = 0 ∧ x.unpaired = 0 ∧ x.hop ≤ 255 ∧ (1 ≤ x.lane ∧ x.lane ≤ 6) ∧
    (x.role ≠ .line → x.line = 0 ∧ x.position = .primary) := by
  cases role <;> simp [slotFor, defaultSlot, hl, hh]

/-- Slots that do not collide are apart (R26). -/
theorem apart_of {a b : GateSlot} (h : slotsCollide a b = false) (hr : a.role = b.role) :
    a.role ≠ .pitEntry ∧ a.role ≠ .pitExit ∧
    (a.role = .line → ¬(a.line = b.line ∧ a.lane = b.lane ∧ a.position = b.position)) := by
  unfold slotsCollide at h
  rw [← hr] at h
  cases hx : a.role <;> rw [hx] at h <;> simp at h ⊢
  exact h

theorem hasLineGate_iff {s : State} {j : Line} {n : Nat} {p : PairPosition} :
    hasLineGate s j n p = true ↔ ∃ g : GateId, (gate s g).role = .line ∧ (gate s g).line = j ∧
      (gate s g).lane = n ∧ (gate s g).position = p := by
  unfold hasLineGate
  rw [List.any_eq_true]
  constructor
  · rintro ⟨g, _, h⟩
    exact ⟨g, by simpa [and_assoc] using h⟩
  · rintro ⟨g, h⟩
    exact ⟨g, mem_allGates g, by simpa [and_assoc] using h⟩

theorem isPaired_iff {s : State} {j : Line} {n : Nat} : isPaired s j n = true ↔ PairedPlace s j n := by
  unfold isPaired PairedPlace
  rw [Bool.and_eq_true, hasLineGate_iff, hasLineGate_iff]

/-- The count of paired line-lanes bounds every list of them (R26). -/
theorem paired_le (s : State) (hl : ∀ g, 1 ≤ (gate s g).lane ∧ (gate s g).lane ≤ 6) (l : List (Line × Nat))
    (hn : l.Nodup) (hp : ∀ p ∈ l, PairedPlace s p.1 p.2) : l.length ≤ pairedCount s := by
  have hs : l ⊆ ([0, 1, 2, 3, 4] : List Line).flatMap fun j => (allLanes.filter fun n => isPaired s j n).map fun n => (j, n) := by
    intro p m
    have k := hp p m
    rw [List.mem_flatMap]
    refine ⟨p.1, ?_, ?_⟩
    · have : ∀ j : Line, j ∈ ([0, 1, 2, 3, 4] : List Line) := by decide
      exact this p.1
    · rw [List.mem_map]
      refine ⟨p.2, List.mem_filter.2 ⟨?_, isPaired_iff.2 k⟩, rfl⟩
      obtain ⟨⟨g, _, _, h, _⟩, _⟩ := k
      have := hl g
      rw [h] at this
      unfold allLanes
      have h6 : p.2 = 1 ∨ p.2 = 2 ∨ p.2 = 3 ∨ p.2 = 4 ∨ p.2 = 5 ∨ p.2 = 6 := by omega
      rcases h6 with h | h | h | h | h | h <;> rw [h] <;> simp
  have := (List.subperm_of_subset hn hs).length_le
  unfold pairedCount
  simpa [List.length_flatMap] using this

theorem gatesShape_write {u : State} {g : GateId} {x : GateSlot} (hx : x.strikes = 0 ∧ x.unpaired = 0 ∧ x.hop ≤ 255 ∧
    (1 ≤ x.lane ∧ x.lane ≤ 6) ∧ (x.role ≠ .line → x.line = 0 ∧ x.position = .primary))
    (hc : gateConflict u g x = false) (k : GatesShape u) : GatesShape (setGate g x u) := by
  have cases : ∀ (P : GateId → GateSlot → Prop), P g x → (∀ h, h ≠ g → P h (gate u h)) → ∀ h, P h (gate (setGate g x u) h) := by
    intro P h1 h2 h
    by_cases y : h = g
    · rw [y, gate_setGate_self]; exact h1
    · rw [gate_setGate_ne y]; exact h2 h y
  unfold gateConflict at hc
  rw [Bool.or_eq_false_iff] at hc
  obtain ⟨c1, c2⟩ := hc
  have col : ∀ h, h ≠ g → slotsCollide x (gate u h) = false := by
    intro h n
    rw [List.any_eq_false] at c1
    have := c1 h (mem_allGates h)
    simpa [n] using this
  have lanes := cases (fun _ y => 1 ≤ y.lane ∧ y.lane ≤ 6) hx.2.2.2.1 fun h _ => k.lane h
  refine ⟨cases (fun _ y => y.strikes ≤ 3) (by rw [hx.1]; omega) fun h _ => k.strikes h,
    cases (fun _ y => y.unpaired ≤ 255) (by rw [hx.2.1]; omega) fun h _ => k.unpaired h,
    cases (fun _ y => y.hop ≤ 255) hx.2.2.1 fun h _ => k.hop h, lanes,
    cases (fun _ y => y.role ≠ .line → y.line = 0 ∧ y.position = .primary) hx.2.2.2.2 fun h _ => k.offLine h, ?_, ?_⟩
  · intro a b n hr
    by_cases ya : a = g
    · subst ya
      have yb : b ≠ a := fun z => n z.symm
      rw [gate_setGate_self, gate_setGate_ne yb] at *
      exact apart_of (col b yb) hr
    · by_cases yb : b = g
      · subst yb
        rw [gate_setGate_self, gate_setGate_ne ya] at *
        obtain ⟨h1, h2, h3⟩ := apart_of (col a ya) hr.symm
        refine ⟨hr ▸ h1, hr ▸ h2, fun h4 h5 => h3 (hr ▸ h4) ⟨h5.1.symm, h5.2.1.symm, h5.2.2.symm⟩⟩
      · rw [gate_setGate_ne ya, gate_setGate_ne yb] at *
        exact k.apart a b n hr
  · intro l hn hp
    have := paired_le _ lanes l hn hp
    have c2 : pairedCount (setGate g x u) ≤ 12 := by
      have := of_decide_eq_false c2
      exact Nat.not_lt.1 this
    omega

theorem good_writeGate (a) : GoodWork (writeGate a) := by
  refine good_withLength _ _ _ fun u => ?_
  unfold inStates
  split
  · rename_i hs
    dsimp only
    split
    · exact good_refused _ u
    · split
      · split
        · exact good_refused _ u
        · split
          · exact good_refused _ u
          · split
            · exact good_refused _ u
            · split
              · exact good_refused _ u
              · rename_i g _ _ _ role pos _ _ _ line _ hl _ hc
                have hx := slotFor_shape role line (arg8 a 3) pos (arg8 a 5) (by omega) (by have := arg8_lt a 5; omega)
                refine good_table ⟨bounded_link, inRange_same, sessionShape_same, periodsShape_same, contextsShape_same,
                  gatesShape_write hx (by simpa using hc), fun _ k => ⟨k.entries, k.places, k.length, fun h1 h2 => ?_⟩,
                  orderShape_key rfl (fun _ => rfl) fun _ => id, tablesShape_same, rfl, rfl⟩
                have : u.session.state = .idle ∨ u.session.state = .closed := by
                  revert hs; cases u.session.state <;> simp [betweenHeats]
                exact absurd this (by rintro (h | h); exact h1 h; exact h2 h)
      · exact good_refused _ u
  · exact good_refused _ u

/-! ### The other tables (R136, R138, R170, R177) -/

theorem clampOverdue_spec (n : Nat) : clampOverdue n = 0 ∨ Within 100000 6000000 (clampOverdue n) := by
  unfold clampOverdue
  split
  · exact .inl rfl
  · exact .inr (within_clamp _ (by decide))

theorem lineRow_set (s : State) (j i : Line) (r : LineRow) (z : Bool) :
    lineRow { s with throttle := { s.throttle with lines := s.throttle.lines.set j r, zoneOverride := z } } i =
      if i = j then r else lineRow s i := by
  unfold lineRow
  dsimp only
  rw [Fin.getElem_fin, Vector.getElem_set]
  by_cases h : i = j
  · rw [if_pos h, if_pos (by rw [h])]
  · rw [if_neg h, if_neg fun k => h (Fin.ext k.symm)]; rfl

theorem good_writeLine (a) : GoodWork (writeLine a) := by
  refine good_withLength _ _ _ (good_inStates _ _ fun u => ?_)
  dsimp only
  split
  · exact good_refused _ u
  · split
    · exact good_refused _ u
    · refine good_table (safe_steady steady_same (y := fun k => ?_))
      refine ⟨k.entry, k.apart, fun i => ?_, k.rule, k.unserved, k.timing, k.heat, k.fuel⟩
      simp only [taken, lineRow_set]
      split
      · exact ⟨clampOverdue_spec _, (within_clamp (lo := 0) _ (by decide)).2⟩
      · exact k.line i

theorem entryRow_set (s : State) (e f : Entry) (r : EntryRow) :
    entryRow { s with throttle := { s.throttle with entries := s.throttle.entries.set e r } } f =
      if f = e then r else entryRow s f := by
  unfold entryRow
  dsimp only
  rw [Fin.getElem_fin, Vector.getElem_set]
  by_cases h : f = e
  · rw [if_pos h, if_pos (by rw [h])]
  · rw [if_neg h, if_neg fun k => h (Fin.ext k.symm)]; rfl

/-- A mapped row that breaks no constraint is apart from every other mapped row (R170). -/
theorem entryConflict_spec {s : State} {e : Entry} {r : EntryRow} (h : entryConflict s e r = false) (f : Entry)
    (hf : f ≠ e) (hr : r.controller ≠ none) (hm : (entryRow s f).controller ≠ none) :
    (entryRow s f).controller ≠ r.controller ∧ (entryRow s f).code ≠ r.code := by
  unfold entryConflict at h
  rw [Bool.and_eq_false_iff] at h
  rcases h with h | h
  · exact absurd (Option.isSome_iff_ne_none.2 hr) (by rw [h]; decide)
  · rw [List.any_eq_false] at h
    have := h f (mem_allEntries f)
    have hm : mapped s f = true := by unfold mapped; exact Option.isSome_iff_ne_none.2 hm
    simpa [hf, hm] using this

theorem good_writeEntry (a) : GoodWork (writeEntry a) := by
  refine good_withLength _ _ _ (good_inStates _ _ fun u => ?_)
  dsimp only
  split
  · exact good_refused _ u
  · split
    · exact good_refused _ u
    · split
      · exact good_refused _ u
      · split
        · exact good_refused _ u
        · split
          · exact good_refused _ u
          · rename_i e _ _ mode _ h1 h2 h3
            have h3 := entryConflict_spec (by simpa using h3)
            refine good_table (safe_steady steady_same (y := fun k => ?_))
            refine ⟨fun f => ?_, fun f g n hf hg => ?_, k.line, k.rule, k.unserved, k.timing, k.heat, k.fuel⟩
            · simp only [taken, entryRow_set]
              split
              · refine ⟨?_, ?_, (within_clamp (lo := 0) _ (by decide)).2, within_clamp _ (by decide),
                  (within_clamp (lo := 0) _ (by decide)).2, ?_⟩
                · intro n hn
                  dsimp only [controllerOf] at hn
                  split at hn
                  · cases hn
                  · have := Option.some.inj hn; unfold Within; omega
                · show arg8 a 2 ≤ 15; omega
                · unfold Within; dsimp only; omega
              · exact k.entry f
            · simp only [taken, entryRow_set] at hf hg ⊢
              by_cases yf : f = e
              · have yg : g ≠ e := fun z => n (yf.trans z.symm)
                rw [if_pos yf] at hf ⊢
                rw [if_neg yg] at hg ⊢
                have := h3 g yg hf hg
                exact ⟨this.1.symm, this.2.symm⟩
              · rw [if_neg yf] at hf ⊢
                by_cases yg : g = e
                · rw [if_pos yg] at hg ⊢
                  exact h3 f yf hg hf
                · rw [if_neg yg] at hg ⊢
                  exact k.apart f g n hf hg

theorem ruleOf_set (s : State) (k i : IncidentKind) (r : Rule) :
    ruleOf { s with penalty := { s.penalty with rules := s.penalty.rules.set (kindIndex k) r } } i =
      if i = k then r else ruleOf s i := by
  unfold ruleOf
  dsimp only
  rw [Fin.getElem_fin, Vector.getElem_set]
  by_cases h : i = k
  · rw [if_pos h, if_pos (by rw [h])]
  · rw [if_neg h, if_neg fun z => h ?_]; rfl
    revert z; cases i <;> cases k <;> decide

theorem allowanceOf_mem {n : Nat} {x : Option Nat} (h : allowanceOf n = some x) :
    x ∈ [none, some 0, some 1, some 2, some 4, some 8, some 16] := by
  unfold allowanceOf at h
  split at h
  · rw [← Option.some.inj h]; simp
  · split at h
    · rename_i k
      rw [← Option.some.inj h]
      rcases k with k | k | k | k | k | k <;> rw [k] <;> simp
    · cases h

theorem storedAmount_spec (k : Sanction) (n : Nat) : match k with
    | .timeAdd => Within 1 255 (storedAmount k n)
    | .lapDeduct => Within 1 15 (storedAmount k n)
    | .stopGo => Within 1 60 (storedAmount k n)
    | _ => storedAmount k n = 0 := by
  cases k <;> first | rfl | exact within_clamp _ (by decide)

theorem good_writeRule (a) : GoodWork (writeRule a) := by
  refine good_withLength _ _ _ fun u => ?_
  dsimp only
  split
  · exact good_refused _ u
  · split
    · split
      · exact good_refused _ u
      · rename_i kind _ _ _ _ _ x sa en at' hx _ _ _ hu
        refine good_table (safe_steady steady_same (y := fun k => ?_))
        refine ⟨k.entry, k.apart, k.line, fun i => ?_, ?_, k.timing, k.heat, k.fuel⟩
        · simp only [taken, ruleOf_set]
          split
          · exact ⟨allowanceOf_mem hx, within_clamp _ (by decide), within_clamp _ (by decide), storedAmount_spec _ _⟩
          · exact k.rule i
        · simp only [taken, ruleOf_set]
          split
          · rename_i h
            exact ⟨fun z => hu ⟨h.symm, .inl z⟩, fun z => hu ⟨h.symm, .inr z⟩⟩
          · exact k.unserved
    · exact good_refused _ u

theorem good_answer (b u) : Safe u (okay b u).state ∧
    (okay b u).state.link.replies <:+ u.link.replies := ⟨safe_refl u, List.suffix_rfl⟩

theorem good_readGate (a) : GoodWork (readGate a) := good_withLength _ _ _ fun u
    => by split; exact good_refused _ u; exact good_answer _ u

theorem good_readLine (a) : GoodWork (readLine a) := good_withLength _ _ _ fun u
    => by split; exact good_refused _ u; exact good_answer _ u

theorem good_readEntry (a) : GoodWork (readEntry a) := good_withLength _ _ _ fun u
    => by split; exact good_refused _ u; exact good_answer _ u

theorem good_readRule (a) : GoodWork (readRule a) := good_withLength _ _ _ fun u
    => by split; exact good_refused _ u; exact good_answer _ u

theorem good_readOwed (a) : GoodWork (readOwed a) := good_withLength _ _ _ fun u
    => by split; exact good_refused _ u; exact good_answer _ u

theorem good_readCar (a) : GoodWork (readCar a) := good_withLength _ _ _ fun u => by
  split; exact good_refused _ u; split; exact good_answer _ u; split; exact good_answer _ u; exact
      good_refused _ u

theorem good_readOrder (a) : GoodWork (readOrder a) := good_withLength _ _ _ fun u => by
  dsimp only; split; exact good_answer _ u; split; exact good_answer _ u; split; exact good_answer _ u; exact
      good_refused _ u

theorem good_status (a) : GoodWork (status a) := good_withLength _ _ _ fun _ => good_table (safe_steady steady_same)

theorem good_clearEvents (a) : GoodWork (clearEvents a) := good_withLength _ _ _ fun u => by
  dsimp only
  show Safe u (if _ then _ else _) ∧ (if _ then _ else _ : State).link.replies <:+ _
  split
  · exact good_table (safe_steady steady_same)
  · exact good_table (safe_steady steady_same (b := bounded_of ⟨id, id, id, id, id, fun _ => Nat.zero_le _, fun _ => Nat.zero_le _⟩))

theorem good_clearBest (a) : GoodWork (clearBest a) := good_withLength _ _ _ fun u => good_of_keeps
    (keeps_updAllCtx u _ fun _ => contextKept_of rfl rfl rfl)

theorem good_drill (a) : GoodWork (drill a) := good_withLength _ _ _ fun u => by
  dsimp only; split
  · split
    · exact good_table (safe_steady steady_same)
    · exact good_refused _ u
  · split
    · split
      · exact good_table (safe_steady steady_same)
      · exact good_refused _ u
    · exact good_refused _ u

theorem good_issueCounted (e k) : GoodWork (issueCounted e k) := by
  intro u
  unfold issueCounted
  dsimp only
  have h : Keeps u (if k = .jumpStart then updCtx e (fun c => { c with jumpFlagged := true }) u else u) :=
    keeps_ite (fun _ => keeps_updCtx u e _ (contextKept_of rfl rfl rfl)) fun _ => keeps_refl u
  generalize (if k = .jumpStart then updCtx e (fun c => { c with jumpFlagged := true }) u else u) = v at h
  exact good_of_keeps (keeps_trans h (keeps_incidentCall _ _ _ v))

theorem good_issueDirect (e k sa b a) (u : State) (h : (ctx u e).state ≠ .unused) :
    Safe u (issueDirect e k sa b a u).state ∧ (issueDirect e k sa b a u).state.link.replies <:+ u.link.replies :=
  good_of_keeps (keeps_penalise _ _ _ _ _ u h)

theorem good_issue (a) : GoodWork (issue a) := by
  intro u
  unfold issue
  split
  · exact good_refused _ u
  · refine good_inStates _ _ (fun u => ?_) u
    split
    · exact good_refused _ u
    · split
      · exact good_refused _ u
      · rename_i hu
        split
        · exact good_refused _ u
        · split
          · split; exact good_refused _ u; split; exact good_refused _ u; split; exact good_refused _ u; exact
                good_issueCounted _ _ u
          · split
            · split
              · exact good_refused _ u
              · split
                · split; exact good_refused _ u; split; exact good_refused _ u; exact
                      good_issueDirect _ _ _ _ _ u hu
                · exact good_refused _ u
            · exact good_refused _ u

theorem contextKept_eraseIdx (c : Context) (i) : ContextKept c { c with owed := c.owed.eraseIdx i } :=
  contextKept_sublist c _ c.transit (List.eraseIdx_sublist _ _)

theorem good_waive (a) : GoodWork (waive a) := good_withLength _ _ _ (good_inStates _ _ fun u => by
  split
  · exact good_refused _ u
  · split
    · exact good_refused _ u
    · split
      · exact good_refused _ u
      · refine good_of_keeps ?_
        unfold waiveEntry
        dsimp only
        refine keeps_trans ?_ (keeps_emitServe _ _ _ _ _ _)
        refine keeps_ite (fun _ => ?_) fun _ => keeps_updCtx u _ _ (contextKept_eraseIdx _ _)
        refine keeps_trans ?_ (keeps_setHold _ _ _)
        refine keeps_trans ?_ (keeps_setMark _ _ _)
        refine keeps_trans (keeps_updCtx u _ _ (contextKept_eraseIdx _ _)) (keeps_updCtx _ _ _ (contextKept_of
            rfl rfl rfl)))

/-- The retirement of a car in use (R94, R98). -/
theorem keeps_retireCar (e : Entry) (s : State) (hu : (ctx s e).state ≠ .unused) : Keeps s (retireCar e s) := by
  unfold retireCar
  dsimp only
  refine keeps_trans ?_ (keeps_closeTest _)
  have shape : ∀ (l : List Owed) (x : Option Transit) cap, l.length ≤ (ctx s e).owed.length →
      ((∀ o ∈ (ctx s e).owed.drop 1, o.inService = false) → ∀ o ∈ l.drop 1, o.inService = false) →
      ContextShape cap (ctx s e) →
      ContextShape cap { ctx s e with state := .retired, deadline := none, owed := l, transit := x } :=
    fun l x cap h1 h2 y => ⟨h1.trans y.owed, h2 y.head, y.seconds, y.deductions, y.laps, y.counts, y.ring, y.fuel,
      fun z => (nomatch z), fun _ => rfl⟩
  split
  · have h : dropTransit e (endService e (updCtx e (fun c => { c with state := .retired, deadline := none }) s)) =
        setHold e false (setMark e none (setCtx e { ctx s e with
          state := .retired, deadline := none, owed := setHeadService false (ctx s e).owed, transit := none } s)) := by
      have h2 : ∀ f u, updCtx e f (setHold e false (setMark e none u)) = setHold e false (setMark e none (updCtx e f u)) :=
        fun _ _ => rfl
      unfold dropTransit endService
      rw [h2, updCtx_updCtx, updCtx_updCtx]
      rfl
    rw [h]
    have k := keeps_placed s e { ctx s e with
      state := .retired, deadline := none, owed := setHeadService false (ctx s e).owed, transit := none }
      (fun cap => shape _ _ cap ?_ ?_) hu ⟨by simp, by simp⟩
    · exact keeps_trans k (keeps_trans (keeps_setMark e none _) (keeps_setHold e false _))
    · cases (ctx s e).owed <;> simp [setHeadService]
    · cases (ctx s e).owed <;> simp [setHeadService]
  · exact keeps_placed s e { ctx s e with state := .retired, deadline := none }
      (fun cap => shape _ _ cap (Nat.le_refl _) id) hu ⟨by simp, by simp⟩

theorem good_retire (a) : GoodWork (retire a) := good_withLength _ _ _ (good_inStates _ _ fun u => by
  split
  · exact good_refused _ u
  · split
    · exact good_refused _ u
    · rename_i hu
      split
      · exact good_refused _ u
      · split
        · exact good_answer _ u
        · exact good_of_keeps (keeps_retireCar _ u hu))

/-! ### Fresh states -/

theorem contextShape_fresh (st : CarState) (f cap : Nat) (h : f ≤ cap) (hu : st = .unused → f = 0) :
    ContextShape cap (freshContext st f) :=
  ⟨by simp [freshContext], by simp [freshContext], Nat.zero_le _, Nat.zero_le _, Nat.zero_le _,
    fun k => by simp [countOf, freshContext], Nat.zero_le _, h, hu, by simp [freshContext]⟩

theorem pairsShape_nil {s : State} (h : s.resolver.pairs = []) : PairsShape s :=
  ⟨by rw [h]; exact List.nodup_nil, by rw [h]; exact List.nodup_nil, by rw [h]; exact Nat.zero_le _,
    fun _ _ => by rw [h]; exact fun _ m => absurd m List.not_mem_nil⟩

theorem orderShape_nil {s : State} (h : s.order.list = []) (hc : ∀ e, (ctx s e).state = .unused) : OrderShape s :=
  ⟨by rw [h]; exact List.nodup_nil, fun e => by rw [h, hc e]; simp, by rw [h]; exact List.Pairwise.nil,
    fun e k => by rw [hc e] at k; cases k⟩

theorem contextsShape_unused {s : State} (h : s.contexts = Vector.replicate 16 unusedContext) :
    ContextsShape s ∧ ∀ e, (ctx s e).state = .unused := by
  have c : ∀ e, ctx s e = freshContext .unused 0 := by
    intro e; unfold ctx; rw [h]; simp [unusedContext]
  exact ⟨fun e => by rw [c]; exact contextShape_fresh _ _ _ (Nat.zero_le _) fun _ => rfl, fun e => by rw [c]; rfl⟩

/-- The running order at ARM is the entries' own (R96). -/
theorem orderShape_fresh {s : State} (p : Entry → Bool) (f : Nat) (h : s.order.list = allEntries.filter p)
    (hc : ∀ e, ctx s e = if p e = true then freshContext .grid f else unusedContext) : OrderShape s := by
  refine ⟨by rw [h]; exact List.Nodup.filter _ (by decide), fun e => ?_, ?_, fun e k => ?_⟩
  · rw [h, hc, List.mem_filter]
    split
    · rename_i x; simp [freshContext, x, mem_allEntries]
    · rename_i x; simp [unusedContext, freshContext, x]
  · rw [h]
    have base : (allEntries.filter p).Pairwise (· < ·) := List.Pairwise.filter _ (by decide)
    refine base.imp_of_mem fun {b a} hb ha k => ?_
    have cb : ctx s b = freshContext .grid f := by rw [hc, if_pos (List.mem_filter.1 hb).2]
    have ca : ctx s a = freshContext .grid f := by rw [hc, if_pos (List.mem_filter.1 ha).2]
    unfold Ahead groupOf
    rw [cb, ca]
    exact .inr ⟨rfl, .inr (.inr ⟨rfl, k⟩)⟩
  · rw [hc]; split <;> rfl

/-! ### The session's requests -/

theorem good_arm (a) : GoodWork (arm a) := good_withLength _ _ _ (good_inStates _ _ fun u => by
  split
  · exact good_refused _ u
  · split
    · exact good_refused _ u
    · show Safe u (armHeat u) ∧ (armHeat u).link.replies <:+ _
      unfold armHeat
      dsimp only
      generalize hv : ({ clearResolver (updAllGates armSlot u) with
        clock := { (clearResolver (updAllGates armSlot u)).clock with now := 0, round := none, balance := 0 }
        contexts := Vector.ofFn fun e : Fin 16 => if mapped (clearResolver (updAllGates armSlot u)) e then freshContext .grid u.settings.fuel.cap else unusedContext
        order := ⟨allEntries.filter fun e => mapped u e, none⟩
        penalty := { (clearResolver (updAllGates armSlot u)).penalty with stopSet := [] }
        pit := Pit.reset
        session := {
          state := .armed, heldFrom := none, aborted := false, countdown := none, greenTime := none
          heatClock := fullHeatClock (clearResolver (updAllGates armSlot u)).settings.heat, grace := none, periods := [], heatLines := lines (clearResolver (updAllGates armSlot u)) } } : State) = v
      have cv : ∀ e, ctx v e = if mapped u e = true then freshContext .grid u.settings.fuel.cap else unusedContext := by
        intro e; rw [← hv]; simp only [ctx, Vector.getElem_ofFn, Fin.getElem_fin]; rfl
      have gv : ∀ g, GateKept (gate u g) (gate v g) := by
        intro g
        have : gate v g = armSlot (gate u g) := by rw [← hv]; exact gate_updAllGates g armSlot u
        rw [this]; unfold armSlot; split
        · exact gateKept_refl _
        · exact ⟨rfl, rfl, rfl, rfl, rfl, fun _ => Nat.zero_le _, id⟩
      have sv : Safe u v := by
        refine ⟨?_, ?_, ?_, ?_, fun k e => ?_, gatesShape_of gv, fun _ _ => pairsShape_nil ?_,
          fun _ => orderShape_fresh (mapped u) _ ?_ cv, ?_, ?_, ?_⟩
        · rw [← hv]; exact bounded_link
        · rw [← hv]; exact fun k => ⟨by simp, by simp, by simp, k.lfsr⟩
        · rw [← hv]; exact fun k => ⟨by simp, by simp, by simp, by simp, k.steps⟩
        · rw [← hv]; exact fun _ => ⟨by simp, by simp⟩
        · have hc : v.settings = u.settings := by rw [← hv]; rfl
          rw [cv, hc]; split
          · exact contextShape_fresh _ _ _ (Nat.le_refl _) fun z => by cases z
          · exact contextShape_fresh _ _ _ (Nat.zero_le _) fun _ => rfl
        · rw [← hv]; rfl
        · rw [← hv]
        · rw [← hv]; exact tablesShape_same
        · rw [← hv]; rfl
        · rw [← hv]; rfl
      have ha := keeps_announce .request v
      refine ⟨safe_trans sv (safe_of_keeps ha), ?_⟩
      have : v.link = u.link := by rw [← hv]; rfl
      rw [← this]; exact ha.replies.suffix)

theorem good_inStates_of (p f) (h : ∀ u : State, p u.session.state = true → Safe u (f u).state ∧
    (f u).state.link.replies <:+ u.link.replies) : GoodWork (inStates p f) := by
  intro u; unfold inStates; split
  · exact h u ‹_›
  · exact good_refuse _ u

theorem safe_countdown (u : State) (n : Nat) (hu : u.session.state =
    .armed) : Safe u { (draw u).1 with session := { u.session with
            state := .countdown
            countdown := some ⟨.steps, u.settings.heat.countSteps, n, u.settings.heat.stepIvl⟩ } } := by
  refine safe_steady (steady_session fun r => not_resting hu (r := r))
    (r := fun k => ⟨k.low, k.high, k.now, lfsrStep_ne_zero _ k.lfsr⟩) (x := fun k => ⟨?_, k.origin, by simp, ?_, k.steps⟩)
  · have := k.held; rw [hu] at this; simpa using this
  · intro c hc; simp at hc; rw [← hc]; exact k.steps

theorem good_start (a) : GoodWork (start a) := good_withLength _ _ _ (good_inStates_of _ _ fun u hu => by
  have hu : u.session.state = .armed := by simpa using hu
  split
  · exact good_refused _ u
  · have p := safe_countdown u (holdLength (draw u).2 u.settings.heat.randomMax) hu
    have r : ({ (draw u).1 with session := { u.session with
            state := .countdown
            countdown := some ⟨.steps, u.settings.heat.countSteps, (holdLength (draw u).2 u.settings.heat.randomMax), u.settings.heat.stepIvl⟩ } }
                : State).link.replies = u.link.replies := rfl
    dsimp only [okay]
    generalize ({ (draw u).1 with session := { u.session with
            state := .countdown
            countdown := some ⟨.steps, u.settings.heat.countSteps, (holdLength (draw u).2 u.settings.heat.randomMax), u.settings.heat.stepIvl⟩ } }
                : State) = v at p r ⊢
    have k2 := keeps_announce .request v
    exact ⟨safe_trans p (safe_of_keeps k2), by rw [← r]; exact k2.replies.suffix⟩)

theorem good_caution (a) : GoodWork (caution a) := good_withLength _ _ _ (good_inStates_of _ _ fun u hu =>
    good_of_keeps (t := toCaution .request u) (keeps_toCaution .request u (by simpa using hu)))

theorem good_green (a) : GoodWork (green a) := good_withLength _ _ _ (good_inStates_of _ _ fun u hu =>
    good_of_keeps (t := toGreen .request u) (keeps_toGreen .request u (by simpa using hu)))

theorem good_hold (a) : GoodWork (hold a) := good_withLength _ _ _ (good_inStates_of _ _ fun u hu =>
    good_of_keeps (t := toHeld .request u) (keeps_toHeld .request u hu))

theorem good_abort (a) : GoodWork (abort a) := by
  unfold abort
  refine good_withLength _ _ _ (good_inStates_of _ _ fun u hu => ?_)
  have k := keeps_closeHeat .abortRequest true u
  dsimp only [okay]
  exact good_of_keeps k

theorem good_dismiss (a) : GoodWork (dismiss a) := good_withLength _ _ _ (good_inStates_of _ _ fun u hu => by
  have hu : u.session.state = .closed := by simpa using hu
  exact good_of_keeps (keeps_trans (keeps_plainMove u { u.session with state := .idle, aborted := false }
      (by rw [hu]; rfl) rfl rfl rfl rfl (fun _ => .inl rfl)) (keeps_announce _ _)))

/-- RESUME (R118). -/
theorem safe_resume (st) (u : State) (hs : u.session.state = .held) (hf : u.session.heldFrom =
    some st) : Safe u (resumeTo st u) ∧ (resumeTo st u).link.replies <:+ u.link.replies := by
  unfold resumeTo
  dsimp only
  have k0 : Safe u { u with session := { u.session with state := st, heldFrom := none } } := by
    refine safe_steady (steady_session fun r => not_resting hs (r := r))
      (x := fun k => ⟨?_, by simp, ?_, k.red, k.steps⟩)
    · rcases k.origin st hf with h | h | h <;> simp [h]
    · have := k.countdown; rw [hs] at this
      rcases k.origin st hf with h | h | h <;> simpa [h] using this
  have r0 : ({ u with session := { u.session with state := st, heldFrom := none } } : State).link.replies <:+
      u.link.replies := List.suffix_rfl
  generalize hv : ({ u with session := { u.session with state := st, heldFrom := none } } : State) = v at k0 r0
  have hvs : v.session.state = st := by rw [← hv]
  have k1 : Keeps v (if st = .green ∨ st = .chequered then closePeriod v else v) := keeps_ite (fun _ =>
      keeps_closePeriod v) fun _ => keeps_refl v
  have h1 : (if st = .green ∨ st = .chequered then closePeriod v else v).session.state =
      st := by split; exact hvs; exact hvs
  generalize (if st = .green ∨ st = .chequered then closePeriod v else v) = w at k1 h1
  have k2 := keeps_rearmDeadlines w
  have h2 : (rearmDeadlines w).session.state = st := h1
  generalize rearmDeadlines w = x at k2 h2
  have g3 : Safe x { x with throttle := { x.throttle with zoneOverride := false } } ∧
      ({ x with throttle := { x.throttle with zoneOverride := false } } : State).link.replies <:+
      x.link.replies := good_table (safe_steady steady_same)
  have key : ∀ y : State, y.session.state = st → Keeps y (if st = .chequered then closeTest (if
      y.session.grace.isSome = true then announce .request (dropSnapshot y) else enterChequered .request y)
      else announce .request y) := by
    intro y h3
    exact keeps_ite (fun hc => keeps_trans (keeps_ite (fun _ => keeps_trans (keeps_dropSnapshot y)
        (keeps_announce _ _)) fun _ => keeps_enterChequered _ y (by rw [h3, hc]; rfl)
        (fun r => not_resting (h3.trans hc) (r := r))) (keeps_closeTest _))
        fun _ => keeps_announce _ _
  have k4 := key { x with throttle := { x.throttle with zoneOverride := false } } h2
  exact ⟨safe_trans k0 (safe_trans (safe_of_keeps (keeps_trans k1 k2)) (safe_trans g3.1 (safe_of_keeps k4))),
      k4.replies.suffix.trans (g3.2.trans ((keeps_trans k1 k2).replies.suffix.trans r0))⟩

theorem good_resume (a) : GoodWork (resume a) := good_withLength _ _ _ (good_inStates_of _ _ fun u hu => by
  split
  · exact good_refused _ u
  · split
    · rename_i h _; exact safe_resume _ u (by simpa using hu) h
    · exact good_refused _ _)

theorem safe_restartRace (u) : Safe u (restartRace u) ∧ (restartRace u).link.replies <:+ u.link.replies := by
  unfold restartRace
  have k := keeps_showLamp     { u with
      link := { u.link with records := [] }
      resolver := { u.resolver with pairs := [], drillOn := false, drills := Vector.replicate 16 none }
      contexts := Vector.replicate 16 unusedContext
      order := Order.reset
      session := { Session.reset with heatLines := u.session.heatLines }
      penalty := { u.penalty with stopSet := [] }
      pit := Pit.reset }
  refine ⟨safe_trans ?_ (safe_of_keeps k), k.replies.suffix⟩
  have c : ∀ v : State, v.contexts = Vector.replicate 16 unusedContext → _ := fun v => contextsShape_unused (s := v)
  refine ⟨fun k => ⟨k.up, k.down, k.drive, k.replies, by simp, k.stationBad, k.trackBad⟩, inRange_same,
    fun k => ⟨by simp [Session.reset], by simp [Session.reset], by simp [Session.reset], by simp [Session.reset],
      k.steps⟩, fun _ => ⟨by simp [Session.reset], by simp [Session.reset]⟩, fun _ => (c _ rfl).1,
    gatesShape_of fun _ => gateKept_refl _, fun _ _ => pairsShape_nil rfl, fun _ => orderShape_nil rfl (c _ rfl).2,
    tablesShape_same, rfl, rfl⟩

theorem contextsShape_reset : ContextsShape State.reset := (contextsShape_unused rfl).1

theorem orderShape_reset : OrderShape State.reset := orderShape_nil rfl (contextsShape_unused rfl).2

theorem gatesShape_reset : GatesShape State.reset := by
  have g : ∀ x : GateId, gate State.reset x = defaultSlot := by intro x; simp [gate, State.reset, Clock.reset]
  refine ⟨fun x => by rw [g]; decide, fun x => by rw [g]; decide, fun x => by rw [g]; decide, fun x => by rw [g]; decide,
    fun x _ => by rw [g]; decide, fun x y _ _ => by rw [g x]; refine ⟨by decide, by decide, fun z => by cases z⟩,
    fun l _ hp => ?_⟩
  cases l with
  | nil => exact Nat.zero_le _
  | cons p rest =>
    obtain ⟨⟨x, h, _⟩, _⟩ := hp p List.mem_cons_self
    rw [g] at h; cases h

theorem tablesShape_reset : TablesShape State.reset := by
  have e : ∀ x : Entry, entryRow State.reset x = defaultEntryRow := by intro x; simp [entryRow, State.reset, Throttle.reset]
  have l : ∀ x : Line, lineRow State.reset x = defaultLineRow := by intro x; simp [lineRow, State.reset, Throttle.reset]
  refine ⟨fun x => ?_, fun x y _ h => ?_, fun x => ?_, fun k => ?_, ?_, ?_, ?_, ?_⟩
  · rw [e]; exact ⟨fun n h => (by cases h), by decide, by decide, by unfold Within; decide, by decide, by unfold Within; decide⟩
  · rw [e] at h; exact absurd rfl h
  · rw [l]; exact ⟨.inl rfl, by decide⟩
  · cases k <;> refine ⟨?_, ?_, ?_, ?_⟩ <;> simp [ruleOf, State.reset, Penalty.reset, defaultRules, kindIndex, Within]
  · exact ⟨by decide, by decide⟩
  · simp only [Within]; decide
  · simp only [Within]; decide
  · simp only [Within]; decide

/-- What holds of the state after reset holds of it with another link. -/
theorem safe_of_reset (u : State) (l : Link) (low : Bool) (hl : LinkBounded u.link l) : Safe u
    { State.reset with link := l, rstnLow := low, choices := u.choices, pending := u.pending } :=
  ⟨bounded_of hl, fun _ => ⟨by simp [State.reset, Clock.reset], by simp [State.reset, Clock.reset],
      by simp [State.reset, Clock.reset], by simp [State.reset, Resolver.reset, defaultSeed]⟩,
    fun _ => ⟨by simp [State.reset, Session.reset], by simp [State.reset, Session.reset],
      by simp [State.reset, Session.reset], by simp [State.reset, Session.reset],
      by simp [State.reset, Settings.reset, defaultHeat]⟩,
    fun _ => ⟨by simp [State.reset, Session.reset], by simp [State.reset, Session.reset]⟩,
    fun _ => contextsShape_same (s := State.reset) rfl rfl contextsShape_reset,
    fun _ => gatesShape_of (s := State.reset) (fun _ => gateKept_refl _) gatesShape_reset,
    fun _ _ => pairsShape_nil rfl,
    fun _ => orderShape_key (s := State.reset) rfl (fun _ => rfl) (fun _ => id) orderShape_reset,
    fun _ => tablesShape_same (s := State.reset) rfl rfl rfl rfl tablesShape_reset, rfl, rfl⟩

theorem safe_restartAll (u) : Safe u (restartAll u) ∧ (restartAll u).link.replies <:+ u.link.replies := by
  unfold restartAll
  have k := keeps_showLamp  { State.reset with
      link := { Link.reset with
        stationRx := u.link.stationRx, trackRx := u.link.trackRx
        stationTx := u.link.stationTx, trackTx := u.link.trackTx }
      rstnLow := u.rstnLow
      choices := u.choices
      pending := u.pending }
  refine ⟨safe_trans (safe_of_reset u _ _ ?_) (safe_of_keeps k), k.replies.suffix.trans (by simp [Link.reset])⟩
  constructor <;> simp [Link.reset]

theorem good_restart (a) : GoodWork (restart a) := good_withLength _ _ _ fun u => by
  split; exact safe_restartRace u; split; exact safe_restartAll u; exact good_refused _ u

theorem good_unknown : GoodWork unknown := good_refuse _

/-! ### Moves and frames -/

/-- The field leaves the grid (R72). -/
theorem keeps_launchField (s : State) : Keeps s (launchField s) := by
  unfold launchField
  have key : ∀ now limit c, (launchGrid now limit c).state = (if c.state = .grid then .running else c.state) ∧
      (launchGrid now limit c).disqualified = c.disqualified ∧ (launchGrid now limit c).progress = c.progress := by
    intro now limit c; unfold launchGrid; split <;> exact ⟨rfl, rfl, rfl⟩
  refine keeps_contexts s _ (fun k e => ?_) ⟨fun _ => gateKept_refl _, List.Sublist.refl _, id, fun e h => ?_, fun e h => ?_,
    fun h => orderShape_key (s := s) rfl (fun e => ?_) (fun e => ?_) h⟩
  · show ContextShape _ (ctx (updAllCtx _ s) e)
    rw [ctx_updAllCtx]
    have y := k e
    unfold launchGrid
    by_cases g : (ctx s e).state = .grid
    · rw [if_pos g]
      exact ⟨y.owed, y.head, y.seconds, y.deductions, Nat.zero_le _, y.counts, y.ring, y.fuel, fun z => (nomatch z),
        fun z => (by have := y.flagged z; rw [g] at this; cases this)⟩
    · rw [if_neg g]; exact y
  · show (ctx (updAllCtx _ s) e).state ≠ _
    rw [ctx_updAllCtx, (key _ _ _).1]; split
    · decide
    · exact h
  · show Out (ctx (updAllCtx _ s) e)
    unfold Out
    rw [ctx_updAllCtx, (key _ _ _).1, if_neg h.2]; exact h
  · show orderKey (ctx (updAllCtx _ s) e) = _
    rw [ctx_updAllCtx]
    unfold launchGrid
    by_cases g : (ctx s e).state = .grid
    · rw [if_pos g]; unfold orderKey; dsimp only; rw [g, h.grid e g]; rfl
    · rw [if_neg g]
  · show (ctx (updAllCtx _ s) e).state = _ → _
    rw [ctx_updAllCtx, (key _ _ _).1]; split
    · intro z; cases z
    · exact id

/-- The lights go out (R115). -/
theorem safe_goGreen (s : State) (h : s.session.state = .countdown) : Safe s (goGreen s) := by
  unfold goGreen
  have k : Safe s
      { s with session := { s.session with state := .green, greenTime := some s.clock.now, countdown := none } } := by
    refine safe_steady (steady_session fun r => not_resting h (r := r))
      (x := fun k => ⟨?_, k.origin, by simp, by simp, k.steps⟩)
    have := k.held; rw [h] at this; simpa using this
  exact safe_trans k (safe_of_keeps (keeps_trans (keeps_trans (keeps_announce .lightsOut _) (keeps_launchField _))
    (keeps_startDrills _)))

theorem safe_setCountdown (s : State) (c d : Countdown) (h : s.session.countdown = some c) (hr : (1 ≤ c.red ∧
    c.red ≤ 5) → 1 ≤ d.red ∧ d.red ≤ 5) : Safe s (setCountdown d s) := by
  refine safe_steady steady_same (x := fun k => ⟨k.held, k.origin, ?_, ?_, k.steps⟩)
  · have := k.countdown; rw [h] at this; simpa [setCountdown] using this
  · intro x hx; simp [setCountdown] at hx; rw [← hx]; exact hr (k.red c h)

/-- A countdown that is due. -/
theorem dueCountdown_spec {s : State} {p} {c} (h : dueCountdown s p = some c) : s.session.state = .countdown ∧
    s.session.countdown = some c := by
  unfold dueCountdown at h
  split at h
  · rename_i hs; simp at hs
    cases hc : s.session.countdown with
    | none => rw [hc] at h; simp at h
    | some d => rw [hc] at h; simp [Option.filter] at h; exact ⟨hs.2, by simp [h.2]⟩
  · simp at h

/-- The end of a countdown step (R114). -/
theorem safe_endStep (c : Countdown) (s : State) (h : s.session.state = .countdown) (hc : s.session.countdown =
    some c) : Safe s (endStep c s) := by
  unfold endStep
  refine safe_ite (fun hr => ?_) fun _ => safe_ite (fun _ => safe_goGreen s h) fun _ => safe_setCountdown s c _
      hc id
  refine safe_trans (safe_setCountdown s c { c with red := c.red - 1, remaining := s.settings.heat.stepIvl } hc
      ?_) (safe_of_keeps (keeps_showLamp _))
  intro hh; show 1 ≤ c.red - 1 ∧ c.red - 1 ≤ 5; omega

/-- The fall of RSTN (R19, R132). -/
theorem safe_fall (s : State) : Safe s (fall s) := by
  unfold fall
  dsimp only
  have g1 : Safe s { s with link := s.link.fall, rstnLow := true } :=
    safe_steady steady_same (b := fun k => ⟨by simp [Link.fall], by simp [Link.fall], by simp [Link.fall],
      by simp [Link.fall], by simp [Link.fall], k.stationBad, k.trackBad⟩)
  generalize ({ s with link := s.link.fall, rstnLow := true } : State) = u at g1
  have k : Keeps u (clearMarks (if interruptible (suspendDeadlines u).session.state = true then openPeriod
      (suspendDeadlines u) else suspendDeadlines u)) := by
    refine keeps_trans ?_ (keeps_clearMarks _)
    exact keeps_ite (fun _ => keeps_trans (keeps_suspendDeadlines u) (keeps_openPeriod _)) fun _ =>
        keeps_suspendDeadlines u
  refine safe_trans g1 (safe_trans (safe_of_keeps k) ?_)
  exact safe_steady steady_same

theorem safe_releaseMove (s : State) : Safe s (releaseMove s) := by
  unfold releaseMove
  refine safe_ite (fun h => safe_of_keeps (keeps_enterHeld s
      (by revert h; cases s.session.state <;> simp [interruptible, holdable]))) fun _ => safe_ite (fun h => ?_)
      fun _ => safe_refl s
  refine safe_steady (steady_session fun r => not_resting h (r := r))
    (x := fun k => ⟨?_, k.origin, by simp, by simp, k.steps⟩)
  have := k.held; rw [h] at this; simpa using this

/-- The release of RSTN (R43, R132). -/
theorem safe_release (s : State) : Safe s (release s) := by
  unfold release
  dsimp only
  have g1 : Safe s { s with link := { s.link with stationTx := none, trackTx := none }, rstnLow := false } :=
    safe_steady steady_same (b := bounded_of ⟨id, id, id, id, id, id, id⟩)
  generalize ({ s with link := { s.link with stationTx := none, trackTx := none }, rstnLow := false } : State)
      = u at g1
  have g2 : Safe u (releaseGates u) := by
    refine safe_steady ⟨fun g => ?_, List.nil_sublist _, id, fun _ => id, fun _ => id,
      orderShape_key rfl (fun _ => rfl) fun _ => id⟩ (r := fun k => ⟨by simp [releaseGates], by simp [releaseGates], k.now, k.lfsr⟩)
    have : gate (releaseGates u) g = unalignSlot (gate u g) := gate_updAllGates g unalignSlot u
    rw [this]; unfold unalignSlot; split
    · exact gateKept_refl _
    · exact ⟨rfl, rfl, rfl, rfl, rfl, id, id⟩
  have g3 := safe_trans g1 (safe_trans g2 (safe_trans (safe_releaseMove _) (safe_of_keeps (keeps_showLamp _))))
  exact safe_ite (fun _ => safe_trans g3 (safe_of_keeps (keeps_emitSession _ _))) fun _ => safe_trans g3
      (safe_of_keeps (keeps_setGroup _ _))

/-- Power-on reset (R20). -/
theorem safe_powerOn (s : State) : Safe s (powerOn s) := by
  unfold powerOn
  refine safe_trans ?_ (safe_of_keeps (keeps_showLamp _))
  refine safe_of_reset s _ _ ?_
  constructor <;> simp [Link.reset]

theorem safe_takeFrame (p f s) (h : ∀ u, Safe u (f u)) : Safe s (takeFrame p f s) := by
  unfold takeFrame
  exact safe_ite (fun _ => safe_refl s) fun _ => safe_trans (safe_of_keeps (keeps_received p s)) (h _)

/-! ### Pending pairs (R52 to R54) -/

/-- A pair joins the list (R53). -/
theorem safe_added {s t : State} (k : Safe s t) (p : PendingPair)
    (h : GatesShape s → PairsShape s → (¬Resting t → PairedPlace t p.line p.lane) ∧
      (∀ q ∈ t.resolver.pairs, q.entry ≠ p.entry ∧ (q.line, q.lane) ≠ (p.line, p.lane)) ∧ t.resolver.pairs.length < 12) :
    Safe s { t with resolver := { t.resolver with pairs := t.resolver.pairs ++ [p] } } := by
  refine ⟨bounded_link ∘ k.bounded, inRange_same ∘ k.range, sessionShape_same ∘ k.session, periodsShape_same ∘ k.periods,
    contextsShape_same ∘ k.contexts, gatesShape_of (s := t) (fun _ => gateKept_refl _) ∘ k.gates, fun g q => ?_,
    orderShape_key (s := t) rfl (fun _ => rfl) (fun _ => id) ∘ k.order, tablesShape_same ∘ k.tables, k.choices, k.pending⟩
  obtain ⟨h1, h2, h3⟩ := h g q
  have y := k.pairs g q
  refine ⟨?_, ?_, ?_, fun hi hc z m => ?_⟩
  · show ((t.resolver.pairs ++ [p]).map _).Nodup
    rw [List.map_append, List.nodup_append]
    refine ⟨y.entries, List.nodup_singleton _, ?_⟩
    rintro a ha b hb rfl
    obtain ⟨x, hx, rfl⟩ := List.mem_map.1 ha
    exact (h2 x hx).1 (by simpa using hb)
  · show ((t.resolver.pairs ++ [p]).map _).Nodup
    rw [List.map_append, List.nodup_append]
    refine ⟨y.places, List.nodup_singleton _, ?_⟩
    rintro a ha b hb rfl
    obtain ⟨x, hx, rfl⟩ := List.mem_map.1 ha
    exact (h2 x hx).2 (by simpa using hb)
  · show (t.resolver.pairs ++ [p]).length ≤ 12
    simp; omega
  · rcases List.mem_append.1 m with m | m
    · exact pairedPlace_of (s := t) (fun _ => gateKept_refl _) (y.paired hi hc z m)
    · rw [List.mem_singleton.1 m]
      exact pairedPlace_of (s := t) (fun _ => gateKept_refl _) (h1 (by rintro (r | r); exact hi r; exact hc r))

theorem safe_openPair {s t : State} (k : Safe s t) (g : GateId) (x : Report)
    (h : GatesShape s → PairsShape s → (¬Resting t → PairedPlace t x.line x.lane) ∧
      (∀ q ∈ t.resolver.pairs, q.entry ≠ x.entry ∧ (q.line, q.lane) ≠ (x.line, x.lane)) ∧ t.resolver.pairs.length < 12) :
    Safe s (openPair g x t) := by
  unfold openPair
  exact safe_ite (fun _ => safe_trans k (safe_of_keeps (keeps_deliver x t))) fun _ => safe_added k _ h

/-- In a heat the list of pairs has room for another place (R26, R52). -/
theorem pairs_room {s : State} (hr : ¬Resting s) {j : Line} {n : Nat} (hp : PairedPlace s j n) (g : GatesShape s)
    (k : PairsShape s) (hn : ∀ q ∈ s.resolver.pairs, (q.line, q.lane) ≠ (j, n)) : s.resolver.pairs.length < 12 := by
  have := g.paired ((j, n) :: s.resolver.pairs.map fun p => (p.line, p.lane)) ?_ ?_
  · simpa using this
  · refine List.nodup_cons.2 ⟨fun m => ?_, k.places⟩
    obtain ⟨q, hq, e⟩ := List.mem_map.1 m
    exact hn q hq e
  · intro p m
    rcases List.mem_cons.1 m with rfl | m
    · exact hp
    · obtain ⟨q, hq, rfl⟩ := List.mem_map.1 m
      exact k.paired (fun x => hr (.inl x)) (fun x => hr (.inr x)) q hq

theorem safe_pairStep (g : GateId) (x : Report) (s : State) (hr : ¬Resting s) : Safe s (pairStep g x s) := by
  unfold pairStep
  refine safe_ite (fun _ => safe_of_keeps (keeps_deliver x s)) fun hp => ?_
  have hp : PairedPlace s x.line x.lane := by
    refine isPaired_iff.1 ?_
    simp at hp; exact hp.2
  refine safe_ite (fun _ => safe_of_keeps (keeps_deliver x s)) fun ha => ?_
  have ha : ∀ q ∈ s.resolver.pairs, (q.line, q.lane) = (x.line, x.lane) → PairsShape s → q.entry = x.entry := by
    intro q hq e k
    unfold pairAt at ha
    cases hf : s.resolver.pairs.find? (fun p => p.line == x.line && p.lane == x.lane) with
    | none =>
      have := List.find?_eq_none.1 hf q hq
      simp at e; simp [e] at this
    | some p =>
      rw [hf] at ha
      have pe : p.entry = x.entry := by simpa using ha
      have pm := List.mem_of_find?_eq_some hf
      have pp := List.find?_some hf
      have : q = p := by
        refine List.inj_on_of_nodup_map k.places hq pm ?_
        rw [e]; simp at pp; rw [pp.1, pp.2]
      rw [this]; exact pe
  split
  · rename_i hn
    have hn : ∀ q ∈ s.resolver.pairs, q.entry ≠ x.entry := by
      intro q hq e
      have := List.find?_eq_none.1 hn q hq
      simp [e] at this
    refine safe_openPair (safe_refl s) g x fun gs k => ⟨fun _ => hp, fun q hq => ?_, ?_⟩
    · exact ⟨hn q hq, fun e => hn q hq (ha q hq e k)⟩
    · exact pairs_room hr hp gs k fun q hq e => hn q hq (ha q hq e k)
  · rename_i p hf
    have pm := List.mem_of_find?_eq_some hf
    have pe : p.entry = x.entry := by simpa using List.find?_some hf
    refine safe_ite (fun _ => safe_of_keeps (keeps_partnerArrives p x s)) fun _ => ?_
    have kr := keeps_releasePair p s
    refine safe_openPair (safe_of_keeps kr) g x fun gs k => ?_
    have sub : (releasePair p s).resolver.pairs.Sublist (s.resolver.pairs.erase p) := by
      unfold releasePair
      dsimp only
      have h1 : ∀ u : State, (deliver (heldReport p) u).resolver.pairs.Sublist u.resolver.pairs :=
        fun u => (keeps_deliver _ u).steady.pairs
      refine (h1 _).trans ?_
      split <;> exact List.Sublist.refl _
    have nd := List.Nodup.of_map _ k.entries
    have mem : ∀ q ∈ (releasePair p s).resolver.pairs, q ∈ s.resolver.pairs ∧ q.entry ≠ x.entry := by
      intro q hq
      have hq := sub.subset hq
      have hs := List.mem_of_mem_erase hq
      refine ⟨hs, fun e => ?_⟩
      have : q = p := List.inj_on_of_nodup_map k.entries hs pm (e.trans pe.symm)
      rw [this] at hq
      exact nd.not_mem_erase hq
    refine ⟨fun _ => pairedPlace_of kr.steady.gates hp, fun q hq => ?_, ?_⟩
    · exact ⟨(mem q hq).2, fun e => (mem q hq).2 (ha q (mem q hq).1 e k)⟩
    · have h1 := sub.length_le
      rw [List.length_erase_of_mem pm] at h1
      have h2 := k.length
      have h3 := List.length_pos_of_mem pm
      omega

/-- The path of one report (R45 to R54). -/
theorem safe_resolveReport (g : GateId) (c : Byte) (n : Count) (a : Ticks) (s : State) :
    Safe s (resolveReport g c n a s) := by
  unfold resolveReport
  split
  · exact safe_of_keeps (keeps_stray _ _ _ _ s)
  · rename_i h
    dsimp only
    split
    · exact safe_of_keeps (keeps_stray _ _ _ _ s)
    · refine safe_pairStep g _ s fun r => ?_
      unfold gateCheck at h
      dsimp only at h
      split at h
      · cases h
      · split at h
        · cases h
        · split at h
          · cases h
          · rename_i q; exact q r

theorem keeps_buttonAction (s) : Keeps s (buttonAction s) := by
  unfold buttonAction
  split
  · exact keeps_refl s
  · exact keeps_ite (fun h => keeps_toCaution _ s h) fun _ => keeps_refl s
  · exact keeps_ite (fun h => keeps_toHeld _ s h) fun _ => keeps_refl s

end Sys2Proof.Safety
end

