-- ==== Sys2Proof/Laws/Pairs.lean ====
section
/-! SUPPORT. The pair step: which pair a report meets, and what becomes of both (R49, R52 to R55). -/

namespace Sys2Proof.Safety

open Sys2Proof Machine

theorem find_unique {P : GateId → Bool} {g : GateId} (hg : P g = true) (h : ∀ x, P x = true → x =
    g) : allGates.find? P = some g := by
  have hall : ∀ f : GateId, f ∈ allGates := by decide
  cases hf : allGates.find? P with
  | none => rw [List.find?_eq_none] at hf; exact absurd hg (hf g (hall g))
  | some x => rw [h x (List.find?_some hf)]

theorem pairOf_unique {s : State} {p : PendingPair} {e : Entry} (hp : p ∈ s.resolver.pairs) (hu : ∀ q ∈
    s.resolver.pairs, q.entry = e ↔ q = p) : pairOf s e = some p := by
  unfold pairOf
  cases hf : s.resolver.pairs.find? (fun q => q.entry == e) with
  | none =>
    rw [List.find?_eq_none] at hf
    exact absurd (beq_iff_eq.2 ((hu p hp).2 rfl)) (hf p hp)
  | some x =>
    have h1 := List.find?_some hf
    rw [(hu x (List.mem_of_find?_eq_some hf)).1 (by simpa using h1)]

/-- A single release (R53, R55). -/
theorem releasePair_eq (p : PendingPair) (s : State) : ∃ G, UnpairedRaised s p G ∧
    releasePair p s = deliver (heldAlone p) (unpaired p { s with clock := { s.clock with gates := G } }) := by
  have hp : ∀ g : GateId, Silent s p g → (∀ h, Silent s p h → h = g) → partnerGate (removePair p s) p = some g := by
    intro g h1 h2
    unfold partnerGate
    apply find_unique
    · show ((gate s g).role == .line && (gate s g).line == p.line && (gate s g).lane == p.lane && g != p.gate) = true
      simp [h1.1, h1.2.1, h1.2.2.1, h1.2.2.2]
    · intro x hx
      have hx' : ((gate s x).role == .line && (gate s x).line == p.line && (gate s x).lane == p.lane && x !=
          p.gate) = true := hx
      simp only [Bool.and_eq_true, beq_iff_eq, bne_iff_ne] at hx'
      exact h2 x ⟨hx'.1.1.1, hx'.1.1.2, hx'.1.2, hx'.2⟩
  have hn : ∀ g, partnerGate (removePair p s) p = some g → Silent s p g := by
    intro g hg
    have hx : ((gate s g).role == .line && (gate s g).line == p.line && (gate s g).lane == p.lane && g !=
          p.gate) = true := by unfold partnerGate at hg; have := List.find?_some hg; exact this
    simp only [Bool.and_eq_true, beq_iff_eq, bne_iff_ne] at hx
    exact ⟨hx.1.1.1, hx.1.1.2, hx.1.2, hx.2⟩
  unfold releasePair
  dsimp only
  cases hf : partnerGate (removePair p s) p with
  | none =>
    refine ⟨s.clock.gates, ⟨?_, fun _ => rfl⟩, rfl⟩
    intro g h1 h2
    have := hp g h1 h2; rw [hf] at this; cases this
  | some x =>
    refine ⟨s.clock.gates.set x { gate s x with unpaired := min 255 ((gate s x).unpaired + 1) }, ⟨?_, ?_⟩, rfl⟩
    · intro g h1 h2
      have := hp g h1 h2; rw [hf] at this; cases this; rfl
    · intro h; exact absurd (hn x hf) (h x)

theorem pairs_entry {s : State} (h : PairsShape s) {p q : PendingPair} (hp : p ∈ s.resolver.pairs)
    (hq : q ∈ s.resolver.pairs) (he : p.entry = q.entry) : p = q :=
  List.inj_on_of_nodup_map h.entries hp hq he

theorem pairs_place {s : State} (h : PairsShape s) {p q : PendingPair} (hp : p ∈ s.resolver.pairs)
    (hq : q ∈ s.resolver.pairs) (h1 : p.line = q.line) (h2 : p.lane = q.lane) : p = q :=
  List.inj_on_of_nodup_map h.places hp hq (by rw [h1, h2])

theorem pairOf_some {s m : State} (hr : m.resolver = s.resolver) (h : PairsShape s) {p : PendingPair} {e : Entry}
    (hp : p ∈ s.resolver.pairs) (he : p.entry = e) : pairOf m e = some p :=
  pairOf_unique (by rw [hr]; exact hp) fun q hq => by
    rw [hr] at hq
    exact ⟨fun k => pairs_entry h hq hp (k.trans he.symm), fun k => k ▸ he⟩

theorem pairOf_none {s m : State} (hr : m.resolver = s.resolver) {e : Entry}
    (h : ∀ p ∈ s.resolver.pairs, p.entry ≠ e) : pairOf m e = none := by
  unfold pairOf; rw [List.find?_eq_none, hr]
  intro q hq; simpa using h q hq

theorem pairAt_some {s m : State} (hr : m.resolver = s.resolver) (h : PairsShape s) {p : PendingPair} {line : Line}
    {lane : Nat} (hp : p ∈ s.resolver.pairs) (h1 : p.line = line) (h2 : p.lane = lane) :
    pairAt m line lane = some p := by
  unfold pairAt
  rw [hr]
  cases hf : s.resolver.pairs.find? (fun q => q.line == line && q.lane == lane) with
  | none =>
    rw [List.find?_eq_none] at hf
    exact absurd (by simp [h1, h2]) (hf p hp)
  | some x =>
    have h3 := List.find?_some hf
    simp only [Bool.and_eq_true, beq_iff_eq] at h3
    rw [pairs_place h (List.mem_of_find?_eq_some hf) hp (h3.1.trans h1.symm) (h3.2.trans h2.symm)]

/-- An unreadable report is the partner of the pair that the other gate of its line-lane holds (R49). -/
theorem identify_partner {s m : State} (hm : SameAs s m) (h : PairsShape s) {g : GateId} {p : PendingPair} (t : Ticks)
    (code : Byte) (hc : code.toNat = 31) (hg : (gate s g).role = .line) (hp : p ∈ s.resolver.pairs)
    (h1 : p.line = (gate s g).line) (h2 : p.lane = (gate s g).lane) (h3 : p.gate ≠ g) :
    identify m g code t = .inl (p.entry, true) := by
  unfold identify partnerPair
  rw [if_pos ((unreadable_iff _).2 hc), same_gate hm, if_pos hg, hm.resolver]
  cases hf : s.resolver.pairs.find? (fun p => p.line == (gate s g).line && p.lane == (gate s g).lane && p.gate != g) with
  | none =>
    rw [List.find?_eq_none] at hf
    exact absurd (by simp [h1, h2, h3]) (hf p hp)
  | some x =>
    have k := List.find?_some hf
    simp only [Bool.and_eq_true, beq_iff_eq] at k
    rw [pairs_place h (List.mem_of_find?_eq_some hf) hp (k.1.1.trans h1.symm) (k.1.2.trans h2.symm)]

/-- A report of a paired line-lane behind its identification (R53). -/
theorem pairStep_paired {s m : State} (hm : SameAs s m) {g : GateId} {x : Report} (hx : x.role = .line)
    (hp : PairedPlace s x.line x.lane) : pairStep g x m =
      if (pairAt m x.line x.lane).any fun p => p.entry != x.entry then deliver x m
      else match pairOf m x.entry with
        | none => openPair g x m
        | some p =>
          if p.line = x.line ∧ p.lane = x.lane ∧ p.gate ≠ g then partnerArrives p x m
          else openPair g x (releasePair p m) := by
  have hq : isPaired m x.line x.lane = true := isPaired_iff.2 (by
    unfold PairedPlace at *; simp only [same_gate hm]; exact hp)
  unfold pairStep
  exact if_neg (by rw [hx, hq]; decide)

/-- A pair is opened for a report in its window (R53). -/
theorem openPair_eq (g : GateId) (x : Report) (s : State) (hw : deliveryWindow s x = x) :
    openPair g x s = if heldOff s x then s else { s with resolver := { s.resolver with pairs := s.resolver.pairs ++
      [⟨x.entry, x.code, x.line, x.lane, g, x.time, x.arrival, x.lowConf, x.inferred,
        x.arrival + s.settings.timing.pairWindow + s.settings.timing.lagMax⟩] } } := by
  unfold openPair
  by_cases h : heldOff s x = true
  · rw [if_pos h, if_pos h]; unfold deliver; dsimp only; rw [hw, if_pos h]
  · rw [if_neg h, if_neg h]

end Sys2Proof.Safety
end

