-- ==== Sys2Proof/Laws/PerInstr.lean ====
section
/-! SUPPORT. The request index of spec file 10, command by command: the code that a request's frame carries is read
back as that request. -/

namespace Sys2Proof.Laws.CommandCode

open Sys2Proof

/-- A well-formed command that has a request code is the request which that code carries. -/
def Statement (i : Instr) : Prop :=
  ∀ (tag code : Byte) (args : List Byte), requestCode i = some (tag, code, args) → WellFormed i = true →
    requestOf tag code args = i

theorem powerOnReset : Statement Instr.powerOnReset := fun _ _ _ h _ => by cases h
theorem rstnFall : Statement Instr.rstnFall := fun _ _ _ h _ => by cases h
theorem rstnRelease : Statement Instr.rstnRelease := fun _ _ _ h _ => by cases h
theorem byteGapTimeout (port : Port) : Statement (Instr.byteGapTimeout port) := fun _ _ _ h _ => by cases h
theorem xingReceived (gate code : Byte) (count : Count) (arrival : Ticks) : Statement (Instr.xingReceived gate code count arrival) := fun _ _ _ h _ => by cases h
theorem beaconReply (gate number : Byte) (count : Count) (arrival : Ticks) : Statement (Instr.beaconReply gate number count arrival) := fun _ _ _ h _ => by cases h
theorem marshalButton (gate : Byte) (arrival : Ticks) : Statement (Instr.marshalButton gate arrival) := fun _ _ _ h _ => by cases h
theorem trackPassThrough (ftype : Byte) (body : List Byte) : Statement (Instr.trackPassThrough ftype body) := fun _ _ _ h _ => by cases h
theorem driveFrame (entries : List DriveEntry) (arrival : Ticks) : Statement (Instr.driveFrame entries arrival) := fun _ _ _ h _ => by cases h
theorem stationBeacLampDiscard (ftype : Byte) (body : List Byte) : Statement (Instr.stationBeacLampDiscard ftype body) := fun _ _ _ h _ => by cases h
theorem stationPassThrough (ftype : Byte) (body : List Byte) : Statement (Instr.stationPassThrough ftype body) := fun _ _ _ h _ => by cases h
theorem stationTransmitDone : Statement Instr.stationTransmitDone := fun _ _ _ h _ => by cases h
theorem trackTransmitDone : Statement Instr.trackTransmitDone := fun _ _ _ h _ => by cases h
theorem beaconBoundary : Statement Instr.beaconBoundary := fun _ _ _ h _ => by cases h
theorem beaconRoundClose : Statement Instr.beaconRoundClose := fun _ _ _ h _ => by cases h
theorem clockLimit : Statement Instr.clockLimit := fun _ _ _ h _ => by cases h
theorem raceClockStop : Statement Instr.raceClockStop := fun _ _ _ h _ => by cases h
theorem pairDeadline (entry : Entry) : Statement (Instr.pairDeadline entry) := fun _ _ _ h _ => by cases h
theorem drillCrossingDue (entry : Entry) : Statement (Instr.drillCrossingDue entry) := fun _ _ _ h _ => by cases h
theorem overdueExpiry (entry : Entry) : Statement (Instr.overdueExpiry entry) := fun _ _ _ h _ => by cases h
theorem countdownStepEnd : Statement Instr.countdownStepEnd := fun _ _ _ h _ => by cases h
theorem randomHoldEnd : Statement Instr.randomHoldEnd := fun _ _ _ h _ => by cases h
theorem heatClockExpiry : Statement Instr.heatClockExpiry := fun _ _ _ h _ => by cases h
theorem graceExpiry : Statement Instr.graceExpiry := fun _ _ _ h _ => by cases h
theorem beat : Statement Instr.beat := fun _ _ _ h _ => by cases h
theorem unknownRequest (tag code : Byte) (args : List Byte) : Statement (Instr.unknownRequest tag code args) := by
  intro t c a h hw
  cases h
  have hn : code.toNat ∉ knownCodes := by simpa [WellFormed] using (Bool.and_eq_true_iff.1 hw).2
  unfold requestOf
  split <;> first | rfl | (rename_i hc; rw [hc] at hn; exact absurd (by decide) hn)
theorem setTiming (tag : Byte) (args : List Byte) : Statement (Instr.setTiming tag args) := fun _ _ _ h _ => by cases h; rfl
theorem setHeat (tag : Byte) (args : List Byte) : Statement (Instr.setHeat tag args) := fun _ _ _ h _ => by cases h; rfl
theorem setFuel (tag : Byte) (args : List Byte) : Statement (Instr.setFuel tag args) := fun _ _ _ h _ => by cases h; rfl
theorem setSeed (tag : Byte) (args : List Byte) : Statement (Instr.setSeed tag args) := fun _ _ _ h _ => by cases h; rfl
theorem setAttnMask (tag : Byte) (args : List Byte) : Statement (Instr.setAttnMask tag args) := fun _ _ _ h _ => by cases h; rfl
theorem writeGate (tag : Byte) (args : List Byte) : Statement (Instr.writeGate tag args) := fun _ _ _ h _ => by cases h; rfl
theorem writeLine (tag : Byte) (args : List Byte) : Statement (Instr.writeLine tag args) := fun _ _ _ h _ => by cases h; rfl
theorem writeEntry (tag : Byte) (args : List Byte) : Statement (Instr.writeEntry tag args) := fun _ _ _ h _ => by cases h; rfl
theorem writeRule (tag : Byte) (args : List Byte) : Statement (Instr.writeRule tag args) := fun _ _ _ h _ => by cases h; rfl
theorem readGate (tag : Byte) (args : List Byte) : Statement (Instr.readGate tag args) := fun _ _ _ h _ => by cases h; rfl
theorem readLine (tag : Byte) (args : List Byte) : Statement (Instr.readLine tag args) := fun _ _ _ h _ => by cases h; rfl
theorem readEntry (tag : Byte) (args : List Byte) : Statement (Instr.readEntry tag args) := fun _ _ _ h _ => by cases h; rfl
theorem readRule (tag : Byte) (args : List Byte) : Statement (Instr.readRule tag args) := fun _ _ _ h _ => by cases h; rfl
theorem readCar (tag : Byte) (args : List Byte) : Statement (Instr.readCar tag args) := fun _ _ _ h _ => by cases h; rfl
theorem readOwed (tag : Byte) (args : List Byte) : Statement (Instr.readOwed tag args) := fun _ _ _ h _ => by cases h; rfl
theorem readOrder (tag : Byte) (args : List Byte) : Statement (Instr.readOrder tag args) := fun _ _ _ h _ => by cases h; rfl
theorem status (tag : Byte) (args : List Byte) : Statement (Instr.status tag args) := fun _ _ _ h _ => by cases h; rfl
theorem arm (tag : Byte) (args : List Byte) : Statement (Instr.arm tag args) := fun _ _ _ h _ => by cases h; rfl
theorem start (tag : Byte) (args : List Byte) : Statement (Instr.start tag args) := fun _ _ _ h _ => by cases h; rfl
theorem caution (tag : Byte) (args : List Byte) : Statement (Instr.caution tag args) := fun _ _ _ h _ => by cases h; rfl
theorem green (tag : Byte) (args : List Byte) : Statement (Instr.green tag args) := fun _ _ _ h _ => by cases h; rfl
theorem hold (tag : Byte) (args : List Byte) : Statement (Instr.hold tag args) := fun _ _ _ h _ => by cases h; rfl
theorem resume (tag : Byte) (args : List Byte) : Statement (Instr.resume tag args) := fun _ _ _ h _ => by cases h; rfl
theorem abort (tag : Byte) (args : List Byte) : Statement (Instr.abort tag args) := fun _ _ _ h _ => by cases h; rfl
theorem dismiss (tag : Byte) (args : List Byte) : Statement (Instr.dismiss tag args) := fun _ _ _ h _ => by cases h; rfl
theorem issueCounted (tag : Byte) (args : List Byte) : Statement (Instr.issueCounted tag args) := by
  intro t c a h hw
  cases h
  have hn : issueIsDirect args = false := by simpa [WellFormed] using (Bool.and_eq_true_iff.1 hw).2
  simp [requestOf, hn]
theorem issueDirect (tag : Byte) (args : List Byte) : Statement (Instr.issueDirect tag args) := by
  intro t c a h hw
  cases h
  have hn : issueIsDirect args = true := (Bool.and_eq_true_iff.1 hw).2
  simp [requestOf, hn]
theorem waive (tag : Byte) (args : List Byte) : Statement (Instr.waive tag args) := fun _ _ _ h _ => by cases h; rfl
theorem retire (tag : Byte) (args : List Byte) : Statement (Instr.retire tag args) := fun _ _ _ h _ => by cases h; rfl
theorem clearBest (tag : Byte) (args : List Byte) : Statement (Instr.clearBest tag args) := fun _ _ _ h _ => by cases h; rfl
theorem drillOn (tag : Byte) (args : List Byte) : Statement (Instr.drillOn tag args) := by
  intro t c a h hw
  cases h
  have hn : drillIsOff args = false := by simpa [WellFormed] using (Bool.and_eq_true_iff.1 hw).2
  simp [requestOf, hn]
theorem drillOff (tag : Byte) (args : List Byte) : Statement (Instr.drillOff tag args) := by
  intro t c a h hw
  cases h
  have hn : drillIsOff args = true := (Bool.and_eq_true_iff.1 hw).2
  simp [requestOf, hn]
theorem clearEvents (tag : Byte) (args : List Byte) : Statement (Instr.clearEvents tag args) := fun _ _ _ h _ => by cases h; rfl
theorem restartRace (tag : Byte) (args : List Byte) : Statement (Instr.restartRace tag args) := by
  intro t c a h hw
  cases h
  have hn : restartIsAll args = false := by simpa [WellFormed] using (Bool.and_eq_true_iff.1 hw).2
  simp [requestOf, hn]
theorem restartAll (tag : Byte) (args : List Byte) : Statement (Instr.restartAll tag args) := by
  intro t c a h hw
  cases h
  have hn : restartIsAll args = true := (Bool.and_eq_true_iff.1 hw).2
  simp [requestOf, hn]
theorem frameCheckFailed (port : Port) : Statement (Instr.frameCheckFailed port) := fun _ _ _ h _ => by cases h
theorem lengthAbove60 (port : Port) : Statement (Instr.lengthAbove60 port) := fun _ _ _ h _ => by cases h
theorem malformedFrame (port : Port) : Statement (Instr.malformedFrame port) := fun _ _ _ h _ => by cases h

end Sys2Proof.Laws.CommandCode
end

