-- ==== Sys2Proof/Laws/Ticks.lean ====
section
/-! SUPPORT. What a step without a command brings: which events are due, what a tick does at a receive side, and the
order in which the events of one instant are queued (R1, R2, R4, R19; log entries 1, 2 and 6). -/

namespace Sys2Proof.Safety

open Sys2Proof Machine

/-! ### Due events -/

/-- The events of the time-driven list are those that are due. -/
theorem mem_dueEvents (s : State) (c : Instr) : c ∈ dueEvents s ↔ Due s c := by
  have gap : ∀ r : Receiver, gapDue r = true ↔
      (r.asm.state ≠ .hunt ∧ r.current = none ∧ 100 ≤ r.gap ∧ ∀ b rest, r.coming ≠ (0, b) :: rest) := by
    intro r
    have hb : byteStarts r = false ↔ ∀ b rest, r.coming ≠ (0, b) :: rest := by
      unfold byteStarts; split
      · rename_i b rest h; simp [h]
      · rename_i h; simpa using h
    unfold gapDue
    simp only [Bool.and_eq_true, Bool.not_eq_true', hb, decide_eq_true_eq, bne_iff_ne, Option.isNone_iff_eq_none, and_assoc]
    rfl
  have snt : ∀ x : Option Transmission, sent x = true ↔ ∃ f, x = some ⟨f, 0⟩ := by
    intro x
    rcases x with _ | ⟨f, n⟩ <;> simp [sent]
  have all : ∀ e : Entry, e ∈ allEntries := by decide
  have cd : ∀ p, (dueCountdown s p).isSome = true ↔ (s.rstnLow = false ∧ s.session.state = .countdown ∧
      ∃ c, s.session.countdown = some c ∧ c.phase = p ∧ c.remaining = 0) := by
    intro p
    unfold dueCountdown
    cases s.rstnLow <;> cases s.session.state <;> cases s.session.countdown <;> simp [Option.isSome_filter]
  have dp : ∀ e, (duePair s e).isSome = true ↔ (s.rstnLow = false ∧
      ∃ p, s.resolver.pairs.find? (fun q => q.entry == e) = some p ∧ p.deadline ≤ s.clock.now) := by
    intro e
    unfold duePair pairOf
    cases s.rstnLow <;> cases s.resolver.pairs.find? (fun q => q.entry == e) <;> simp [Option.isSome_filter]
  have dd : ∀ e, (dueDrill s e).isSome = true ↔ (s.rstnLow = false ∧
      (s.session.state = .green ∨ s.session.state = .caution ∨ s.session.state = .chequered) ∧
      ∃ d, s.resolver.drills[e] = some d ∧ d.remaining = 0) := by
    intro e
    unfold dueDrill drillSession
    cases s.rstnLow <;> cases s.session.state <;> cases s.resolver.drills[e] <;> simp [Option.isSome_filter]
  have de : ∀ e, (dueExpiry s e).isSome = true ↔ ((ctx s e).state = .running ∧
      ∃ t, (ctx s e).deadline = some (.due t) ∧ t ≤ s.clock.now) := by
    intro e
    unfold dueExpiry
    rcases (ctx s e).deadline with _ | (t | r)
    · simp
    · by_cases h : (ctx s e).state = .running ∧ t ≤ s.clock.now
      · simp [h]
      · simp only [h, if_false]; simpa using h
    · simp
  have hc : heatClockDue s = true ↔ (s.rstnLow = false ∧ s.settings.heat.raceKind = .time ∧ s.session.heatClock = 0 ∧
      (s.session.state = .green ∨ s.session.state = .caution)) := by
    unfold heatClockDue; simp [and_assoc]
  have hg : graceDue s = true ↔ (s.rstnLow = false ∧ s.session.state = .chequered ∧ s.session.grace = some 0) := by
    unfold graceDue; simp [and_assoc]
  have hr : roundDue s = true ↔ ∃ r, s.clock.round = some r ∧ r.closes ≤ s.clock.now := by
    unfold roundDue; cases s.clock.round <;> simp
  have hb : beatDue s = true ↔ s.mgmt.beatTimer = 12500 := by unfold beatDue; simp [Config.beatPeriod]
  have ifs : ∀ (b : Bool) (x : Instr), c ∈ dueIf b x ↔ b = true ∧ c = x := by
    intro b x; unfold dueIf; cases b <;> simp
  unfold dueEvents
  simp only [List.mem_append, ifs, List.mem_map, List.mem_filter, gap, snt, cd, dp, dd, de, hc, hg, hr, hb]
  cases c <;> simp [Due, receiver, all]
  rename_i p; cases p <;> simp

/-- Every event of the time-driven list stands in it once. -/
theorem nodup_dueEvents (s : State) : (dueEvents s).Nodup := by
  have one : ∀ (b : Bool) (x : Instr), (dueIf b x).Sublist [x] := by intro b x; unfold dueIf; cases b <;> simp
  have some_ : ∀ (p : Entry → Bool) (f : Entry → Instr), ((allEntries.filter p).map f).Sublist (allEntries.map f) :=
    fun p f => List.filter_sublist.map f
  have whole : (([.byteGapTimeout .station] ++ [.byteGapTimeout .track] ++ [.stationTransmitDone] ++
      [.trackTransmitDone] ++ [.beaconRoundClose] ++ allEntries.map .pairDeadline ++ allEntries.map .drillCrossingDue ++
      allEntries.map .overdueExpiry ++ [.countdownStepEnd] ++ [.randomHoldEnd] ++ [.heatClockExpiry] ++
      [.graceExpiry] ++ [.beat]) : List Instr).Nodup := by decide +kernel
  refine List.Nodup.sublist ?_ whole
  unfold dueEvents
  exact ((((((((((((one _ _).append (one _ _)).append (one _ _)).append (one _ _)).append (one _ _)).append
    (some_ _ _)).append (some_ _ _)).append (some_ _ _)).append (one _ _)).append (one _ _)).append (one _ _)).append
    (one _ _)).append (one _ _)

/-! ### A tick at a receive side -/

/-- A tick carries a port's byte, or the idle link, as the wire does (R1, R2, R4, R19). -/
theorem carried_tick (port : Port) (low : Bool) (now : Ticks) (r : Receiver) :
    Carried port low now r (r.tick port low now).1 (r.tick port low now).2 := by
  have ends : ∀ (q : Receiver) (v : Byte) (start : Ticks), q.asm = r.asm → q.gap = r.gap →
      ByteEnds port low r (byteEnds port low q v start).1 (byteEnds port low q v start).2 v start q.coming := by
    intro q v start ha _
    unfold ByteEnds byteEnds
    cases low <;> simp [ha]
  constructor
  · intro x hx hl
    have : r.tick port low now = byteEnds port low r x.value x.start := by
      unfold Receiver.tick byteGoesOn; rw [hx]; dsimp only; rw [if_pos (by omega)]
    rw [this]; exact ends r _ _ rfl rfl
  · intro x hx hl
    unfold Receiver.tick byteGoesOn; rw [hx]; dsimp only; rw [if_neg (by omega)]; exact ⟨rfl, rfl⟩
  · intro v rest hn hc hp
    have : r.tick port low now = byteEnds port low { r with coming := rest } v now := by
      unfold Receiver.tick byteGoesOn; rw [hn, hc, hp]; rfl
    rw [this]; exact ends { r with coming := rest } _ _ rfl rfl
  · intro v rest hn hc hp
    unfold Receiver.tick byteGoesOn; rw [hn, hc, hp]; exact ⟨rfl, rfl⟩
  · intro n v rest hn hc
    unfold Receiver.tick; rw [hn, hc]; exact ⟨rfl, rfl⟩
  · intro hn hc
    unfold Receiver.tick; rw [hn, hc]; exact ⟨rfl, rfl⟩

/-! ### The queue of commands -/

/-- A command is put in somewhere and nothing is lost. -/
theorem perm_insertAt (c : Instr) : ∀ (n : Nat) (l : List Instr), (insertAt c n l).Perm (c :: l)
  | 0, _ => .rfl
  | _ + 1, [] => .rfl
  | n + 1, d :: l => ((perm_insertAt c n l).cons d).trans (List.Perm.swap c d l)

/-- The events of one instant are queued once each, in whatever order (log entry 2). -/
theorem perm_arrange : ∀ (l : List Instr) (n : Nat), (arrange l n).1.Perm l
  | [], _ => .rfl
  | [_], _ => .rfl
  | c :: d :: rest, n => (perm_insertAt _ _ _).trans ((perm_arrange (d :: rest) n).cons c)

/-- The transmitters' choices leave the receive sides alone. -/
theorem settle_receivers (s : State) :
    (settle s).link.stationRx = s.link.stationRx ∧ (settle s).link.trackRx = s.link.trackRx := by
  have station : ∀ u, (chooseStation u).link.stationRx = u.link.stationRx ∧
      (chooseStation u).link.trackRx = u.link.trackRx := by
    intro u; unfold chooseStation; split
    · exact ⟨rfl, rfl⟩
    · split <;> exact ⟨rfl, rfl⟩
  have track : ∀ u, (chooseTrack u).link.stationRx = u.link.stationRx ∧
      (chooseTrack u).link.trackRx = u.link.trackRx := by
    intro u; unfold chooseTrack; (repeat' split) <;> exact ⟨rfl, rfl⟩
  exact ⟨(station _).1.trans (track s).1, (station _).2.trans (track s).2⟩

end Sys2Proof.Safety
end

