-- ==== Sys2Proof/Tests/Slice0.lean ====
section
/-! SUPPORT. Checks of the model against words, tables and worked cases of the spec: every expected value is the
spec's or worked out by hand from a rule it gives. The witnesses of the statements stand in Tests/Witnesses.lean. -/

namespace Sys2Proof.Tests

-- One theorem after another: the kernel runs of many at once would need too many threads.
set_option Elab.async false

open Sys2Proof Machine

/-! ### Small states -/

/-- What a command leaves. -/
def after (c : Instr) (s : State) : State :=
  match exec c s with
  | .next t => t
  | .fault _ => s
  | .refused _ => s

/-- The state after reset, with the session in a state. -/
def inState (st : SessionState) : State := { State.reset with session := { State.reset.session with state := st } }

/-- A car's context is given. -/
def withCar (e : Entry) (c : Context) (s : State) : State := { s with contexts := s.contexts.set e c }

/-- An entry is mapped to a controller with a car code. -/
def mapped (e : Entry) (controller : Nat) (code : Byte) (s : State) : State :=
  { s with throttle := { s.throttle with
    entries := s.throttle.entries.set e { defaultEntryRow with controller := some controller, code := code } } }

/-- A gate is given. -/
def withGate (g : GateId) (slot : GateSlot) (s : State) : State :=
  { s with clock := { s.clock with gates := s.clock.gates.set g slot } }

/-- A PRIMARY LINE gate in lane 1, ALIGNED at count 0 and race time 10,000,000. -/
def lineGate (j : Line) : GateSlot := ⟨.line, j, 1, .primary, 0, .aligned ⟨10000000, 0, 10000000⟩, 0, 0⟩

/-- LINES is given, with the session's own copy. -/
def withLines (n : Nat) (s : State) : State :=
  { s with
    settings := { s.settings with timing := { s.settings.timing with lines := n } }
    session := { s.session with heatLines := n } }

/-- The race clock is given. -/
def at_ (time : Ticks) (s : State) : State := { s with clock := { s.clock with now := time } }

/-- The records waiting behind the one in transmission, with that one's frame. -/
def firstRecord (s : State) : Option (List Byte) := s.link.stationTx.map fun x => x.frame.body

/-! ### WellFormed refuses what a link cannot deliver -/

theorem test_gate_0_is_ill_formed : WellFormed (.xingReceived 0 5 0 0) = false := by decide
theorem test_gate_33_is_ill_formed : WellFormed (.marshalButton 33 0) = false := by decide
theorem test_reply_of_gate_0_is_ill_formed : WellFormed (.beaconReply 0 0 0 0) = false := by decide
theorem test_code_16_is_ill_formed : WellFormed (.xingReceived 1 16 0 0) = false := by decide
theorem test_late_arrival_is_ill_formed : WellFormed (.xingReceived 1 15 0 4294967296) = false := by decide
theorem test_empty_drive_is_ill_formed : WellFormed (.driveFrame [] 0) = false := by decide
theorem test_drive_of_17_is_ill_formed : WellFormed (.driveFrame (List.replicate 17 ⟨1, 0, 0⟩) 0) = false := by decide
theorem test_long_body_is_ill_formed : WellFormed (.stationPassThrough 0x40 (List.replicate 61 0)) = false := by decide
theorem test_xing_does_not_pass : WellFormed (.trackPassThrough 0x11 []) = false := by decide
theorem test_mgmt_does_not_pass : WellFormed (.stationPassThrough 0x31 []) = false := by decide
theorem test_drive_is_not_discarded : WellFormed (.stationBeacLampDiscard 0x21 []) = false := by decide
theorem test_known_code_is_not_unknown : WellFormed (.unknownRequest 1 0x27 []) = false := by decide
theorem test_long_arguments_are_ill_formed : WellFormed (.status 1 (List.replicate 59 0)) = false := by decide
theorem test_counted_issue_is_not_direct : WellFormed (.issueDirect 1 [1, 0, 0]) = false := by decide
theorem test_direct_issue_is_not_counted : WellFormed (.issueCounted 1 [1, 0, 1]) = false := by decide
theorem test_drill_on_is_not_off : WellFormed (.drillOff 1 [1]) = false := by decide
theorem test_drill_off_is_not_on : WellFormed (.drillOn 1 [0]) = false := by decide
theorem test_race_is_not_all : WellFormed (.restartAll 1 [0]) = false := by decide
theorem test_all_is_not_race : WellFormed (.restartRace 1 [1]) = false := by decide

/-! ### Frames (R2, R3, R6, R7) -/

/-- The register of R3 preset to ones, over no byte. -/
theorem test_check_of_nothing : crc16 [] = 0xFFFF := by decide
/-- The published check value of this generator, preset and bit order over the digits 1 to 9 (from outside the
spec). -/
theorem test_check_of_digits : crc16 [0x31, 0x32, 0x33, 0x34, 0x35, 0x36, 0x37, 0x38, 0x39] = 0x29B1 := by decide +kernel
/-- XING: type 0x11; gate id, car code, gate count high byte first (R5, R6). -/
theorem test_xing_decodes : commandOf .track 9 0x11 [32, 31, 0x01, 0x02, 0x03] = .xingReceived 32 31 0x010203 9 := by decide
/-- GSTAT kind 1: gate id, kind, beacon number, latched count (R6). -/
theorem test_reply_decodes : commandOf .track 9 0x12 [1, 1, 7, 0xFF, 0x00, 0x80] = .beaconReply 1 7 0xFF0080 9 := by decide
/-- GSTAT kind 2 is a marshal's button (R6). -/
theorem test_button_decodes : commandOf .track 9 0x12 [32, 2] = .marshalButton 32 9 := by decide
/-- DRIVE: the count, then three bytes an entry (R6). -/
theorem test_drive_decodes : commandOf .station 9 0x21 [2, 2, 200, 1, 5, 30, 0] =
    .driveFrame [⟨2, 200, 1⟩, ⟨5, 30, 0⟩] 9 := by decide
/-- A DRIVE body whose count is not that of its entries is malformed (R6). -/
theorem test_short_drive_is_malformed : commandOf .station 9 0x21 [3, 2, 200, 1, 5, 30, 0] = .malformedFrame .station := by decide
/-- MGMT: tag, request code, arguments (R7); 0x27 is STATUS. -/
theorem test_status_decodes : commandOf .station 9 0x31 [0x55, 0x27] = .status 0x55 [] := by decide
/-- A type the part does not consume passes upwards (R9). -/
theorem test_unknown_track_type_passes : commandOf .track 9 0x40 [1] = .trackPassThrough 0x40 [1] := by decide
/-- A BEAC frame from the station is discarded (R10). -/
theorem test_beac_is_discarded : commandOf .station 9 0x22 [1] = .stationBeacLampDiscard 0x22 [1] := by decide

/-! ### The race clock and the gates: the worked cases of sections 2.4 and 2.5 -/

/-- The gate of the worked cases: ref_time 4,500,000, ref_count 16,700,000, hop delay 12. -/
def trimGate (al : Machine.Alignment) : GateSlot := ⟨.line, 0, 1, .primary, 12, al, 0, 0⟩

/-- An open round that went out at 5,000,000. -/
def inRound : State :=
  let s := withGate 0 (trimGate (.aligned ⟨4500000, 16700000, 4500000⟩)) (at_ 5000100 State.reset)
  { s with clock := { s.clock with round := some ⟨7, 5000000, 5005000, []⟩ } }

theorem test_trim_within_limit : gate (after (.beaconReply 1 7 422804 5000100) inRound) 0 =
    trimGate (.aligned ⟨5000012, 422804, 5000000⟩) := by decide +kernel
theorem test_trim_clamped : gate (after (.beaconReply 1 7 422831 5000100) inRound) 0 =
    { trimGate (.aligned ⟨5000027, 422831, 5000000⟩) with strikes := 1 } := by decide +kernel
/-- GATE is record kind 8: subject, race time, condition TRIM_CLAMPED 1, the error -35 present. -/
theorem test_trim_clamped_record : firstRecord (after (.beaconReply 1 7 422831 5000100) inRound) =
    some ([8, 1] ++ u32 5000100 ++ [1, 1, 0xFF, 0xFF, 0xFF, 0xDD]) := by decide +kernel
theorem test_convert_wrapped : convert State.reset (trimGate (.aligned ⟨4500000, 16700000, 0⟩)) 120000 4697900 =
    (4697216, false) := by decide
theorem test_convert_stale : convert State.reset (trimGate (.stale ⟨4500000, 16700000, 0⟩)) 120000 4697900 =
    (4697216, true) := by decide
theorem test_convert_behind : convert State.reset (trimGate (.aligned ⟨4500000, 16700000, 0⟩)) 16690000 4491500 =
    (4490000, false) := by decide
theorem test_convert_clamped : convert State.reset (trimGate (.aligned ⟨4500000, 16700000, 0⟩)) 200000 4777100 =
    (4777100, true) := by decide
theorem test_convert_unaligned : convert State.reset (trimGate .unaligned) 0 5300040 = (5300028, true) := by decide

/-! ### The LFSR, drills and the start (section 3.7, R66, section 6.3) -/

theorem test_lfsr_draws : lfsrStep 0xACE1 = 0xE270 ∧ lfsrStep 0xE270 = 0x7138 ∧ lfsrStep 0x7138 = 0x389C := by decide
/-- The worked scatter drill: with LINES 2, q is 250,987 and line 0 takes 250,988. -/
theorem test_scatter_shares : drillShare 2 501975 1 = 250987 ∧ drillShare 2 501975 0 = 250988 := by decide

/-- One lane, one aligned line-0 gate, armed. -/
def armed : State :=
  let s := withGate 0 (lineGate 0) (mapped 0 1 5 (inState .armed))
  { s with settings := { s.settings with timing := { s.settings.timing with lanesEnabled := 1 } } }

/-- The worked countdown: r is 57,968 and the hold 88,452 ticks. -/
theorem test_start_hold : (after (.start 1 []) armed).session.countdown = some ⟨.steps, 5, 88452, 100000⟩ := by decide +kernel
theorem test_start_unaligned : (after (.start 1 []) (withGate 0 { lineGate 0 with alignment := .unaligned } armed)).session.state =
    .armed := by decide +kernel
theorem test_arm_sets_grid : (ctx (after (.arm 1 []) { armed with session := State.reset.session }) 0).state = .grid := by decide +kernel
theorem test_last_step_begins_hold :
    (after .countdownStepEnd { armed with session := { armed.session with
      state := .countdown, countdown := some ⟨.steps, 1, 88452, 0⟩ } }).session.countdown =
    some ⟨.hold, 1, 88452, 88452⟩ := by decide +kernel
theorem test_hold_ends_green :
    (after .randomHoldEnd (at_ 1588452 { armed with session := { armed.session with
      state := .countdown, countdown := some ⟨.hold, 1, 88452, 0⟩ } })).session.greenTime = some 1588452 := by decide +kernel

/-! ### Laps: the worked case of section 4.4 -/

/-- Three lines, entry 3 mapped with code 7 and a lap begun at line 0 at 10,000,000 with 4 counted laps. -/
def lapper : Context := { freshContext .running 0 with
  laps := 4, expected := 1, last := some ⟨10000000, 0, 1, 1, .line⟩, lapStart := some 10000000, progress := 12
  progressTime := some 10000000 }

/-- The part as that car runs. -/
def lapping (c : Context) (time : Ticks) : State :=
  let s := withLines 3 (withGate 0 (lineGate 0) (withGate 1 (lineGate 1) (withGate 2 (lineGate 2)
    (mapped 2 4 7 (at_ time (inState .green))))))
  withCar 2 c { s with order := ⟨[2], none⟩ }

theorem test_line_1_progress : (ctx (after (.xingReceived 2 7 400000 10400000) (lapping lapper 10400000)) 2).progress =
    13 := by decide +kernel
/-- SECTOR is record kind 2: line 1, lane 1, split 400,000, spanning 1. -/
theorem test_line_1_sector : firstRecord (after (.xingReceived 2 7 400000 10400000) (lapping lapper 10400000)) =
    some ([2, 3] ++ u32 10400000 ++ [1, 1, 1] ++ u32 400000 ++ [1]) := by decide +kernel
/-- The car of the worked case on its next lap, its line 1 not seen. -/
def losing : Context := { lapper with
  laps := 5, lapStart := some 11230000, last := some ⟨11230000, 0, 1, 1, .line⟩, progress := 15
  progressTime := some 11230000 }

/-- And once line 2 has been crossed with line 1 missed. -/
def lost : Context := { losing with
  expected := 0, missed := 1, last := some ⟨12080000, 2, 1, 3, .line⟩, progress := 17, progressTime := some 12080000 }

/-- Line 2 of the next lap with line 1 lost: one miss, P 17. -/
theorem test_missed_line :
    (fun c : Context => (c.missed, c.progress)) (ctx (after (.xingReceived 3 7 2080000 12080000)
      (lapping losing 12080000)) 2) = (1, 17) := by decide +kernel
/-- The lap that line 1 then reveals as lost is not counted: P falls to 15 and rises to 16. -/
theorem test_lost_lap :
    (fun c : Context => (c.laps, c.progress, c.lapStart)) (ctx (after (.xingReceived 2 7 2900000 12900000)
      (lapping lost 12900000)) 2) = (5, 16, none) := by decide +kernel

/-! ### The running order and the classification (sections 5.3, 5.4, 5.6) -/

/-- A car as the worked classification gives it. -/
def classed (st : CarState) (laps deductions p : Nat) (time : Ticks) (seconds : Nat) (dq : Bool) : Context :=
  { freshContext st 0 with
    laps := laps, deductions := deductions, progress := p, progressTime := some time, penaltySeconds := seconds
    disqualified := dq }

/-- The worked classification at the close: 6, 3, 11, 9, 4, 14. -/
theorem test_classification :
    let s := withCar 2 (classed .finished 10 0 20 60000000 5 false) <|
      withCar 5 (classed .finished 10 0 20 60300000 0 false) <|
      withCar 8 (classed .finished 10 1 20 61000000 0 false) <|
      withCar 10 (classed .running 9 0 19 62100000 0 false) <|
      withCar 3 (classed .retired 7 0 15 44000000 10 false) <|
      withCar 13 (classed .retired 8 0 16 48000000 0 true) (withLines 2 (inState .closed))
    classification { s with order := ⟨[2, 5, 8, 10, 3, 13], none⟩ } = [5, 2, 10, 8, 3, 13] := by decide +kernel

/-- The worked gap: 460,000 ticks behind entry 10 at P 27, no lap down. -/
theorem test_gap :
    let s := withCar 9 { classed .running 9 0 29 41340000 0 false with
        ring := [(26, 40100000), (27, 40520000), (28, 40930000), (29, 41340000)] } <|
      withCar 3 (classed .running 9 0 27 40980000 0 false) (withLines 3 (inState .green))
    standing { s with order := ⟨[9, 3], none⟩ } 3 = ⟨2, some 460000, 0⟩ := by decide +kernel

/-- The worked passes: entry 1 reaches P 20 past entry 5 under the snapshot 2, 5, 1, 8. -/
theorem test_caution_pass :
    let s := withCar 1 { classed .inPit 10 0 20 29800000 0 false with last := none } <|
      withCar 4 (classed .running 9 0 19 29700000 0 false) <|
      withCar 0 { classed .running 9 0 19 29750000 0 false with last := some ⟨29750000, 1, 1, 2, .line⟩ } <|
      withCar 7 (classed .running 9 0 18 29600000 0 false) <|
      withLines 2 (withGate 0 (lineGate 0) (mapped 0 1 5 (at_ 30150000 (inState .caution))))
    (ctx (after (.xingReceived 1 5 3372784 30150000)
      { s with order := ⟨[1, 4, 0, 7], some [1, 4, 0, 7]⟩ }) 0).charged = [4] := by decide +kernel

/-! ### Penalties and pit service (sections 7.4, 7.6, 8.3) -/

/-- The full queue of the worked case: entry 8's fifth drive-through is converted, 20 s become 35 s. -/
theorem test_conversion :
    let o : Owed := ⟨.cautionPass, .driveThrough, 0, 9, 12, 15, false, false⟩
    let c : Context := { freshContext .running 0 with laps := 11, owed := [o, o, o, o], penaltySeconds := 20 }
    (fun x : Context => (x.penaltySeconds, x.owed.length))
      (ctx (after (.issueCounted 1 [8, 1, 0]) (withCar 7 c (inState .green))) 7) = (35, 4) := by decide +kernel

/-- The jump start of the worked case owes a STOP_GO of 5 s, to be served by lap 3. -/
theorem test_jump_start_owes :
    (ctx (after (.issueCounted 1 [3, 0, 0]) (withCar 2 (freshContext .grid 0) (inState .green))) 2).owed =
    [⟨.jumpStart, .stopGo, 5, 0, 3, 10, true, false⟩] := by decide +kernel

/-- The worked call after the flag: amount 0 of a TIME_ADD becomes 1 s, and the reply is ADJUSTED. -/
theorem test_call_after_flag :
    let t := after (.issueDirect 1 [2, 2, 1, 1, 0, 5, 10, 0]) (withCar 6 (freshContext .running 0)
      (withCar 1 (freshContext .finished 0) (inState .chequered)))
    (ctx t 1).penaltySeconds = 1 ∧ t.link.replies = [⟨1, .adjusted, 0, [1, 0, 0]⟩] := by decide +kernel

/-- A car in the pit serving the enforced stop-go of section 8.3. -/
def serving (ticks : Ticks) (mark : Ticks) (hold : Bool) : State :=
  let s := withCar 2 { freshContext .inPit 0 with
    owed := [⟨.jumpStart, .stopGo, 5, 0, 3, 10, true, true⟩], transit := some ⟨20000000, ticks, true⟩ }
    (mapped 2 4 7 (inState .green))
  { s with pit := { marks := s.pit.marks.set 2 (some mark), holds := s.pit.holds.set 2 hold } }

/-- The first released entry at 20,100,000 adds 5,000 ticks and starts the hold. -/
theorem test_first_release :
    let t := after (.driveFrame [⟨4, 0, 0⟩] 20100000) (serving 0 20095000 false)
    stationaryOf (ctx t 2) = 5000 ∧ t.pit.holds[(2 : Entry)] = true := by decide +kernel
/-- The squeeze at 20,305,000 adds nothing, and the hold keeps the car still. -/
theorem test_squeeze_is_held :
    let t := after (.driveFrame [⟨4, 40, 0⟩] 20305000) (serving 205000 20300000 true)
    stationaryOf (ctx t 2) = 205000 ∧ (t.link.trackTx.map fun x => x.frame.body) = some [1, 7, 0, 0] := by decide +kernel
/-- The entry at 20,600,000 reaches 500,000 ticks and ends the hold. -/
theorem test_hold_is_served :
    let t := after (.driveFrame [⟨4, 0, 0⟩] 20600000) (serving 495000 20595000 true)
    stationaryOf (ctx t 2) = 500000 ∧ t.pit.holds[(2 : Entry)] = false := by decide +kernel

/-! ### The throttle gate: the worked frame under caution (section 9.7) -/

/-- The cars and rows of that frame. -/
def underCaution : State :=
  let s := mapped 2 9 11 (mapped 5 7 9 (mapped 0 2 4 (inState .caution)))
  let s := { s with throttle := { s.throttle with
    entries := (s.throttle.entries.set 0 { entryRow s 0 with weight := 3 }).set 5 { entryRow s 5 with weight := 2 } } }
  let s := withCar 0 { freshContext .running 5950 with fuelState := .low } (withCar 5 (freshContext .inPit 10000)
    (withCar 2 { freshContext .running 0 with fuelState := .out } s))
  { s with settings := { s.settings with fuel := ⟨50000, 6000, 12, 100⟩ } }

theorem test_frame_under_caution :
    let t := after (.driveFrame [⟨2, 200, 1⟩, ⟨5, 30, 0⟩, ⟨7, 0, 0⟩, ⟨9, 50, 2⟩] 0) underCaution
    t.link.trackTx = some ⟨⟨0x21, [3, 4, 20, 0, 9, 0, 0, 11, 12, 0]⟩, 30⟩ ∧
    (ctx t 0).fuel = 5890 ∧ (ctx t 5).fuel = 10100 ∧ (ctx t 2).fuel = 0 := by decide +kernel

/-! ### Requests (section 10.2, R25, R130, R190, R194) -/

/-- The worked timing write in a heat: 25,000, 20,000 and 63 are applied. -/
theorem test_timing_in_a_heat :
    let args := u32 20000 ++ u32 20 ++ u32 30000 ++ u32 50000 ++ u32 200 ++ [1, 3, 1, 1, 8, 70, 1, 24, 15, 1]
    (fun x : TimingSettings => (x.beaconIvl, x.lagMax, x.cautionCap, x.mirror))
      (after (.setTiming 1 args) (withLines 3 (inState .green))).settings.timing = (25000, 20000, 63, true) := by decide +kernel
theorem test_lines_stay_in_a_heat :
    let args := u32 20000 ++ u32 20 ++ u32 30000 ++ u32 50000 ++ u32 200 ++ [1, 4, 1, 1, 8, 70, 1, 24, 15, 1]
    (after (.setTiming 1 args) (withLines 3 (inState .green))).settings = (withLines 3 (inState .green)).settings := by decide +kernel
/-- STATUS of the part after reset: 16 bytes of body behind tag, result and summary. -/
theorem test_status_after_reset : (after (.status 9 []) State.reset).link.stationTx.map (fun x => x.frame.body) =
    some [9, 0, 0, 0, 0, 0, 0, 0, 0, 0, 0, 0, 0, 0, 0, 0, 0, 0, 0] := by decide +kernel
theorem test_unknown_request : (after (.unknownRequest 9 0x77 []) State.reset).link.stationTx.map (fun x => x.frame.body) =
    some [9, 8, 0] := by decide +kernel
theorem test_pit_secondary_is_bad : (after (.writeGate 9 [1, 2, 0, 1, 1, 0]) State.reset).link.stationTx.map
    (fun x => x.frame.body) = some [9, 2, 0] := by decide +kernel
theorem test_status_waits_for_reply : (after .stationTransmitDone { State.reset with link := { State.reset.link with
    stationTx := some ⟨⟨0x33, []⟩, 0⟩, replies := [⟨9, .ok, 0, []⟩] } }).link.replies = [] := by decide +kernel

/-! ### Resets (section 6.12, R195) -/

/-- The worked reset in a race: the part goes to HELD from GREEN with its heat clock kept. -/
theorem test_release_holds_the_heat :
    let s := after .rstnRelease (at_ 20050000 { inState .green with
      rstnLow := true, session := { (inState .green).session with heatClock := 4000000, periods := [⟨20000000, none⟩] } })
    (s.session.state, s.session.heldFrom, s.session.heatClock, s.session.periods) =
      (.held, some .green, 4000000, [⟨20000000, none⟩]) := by decide +kernel
theorem test_fall_opens_a_period : (after .rstnFall (at_ 20000000 (inState .green))).session.periods =
    [⟨20000000, none⟩] := by decide +kernel

/-! ### A step -/

/-- With nothing due a step without a command is one tick (log entry 1). -/
theorem test_tick_moves_the_clock : (match step State.reset with | .next t => t.clock.now | _ => 0) = 1 := by decide +kernel

end Sys2Proof.Tests
end

