-- ==== Sys2Proof/Tests/Witnesses.lean ====
section
/-! SUPPORT. For each statement of Certificates/Slice0/Obligations.lean that has hypotheses, concrete states and
operands that meet them, clause by clause. ResetHasInvariants, ResetValues, PowerOnResetResult and
ClassificationIsOrdered have none. -/

namespace Sys2Proof.Tests

-- One theorem after another: the kernel runs of many at once would need too many threads.
set_option Elab.async false

open Sys2Proof Machine Safety

/-! ### Small states -/

/-- RSTN is low. -/
def low (s : State) : State := { s with rstnLow := true }

/-- The state after reset, with another link unit. -/
def linked (f : Link → Link) : State := { State.reset with link := f State.reset.link }

/-- The session is given. -/
def withSession (f : Session → Session) (s : State) : State := { s with session := f s.session }

/-- The clock unit is given. -/
def withClock (f : Clock → Clock) (s : State) : State := { s with clock := f s.clock }

/-- Four replies wait. -/
def replies4 (s : State) : State := { s with link := { s.link with replies := List.replicate 4 ⟨0, .ok, 0, []⟩ } }

/-- The timing settings are given. -/
def withTiming (f : TimingSettings → TimingSettings) (s : State) : State :=
  { s with settings := { s.settings with timing := f s.settings.timing } }

/-- A row of the penalty rule table is given. -/
def withRule (k : IncidentKind) (r : Rule) (s : State) : State :=
  { s with penalty := { s.penalty with rules := s.penalty.rules.set (kindIndex k) r } }

/-- A rule that flags a car at once. -/
def flagRule : Rule := ⟨some 0, .blackFlag, 0, 3, 10, true, true⟩

/-- An owed entry. -/
def owes (k : Sanction) (service : Bool) : Owed := ⟨.jumpStart, k, 5, 0, 3, 10, true, service⟩

/-! ### The machine and the frames -/

theorem witness_StepTakesFrontCommand : { State.reset with pending := [.beat] }.pending = .beat :: [] := by rfl
theorem witness_EveryCommandCompletes : requestCode .graceExpiry = none ∧
    Instr.graceExpiry ∉ [.powerOnReset, .rstnFall, .rstnRelease, .stationTransmitDone] := by decide
/-- A tick from reset, and the ticks that bring a beacon boundary, the clock limit and the clock's last value. -/
theorem witness_StepWithoutCommand_ticks :
    ∀ now ∈ [0, 99999, 4199999999, 4294967294, 4294967295], (at_ now State.reset).pending = [] ∧
      ∀ c, ¬Due (settle (at_ now State.reset)) c := by
  have h : ∀ now ∈ [0, 99999, 4199999999, 4294967294, 4294967295], dueEvents (settle (at_ now State.reset)) = [] := by
    decide +kernel
  intro now hn
  refine ⟨rfl, fun c k => ?_⟩
  rw [← mem_dueEvents, h now hn] at k
  cases k
theorem witness_StepWithoutCommand_waits :
    let s : State := { State.reset with mgmt := { State.reset.mgmt with beatTimer := 12500 } }
    s.pending = [] ∧ ∃ c, Due (settle s) c :=
  ⟨rfl, .beat, (mem_dueEvents _ _).1 (by decide +kernel)⟩
theorem witness_FrameDecodesToItsCommand :
    let i : Instr := .xingReceived 32 31 0xFFFFFF 4294967295
    WellFormed i = true ∧ frameOf i = some (.track, 0x11, [32, 31, 0xFF, 0xFF, 0xFF]) ∧
    arrivalOf i = some 4294967295 := by decide
theorem witness_FrameDecodesToItsCommand_drive :
    let i : Instr := .driveFrame (List.replicate 16 ⟨16, 255, 255⟩) 0
    WellFormed i = true ∧ (frameOf i).isSome = true ∧ arrivalOf i = some 0 := by decide
theorem witness_WireIsReceived :
    idleAssembler.state = .hunt ∧ (⟨0x33, List.replicate 60 0xA5⟩ : Frame).body.length ≤ 60 := by decide
theorem witness_DamagedFramesAreBadFrames :
    idleAssembler.state = .hunt ∧ (⟨0x33, []⟩ : Frame).body.length ≤ 60 ∧
    (0 : Byte) ++ (0 : Byte) ≠ (⟨0x33, []⟩ : Frame).check ∧ 60 < (61 : Byte).toNat := by decide +kernel

/-- Bodies at the edges of what a block admits: DRIVE of 0, 16 and 17 entries, MGMT of 1 and 2 bytes, XING with gates
0, 32 and 33 and car codes 15, 16 and 31, GSTAT of its two kinds and another. -/
theorem witness_DamagedFramesAreBadFrames_bodies :
    let drive (n : Nat) (l : Nat) : Frame := ⟨0x21, BitVec.ofNat 8 n :: List.replicate l 1⟩
    let xing (g code : Byte) : Frame := ⟨0x11, [g, code, 0, 0, 0]⟩
    (∀ f ∈ [drive 0 0, drive 17 51, drive 16 47, ⟨0x31, [7]⟩],
      commandOf .station 9 f.ftype f.body = .malformedFrame .station) ∧
    (∀ f ∈ [drive 1 3, drive 16 48, ⟨0x31, [7, 0x27]⟩],
      commandOf .station 9 f.ftype f.body ≠ .malformedFrame .station) ∧
    (∀ f ∈ [xing 0 15, xing 33 15, xing 1 16, ⟨0x11, [1, 15, 0, 0]⟩, ⟨0x12, [1, 3]⟩, ⟨0x12, [1, 2, 0]⟩, ⟨0x12, [33, 2]⟩],
      commandOf .track 9 f.ftype f.body = .malformedFrame .track) ∧
    (∀ f ∈ [xing 32 15, xing 1 31, ⟨0x12, [1, 1, 7, 0, 0, 0]⟩, ⟨0x12, [32, 2]⟩],
      commandOf .track 9 f.ftype f.body ≠ .malformedFrame .track) := by decide +kernel

/-! ### Invariants -/

/-- Every queue and count of the link unit at its bound. -/
def full : State := { linked fun l => { l with
    up := List.replicate 8 ⟨0x40, []⟩, down := List.replicate 8 ⟨0x40, []⟩, drive := List.replicate 2 []
    replies := List.replicate 4 ⟨0, .ok, 0, []⟩, records := List.replicate 64 ⟨0, 0, .button 1⟩
    stationBad := 255, trackBad := 255 } with pending := [.beat] }

/-- Line 1 of lane 1 has two gates. -/
def twoGates : State := setGate 4 ⟨.line, 1, 1, .secondary, 0, .unaligned, 0, 0⟩
  (setGate 1 ⟨.line, 1, 1, .primary, 255, .unaligned, 0, 0⟩ State.reset)

/-- And entry 3 has a pair from the one of them at its deadline. -/
def coupled : State := { twoGates with
  session := { twoGates.session with state := .green }
  resolver := { twoGates.resolver with pairs := [⟨2, 7, 1, 1, 1, 0, 0, false, false, 0⟩] }, pending := [.pairDeadline 2] }

theorem coupled_gates : GatesShape coupled :=
  gatesShape_of (s := twoGates) (fun g => gateKept_refl _) <|
    gatesShape_write (by decide) (by decide +kernel) (gatesShape_write (by decide) (by decide +kernel) gatesShape_reset)

theorem witness_StepKeepsBounded : Bounded full ∧ (∃ t, step full = .next t) ∧
    GatesShape coupled ∧ PairsShape coupled ∧ ∃ t, step coupled = .next t :=
  ⟨⟨by decide, by decide, by decide, by decide, by decide, by decide, by decide⟩, ⟨_, rfl⟩, coupled_gates,
   ⟨by decide, by decide, by decide, fun _ _ p h => by
     rw [List.mem_singleton.1 h]; exact isPaired_iff.1 (by decide +kernel)⟩, _, rfl⟩
theorem witness_StepKeepsInRange :
    let s := { withClock (fun c => { c with balance := 8, now := 4294967295 }) State.reset with
      pending := [.beaconBoundary] }
    (InRange s ∧ ∃ t, step s = .next t) ∧ (GatesShape coupled ∧ ∃ t, step coupled = .next t) ∧
    TablesShape { State.reset with pending := [.writeEntry 1 (u8 16 ++ u8 16 ++ [15] ++ u8 255 ++ [3] ++ u32 0 ++ u32 0 ++ u8 6)] } :=
  ⟨⟨⟨by decide, by decide, by decide, by decide⟩, _, rfl⟩, ⟨coupled_gates, _, rfl⟩, tablesShape_same (k := tablesShape_reset)⟩
theorem witness_StepKeepsSessionShape :
    let s := { withSession (fun x => { x with heldFrom := some .chequered }) (inState .held) with pending := [.beat] }
    SessionShape s ∧ ∃ t, step s = .next t :=
  ⟨⟨by decide, (by intro st h; cases h; decide), by decide, (by intro c h; cases h), by decide⟩, _, rfl⟩
theorem witness_StepKeepsPeriodsShape :
    let s := { withSession (fun x => { x with periods := List.replicate 31 ⟨0, some 0⟩ ++ [⟨5, none⟩] }) State.reset with
      pending := [.rstnFall] }
    PeriodsShape s ∧ ∃ t, step s = .next t :=
  ⟨⟨by decide, by decide⟩, _, rfl⟩

/-- A car whose owed queue is full, its head in service, its totals at their bounds. -/
def debtor : Context := { freshContext .inPit 0 with
  owed := [owes .stopGo true, owes .driveThrough false, owes .stopGo false, owes .stopGo false]
  transit := some ⟨0, 0, true⟩, penaltySeconds := 65535, deductions := 255 }

/-- The car's totals, counts, laps and ring at their bounds too. -/
def laden : Context := { debtor with
  laps := 9999, counts := Vector.replicate 7 255, ring := List.replicate 10 (0, 0), fuel := 0 }

theorem laden_shape (c : Context) (h : c = laden ∨ c = unusedContext) : ContextShape 0 c := by
  rcases h with rfl | rfl <;>
    exact ⟨by decide, by decide, by decide, by decide, by decide, (by intro k; cases k <;> decide), by decide, by decide,
      by decide, by decide⟩

/-- Two running cars, the one ahead by its progress, and a grid car behind them. -/
def field : State :=
  let s := withCar 4 { freshContext .running 0 with progress := 3, progressTime := some 700 } <|
    withCar 9 { freshContext .running 0 with progress := 3, progressTime := some 600 } <|
    withCar 0 (freshContext .grid 0) (inState .green)
  { s with order := ⟨[9, 4, 0], none⟩, pending := [.retire 1 [10]] }

theorem witness_StepKeepsContextsShape :
    let s := { withCar 15 laden (inState .green) with pending := [.beat] }
    (ContextsShape s ∧ ∃ t, step s = .next t) ∧ OrderShape field ∧ ∃ t, step field = .next t := by
  refine ⟨⟨?_, _, rfl⟩, ⟨by decide, by decide +kernel, ?_, by decide +kernel⟩, _, rfl⟩
  · intro e
    have : ctx { withCar 15 laden (inState .green) with pending := [.beat] } e = laden ∨
        ctx { withCar 15 laden (inState .green) with pending := [.beat] } e = unusedContext := by
      revert e; decide +kernel
    exact laden_shape _ this
  · refine List.pairwise_iff_getElem.2 ?_
    have h : ∀ i j : Fin 3, i < j → ranksAhead field ([9, 4, 0] : List Entry)[i] ([9, 4, 0] : List Entry)[j] = true := by
      decide +kernel
    intro i j hi hj hij
    exact (ranksAhead_iff _ _ _).1 (h ⟨i, hi⟩ ⟨j, hj⟩ hij)

/-! ### Resets and ports -/

theorem witness_RstnFallResult :
    (inState .idle).rstnLow = false ∧ (inState .green).rstnLow = false ∧
    (inState .green).session.periods.length < 32 ∧
    (let s := withSession (fun x => { x with periods := List.replicate 32 ⟨0, some 0⟩ }) (inState .chequered)
     s.rstnLow = false ∧ s.session.periods.all (fun p => p.stop.isSome) = true ∧
     s.session.periods = ⟨0, some 0⟩ :: ⟨0, some 0⟩ :: List.replicate 30 ⟨0, some 0⟩ ∧ 32 ≤ s.session.periods.length) ∧
    (linked fun l => { l with trackTx := some ⟨⟨0x22, [1]⟩, 12⟩ }).link.trackTx = some ⟨⟨0x22, [1]⟩, 12⟩ ∧
    (linked fun l => { l with trackTx := some ⟨⟨0x22, [1]⟩, 11⟩ }).link.trackTx = some ⟨⟨0x22, [1]⟩, 11⟩ := by decide +kernel
theorem witness_RstnReleaseResult :
    (low (inState .idle)).rstnLow = true ∧ (low (inState .countdown)).session.state = .countdown ∧
    (low (inState .chequered)).link.records.length < 64 := by decide
theorem witness_BadFramesAreCounted :
    State.reset.rstnLow = false ∧
    (let s := linked fun l => { l with trackRx := { l.trackRx with
       asm := { l.trackRx.asm with state := .check }, gap := 100 } }
     s.rstnLow = false ∧ gapDue (receiver .track s) = true) := by decide
theorem witness_PassedFramesJoinTheirQueue :
    (linked fun l => { l with up := List.replicate 7 ⟨0x40, []⟩ }).rstnLow = false ∧
    (linked fun l => { l with up := List.replicate 7 ⟨0x40, []⟩ }).link.up.length < 8 ∧
    ¬full.link.down.length < 8 ∧ full.rstnLow = false := by decide +kernel
theorem witness_StationTransmitterChooses :
    let s (f : Link → Link) := linked fun l => f { l with stationTx := some ⟨⟨0x33, []⟩, 0⟩ }
    (s id).link.stationTx = some ⟨⟨0x33, []⟩, 0⟩ ∧ (s id).rstnLow = false ∧ (s id).link.records = [] ∧
    (s fun l => { l with records := [⟨0, 0, .button 1⟩] }).link.stationTx = some ⟨⟨0x33, []⟩, 0⟩ ∧
    (s fun l => { l with up := [⟨0x40, []⟩] }).link.stationTx = some ⟨⟨0x33, []⟩, 0⟩ ∧
    (s fun l => { l with replies := [⟨0, .ok, 0, []⟩] }).link.stationTx = some ⟨⟨0x33, []⟩, 0⟩ := by decide
theorem witness_TrackTransmitterChooses :
    let s (f : Link → Link) := linked fun l => f { l with trackTx := some ⟨⟨0x23, [0, 0]⟩, 0⟩ }
    (s id).link.trackTx = some ⟨⟨0x23, [0, 0]⟩, 0⟩ ∧ (s id).rstnLow = false ∧ (s id).clock.round = none ∧
    (withClock (fun c => { c with balance := 8 }) (s id)).clock.balance = 8 ∧
    (withClock (fun c => { c with balance := 7 }) (s id)).clock.balance ≠ 8 ∧
    (withClock (fun c => { c with balance := -8 }) (s id)).link.down = [] ∧
    (s fun l => { l with drive := [[⟨1, 0, 0⟩]] }).link.drive = [[⟨1, 0, 0⟩]] ∧
    (s fun l => { l with lamp := some ⟨.dark, 0⟩ }).link.lamp = some ⟨.dark, 0⟩ ∧
    (s fun l => { l with stationTx := some ⟨⟨0x33, []⟩, 1⟩ }).link.stationTx.isSome = true := by decide

/-! ### The race clock and the gates -/

/-- A gate aligned at race time 1 stands at a beacon boundary. -/
def ageing (al : Machine.Alignment) (now : Ticks) : State := withGate 31 (trimGate al) (at_ now State.reset)

theorem witness_BoundaryRaisesBalanceAndAges :
    (∀ now ∈ [100000, 900000, 1000000, 6000000, 6100000],
      0 < (ageing (.aligned ⟨1, 0, 1⟩) now).clock.now ∧
      (ageing (.aligned ⟨1, 0, 1⟩) now).clock.now % (ageing (.aligned ⟨1, 0, 1⟩) now).settings.timing.beaconIvl = 0) ∧
    9 * 100000 < 1000000 - 1 ∧ ¬9 * 100000 < 900000 - 1 ∧ 6000000 < 6100000 - 1 ∧ ¬6000000 < 6000000 - 1 ∧
    (ageing (.stale ⟨1, 0, 1⟩) 6100000).link.records.length ≤ 32 := by decide

/-- An open round, and the gate of the worked cases in another alignment and with strikes. -/
def replying (al : Machine.Alignment) (strikes : Nat) : State :=
  withGate 0 { trimGate al with strikes := strikes } inRound

theorem witness_ReplyAlignsInFull :
    let s := replying .unaligned 3
    s.rstnLow = false ∧ s.clock.round = some ⟨7, 5000000, 5005000, []⟩ ∧ (gate s 0).role ≠ .unused ∧
    (gate s 0).alignment = .unaligned ∧ s.link.records.length < 64 ∧ (gate s 1).role = .unused := by decide +kernel
theorem witness_ReplyTrims :
    let ref : Reference := ⟨4500000, 16700000, 4500000⟩
    (replying (.aligned ref) 0).rstnLow = false ∧
    (replying (.aligned ref) 0).clock.round = some ⟨7, 5000000, 5005000, []⟩ ∧
    (gate (replying (.aligned ref) 0) 0).alignment = .aligned ref ∧
    (gate (replying (.stale ref) 2) 0).alignment = .stale ref ∧ (gate (replying (.stale ref) 2) 0).strikes = 2 ∧
    (gate (replying (.aligned ⟨10, 0, 0⟩) 0) 0).alignment = .aligned ⟨10, 0, 0⟩ := by decide +kernel
theorem witness_RoundsCloseAndBeats :
    let s (now closes : Ticks) := withClock (fun c => { c with now := now, round := some ⟨7, 0, closes, []⟩ }) State.reset
    (s 5000 5000).clock.round = some ⟨7, 0, 5000, []⟩ ∧ (5000 : Nat) ≤ (s 5000 5000).clock.now ∧
    (s 4294967295 4294967296).clock.now = 4294967295 ∧ (4294967295 : Nat) < 4294967296 ∧
    { State.reset.mgmt with beatTimer := 12500 }.beatTimer = 12500 := by decide

/-! ### Requests -/

theorem witness_Listening : Listening State.reset ∧ Listening (linked fun l => { l with
    replies := List.replicate 3 ⟨0, .ok, 0, []⟩ }) := ⟨⟨rfl, by decide⟩, ⟨rfl, by decide⟩⟩
theorem witness_SetTimingResult :
    Listening (inState .idle) ∧ Listening (inState .green) ∧ (4294967295 : Nat) < 4294967296 ∧ (255 : Nat) < 256 ∧
    (1 : Byte) ≠ 0 ∧ (63 : Byte).toNat < 64 ∧ 64 ≤ (64 : Byte).toNat ∧ (inState .idle).session.state = .idle ∧
    ¬((inState .green).session.state = .idle ∨ (inState .green).session.state = .closed) ∧
    (inState .green).settings.timing.lines = 1 :=
  ⟨⟨rfl, by decide⟩, ⟨rfl, by decide⟩, by decide⟩
theorem witness_SetHeatResult :
    Listening (inState .armed) ∧ Listening (inState .green) ∧ (65535 : Nat) < 65536 ∧
    (inState .armed).session.state = .armed ∧ ¬((inState .green).session.state = .idle ∨
      (inState .green).session.state = .armed ∨ (inState .green).session.state = .closed) :=
  ⟨⟨rfl, by decide⟩, ⟨rfl, by decide⟩, by decide⟩
theorem witness_SetFuelResult :
    Listening (inState .closed) ∧ Listening (inState .held) ∧ (65535 : Nat) < 65536 ∧
    (inState .closed).session.state = .closed ∧ ¬((inState .held).session.state = .idle ∨
      (inState .held).session.state = .armed ∨ (inState .held).session.state = .closed) :=
  ⟨⟨rfl, by decide⟩, ⟨rfl, by decide⟩, by decide⟩
/-- A free slot is written; a second gate of one place, and the thirteenth pair, are conflicts. -/
theorem witness_WriteGateResult :
    Listening State.reset ∧ (1 : Nat) ≤ 6 ∧ (255 : Nat) < 256 ∧ ¬12 < pairedCount State.reset ∧
    (∀ h : GateId, (gate State.reset h).role ≠ .line) ∧
    (∃ h : GateId, h ≠ 1 ∧ (gate (withGate 0 (lineGate 0) State.reset) h).role = .line ∧
      (gate (withGate 0 (lineGate 0) State.reset) h).line = 0 ∧
      (gate (withGate 0 (lineGate 0) State.reset) h).lane = 1 ∧
      (gate (withGate 0 (lineGate 0) State.reset) h).position = .primary) ∧
    ¬((inState .armed).session.state = .idle ∨ (inState .armed).session.state = .closed) :=
  ⟨⟨rfl, by decide⟩, by decide +kernel⟩
theorem witness_WriteLineResult :
    Listening (inState .closed) ∧ Listening (inState .armed) ∧ (4294967295 : Nat) < 4294967296 ∧
    (inState .closed).session.state = .closed ∧
    ¬((inState .armed).session.state = .idle ∨ (inState .armed).session.state = .closed) :=
  ⟨⟨rfl, by decide⟩, ⟨rfl, by decide⟩, by decide⟩
theorem witness_WriteEntryResult :
    Listening (inState .idle) ∧ (16 : Nat) ≤ 16 ∧ (15 : Byte).toNat ≤ 15 ∧
    (∀ f : Entry, (entryRow (inState .idle) f).controller = none) ∧
    (∃ f : Entry, f ≠ 0 ∧ (entryRow (mapped 1 16 15 (inState .idle)) f).controller ≠ none ∧
      ((entryRow (mapped 1 16 15 (inState .idle)) f).controller = some 16 ∨
       (entryRow (mapped 1 16 15 (inState .idle)) f).code = 0)) ∧
    ¬((inState .countdown).session.state = .idle ∨ (inState .countdown).session.state = .closed) :=
  ⟨⟨rfl, by decide⟩, by decide +kernel⟩
theorem witness_WriteRuleResult :
    Listening (inState .green) ∧ some 16 ∈ ([none, some 0, some 1, some 2, some 4, some 8, some 16] : List (Option Nat)) ∧
    ¬(IncidentKind.lineMiss = .unserved ∧ (Sanction.stopGo = .driveThrough ∨ Sanction.stopGo = .stopGo)) ∧
    (IncidentKind.unserved = .unserved ∧ (Sanction.driveThrough = .driveThrough ∨ Sanction.driveThrough = .stopGo)) :=
  ⟨⟨rfl, by decide⟩, by decide⟩
/-- Argument parts of a request's own length with a byte just outside its codes or range, or, where the session
refuses first, with any bytes. -/
theorem witness_refused_values :
    Listening (inState .idle) ∧ Listening (inState .green) ∧
    (let raw : List Byte := List.replicate 22 0 ++ [2, 0, 0, 0, 0, 0, 1, 0]
     raw.length = 30 ∧ 1 < (raw.getD 22 0).toNat ∧ raw.getD 28 0 ≠ 0) ∧
    (let raw : List Byte := List.replicate 28 0 ++ [64, 1]
     raw.length = 30 ∧ (raw.getD 29 0).toNat ≤ 1 ∧ 64 ≤ (raw.getD 28 0).toNat) ∧
    (let raw : List Byte := 2 :: List.replicate 16 0
     raw.length = 17 ∧ 1 < (raw.getD 0 0).toNat) ∧
    (let raw : List Byte := List.replicate 16 0 ++ [3]
     raw.length = 17 ∧ 2 < (raw.getD 16 0).toNat) ∧
    (List.replicate 7 (0 : Byte)).length = 7 ∧
    (let raw : List Byte := [32, 4, 4, 6, 1, 0]
     raw.length = 6 ∧ 1 ≤ (raw.getD 0 0).toNat ∧ (raw.getD 0 0).toNat ≤ 32 ∧ 3 < (raw.getD 1 0).toNat) ∧
    (let raw : List Byte := [1, 1, 5, 7, 2, 0]
     raw.length = 6 ∧ 4 < (raw.getD 2 0).toNat ∧ 6 < (raw.getD 3 0).toNat ∧ 1 < (raw.getD 4 0).toNat) ∧
    (let raw : List Byte := [4, 0, 0, 0, 0, 3, 0, 0, 0, 0]
     raw.length = 10 ∧ (raw.getD 0 0).toNat ≤ 4 ∧ 2 < (raw.getD 5 0).toNat) ∧
    (let raw : List Byte := [16, 17, 16, 0, 4, 0, 0, 0, 0, 0, 0, 0, 0, 7]
     raw.length = 14 ∧ 1 ≤ (raw.getD 0 0).toNat ∧ (raw.getD 0 0).toNat ≤ 16 ∧ 16 < (raw.getD 1 0).toNat ∧
     15 < (raw.getD 2 0).toNat ∧ 3 < (raw.getD 4 0).toNat ∧ 6 < (raw.getD 13 0).toNat) ∧
    (let raw : List Byte := [6, 3, 6, 0, 0, 0, 2, 2]
     raw.length = 8 ∧ (raw.getD 0 0).toNat ≤ 6 ∧ (raw.getD 1 0).toNat ∉ [0, 1, 2, 4, 8, 16, 255] ∧
     5 < (raw.getD 2 0).toNat ∧ 1 < (raw.getD 6 0).toNat ∧ 1 < (raw.getD 7 0).toNat) :=
  ⟨⟨rfl, by decide⟩, ⟨rfl, by decide⟩, by decide⟩
theorem witness_TableReads :
    Listening (inState .green) ∧ (33 : Byte).toNat > 32 ∧ 4 < (5 : Byte).toNat ∧ 16 < (17 : Byte).toNat ∧
    6 < (7 : Byte).toNat := ⟨⟨rfl, by decide⟩, by decide⟩
theorem witness_HeatReads : Listening (inState .held) ∧ 16 < (17 : Byte).toNat ∧ 1 < (2 : Byte).toNat ∧
    2 < (3 : Byte).toNat := ⟨⟨rfl, by decide⟩, by decide⟩
theorem witness_StatusResult : Listening (inState .held) := ⟨rfl, by decide⟩
theorem witness_SeedMaskAndBestResult :
    Listening (inState .armed) ∧ (0 : Byte) ++ (1 : Byte) ≠ (0 : BitVec 16) ∧ (0 : Byte) ++ (0 : Byte) = (0 : BitVec 16) ∧
    (inState .armed).session.state = .armed ∧ ¬((inState .green).session.state = .idle ∨
      (inState .green).session.state = .armed ∨ (inState .green).session.state = .closed) :=
  ⟨⟨rfl, by decide⟩, by decide⟩
theorem witness_DrillSwitchResult :
    Listening (inState .armed) ∧ (inState .armed).session.state = .armed ∧ (inState .green).session.state ≠ .armed ∧
    ((inState .chequered).session.state ≠ .idle ∧ (inState .chequered).session.state ≠ .closed) ∧
    ¬((inState .closed).session.state ≠ .idle ∧ (inState .closed).session.state ≠ .closed) ∧ 1 < (2 : Byte).toNat :=
  ⟨⟨rfl, by decide⟩, by decide⟩
theorem witness_ClearEventsResult : Listening (inState .idle) ∧ (0xFE : Byte) &&& 0x01 = 0 ∧
    (0xFF : Byte) &&& 0x01 ≠ 0 := ⟨⟨rfl, by decide⟩, by decide⟩
theorem witness_RestartResults :
    Listening (linked fun l => { l with trackTx := some ⟨⟨0x23, [0, 0]⟩, 3⟩, stationTx := some ⟨⟨0x33, []⟩, 3⟩ }) ∧
    Listening State.reset ∧ State.reset.link.stationTx = none ∧ 1 < (2 : Byte).toNat :=
  ⟨⟨rfl, by decide⟩, ⟨rfl, by decide⟩, by decide⟩
theorem witness_FullReplyQueue :
    (requestCode (.status 0 [])).isSome = true ∧ (replies4 State.reset).rstnLow = false ∧
    4 ≤ (replies4 State.reset).link.replies.length := by decide
theorem witness_LowLineTakesNoFrame :
    (low State.reset).rstnLow = true ∧ (frameOf (.status 0 [])).isSome = true ∧
    (∃ p, Instr.byteGapTimeout .track = .frameCheckFailed p ∨ Instr.byteGapTimeout .track = .lengthAbove60 p ∨
      Instr.byteGapTimeout .track = .malformedFrame p ∨ Instr.byteGapTimeout .track = .byteGapTimeout p) :=
  ⟨rfl, by decide, .track, .inr (.inr (.inr rfl))⟩
theorem witness_RefusedRequests :
    Listening (inState .green) ∧ ([0] : List Byte).length ≠ 0 ∧ ([0, 0] : List Byte).length < 3 ∧
    32 < (33 : Byte).toNat ∧ 4 < (5 : Byte).toNat ∧ 6 < (7 : Byte).toNat ∧ 2 < (3 : Byte).toNat ∧
    Listening (inState .closed) ∧ ((inState .closed).session.state = .idle ∨ (inState .closed).session.state = .closed) ∧
    ((inState .green).session.state = .green ∨ (inState .green).session.state = .caution ∨
      (inState .green).session.state = .held ∨ (inState .green).session.state = .chequered) ∧
    ¬((inState .green).session.state = .idle ∨ (inState .green).session.state = .closed) ∧
    16 < (17 : Byte).toNat ∧ (∀ n ∈ [1, 2, 5, 7, 9, 13], (List.replicate n (0 : Byte)).length = n) :=
  ⟨⟨rfl, by decide⟩, by decide, by decide, by decide, by decide, by decide, by decide, ⟨rfl, by decide⟩, by decide⟩

/-! ### Session requests and timers -/

/-- Only lane 1 is enabled, and its line-0 gate is ALIGNED. -/
theorem gated (s : State) (h : s.settings.timing.lanesEnabled = 1) (g : gate s 0 = lineGate 0) : LanesGated s := by
  intro lane h1 h2 h3
  rw [h] at h3
  refine ⟨0, by rw [g]; rfl, by rw [g]; rfl, ?_⟩
  rw [g]
  have : lane = 1 := by
    have : lane = 1 ∨ lane = 2 ∨ lane = 3 ∨ lane = 4 ∨ lane = 5 ∨ lane = 6 := by omega
    rcases this with rfl | rfl | rfl | rfl | rfl | rfl <;> first | rfl | simp at h3
  rw [this]; rfl

/-- The armed part of the tests, its session in another state. -/
def ready (st : SessionState) : State := withSession (fun x => { x with state := st }) armed

theorem ready_gates (st : SessionState) (f : Option SessionState) :
    GatesReady (withSession (fun x => { x with heldFrom := f }) (ready st)) := by
  refine ⟨gated _ rfl rfl, ?_⟩
  intro g hr
  have : g = 0 := by
    revert hr; revert g
    show ∀ g : GateId, (gate armed g).role = .line → g = 0
    decide +kernel
  subst this
  intro _ _ _ _
  exact ⟨_, rfl⟩

theorem not_gated : ¬LanesGated (inState .idle) := by
  intro h
  obtain ⟨g, hr, _⟩ := h 1 (by decide) (by decide) (by decide)
  revert hr; revert g; decide +kernel

theorem witness_ArmResult :
    Listening (ready .idle) ∧ (ready .idle).session.state = .idle ∧
    (∃ e : Entry, (entryRow (ready .idle) e).controller ≠ none) ∧ LanesGated (ready .idle) ∧
    ¬(∃ e : Entry, (entryRow (inState .closed) e).controller ≠ none) ∧
    (∃ e : Entry, (entryRow (mapped 0 1 5 (inState .idle)) e).controller ≠ none) ∧
    ¬LanesGated (inState .idle) ∧ ¬((ready .held).session.state = .idle ∨ (ready .held).session.state = .closed) :=
  ⟨⟨rfl, by decide⟩, rfl, ⟨0, by decide⟩, gated _ rfl rfl, by decide +kernel, ⟨0, by decide⟩, not_gated, by decide⟩
theorem witness_StartResult :
    Listening (ready .armed) ∧ (ready .armed).session.state = .armed ∧ GatesReady (ready .armed) ∧
    ¬GatesReady (inState .armed) ∧ (inState .idle).session.state ≠ .armed :=
  ⟨⟨rfl, by decide⟩, rfl, ready_gates .armed none, fun h => not_gated h.1, by decide⟩
theorem witness_CautionAndGreenResult :
    Listening (inState .green) ∧ (inState .green).session.state = .green ∧ ¬PeriodOpen (inState .green) ∧
    PeriodOpen (withSession (fun x => { x with periods := [⟨0, none⟩] }) (inState .green)) ∧
    (inState .held).session.state ≠ .green ∧ (inState .caution).session.state = .caution :=
  ⟨⟨rfl, by decide⟩, rfl, (by rintro ⟨p, h, _⟩; cases h), ⟨_, List.mem_cons_self, rfl⟩, by decide, rfl⟩
theorem witness_HoldResult :
    Listening (inState .chequered) ∧ (inState .chequered).session.state = .chequered ∧
    ¬PeriodOpen (inState .chequered) ∧
    PeriodOpen (withSession (fun x => { x with periods := [⟨0, none⟩] }) (inState .caution)) ∧
    ¬((inState .held).session.state = .green ∨ (inState .held).session.state = .caution ∨
      (inState .held).session.state = .chequered) :=
  ⟨⟨rfl, by decide⟩, rfl, (by rintro ⟨p, h, _⟩; cases h), ⟨_, List.mem_cons_self, rfl⟩, by decide⟩
theorem witness_ResumeResult :
    let s := withSession (fun x => { x with heldFrom := some .chequered }) (ready .held)
    let u := withSession (fun x => { x with heldFrom := some .green }) (inState .held)
    Listening s ∧ s.session.state = .held ∧ s.session.heldFrom = some .chequered ∧ GatesReady s ∧ ¬Afield s ∧
    Afield (withCar 0 (freshContext .offTrack 0) s) ∧ GatesReady (withCar 0 (freshContext .offTrack 0) s) ∧
    GatesReady (withSession (fun x => { x with heldFrom := some .green }) (ready .held)) ∧
    (Listening u ∧ u.session.heldFrom = some .green ∧ ¬GatesReady u) ∧ (inState .green).session.state ≠ .held :=
  ⟨⟨rfl, by decide⟩, rfl, rfl, ready_gates .held _,
   (by show ¬∃ e : Entry, (ctx (ready .held) e).state = .running ∨ (ctx (ready .held) e).state = .inPit ∨
         (ctx (ready .held) e).state = .offTrack
       decide +kernel),
   ⟨0, .inr (.inr (by decide))⟩, ready_gates .held (some .chequered), ready_gates .held _,
   ⟨⟨rfl, by decide⟩, rfl, fun h => not_gated h.1⟩, by decide⟩
theorem witness_AbortAndDismissResult :
    let s := at_ 4200000000 (withCar 0 debtor (inState .held))
    ((s.session.state ≠ .idle ∧ s.session.state ≠ .closed) ∧ Listening s ∧ s.clock.now = 4200000000) ∧
    Serving (ctx s 0) ∧ ¬Serving (ctx s 1) ∧
    ¬((inState .idle).session.state ≠ .idle ∧ (inState .idle).session.state ≠ .closed) ∧ Listening (inState .idle) ∧
    (inState .closed).session.state = .closed ∧ Listening (inState .closed) :=
  ⟨⟨by decide, ⟨rfl, by decide⟩, rfl⟩, ⟨_, _, rfl, rfl⟩, (by rintro ⟨o, r, h, _⟩; cases h), by decide,
   ⟨rfl, by decide⟩, rfl, ⟨rfl, by decide⟩⟩
theorem witness_GraceExpiryResult :
    let s := withCar 0 debtor (withSession (fun x => { x with grace := some 0 }) (inState .chequered))
    s.rstnLow = false ∧ s.session.state = .chequered ∧ s.session.grace = some 0 ∧
    s.link.records.length + 1 + (allEntries.map fun e => (ctx s e).owed.length).sum +
      (classification (after .graceExpiry s)).length ≤ 64 ∧
    (let u : State := { s with link := { s.link with stationTx := some ⟨⟨0x33, []⟩, 3⟩, records := List.replicate 58 ⟨0, 0, .button 1⟩ } }
     u.link.stationTx.isSome = true ∧ (classification (after .graceExpiry u)).length = 1 ∧
     u.link.records.length + 1 + (allEntries.map fun e => (ctx u e).owed.length).sum + 1 = 64) := by decide +kernel
theorem witness_CountdownRuns :
    let s (c : Countdown) := withSession (fun x => { x with countdown := some c }) (inState .countdown)
    (∀ c ∈ ([⟨.steps, 2, 0, 0⟩, ⟨.steps, 1, 1, 0⟩, ⟨.steps, 1, 0, 0⟩, ⟨.hold, 1, 5, 0⟩] : List Countdown),
      (s c).rstnLow = false ∧ (s c).session.state = .countdown ∧ (s c).session.countdown = some c ∧
      c.remaining = 0) := by decide +kernel
theorem witness_HeatClockExpiryResult :
    let s : State := { inState .caution with settings := { (inState .caution).settings with
      heat := { defaultHeat with raceKind := .time } } }
    s.rstnLow = false ∧ s.settings.heat.raceKind = .time ∧ s.session.heatClock = 0 ∧ s.session.state = .caution ∧
    (∃ e : Entry, (ctx (withCar 15 (freshContext .inPit 0) s) e).state = .inPit) ∧
    (∀ e : Entry, (ctx s e).state = .unused) ∧ s.link.records.length < 63 := by decide +kernel
theorem witness_MarshalButtonResult :
    let s (a : MarshalAction) (st : SessionState) : State := { inState st with settings := {
      (inState st).settings with heat := { defaultHeat with marshalAction := a } } }
    (∀ st ∈ [SessionState.green, .caution, .chequered, .idle], (s .hold st).rstnLow = false ∧
      (s .hold st).settings.heat.marshalAction = .hold) ∧
    (s .caution .green).settings.heat.marshalAction = .caution ∧ (s .caution .green).session.state = .green ∧
    (s .caution .green).session.periods = [] := by decide
/-- A press in CAUTION with its period open, and presses that move nothing behind a busy transmitter, with 63 records
waiting, and with 64 among which there is a SECTOR record or none. -/
theorem witness_MarshalButtonResult_open :
    let s : State := withSession (fun x => { x with periods := [⟨0, none⟩] }) (inState .caution)
    let busy (l : List Record) : State :=
      { inState .idle with link := { (inState .idle).link with stationTx := some ⟨⟨0x33, []⟩, 3⟩, records := l } }
    let sector : Record := ⟨1, 0, .sector 1 1 none 1⟩
    s.rstnLow = false ∧ PeriodOpen s ∧ s.settings.heat.marshalAction = .hold ∧ s.session.state = .caution ∧
    (busy []).link.stationTx.isSome = true ∧ (List.replicate 63 (⟨0, 0, .button 1⟩ : Record)).length < 64 ∧
    (∀ y ∈ List.replicate 64 (⟨0, 0, .button 1⟩ : Record), y.isSector = false) ∧
    64 ≤ (List.replicate 60 (⟨0, 0, .button 1⟩ : Record) ++ sector :: List.replicate 3 sector).length ∧
    sector.isSector = true ∧ ¬(MarshalAction.hold = .hold ∧ ((busy []).session.state = .green ∨
      (busy []).session.state = .caution ∨ (busy []).session.state = .chequered)) :=
  ⟨rfl, ⟨_, List.mem_cons_self, rfl⟩, rfl, rfl, rfl, by decide, by decide, by decide, rfl, by decide⟩

/-! ### The director's calls -/

theorem witness_CountedIssueResult :
    let s := withCar 15 (freshContext .offTrack 0) (inState .chequered)
    let u := withRule .unserved flagRule (withCar 0 (freshContext .running 0) s)
    Listening s ∧ s.session.state = .chequered ∧ (ctx s 15).state = .offTrack ∧ (ctx s 15).disqualified = false ∧
    ¬FlagsCar (judged s .unserved (ctx s 15)).2 ∧ FlagsCar (judged u .unserved (ctx u 15)).2 ∧ GoesOn u 15 ∧
    FlagsCar (judged (withRule .unserved flagRule s) .unserved (ctx s 15)).2 ∧
    ¬GoesOn (withRule .unserved flagRule s) 15 :=
  ⟨⟨rfl, by decide⟩, rfl, by decide, by decide, by unfold FlagsCar; decide +kernel, by unfold FlagsCar; decide +kernel,
   by unfold GoesOn; decide +kernel, by unfold FlagsCar; decide +kernel, by unfold GoesOn; decide +kernel⟩
/-- ISSUE is refused: a car gone or flagged, no car, a state outside its four, bytes outside their codes. -/
theorem witness_IssueRefusals :
    let s := withCar 2 { freshContext .retired 0 with disqualified := true } (withCar 0 (freshContext .finished 0) (inState .held))
    Listening s ∧ s.session.state = .held ∧ (ctx s 0).state = .finished ∧ (ctx s 2).disqualified = true ∧
    (ctx s 2).state ≠ .unused ∧ (ctx s 1).state = .unused ∧ Listening (inState .armed) ∧
    ¬((inState .armed).session.state = .green ∨ (inState .armed).session.state = .caution ∨
      (inState .armed).session.state = .held ∨ (inState .armed).session.state = .chequered) ∧
    3 ≤ ([0, 0, 0] : List Byte).length ∧ 6 < (7 : Byte).toNat ∧ 1 < (2 : Byte).toNat ∧ ([0] : List Byte) ≠ [] ∧
    ([1, 1, 1, 1] : List Byte).length ≠ 5 ∧ 5 < (([6, 1, 1, 1, 0] : List Byte).getD 0 0).toNat ∧
    1 < (([5, 1, 1, 1, 2] : List Byte).getD 4 0).toNat :=
  ⟨⟨rfl, by decide⟩, rfl, by decide, by decide, by decide, by decide, ⟨rfl, by decide⟩, by decide⟩
theorem witness_DirectIssueResult :
    let s := withCar 1 (freshContext .running 0) (withCar 0 (freshContext .finished 0) (inState .chequered))
    Listening s ∧ s.session.state = .chequered ∧ (ctx s 0).state ≠ .unused ∧ (255 : Nat) < 256 ∧
    (ctx s 0).disqualified = false ∧ (ctx s 0).state = .finished ∧
    (Sanction.timeAdd ≠ .driveThrough ∧ Sanction.timeAdd ≠ .stopGo) ∧ GoesOn s 0 ∧ ¬GoesOn s 1 ∧
    (ctx (withCar 2 { freshContext .retired 0 with disqualified := true } s) 2).disqualified = true :=
  ⟨⟨rfl, by decide⟩, rfl, by decide, by decide, by decide, by decide, by decide, by unfold GoesOn; decide +kernel,
   by unfold GoesOn; decide +kernel, by decide⟩

theorem witness_WaiveAndRetireResult :
    let s := withCar 0 debtor (inState .chequered)
    let u := withCar 1 (freshContext .running 0) s
    Listening s ∧ (s.session.state ≠ .idle ∧ s.session.state ≠ .closed) ∧ (ctx s 0).state ≠ .unused ∧
    (ctx s 0).owed[3]? = some (owes .stopGo false) ∧ (ctx s 0).owed[0]? = some (owes .stopGo true) ∧
    (ctx s 0).owed.length ≤ 4 ∧ (4 : Nat) < 256 ∧ ¬GoesOn s 0 ∧ GoesOn u 0 ∧
    (ctx (withCar 2 (freshContext .retired 0) s) 2).state = .retired ∧
    (ctx (withCar 2 (freshContext .finished 0) s) 2).state = .finished :=
  ⟨⟨rfl, by decide⟩, by decide, by decide, by decide, by decide, by decide, by decide, by unfold GoesOn; decide +kernel,
   by unfold GoesOn; decide +kernel, by decide, by decide⟩

/-! ### Drive frames -/

/-- Entry 16 is mapped to controller 16, in the grid during the hold of a countdown. -/
def jumper : State :=
  withSession (fun x => { x with countdown := some ⟨.hold, 1, 5, 5⟩ })
    (withCar 15 (freshContext .grid 0) (mapped 15 16 15 (inState .countdown)))

theorem witness_DriveFrameResult :
    jumper.rstnLow = false ∧ (List.replicate 16 (⟨16, 255, 1⟩ : DriveEntry)).length ≤ 16 ∧
    (∀ f : Entry, (entryRow jumper f).controller = some (16 : Byte).toNat ↔ f = 15) ∧
    (∀ f : Entry, (entryRow jumper f).controller ≠ some (5 : Byte).toNat) ∧
    (jumper.settings.timing.lockout = true ∧ jumper.session.state ≠ .idle ∧ jumper.session.state ≠ .closed) ∧
    (jumper.session.state = .countdown ∧ (jumper.session.countdown.map fun x => x.phase) = some .hold ∧
      (ctx jumper 15).state = .grid ∧ jumper.settings.timing.jumpLevel ≤ 8 ∧ (ctx jumper 15).jumpFlagged = false) ∧
    (jumper.link.drive.length < 2 ∧ 2 ≤ full.link.drive.length) ∧
    (inState .idle).session.state = .idle := by decide +kernel
theorem witness_DriveFrameResult_jump :
    ¬FlagsCar (judged jumper .jumpStart { ctx jumper 15 with jumpFlagged := true }).2 ∧
    FlagsCar (judged (withRule .jumpStart flagRule jumper) .jumpStart { ctx jumper 15 with jumpFlagged := true }).2 ∧
    (ctx jumper 15).disqualified = false := by
  unfold FlagsCar; decide +kernel
theorem witness_DriveFrameResult_matched :
    (∀ f : Entry, (entryRow (serving 5000 20095000 false) f).controller = some (4 : Byte).toNat ↔ f = 2) ∧
    (serving 5000 20095000 false).session.state = .green ∧ (serving 5000 20095000 false).rstnLow = false := by decide +kernel

/-! ### Crossings -/

/-- The gate's slot stands alone at its line-lane. -/
theorem lone (s : State) (g : GateId)
    (h : ∀ f : GateId, (gate s f).role = .line → (gate s f).position = .primary) : Single s g :=
  fun _ => ⟨.secondary, fun f hf _ _ hp => by rw [h f hf] at hp; cases hp⟩

/-- Entry 3 of the tests with another context, behind gates of lines 0 to 2, a pit entry and a pit exit. -/
def running (c : Context) (time : Ticks) : State :=
  withGate 5 ⟨.pitExit, 0, 1, .primary, 0, .aligned ⟨10000000, 0, 10000000⟩, 0, 0⟩
    (withGate 3 ⟨.pitEntry, 0, 1, .primary, 0, .aligned ⟨10000000, 0, 10000000⟩, 0, 0⟩ (lapping c time))

theorem witness_CrossingsAreStrayed :
    (running lapper 10400000).rstnLow = false ∧ (15 : Byte).toNat ≤ 15 ∧ (31 : Byte).toNat = 31 ∧
    GateUnused (running lapper 10400000) 31 ∧ ¬GateUnused (running lapper 10400000) 1 ∧
    ¬LaneOn (withGate 1 { lineGate 1 with lane := 6 } (running lapper 10400000)) 1 ∧
    LaneOn (running lapper 10400000) 1 ∧
    ¬((inState .idle).session.state ≠ .idle ∧ (inState .idle).session.state ≠ .closed) ∧
    (∀ e : Entry, (entryRow (running lapper 10400000) e).controller ≠ none →
      (entryRow (running lapper 10400000) e).code ≠ 6) := by
  unfold GateUnused LaneOn; decide +kernel

/-- An unreadable code at gate 2 has no candidate at a line that the one car does not expect. -/
theorem witness_CrossingsAreStrayed_unreadable :
    let s := running { lapper with expected := 2 } 10400000
    NoPartner s 1 ∧ ∀ e : Entry, ∃ f : Entry, ¬(Candidate s 1 10400000 f ↔ f = e) := by
  refine ⟨(fun _ p hp => by cases hp), fun e => ⟨e, ?_⟩⟩
  have no : ¬Candidate (running { lapper with expected := 2 } 10400000) 1 10400000 e := by
    intro h
    have h1 : (ctx (running { lapper with expected := 2 } 10400000) e).state = .running ∧
      (ctx (running { lapper with expected := 2 } 10400000) e).expected = 1 := h.1
    clear h; revert h1; revert e; decide +kernel
  exact fun h => no (h.2 rfl)

/-- A car code attributes a report to the only entry that holds it. -/
theorem by_code (s : State) (g : GateId) (code : Byte) (time : Ticks) (e : Entry) (h : code.toNat ≤ 15)
    (u : ∀ f : Entry, ((entryRow s f).controller ≠ none ∧ (entryRow s f).code = code) ↔ f = e) :
    Attributed s g code time e false := .inl ⟨h, rfl, u⟩

/-- The order clause: a report at or before the last accepted crossing, at another place. -/
theorem witness_CrossingsAreStrayed_order :
    let s := running { lapper with last := some ⟨10400000, 0, 1, 1, .line⟩ } 10400000
    Attributed s 1 7 10400000 2 false ∧ Single s 1 ∧ (ctx s 2).last = some ⟨10400000, 0, 1, 1, .line⟩ ∧
    ¬SamePlace s 1 ⟨10400000, 0, 1, 1, .line⟩ ∧ SamePlace s 0 ⟨10400000, 0, 1, 1, .line⟩ ∧
    (10400000 : Nat) < 10400000 + s.settings.timing.lineHoldoff :=
  ⟨by_code _ _ _ _ _ (by decide) (by decide +kernel), lone _ _ (by decide +kernel), by decide +kernel,
   by unfold SamePlace; decide +kernel, by unfold SamePlace; decide +kernel, by decide +kernel⟩

/-- What the statements on accepted crossings ask of a report of car code 7 at 10,400,000. -/
abbrev Checks (s : State) (g : GateId) : Prop :=
  s.rstnLow = false ∧
  ¬((gate s g).role = .unused ∨ ((gate s g).role = .line ∧ s.settings.timing.lines ≤ (gate s g).line.val)) ∧
  (1 ≤ (gate s g).lane ∧ s.settings.timing.lanesEnabled.getLsbD ((gate s g).lane - 1) = true) ∧
  (s.session.state ≠ .idle ∧ s.session.state ≠ .closed) ∧
  (∀ f : Entry, ((entryRow s f).controller ≠ none ∧ (entryRow s f).code = 7) ↔ f = 2) ∧
  (∀ f : GateId, (gate s f).role = .line → (gate s f).position = .primary) ∧
  ((ctx s 2).last.map fun l => l.time).getD 0 + s.settings.timing.lineHoldoff ≤ (converted s g 400000 10400000).1 ∧
  0 < s.settings.timing.lineHoldoff

theorem accepted {s : State} {g : GateId} (h : Checks s g) : Accepts s g 7 400000 10400000 2 false := by
  obtain ⟨h1, h2, h3, h4, h5, h6, h7, h8⟩ := h
  have later : ∀ l, (ctx s 2).last = some l →
      l.time + s.settings.timing.lineHoldoff ≤ (converted s g 400000 10400000).1 := by
    intro l k; rw [k] at h7; exact h7
  exact ⟨h1, h2, h3, h4, by_code _ _ _ _ _ (by decide) h5, lone _ _ h6,
    fun l k => Nat.lt_of_lt_of_le (Nat.lt_add_of_pos_right h8) (later l k), fun l k _ => later l k⟩

/-- Entry 3's crossing at the gate is a lane foul. -/
def fouls (s : State) (g : GateId) : Bool :=
  match (ctx s 2).last with
  | none => false
  | some l => decide (l.lane ≠ (gate s g).lane ∧ s.session.state ≠ .held ∧
      ((lineRow s (zoneLine s g)).mode ≠ .openZone ∨
       (s.session.state = .caution ∧ s.settings.timing.cautionClose = true) ∨ s.throttle.zoneOverride = true))

theorem fouls_iff (s : State) (g : GateId) : fouls s g = true ↔ Foul s g 2 := by
  unfold fouls Foul
  cases (ctx s 2).last with
  | none => simp
  | some l => simp

/-- No record of the list is the CALL of a black flag, or one of them is. -/
def flags (l : List RecordBody) : Bool :=
  l.any fun b => match b with
    | .call c => c.cls == .penalty && c.sanction == .blackFlag
    | _ => false

theorem spared_of {l : List RecordBody} (h : flags l = false) : Spared l := by
  intro b hb k
  unfold flags at h
  rw [List.any_eq_false] at h
  exact h _ hb (by simp [k.1, k.2])

theorem flagged_of {l : List RecordBody} (h : flags l = true) : ∃ b, RecordBody.call b ∈ l ∧ FlagsCar b := by
  unfold flags at h
  rw [List.any_eq_true] at h
  obtain ⟨x, hx, k⟩ := h
  cases x with
  | call c => exact ⟨c, hx, by simpa [FlagsCar] using k⟩
  | _ => cases k

/-- Entry 3's last accepted crossing was not at the line of the gate. -/
theorem not_again {s : State} {g : GateId} {l : LastCrossing} (h : (ctx s 2).last = some l)
    (k : l.line ≠ zoneLine s g) :
    ¬(2 ≤ s.settings.timing.lines ∧ (gate s g).role = .line ∧
      ∃ l, (ctx s 2).last = some l ∧ l.role = .line ∧ l.line = zoneLine s g) := by
  rintro ⟨_, _, l', hl, _, hk⟩
  rw [h] at hl; cases hl; exact k hk

/-- Every zone is closed to lane changes, and a change foul costs a black flag. -/
def vetoed (s : State) : State :=
  withRule .changeFoul flagRule { s with throttle := { s.throttle with
    lines := Vector.replicate 5 ⟨0, .veto, 0⟩ } }

/-- Entry 3 came from lane 2. -/
def swerving (c : Context) : State := running { c with last := some ⟨10000000, 0, 2, 1, .line⟩ } 10400000

/-- Entry 3 in the pit lane, serving a stop. -/
def pitted (ticks : Ticks) : Context := { lapper with
  state := .inPit, expected := 0, owed := [owes .stopGo true], transit := some ⟨10000000, ticks, true⟩
  last := some ⟨10000000, 0, 1, 4, .pitEntry⟩ }

/-- Cars that have finished, stand in the grid, enter the pit lane, or cross its entry again. -/
theorem witness_CrossingsAreTaken_still :
    (let s := running (freshContext .finished 0) 10400000
     Accepts s 0 7 400000 10400000 2 false ∧ (fouls s 0 = true ↔ Foul s 0 2) ∧ (ctx s 2).state = .finished) ∧
    (let s := running { freshContext .grid 0 with jumpFlagged := true } 10400000
     Accepts s 0 7 400000 10400000 2 false ∧ (ctx s 2).state = .grid ∧ (ctx s 2).jumpFlagged = true) ∧
    (let s := running (freshContext .grid 0) 10400000
     Accepts s 0 7 400000 10400000 2 false ∧ (ctx s 2).state = .grid ∧ (ctx s 2).jumpFlagged = false ∧
     (ctx s 2).disqualified = false ∧ GoesOn s 2) ∧
    (let s := running { lapper with owed := [owes .driveThrough false] } 10400000
     Accepts s 3 7 400000 10400000 2 false ∧ (ctx s 2).state = .running ∧ (gate s 3).role = .pitEntry ∧
     Spared (begun s 2 (fouls s 3)).2) ∧
    (let s := vetoed (swerving { lapper with state := .offTrack })
     Accepts s 3 7 400000 10400000 2 false ∧ fouls s 3 = true ∧ (ctx s 2).disqualified = false ∧ GoesOn s 2 ∧
     ∃ b, RecordBody.call b ∈ (begun s 2 (fouls s 3)).2 ∧ FlagsCar b) ∧
    (let s := running (pitted 0) 10400000
     Accepts s 3 7 400000 10400000 2 false ∧ (ctx s 2).state = .inPit ∧ fouls s 3 = false) ∧
    (let s := vetoed (swerving (pitted 0))
     Accepts s 3 7 400000 10400000 2 false ∧ fouls s 3 = true ∧ GoesOn s 2 ∧ (ctx s 2).disqualified = false ∧
     FlagsCar (judged s .changeFoul (ctx s 2)).2) := by
  refine ⟨⟨accepted (by decide +kernel), fouls_iff _ _, by decide +kernel⟩,
    ⟨accepted (by decide +kernel), by decide +kernel, by decide +kernel⟩,
    ⟨accepted (by decide +kernel), by decide +kernel, by decide +kernel, by decide +kernel, by unfold GoesOn; decide +kernel⟩,
    ⟨accepted (by decide +kernel), by decide +kernel, by decide +kernel, spared_of (by decide +kernel)⟩,
    ⟨accepted (by decide +kernel), by decide +kernel, by decide +kernel, by unfold GoesOn; decide +kernel,
      flagged_of (by decide +kernel)⟩,
    ⟨accepted (by decide +kernel), by decide +kernel, by decide +kernel⟩,
    ⟨accepted (by decide +kernel), by decide +kernel, by unfold GoesOn; decide +kernel, by decide +kernel,
      by unfold FlagsCar; decide +kernel⟩⟩

/-- Moving cars: a launch, a lost launch, the crossing of a line on the track and from the pit lane with its stop
served and just short, in CAUTION, a black flag, and a re-cross. -/
theorem witness_CrossingsAreTaken_moving :
    (let s := running (freshContext .running 0) 10400000
     Accepts s 0 7 400000 10400000 2 false ∧ Spared (begun s 2 (fouls s 0)).2 ∧ s.session.state ≠ .caution ∧
     (ctx s 2).progressTime = none ∧ zoneLine s 0 = 0) ∧
    (let s := running (freshContext .running 0) 10400000
     Accepts s 1 7 400000 10400000 2 false ∧ Spared (begun s 2 (fouls s 1)).2 ∧ zoneLine s 1 ≠ 0) ∧
    (let s := withSession (fun x => { x with state := .caution }) (running lapper 10400000)
     Accepts s 2 7 400000 10400000 2 false ∧ Spared (begun s 2 (fouls s 2)).2 ∧
     (ruleOf s .cautionPass).sanction ≠ .blackFlag ∧ (ctx s 2).progressTime.isSome = true ∧ zoneLine s 2 ≠ 0 ∧
     (0 : Line) ∉ missedLines s.settings.timing.lines (ctx s 2).expected (zoneLine s 2) ∧
     ¬(2 ≤ s.settings.timing.lines ∧ (gate s 2).role = .line ∧
       ∃ l, (ctx s 2).last = some l ∧ l.role = .line ∧ l.line = zoneLine s 2)) ∧
    (∀ ticks ∈ [499999, 500000],
      Accepts (running { pitted ticks with expected := 1 } 10400000) 1 7 400000 10400000 2 false ∧
      Spared (begun (running { pitted ticks with expected := 1 } 10400000) 2 false).2 ∧
      (ctx (running { pitted ticks with expected := 1 } 10400000) 2).state = .inPit ∧
      (0 : Line) ∉ missedLines 3 (ctx (running { pitted ticks with expected := 1 } 10400000) 2).expected
        (zoneLine (running { pitted ticks with expected := 1 } 10400000) 1)) ∧
    (let s := vetoed (swerving lapper)
     Accepts s 1 7 400000 10400000 2 false ∧ fouls s 1 = true ∧ (ctx s 2).disqualified = false ∧ GoesOn s 2 ∧
     ∃ b, RecordBody.call b ∈ (begun s 2 (fouls s 1)).2 ∧ FlagsCar b) ∧
    (let s := running { lapper with state := .offTrack } 10400000
     Accepts s 0 7 400000 10400000 2 false ∧ (ctx s 2).state = .offTrack ∧ 2 ≤ s.settings.timing.lines ∧
     (ctx s 2).last = some ⟨10000000, 0, 1, 1, .line⟩ ∧ zoneLine s 0 = 0) ∧
    ((4 : Nat) < 5 ∧ (3 : Nat) < 5) := by
  refine ⟨⟨accepted (by decide +kernel), spared_of (by decide +kernel), by decide +kernel⟩,
    ⟨accepted (by decide +kernel), spared_of (by decide +kernel), by decide +kernel⟩,
    ⟨accepted (by decide +kernel), spared_of (by decide +kernel), by decide +kernel, by decide +kernel, by decide +kernel,
      by decide +kernel, not_again (l := ⟨10000000, 0, 1, 1, .line⟩) (by decide +kernel) (by decide +kernel)⟩, ?_,
    ⟨accepted (by decide +kernel), by decide +kernel, by decide +kernel, by unfold GoesOn; decide +kernel,
      flagged_of (by decide +kernel)⟩,
    ⟨accepted (by decide +kernel), by decide +kernel⟩, by decide⟩
  intro ticks ht
  simp only [List.mem_cons, List.not_mem_nil, or_false] at ht
  rcases ht with rfl | rfl <;>
    exact ⟨accepted (by decide +kernel), spared_of (by decide +kernel), by decide +kernel, by decide +kernel⟩

/-- Entry 6 runs ahead of entry 3 in CAUTION, by the snapshot too, and a pass costs a black flag. -/
def chasing (c : Context) (ahead : Nat) : State :=
  let s := withRule .cautionPass flagRule (withSession (fun x => { x with state := .caution }) (running c 10400000))
  withCar 5 { freshContext .running 0 with progress := ahead, progressTime := some 10000000 }
    { s with order := ⟨[5, 2], some [5, 2]⟩ }

/-- Placed ahead of entry 6 behind that. -/
theorem chasing_placed (c d : Context) (ahead : Nat)
    (h : ranksAhead (placedAs (chasing c ahead) 2 d [2, 5]) 5 2 = false) :
    Placed (chasing c ahead) (placedAs (chasing c ahead) 2 d [2, 5]) 2 :=
  ⟨[], [5], (by show ([5, 2] : List Entry).erase 2 = _; decide), rfl, (fun _ hb => by cases hb),
   fun b hb k => by cases hb; rw [(ranksAhead_iff _ _ _).2 k] at h; cases h⟩

/-- Black flags for each kind of incident of a crossing, with and without another car afield, and for a pass. -/
theorem witness_CrossingsAreTaken_flags :
    (∀ st ∈ [SessionState.green, .chequered],
      (let s := withSession (fun x => { x with state := st }) (withRule .jumpStart flagRule (running (freshContext .grid 0) 10400000))
       Accepts s 0 7 400000 10400000 2 false ∧ (ctx s 2).state = .grid ∧ (GoesOn s 2 ↔ st = .green) ∧
       FlagsCar (judged s .jumpStart { ctx s 2 with jumpFlagged := true }).2) ∧
      (let s := withSession (fun x => { x with state := st }) (vetoed (swerving lapper))
       Accepts s 3 7 400000 10400000 2 false ∧ fouls s 3 = true ∧ (GoesOn s 2 ↔ st = .green) ∧
       ∃ b, RecordBody.call b ∈ (begun s 2 (fouls s 3)).2 ∧ FlagsCar b) ∧
      (let s := withSession (fun x => { x with state := st }) (vetoed (swerving (pitted 0)))
       Accepts s 3 7 400000 10400000 2 false ∧ fouls s 3 = true ∧ (GoesOn s 2 ↔ st = .green) ∧
       FlagsCar (judged s .changeFoul (ctx s 2)).2) ∧
      (let s := withSession (fun x => { x with state := st }) (vetoed (swerving lapper))
       Accepts s 1 7 400000 10400000 2 false ∧ (GoesOn s 2 ↔ st = .green) ∧ (ctx s 2).disqualified = false ∧
       ∃ b, RecordBody.call b ∈ (begun s 2 (fouls s 1)).2 ∧ FlagsCar b)) ∧
    (let s := chasing lapper 12
     let d : Context := { lapper with
       crossed := [1], splits := [(1, 400000)], expected := 2, last := some ⟨10400000, 1, 1, 2, .line⟩
       progress := 13, progressTime := some 10400000, ring := [(13, 10400000)] }
     Accepts s 1 7 400000 10400000 2 false ∧ Spared (begun s 2 (fouls s 1)).2 ∧ (ctx s 2).disqualified = false ∧
     (after (.xingReceived 2 7 400000 10400000) s).order.list = [5, 2] ∧
     Placed s (placedAs s 2 d [2, 5]) 2 ∧
     (passesCharged s d (overtaken s (placedAs s 2 d [2, 5]) 2)).1.state = .retired) := by
  refine ⟨?_, accepted (by decide +kernel), spared_of (by decide +kernel), by decide +kernel, by decide +kernel,
    chasing_placed _ _ _ (by decide +kernel), by decide +kernel⟩
  intro st h
  simp only [List.mem_cons, List.not_mem_nil, or_false] at h
  rcases h with rfl | rfl <;>
    exact ⟨⟨accepted (by decide +kernel), by decide +kernel, by unfold GoesOn; decide +kernel, by unfold FlagsCar; decide +kernel⟩,
      ⟨accepted (by decide +kernel), by decide +kernel, by unfold GoesOn; decide +kernel, flagged_of (by decide +kernel)⟩,
      ⟨accepted (by decide +kernel), by decide +kernel, by unfold GoesOn; decide +kernel, by unfold FlagsCar; decide +kernel⟩,
      accepted (by decide +kernel), by unfold GoesOn; decide +kernel, by decide +kernel, flagged_of (by decide +kernel)⟩

/-- A car that expects line 0 closes its lap there, with no miss, with as many as MISS_TOL, and with one more. -/
def closing (missed : Nat) : Context := { lapper with expected := 0, missed := missed, last := some ⟨10000000, 2, 1, 3, .line⟩ }

/-- A lap closes at line 0, at the pit exit, at a line that reveals the missed line 0, and with an expired owed entry. -/
theorem witness_LapsAreClosed :
    (∀ missed ∈ [0, 1, 2],
      Accepts (running (closing missed) 10400000) 0 7 400000 10400000 2 false ∧
      Spared (begun (running (closing missed) 10400000) 2 false).2 ∧
      flags (charge (running (closing missed) 10400000) .lineMiss (closing missed, [])).2 = false) ∧
    (let s := running (closing 1) 10400000
     (fouls s 0 = true ↔ Foul s 0 2) ∧ (ctx s 2).state = .running ∧ s.session.state ≠ .chequered ∧
     (ctx s 2).progressTime.isSome = true ∧ zoneLine s 0 = 0 ∧ (gate s 0).role ≠ .pitEntry ∧
     (∀ l, (ctx s 2).last = some l → l.role = .line → l.line ≠ zoneLine s 0) ∧
     (ctx s 2).missed + (missedLines s.settings.timing.lines (ctx s 2).expected 0).length = s.settings.timing.missTol ∧
     ¬(s.settings.heat.raceKind = .laps ∧ s.settings.heat.raceLaps ≤ 5) ∧
     (ruleOf s .unserved).sanction ≠ .blackFlag ∧ (ruleOf s .cautionPass).sanction ≠ .blackFlag) ∧
    (let s := running (pitted 0) 10400000
     Accepts s 5 7 400000 10400000 2 false ∧ (ctx s 2).state = .inPit ∧ zoneLine s 5 = 0 ∧
     Spared (begun s 2 (fouls s 5)).2) ∧
    (let s := running (closing 0) 10400000
     Accepts s 1 7 400000 10400000 2 false ∧ zoneLine s 1 = 1 ∧
     (0 : Line) ∈ missedLines s.settings.timing.lines (ctx s 2).expected (zoneLine s 1)) ∧
    (let s := running { closing 0 with owed := [{ owes .stopGo false with deadlineLap := 5 }] } 10400000
     Accepts s 0 7 400000 10400000 2 false ∧ (ctx s 2).owed.any (fun o => decide (o.deadlineLap ≤ 5) && !o.inService) = true) ∧
    ((4 : Nat) < 5 ∧ (0 : Line) ∈ missedLines 5 4 3) := by
  refine ⟨?_, ⟨fouls_iff _ _, by decide +kernel, by decide +kernel, by decide +kernel, by decide +kernel, by decide +kernel,
      ?_, by decide +kernel⟩,
    ⟨accepted (by decide +kernel), by decide +kernel, by decide +kernel, spared_of (by decide +kernel)⟩,
    ⟨accepted (by decide +kernel), by decide +kernel⟩, ⟨accepted (by decide +kernel), by decide +kernel⟩, by decide⟩
  · intro m hm
    simp only [List.mem_cons, List.not_mem_nil, or_false] at hm
    rcases hm with rfl | rfl | rfl <;>
      exact ⟨accepted (by decide +kernel), spared_of (by decide +kernel), by decide +kernel⟩
  · intro l hl _
    have : (ctx (running (closing 1) 10400000) 2).last = some ⟨10000000, 2, 1, 3, .line⟩ := by decide +kernel
    rw [this] at hl; cases hl; decide +kernel

/-- A LINE_MISS that costs a black flag, with and without another car afield; a pass at the close; an owed entry that
expires there. -/
theorem witness_LapsAreClosed_flags :
    (∀ st ∈ [SessionState.green, .chequered],
      let s := withSession (fun x => { x with state := st }) (withRule .lineMiss flagRule (running (closing 2) 10400000))
      Accepts s 0 7 400000 10400000 2 false ∧ (GoesOn s 2 ↔ st = .green) ∧ Spared (begun s 2 false).2 ∧
      ¬Spared (charge s .lineMiss (closing 2, [])).2 ∧ (ctx s 2).disqualified = false) ∧
    (let s := chasing (closing 0) 14
     let d : Context := { closing 0 with
       laps := 5, lastLap := some 400000, lapStart := some 10400000, expected := 1
       last := some ⟨10400000, 0, 1, 1, .line⟩, progress := 15, progressTime := some 10400000, ring := [(15, 10400000)] }
     Accepts s 0 7 400000 10400000 2 false ∧ Spared (begun s 2 false).2 ∧ s.session.state ≠ .chequered ∧
     Placed s (placedAs s 2 d [2, 5]) 2 ∧
     (passesCharged s d (overtaken s (placedAs s 2 d [2, 5]) 2)).1.state = .retired) ∧
    (let c := { closing 0 with laps := 5, owed := [{ owes .stopGo false with deadlineLap := 5 }] }
     let s := withRule .unserved flagRule (running { c with laps := 4 } 10400000)
     Accepts s 0 7 400000 10400000 2 false ∧ c.state ≠ .retired ∧ (deadlinesChecked s c).1.state = .retired ∧
     (ctx s 2).disqualified = false) := by
  refine ⟨?_, ⟨accepted (by decide +kernel), spared_of (by decide +kernel), by decide, chasing_placed _ _ _ (by decide +kernel),
      by decide +kernel⟩, accepted (by decide +kernel), by decide, by decide +kernel, by decide +kernel⟩
  intro st h
  simp only [List.mem_cons, List.not_mem_nil, or_false] at h
  rcases h with rfl | rfl <;>
    exact ⟨accepted (by decide +kernel), by unfold GoesOn; decide +kernel, spared_of (by decide +kernel),
      fun k => let ⟨b, hb, f⟩ := flagged_of (l := _) (by decide +kernel); k b hb f, by decide +kernel⟩

/-- The figures of a car two places down: the newest pair of its own progress in the ring of the car ahead gives the
gap, an earlier time none below 0; without such a pair there is none; the laps down count whole laps of 3 lines. -/
theorem witness_LapsAreClosed_stands :
    let s (ring : List (Nat × Ticks)) (time : Ticks) : State :=
      let s := withLines 3 <| withCar 7 { freshContext .running 0 with progress := 9, progressTime := some 500 } <|
        withCar 4 { freshContext .running 0 with progress := 3, progressTime := some 600, ring := ring } <|
        withCar 9 { freshContext .running 0 with progress := 3, progressTime := some time } (inState .green)
      { s with order := ⟨[7, 4, 9], none⟩ }
    standing (s [(3, 550), (2, 580), (3, 600)] 700) 9 = ⟨3, some 100, 2⟩ ∧
    standing (s [(3, 600)] 590) 9 = ⟨3, some 0, 2⟩ ∧ standing (s [(2, 600)] 700) 9 = ⟨3, none, 2⟩ ∧
    standing (s [] 700) 7 = ⟨1, none, 0⟩ ∧
    (s [(3, 550), (2, 580), (3, 600)] 700).order.list = [7] ++ 4 :: 9 :: [] ∧
    (ctx (s [(3, 550), (2, 580), (3, 600)] 700) 4).ring = [(3, 550), (2, 580)] ++ (3, 600) :: [] := by decide +kernel

/-- The same close in another session state, its laps those of the heat, with or without a car afield besides. -/
def lastLap (st : SessionState) (from_ : Option SessionState) (other : Bool) : State :=
  let s := running { closing 0 with laps := 19 } 10400000
  withSession (fun x => { x with state := st, heldFrom := from_ })
    (if other then withCar 0 (freshContext .inPit 0) s else s)

theorem witness_LapsAreClosed_ends :
    (∀ p ∈ ([(.green, none), (.caution, none), (.chequered, none), (.held, some .green), (.held, some .chequered)] :
        List (SessionState × Option SessionState)), ∀ other ∈ [true, false],
      Accepts (lastLap p.1 p.2 other) 0 7 400000 10400000 2 false ∧ (lastLap p.1 p.2 other).session.state = p.1 ∧
      (lastLap p.1 p.2 other).session.heldFrom = p.2 ∧ Spared (begun (lastLap p.1 p.2 other) 2 false).2 ∧
      (lastLap p.1 p.2 other).settings.heat.raceKind = .laps ∧
      (lastLap p.1 p.2 other).settings.heat.raceLaps = min 9999 ((ctx (lastLap p.1 p.2 other) 2).laps + 1)) ∧
    (∃ f : Entry, f ≠ 2 ∧ ((ctx (lastLap .green none true) f).state = .running ∨
      (ctx (lastLap .green none true) f).state = .offTrack ∨ (ctx (lastLap .green none true) f).state = .inPit)) ∧
    ¬(∃ f : Entry, f ≠ 2 ∧ ((ctx (lastLap .green none false) f).state = .running ∨
      (ctx (lastLap .green none false) f).state = .offTrack ∨ (ctx (lastLap .green none false) f).state = .inPit)) := by
  refine ⟨?_, by decide +kernel, by decide +kernel⟩
  intro p hp other ho
  simp only [List.mem_cons, List.not_mem_nil, or_false] at hp ho
  rcases hp with rfl | rfl | rfl | rfl | rfl <;> rcases ho with rfl | rfl <;>
    exact ⟨accepted (by decide +kernel), rfl, rfl, spared_of (by decide +kernel), by decide +kernel, by decide +kernel⟩

/-- Line 1 of lane 1 with its two gates, entry 3 behind them, and pairs. -/
def doubled (c : Context) (pairs : List PendingPair) : State :=
  let s := withGate 4 { lineGate 1 with position := .secondary } (running c 10400000)
  { s with resolver := { s.resolver with pairs := pairs } }

theorem doubled_place (c : Context) (pairs : List PendingPair) :
    PairedPlace (doubled c pairs) (gate (doubled c pairs) 4).line (gate (doubled c pairs) 4).lane := by
  have h : PairedPlace (withGate 4 { lineGate 1 with position := .secondary } (running lapper 10400000)) 1 1 :=
    isPaired_iff.1 (by decide +kernel)
  exact h

theorem doubled_pairs (c : Context) (p : PendingPair) (h : p.line = 1 ∧ p.lane = 1) : PairsShape (doubled c [p]) :=
  ⟨List.nodup_singleton _, List.nodup_singleton _, Nat.succ_le_succ (Nat.zero_le 11), fun _ _ q hq => by
    rw [List.mem_singleton.1 hq, h.1, h.2]; exact doubled_place c [p]⟩

/-- Another entry's pair on the place; no pair, inside the holdoff and at its end; a pair of the entry from the other
gate at PAIR_WINDOW and 1 tick beyond; one from the same gate; an unreadable code that a pair takes. -/
theorem witness_CrossingsAreStrayed_pairs :
    let pair (e : Entry) (g : GateId) (time : Ticks) : PendingPair := ⟨e, 7, 1, 1, g, time, 10399800, false, false, 10410000⟩
    (∀ c : Context, ∀ e g time, PairedPlace (doubled c [pair e g time]) (gate (doubled c [pair e g time]) 4).line
        (gate (doubled c [pair e g time]) 4).lane ∧ PairsShape (doubled c [pair e g time])) ∧
    ((doubled lapper [pair 5 1 10399800]).rstnLow = false ∧ (gate (doubled lapper [pair 5 1 10399800]) 4).role = .line ∧
      ¬GateUnused (doubled lapper [pair 5 1 10399800]) 4 ∧ LaneOn (doubled lapper [pair 5 1 10399800]) 4 ∧
      (doubled lapper [pair 5 1 10399800]).session.state = .green ∧
      (converted (doubled lapper [pair 5 1 10399800]) 4 400000 10400000).1 = 10400000 ∧
      Attributed (doubled lapper [pair 5 1 10399800]) 4 7 10400000 2 false) ∧
    PairsShape (doubled lapper []) ∧
    (∀ time ∈ [10350000, 10350001], let s := doubled { lapper with last := some ⟨time, 1, 1, 2, .line⟩ } []
      (ctx s 2).last = some ⟨time, 1, 1, 2, .line⟩ ∧ SamePlace s 4 ⟨time, 1, 1, 2, .line⟩ ∧
      s.settings.timing.lineHoldoff = 50000) ∧
    (let s := doubled lapper [pair 2 1 10399800]
     s.settings.timing.pairWindow = 200 ∧ (10000000 : Nat) < 10400000 ∧ (10400000 : Nat) ≤ 10399800 + 200 ∧
     ¬(10400000 : Nat) ≤ 10399799 + 200 ∧
     ∀ k : GateId, ((gate s k).role = .line ∧ (gate s k).line = (gate s 4).line ∧ (gate s k).lane = (gate s 4).lane ∧
       (gate s k).position = .primary) ↔ k = 1) ∧
    ((31 : Byte).toNat = 31 ∧ ∃ p ∈ (doubled lapper [pair 2 1 10399800]).resolver.pairs,
      (p.line = (gate (doubled lapper [pair 2 1 10399800]) 4).line ∧
        p.lane = (gate (doubled lapper [pair 2 1 10399800]) 4).lane) ∧ p.gate ≠ 4 ∧ p.entry = 2) ∧
    ((pair 2 4 10399800).entry = 2 ∧ ¬(pair 2 4 10399800).gate ≠ 4) := by
  refine ⟨fun c e g time => ⟨doubled_place _ _, doubled_pairs _ _ ⟨rfl, rfl⟩⟩,
    ⟨by decide, by decide +kernel, by unfold GateUnused; decide +kernel, by unfold LaneOn; decide +kernel, by decide,
      by decide +kernel, by_code _ _ _ _ _ (by decide) (by decide +kernel)⟩,
    ⟨List.nodup_nil, List.nodup_nil, by decide, fun _ _ p h => by cases h⟩, ?_, by decide +kernel,
    ⟨rfl, ⟨2, 7, 1, 1, 1, 10399800, 10399800, false, false, 10410000⟩, List.mem_singleton.2 rfl, ?_⟩, by decide⟩
  · intro time ht
    simp only [List.mem_cons, List.not_mem_nil, or_false] at ht
    rcases ht with rfl | rfl <;> exact ⟨by decide +kernel, by unfold SamePlace; decide +kernel, by decide +kernel⟩
  · decide +kernel

/-- A pair of entry 3 at its deadline. -/
def pairOf3 : PendingPair := ⟨2, 7, 1, 1, 1, 10300000, 10300000, false, false, 10400000⟩

/-- Entry 3 with that pair, or with a drill schedule that is due. -/
def pairing (c : Context) : State :=
  { running c 10400000 with resolver := { State.reset.resolver with pairs := [pairOf3] } }
def drilling (c : Context) (d : DrillSchedule) : State :=
  { running c 10400000 with resolver := { State.reset.resolver with drills := State.reset.resolver.drills.set 2 (some d) } }

theorem witness_TimedCrossings_pair :
    (let s := pairing { lapper with last := some ⟨10250001, 1, 1, 2, .line⟩ }
     s.rstnLow = false ∧ pairOf3 ∈ s.resolver.pairs ∧ (∀ q ∈ s.resolver.pairs, q.entry = 2 ↔ q = pairOf3) ∧
     pairOf3.deadline ≤ s.clock.now ∧ (ctx s 2).last = some ⟨10250001, 1, 1, 2, .line⟩ ∧
     (10300000 : Nat) < 10250001 + s.settings.timing.lineHoldoff) ∧
    (let s := pairing { lapper with state := .finished, last := some ⟨10250000, 1, 1, 2, .line⟩ }
     (ctx s 2).last = some ⟨10250000, 1, 1, 2, .line⟩ ∧ (10250000 : Nat) + s.settings.timing.lineHoldoff ≤ 10300000 ∧
     (ctx s 2).state = .finished) := by decide +kernel
/-- A drill schedule of a finished car; those of a car inside the holdoff at the end of its lap, in each drill mode and
inside a lap; and the launch. -/
theorem witness_TimedCrossings_drill :
    (let s := drilling { lapper with state := .finished } ⟨0, 600000, false, 1, 0⟩
     s.session.state = .green ∧ s.rstnLow = false ∧
     s.resolver.drills[(2 : Entry)] = some ⟨0, 600000, false, 1, 0⟩ ∧ (ctx s 2).state = .finished) ∧
    (∀ mode ∈ [DrillMode.fixed, .ramp, .scatter],
     let s := drilling { lapper with last := some ⟨10350001, 0, 1, 1, .line⟩ } ⟨0, 600000, false, 0, 0⟩
     let t := { s with throttle := { s.throttle with
       entries := s.throttle.entries.set 2 { entryRow s 2 with drillMode := mode } } }
     t.resolver.drills[(2 : Entry)] = some ⟨0, 600000, false, 0, 0⟩ ∧ (entryRow t 2).drillMode = mode ∧ mode ≠ .off ∧
     (ctx t 2).last = some ⟨10350001, 0, 1, 1, .line⟩ ∧ t.clock.now < 10350001 + t.settings.timing.lineHoldoff) ∧
    (let s := drilling { lapper with last := some ⟨10350001, 1, 1, 2, .line⟩ } ⟨0, 600000, false, 1, 0⟩
     s.resolver.drills[(2 : Entry)] = some ⟨0, 600000, false, 1, 0⟩ ∧ ((1 : Line) == 0 && !false) = false ∧
     (ctx s 2).last = some ⟨10350001, 1, 1, 2, .line⟩) ∧
    (let s := drilling (freshContext .running 0) ⟨0, 600000, true, 0, 0⟩
     s.resolver.drills[(2 : Entry)] = some ⟨0, 600000, true, 0, 0⟩ ∧ s.session.state ≠ .caution ∧
     (ctx s 2).state = .running ∧ (ctx s 2).progressTime = none ∧ (ctx s 2).last = none) := by decide +kernel
theorem witness_TimedCrossings_overdue :
    let c := { lapper with deadline := some (.due 10400000) }
    let s := running c 10400000
    (ctx s 2).state = .running ∧ (ctx s 2).deadline = some (.due 10400000) ∧ (10400000 : Nat) ≤ s.clock.now ∧
    (∀ p ∈ s.resolver.pairs, p.entry ≠ 2) ∧ (ctx s 2).disqualified = false ∧ s.session.state ≠ .chequered ∧
    (pairing c).resolver.pairs.find? (fun q => q.entry == 2) = some pairOf3 ∧ s.link.records.length < 63 ∧
    ¬FlagsCar (judged s .offTrack { ctx s 2 with state := .offTrack, deadline := none }).2 ∧
    ∀ st ∈ [SessionState.green, .chequered],
      let u := withSession (fun x => { x with state := st }) (withRule .offTrack flagRule s)
      (GoesOn u 2 ↔ st = .green) ∧ u.rstnLow = false ∧
      FlagsCar (judged u .offTrack { ctx u 2 with state := .offTrack, deadline := none }).2 := by
  unfold FlagsCar GoesOn; decide +kernel

end Sys2Proof.Tests
end

/-! ### Proofs: full alignment

The beacon reply of an UNALIGNED gate, and the replies that are discarded (R33, R35). -/

namespace Sys2Proof.Proofs.FullAlignment

open Sys2Proof Machine Safety

/-- The state that a full alignment asks for (R33, R35), before its record goes out. -/
def alignedInFull (g : GateId) (r : Round) (count : Count) (s : State) : State :=
  { s with clock := { s.clock with
    round := some { r with replied := r.replied ++ [g] }
    gates := s.clock.gates.set g { gate s g with
      alignment := .aligned ⟨r.sent + (gate s g).hop, count, r.sent⟩, strikes := 0 } } }

/-- The GATE record of a full alignment (R39). -/
def fullRecord (g : GateId) (arrival : Ticks) : Record := ⟨g.val + 1, arrival, .gate .alignedFull none⟩

/-- ALIGNED_FULL is the one condition of a gate that sets no group (R39). -/
theorem emitGate_alignedFull (g : GateId) (arrival : Ticks) (s : State) :
    emitGate g arrival .alignedFull none s = emit (fullRecord g arrival) s := rfl

theorem alignedInFull_received (g : GateId) (r : Round) (count : Count) (s : State) :
    alignedInFull g r count (received .track s) = received .track (alignedInFull g r count s) := rfl

/-- The open round takes a reply of its number from a used slot that has not replied (R33). -/
theorem beaconReply_taken {s : State} {g : GateId} {r : Round} (hr : s.clock.round = some r)
    (hu : (gate s g).role ≠ .unused) (hg : g ∉ r.replied) (count : Count) (arrival : Ticks) :
    beaconReply g r.number count arrival s = applyReply g r count arrival s := by
  simp [beaconReply, hr, hu, hg]

theorem applyReply_unaligned {s : State} {g : GateId} (ha : (gate s g).alignment = .unaligned) (r : Round)
    (count : Count) (arrival : Ticks) :
    applyReply g r count arrival s = emit (fullRecord g arrival) (alignedInFull g r count s) := by
  have ha' : ∀ round, (gate { s with clock := { s.clock with round := round } } g).alignment = .unaligned :=
    fun _ => ha
  simp only [applyReply, ha', fullAlign, emitGate_alignedFull]
  rfl

/-- The other replies are discarded (R33). -/
theorem beaconReply_discarded {s : State} {g : GateId} {number : Byte}
    (h : ∀ r, s.clock.round = some r → r.number ≠ number ∨ (gate s g).role = .unused ∨ g ∈ r.replied)
    (count : Count) (arrival : Ticks) : beaconReply g number count arrival s = s := by
  unfold beaconReply
  split
  · rfl
  · next r hr =>
    refine if_neg fun ⟨hn, hu, hg⟩ => ?_
    rcases h r hr with k | k | k
    · exact k hn
    · exact hu k
    · exact hg k

/-- The part ends its event unchanged where RSTN is low (R19). -/
theorem exec_beaconReply_low (s : State) (hs : s.rstnLow = true) (g number : Byte) (count : Count)
    (arrival : Ticks) : exec (.beaconReply g number count arrival) s = .next (settle s) := by
  show complete (takeFrame _ _ s) = _
  rw [takeFrame, if_pos hs, complete]

/-- A frame received at a port sends no reply. -/
theorem emits_received (b : Byte) (p : Port) (s : State) : Emits b 0 s (received p s) [] :=
  emits_quiet (quiet_received p s) (by cases p <;> exact drawn_same)

/-- A record emitted by a frame, with the choices of the event's end behind it. -/
theorem emits_frame_record (p : Port) (x : Record) (s : State) :
    Emits 0x80 1 s (settle (emit x (received p s))) [x] :=
  emits_trans (emits_received 0x80 p s) (emits_trans (emits_emit x _) (emits_settle 0x80 _))

/-- With room for its record, the event sets no group (R15, R39). -/
theorem summary_frame_record {s : State} (p : Port) (x : Record) (hq : s.link.records.length < 64) :
    (settle (emit x (received p s))).mgmt.summary = s.mgmt.summary := by
  rw [settle_mgmt, summary_emit x (.inr (by cases p <;> exact hq)), received_mgmt]

/-- The reply that aligns a gate in full, as one event. -/
theorem exec_beaconReply_unaligned {s : State} {g : GateId} {r : Round} (hs : s.rstnLow = false)
    (hr : s.clock.round = some r) (hu : (gate s g).role ≠ .unused) (hg : g ∉ r.replied)
    (ha : (gate s g).alignment = .unaligned) (count : Count) (arrival : Ticks) :
    exec (.beaconReply (BitVec.ofNat 8 (g.val + 1)) r.number count arrival) s =
      .next (settle (emit (fullRecord g arrival) (received .track (alignedInFull g r count s)))) := by
  have taken := beaconReply_taken (s := received .track s) hr hu hg count arrival
  have aligned := applyReply_unaligned (s := received .track s) ha r count arrival
  rw [exec_beaconReply s g _ _ _ hs, taken, aligned, alignedInFull_received]

/-- A discarded reply is no more than a frame received (R33). -/
theorem quiet_exec_beaconReply_discarded {s : State} {g : GateId} {number : Byte}
    (h : ∀ r, s.clock.round = some r → r.number ≠ number ∨ (gate s g).role = .unused ∨ g ∈ r.replied)
    (count : Count) (arrival : Ticks) :
    ∃ t, exec (.beaconReply (BitVec.ofNat 8 (g.val + 1)) number count arrival) s = .next t ∧ Quiet s t := by
  cases hs : s.rstnLow with
  | true => exact ⟨settle s, exec_beaconReply_low s hs _ _ _ _, quiet_settle s⟩
  | false =>
    have discarded := beaconReply_discarded (s := received .track s) h count arrival
    refine ⟨settle (received .track s), ?_, quiet_trans (quiet_received .track s) (quiet_settle _)⟩
    rw [exec_beaconReply s g _ _ _ hs, discarded]

/-- Settles O22: the whole event is one record emitted over the aligned slot, or a frame received and dropped. -/
theorem replyAlignsInFull : Obligations.ReplyAlignsInFull := by
  refine ⟨fun s g r count arrival hs hr hu hg ha => ?_, fun s g number count arrival h =>
    quiet_exec_beaconReply_discarded h count arrival⟩
  have em := emits_frame_record .track (fullRecord g arrival) (alignedInFull g r count s)
  refine ⟨_, exec_beaconReply_unaligned hs hr hu hg ha count arrival, em.out, em.lamp, ?_, fun hq => ⟨?_, ?_⟩⟩
  · exact fun busy room => (em.queue hs busy room).1
  · exact summary_frame_record .track _ hq
  · exact (em.room hs hq).2 _ (List.mem_singleton_self _)

end Sys2Proof.Proofs.FullAlignment

/-! ### Proofs: the classification

Two groups sorted by their key, and the disqualified cars of the running order behind them (R107). -/

namespace Sys2Proof.Proofs.Classification

open Sys2Proof Machine Safety

/-- The first two groups of the classification: the cars that are not disqualified (R107). -/
def undisqualified (s : State) : List Entry :=
  classSort s (groupMembers s 0) ++ classSort s (groupMembers s 1)

/-- The third group: the disqualified cars as the running order has them (R107). -/
def disqualifiedTail (s : State) : List Entry := s.order.list.filter fun e => (ctx s e).disqualified

theorem groupOf_beq_two (s : State) (e : Entry) : (groupOf s e == 2) = (ctx s e).disqualified := by
  rw [Bool.eq_iff_iff, beq_iff_eq, groupOf_eq_two]

theorem classification_eq (s : State) : classification s = undisqualified s ++ disqualifiedTail s := by
  unfold classification undisqualified disqualifiedTail
  simp only [groupOf_beq_two]

theorem groupOf_of_mem_classSort {s : State} {g : Nat} {e : Entry} (h : e ∈ classSort s (groupMembers s g)) :
    groupOf s e = g :=
  ((mem_classSort s g e).1 h).2

theorem groupOf_of_mem_disqualifiedTail {s : State} {e : Entry} (h : e ∈ disqualifiedTail s) : groupOf s e = 2 :=
  (groupOf_eq_two s e).2 (List.mem_filter.1 h).2

theorem groupOf_lt_two (s : State) (e : Entry) : groupOf s e < 2 ↔ (ctx s e).disqualified = false := by
  have le := groupOf_le s e
  rw [Bool.eq_false_iff, ne_eq, ← groupOf_eq_two]
  omega

theorem mem_undisqualified (s : State) (e : Entry) :
    e ∈ undisqualified s ↔ (ctx s e).state ≠ .unused ∧ (ctx s e).disqualified = false := by
  have split : groupOf s e = 0 ∨ groupOf s e = 1 ↔ groupOf s e < 2 := by omega
  rw [undisqualified, List.mem_append, mem_classSort, mem_classSort, ← and_or_left, split, groupOf_lt_two]

theorem classification_filter_undisqualified (s : State) :
    (classification s).filter (fun e => !(ctx s e).disqualified) = undisqualified s := by
  have all : (undisqualified s).filter (fun e => !(ctx s e).disqualified) = undisqualified s :=
    List.filter_eq_self.2 fun e he => by rw [((mem_undisqualified s e).1 he).2]; rfl
  have none : (disqualifiedTail s).filter (fun e => !(ctx s e).disqualified) = [] :=
    List.filter_eq_nil_iff.2 fun e he => by rw [(List.mem_filter.1 he).2]; decide
  rw [classification_eq, List.filter_append, all, none, List.append_nil]

theorem classification_filter_disqualified (s : State) :
    (classification s).filter (fun e => (ctx s e).disqualified) = disqualifiedTail s := by
  have none : (undisqualified s).filter (fun e => (ctx s e).disqualified) = [] :=
    List.filter_eq_nil_iff.2 fun e he => by rw [((mem_undisqualified s e).1 he).2]; decide
  have all : (disqualifiedTail s).filter (fun e => (ctx s e).disqualified) = disqualifiedTail s :=
    List.filter_eq_self.2 fun e he => (List.mem_filter.1 he).2
  rw [classification_eq, List.filter_append, none, all, List.nil_append]

theorem classSort_nodup (s : State) (g : Nat) : (classSort s (groupMembers s g)).Nodup :=
  (classSort_perm s _).nodup_iff.2 (groupMembers_nodup s g)

theorem undisqualified_nodup (s : State) : (undisqualified s).Nodup := by
  refine (classSort_nodup s 0).append (classSort_nodup s 1) fun e h0 h1 => ?_
  have zero := groupOf_of_mem_classSort h0
  have one := groupOf_of_mem_classSort h1
  omega

/-- A car in use that is not disqualified is classified, whatever the running order holds. -/
theorem mem_classification_of_not_disqualified {s : State} {e : Entry} (h : (ctx s e).disqualified = false) :
    e ∈ classification s ↔ (ctx s e).state ≠ .unused := by
  have notTail : e ∉ disqualifiedTail s := fun k => by simp [disqualifiedTail, h] at k
  rw [classification_eq, List.mem_append, or_iff_left notTail, mem_undisqualified, and_iff_left h]

/-- The key of the sort says who is ahead in a group (R107, R108). -/
theorem classedAhead_of_key {s : State} {b a : Entry} (g : groupOf s b = groupOf s a)
    (h : classKey s b < classKey s a) : ClassedAhead s b a := by
  unfold classKey at h
  rw [Prod.Lex.toLex_lt_toLex, Prod.Lex.toLex_lt_toLex, ← timeAhead_iff_key] at h
  refine .inr ⟨g, .inr ?_⟩
  rcases h with laps | ⟨laps, lines | ⟨lines, time⟩⟩
  · exact .inl (Int.ofNat_lt.1 (neg_lt_neg_iff.1 laps))
  · exact .inr ⟨(Int.ofNat.inj (neg_inj.1 laps)).symm, .inl (Int.ofNat_lt.1 (neg_lt_neg_iff.1 lines))⟩
  · exact .inr ⟨(Int.ofNat.inj (neg_inj.1 laps)).symm, .inr ⟨(Int.ofNat.inj (neg_inj.1 lines)).symm, time⟩⟩

theorem classSort_classedAhead (s : State) (g : Nat) :
    (classSort s (groupMembers s g)).Pairwise (ClassedAhead s) :=
  (classSort_pairwise s _ (groupMembers_nodup s g)).imp_of_mem fun hb ha key =>
    classedAhead_of_key ((groupOf_of_mem_classSort hb).trans (groupOf_of_mem_classSort ha).symm) key

theorem disqualifiedTail_classedAhead (s : State) : (disqualifiedTail s).Pairwise (ClassedAhead s) :=
  List.pairwise_of_forall_mem_list fun _ hb _ ha =>
    have two := groupOf_of_mem_disqualifiedTail hb
    .inr ⟨two.trans (groupOf_of_mem_disqualifiedTail ha).symm, .inl two⟩

theorem undisqualified_classedAhead (s : State) : (undisqualified s).Pairwise (ClassedAhead s) := by
  refine List.pairwise_append.2 ⟨classSort_classedAhead s 0, classSort_classedAhead s 1, fun b hb a ha => .inl ?_⟩
  rw [groupOf_of_mem_classSort hb, groupOf_of_mem_classSort ha]
  exact Nat.zero_lt_one

theorem classification_classedAhead (s : State) : (classification s).Pairwise (ClassedAhead s) := by
  rw [classification_eq]
  refine List.pairwise_append.2
    ⟨undisqualified_classedAhead s, disqualifiedTail_classedAhead s, fun b hb a ha => .inl ?_⟩
  rw [groupOf_of_mem_disqualifiedTail ha, groupOf_lt_two]
  exact ((mem_undisqualified s b).1 hb).2

/-- Settles O48: the cars that are not disqualified stand sorted by group and key, each once, and the disqualified
ones of the running order follow them. -/
theorem classificationIsOrdered : Obligations.ClassificationIsOrdered := fun s =>
  ⟨classification_classedAhead s,
    (classification_filter_undisqualified s).symm ▸ undisqualified_nodup s,
    fun _ h => mem_classification_of_not_disqualified h,
    classification_filter_disqualified s⟩

end Sys2Proof.Proofs.Classification

/-! ### Proofs: the length and the session state of a request

The two checks in front of a request's own work (R185), and outputs of a state that is given by its own results. -/

namespace Sys2Proof.Proofs.RequestChecks

open Sys2Proof Machine Safety

/-- A request of the right length in a session state that takes it answers as its own work does (R185). -/
theorem checks_passed {n : Nat} {args : List Byte} {ok : SessionState → Bool} {f : State → Answer} {s : State}
    {a : Answer} (hn : args.length = n) (hs : ok s.session.state = true) (hf : f (received .station s) = a) :
    withLength n args (inStates ok f) (received .station s) = a :=
  ((withLength_of_length hn).trans (inStates_taken hs)).trans hf

/-- A request of the right length is refused in a session state that does not take it (R185). -/
theorem refuses_wrongState {n : Nat} {args : List Byte} {ok : SessionState → Bool} {f : State → Answer} {s : State}
    {c : Instr} {tag : Byte} (he : exec c s = complete (request tag (withLength n args (inStates ok f)) s))
    (hl : Listening s) (hn : args.length = n) (hs : ok s.session.state = false) : Refuses c s tag .wrongState :=
  request_refused he hl ((withLength_of_length hn).trans (inStates_refused hs))

/-- A request in a session state that takes it is refused where its own work refuses (R185). -/
theorem refuses_work {n : Nat} {args : List Byte} {ok : SessionState → Bool} {f : State → Answer} {s : State}
    {c : Instr} {tag : Byte} {r : Result}
    (he : exec c s = complete (request tag (withLength n args (inStates ok f)) s)) (hl : Listening s)
    (hn : args.length = n) (hs : ok s.session.state = true)
    (hf : f (received .station s) = refuse r (received .station s)) : Refuses c s tag r :=
  request_refused he hl (checks_passed hn hs hf)

end Sys2Proof.Proofs.RequestChecks

/-! ### Proofs: seed, mask and best laps

Requests that load one value and answer at once (R83, R131, R191). -/

namespace Sys2Proof.Proofs.SeedMaskAndBest

open Sys2Proof Machine Safety RequestChecks

/-- Two argument bytes read as a number are their concatenation (R5). -/
theorem arg16_pair (hi lo : Byte) : arg16 [hi, lo] 0 = (hi ++ lo).toNat := by
  rw [BitVec.toNat_append, ← Nat.shiftLeft_add_eq_or_of_lt lo.isLt, Nat.shiftLeft_eq]
  rfl

theorem arg16_pair_eq_zero (hi lo : Byte) : arg16 [hi, lo] 0 = 0 ↔ hi ++ lo = (0 : BitVec 16) := by
  rw [arg16_pair, ← BitVec.toNat_inj]
  rfl

theorem exec_setSeed (tag : Byte) (args : List Byte) (s : State) :
    exec (.setSeed tag args) s = complete (request tag (setSeed args) s) := rfl

theorem exec_setAttnMask (tag : Byte) (args : List Byte) (s : State) :
    exec (.setAttnMask tag args) s = complete (request tag (setAttnMask args) s) := rfl

theorem exec_clearBest (tag : Byte) (args : List Byte) (s : State) :
    exec (.clearBest tag args) s = complete (request tag (clearBest args) s) := rfl

section
variable {s : State} (hl : Listening s) (tag : Byte)
include hl

/-- A seed other than 0 replaces the LFSR's value (R131). -/
theorem setSeed_loads {hi lo : Byte} (hs : beforeStart s.session.state = true) (h : hi ++ lo ≠ (0 : BitVec 16)) :
    ∃ t, exec (.setSeed tag [hi, lo]) s = .next t ∧
      Quiet { s with resolver := { s.resolver with lfsr := hi ++ lo } } t ∧ Replied s t tag .ok [] := by
  refine request_taken (exec_setSeed tag _ s) hl (checks_passed rfl hs ?_) hl.1 rfl
  rw [if_neg (mt (arg16_pair_eq_zero hi lo).1 h), arg16_pair, BitVec.ofNat_toNat, BitVec.setWidth_eq]
  rfl

theorem setSeed_refuses_zero {hi lo : Byte} (hs : beforeStart s.session.state = true)
    (h : hi ++ lo = (0 : BitVec 16)) : Refuses (.setSeed tag [hi, lo]) s tag .badValue :=
  refuses_work (exec_setSeed tag _ s) hl rfl hs (if_pos ((arg16_pair_eq_zero hi lo).2 h))

/-- The mask is replaced, and ATTN follows the new mask (R191, R192). -/
theorem setAttnMask_replaces (mask : Byte) : ∃ t, exec (.setAttnMask tag [mask]) s = .next t ∧
    Quiet { s with mgmt := { s.mgmt with mask := mask } } t ∧ Replied s t tag .ok [mask] ∧
    attnAsserted t = (s.mgmt.summary &&& mask != 0) := by
  obtain ⟨t, next, quiet, replied⟩ := request_taken (u := { s with mgmt := { s.mgmt with mask := mask } })
    (exec_setAttnMask tag [mask] s) hl (withLength_of_length rfl) hl.1 rfl
  refine ⟨t, next, quiet, replied, ?_⟩
  rw [attnAsserted, outputs_summary quiet.outputs, quiet.outputs.rest]

/-- Every best lap becomes absent (R83). -/
theorem clearBest_clears : ∃ t, exec (.clearBest tag []) s = .next t ∧ Quiet { s with contexts := t.contexts } t ∧
    (∀ e : Entry, ctx t e = { ctx s e with bestLap := none }) ∧ Replied s t tag .ok [] := by
  obtain ⟨t, next, quiet, replied⟩ := request_taken (u := updAllCtx (fun c => { c with bestLap := none }) s)
    (exec_clearBest tag [] s) hl (withLength_of_length rfl) hl.1 rfl
  refine ⟨t, next, ?_, fun e => ?_, replied⟩
  · rw [outputs_contexts quiet.outputs]
    exact quiet
  · rw [outputs_ctx quiet.outputs, ctx_updAllCtx]

end

/-- Settles O35: each of the three requests passes its checks and loads its value, and a seed that is 0 or comes after
the start is refused. -/
theorem seedMaskAndBestResult : Obligations.SeedMaskAndBestResult := fun _ tag hl =>
  ⟨fun _ _ =>
    ⟨fun taken => setSeed_loads hl tag ((beforeStart_iff _).2 taken),
      fun taken => setSeed_refuses_zero hl tag ((beforeStart_iff _).2 taken),
      fun late => refuses_wrongState (exec_setSeed tag _ _) hl rfl (beforeStart_false late)⟩,
    setAttnMask_replaces hl tag, clearBest_clears hl tag⟩

end Sys2Proof.Proofs.SeedMaskAndBest

/-! ### Proofs: ARM and START

Each is a state built by the request and then announced: the heat that ARM sets up (R112), the countdown that START
begins (R113). -/

namespace Sys2Proof.Proofs.ArmAndStart

open Sys2Proof Machine Safety RequestChecks

theorem exec_arm (tag : Byte) (args : List Byte) (s : State) :
    exec (.arm tag args) s = complete (request tag (arm args) s) := rfl

theorem exec_start (tag : Byte) (args : List Byte) (s : State) :
    exec (.start tag args) s = complete (request tag (start args) s) := rfl

/-! #### ARM (R112) -/

/-- The heat that ARM sets up, before it is announced (R22, R58, R61, R68, R96, R112, R145). -/
def armedHeat (s : State) : State :=
  { clearResolver (updAllGates armSlot s) with
    clock := { (updAllGates armSlot s).clock with now := 0, round := none, balance := 0 }
    contexts := Vector.ofFn fun e : Entry =>
      if mapped s e then freshContext .grid s.settings.fuel.cap else unusedContext
    order := ⟨allEntries.filter fun e => mapped s e, none⟩
    penalty := { s.penalty with stopSet := [] }
    pit := Pit.reset
    session := ⟨.armed, none, false, none, none, fullHeatClock s.settings.heat, none, [], lines s⟩ }

theorem armHeat_eq (s : State) : armHeat s = announce .request (armedHeat s) := rfl

theorem armedHeat_received (s : State) : armedHeat (received .station s) = received .station (armedHeat s) := rfl

theorem gate_armedHeat (s : State) (g : GateId) : gate (armedHeat s) g = armSlot (gate s g) :=
  gate_updAllGates g armSlot s

theorem ctx_armedHeat (s : State) (e : Entry) :
    ctx (armedHeat s) e = if mapped s e then freshContext .grid s.settings.fuel.cap else unusedContext := by
  simp [ctx, armedHeat]

theorem mapped_iff (s : State) (e : Entry) : mapped s e = true ↔ (entryRow s e).controller ≠ none :=
  Option.isSome_iff_ne_none

/-- The heat clock counts a TIME heat down and a LAPS heat up (R112). -/
theorem fullHeatClock_eq (h : HeatSettings) :
    fullHeatClock h = if h.raceKind = .time then h.heatLen * 100000 else 0 := by
  unfold fullHeatClock
  cases h.raceKind <;> rfl

theorem any_mapped_iff (s : State) :
    (allEntries.any fun e => mapped s e) = true ↔ ∃ e : Entry, (entryRow s e).controller ≠ none := by
  simp only [any_allEntries, mapped_iff]

section
variable {s : State} (hl : Listening s) (tag : Byte) (hs : betweenHeats s.session.state = true)
include hl hs

/-- ARM with an entry mapped and every enabled lane gated announces the heat that it has set up (R112). -/
theorem arm_sets_up (used : ∃ e : Entry, (entryRow s e).controller ≠ none) (gated : LanesGated s) :
    ∃ t, exec (.arm tag []) s = .next t ∧ Outputs 0xC0 (armedHeat s) t ∧
      Announced s t ⟨.redHold, 0⟩ .armed .request ∧ Replied s t tag .ok [] := by
  have hm : (allEntries.any fun e => mapped (received .station s) e) = true := (any_mapped_iff s).2 used
  have hg : lanesGated (received .station s) = true := (lanesGated_iff s).2 gated
  have work : arm [] (received .station s) = okay [] (announce .request (received .station (armedHeat s))) := by
    refine checks_passed rfl hs ?_
    rw [hm, hg, armHeat_eq, armedHeat_received]
    rfl
  obtain ⟨t, next, out, announced, replied, -⟩ :=
    request_moves (exec_arm tag [] s) hl work rfl rfl (quiet_received .station (armedHeat s)).outputs
  exact ⟨t, next, out, announced, replied⟩

theorem arm_refuses_noEntries (unused : ¬∃ e : Entry, (entryRow s e).controller ≠ none) :
    Refuses (.arm tag []) s tag .noEntries := by
  have hm : (allEntries.any fun e => mapped (received .station s) e) = false :=
    Bool.eq_false_iff.2 (mt (any_mapped_iff s).1 unused)
  refine refuses_work (exec_arm tag [] s) hl rfl hs ?_
  rw [hm]
  rfl

theorem arm_refuses_ungated (used : ∃ e : Entry, (entryRow s e).controller ≠ none) (ungated : ¬LanesGated s) :
    Refuses (.arm tag []) s tag .wrongState := by
  have hm : (allEntries.any fun e => mapped (received .station s) e) = true := (any_mapped_iff s).2 used
  have hg : lanesGated (received .station s) = false := Bool.eq_false_iff.2 (mt (lanesGated_iff s).1 ungated)
  refine refuses_work (exec_arm tag [] s) hl rfl hs ?_
  rw [hm, hg]
  rfl

end

/-- Settles O42: outputs leave the gates and the contexts that ARM has set up, so the heat can be read off the state
behind them. -/
theorem armResult : Obligations.ArmResult := by
  intro s tag hl
  refine ⟨fun between used gated => ?_,
    fun between => arm_refuses_noEntries hl tag ((betweenHeats_iff _).2 between),
    fun between => arm_refuses_ungated hl tag ((betweenHeats_iff _).2 between),
    fun heat => refuses_wrongState (exec_arm tag _ s) hl rfl (betweenHeats_false heat)⟩
  obtain ⟨t, next, out, announced, replied⟩ := arm_sets_up hl tag ((betweenHeats_iff _).2 between) used gated
  refine ⟨t, next, ?_, fun g => ?_, fun e => ?_, announced, replied⟩
  · rw [outputs_gates out, outputs_contexts out, ← fullHeatClock_eq]
    exact out
  · have kept : gate t g = gate (armedHeat s) g := congrArg (fun gates => gates[g]) (outputs_gates out)
    rw [kept, gate_armedHeat, armSlot]
  · rw [outputs_ctx out, ctx_armedHeat]
    by_cases free : (entryRow s e).controller = none
    · rw [if_pos free, if_neg (mt (mapped_iff s e).1 (not_not.2 free))]
    · rw [if_neg free, if_pos ((mapped_iff s e).2 free)]
      rfl

/-! #### START (R113) -/

/-- The countdown that START begins, before it is announced: the LFSR is stepped once for the hold length (R66,
R113). -/
def countingDown (s : State) : State :=
  { (draw s).1 with session := { s.session with
      state := .countdown
      countdown := some ⟨.steps, s.settings.heat.countSteps, holdLength (draw s).2 s.settings.heat.randomMax,
        s.settings.heat.stepIvl⟩ } }

section
variable {s : State} (hl : Listening s) (tag : Byte) (hs : s.session.state = .armed)
include hl hs

/-- START with every gate ready announces the countdown that it has begun (R113). -/
theorem start_counts_down (ready : GatesReady s) : ∃ t, exec (.start tag []) s = .next t ∧
    Outputs 0xC0 (countingDown s) t ∧ Announced s t ⟨.red, s.settings.heat.countSteps⟩ .countdown .request ∧
    Replied s t tag .ok [] := by
  have ha : gatesAligned (received .station s) = true := (gatesAligned_iff s).2 ready
  have work : start [] (received .station s) = okay [] (announce .request (received .station (countingDown s))) := by
    refine checks_passed rfl (beq_iff_eq.2 hs) ?_
    rw [ha]
    rfl
  obtain ⟨t, next, out, announced, replied, -⟩ :=
    request_moves (exec_start tag [] s) hl work rfl rfl (quiet_received .station (countingDown s)).outputs
  exact ⟨t, next, out, announced, replied⟩

theorem start_refuses_notAligned (unready : ¬GatesReady s) : Refuses (.start tag []) s tag .notAligned := by
  have ha : gatesAligned (received .station s) = false := Bool.eq_false_iff.2 (mt (gatesAligned_iff s).1 unready)
  refine refuses_work (exec_start tag [] s) hl rfl (beq_iff_eq.2 hs) ?_
  rw [ha]
  rfl

end

/-- Settles O43: the countdown begun is the one that the statement spells out, the draw included. -/
theorem startResult : Obligations.StartResult := fun s tag hl =>
  ⟨start_counts_down hl tag, start_refuses_notAligned hl tag,
    fun elsewhere => refuses_wrongState (exec_start tag _ s) hl rfl (beq_eq_false_iff_ne.2 elsewhere)⟩

end Sys2Proof.Proofs.ArmAndStart

/-! ### Proofs: STATUS and CLEAR_EVENTS

Requests that report the state in front of them and then clear part of it (R4, R190, R194). -/

namespace Sys2Proof.Proofs.StatusAndEvents

open Sys2Proof Machine Safety

/-! #### STATUS (R194) -/

theorem exec_status (tag : Byte) (args : List Byte) (s : State) :
    exec (.status tag args) s = complete (request tag (status args) s) := rfl

/-- The state behind STATUS: the beat flag and the beat inhibit are clear (R194). -/
def beatCleared (s : State) : State := { s with mgmt := { s.mgmt with beatFlag := false, beatInhibit := false } }

/-- The fields are read before the beat flag is cleared (R194). -/
theorem status_eq (s : State) : status [] s = okay (statusBytes s) (beatCleared s) := withLength_of_length rfl

/-- A frame received is none of the ten fields (R194). -/
theorem statusBytes_received (s : State) : statusBytes (received .station s) = statusBytes s := rfl

theorem beatCleared_received (s : State) : beatCleared (received .station s) = received .station (beatCleared s) := rfl

/-- Settles O34: the frame of the request touches none of the fields that are answered and neither flag that is
cleared. -/
theorem statusResult : Obligations.StatusResult := by
  intro s tag hl
  have work : status [] (received .station s) = okay (statusBytes s) (received .station (beatCleared s)) := by
    rw [status_eq, statusBytes_received, beatCleared_received]
  exact request_taken (exec_status tag [] s) hl work hl.1 rfl

/-! #### CLEAR_EVENTS (R4, R190) -/

theorem exec_clearEvents (tag : Byte) (args : List Byte) (s : State) :
    exec (.clearEvents tag args) s = complete (request tag (clearEvents args) s) := rfl

/-- The link unit behind CLEAR_EVENTS: where LINK is named, both bad-frame counts are 0 (R4). -/
def countsCleared (groups : Byte) (l : Link) : Link :=
  if groups &&& 0x01 = 0 then l else { l with stationBad := 0, trackBad := 0 }

/-- The state behind CLEAR_EVENTS: the named groups are out of the summary (R190). -/
def eventsCleared (groups : Byte) (s : State) : State :=
  { s with
    mgmt := { s.mgmt with summary := s.mgmt.summary &&& ~~~groups }
    link := countsCleared groups s.link }

theorem countsCleared_unnamed {groups : Byte} (h : groups &&& 0x01 = 0) (l : Link) : countsCleared groups l = l :=
  if_pos h

theorem countsCleared_named {groups : Byte} (h : groups &&& 0x01 ≠ 0) (l : Link) :
    countsCleared groups l = { l with stationBad := 0, trackBad := 0 } := if_neg h

theorem countsCleared_replies (groups : Byte) (l : Link) : (countsCleared groups l).replies = l.replies := by
  unfold countsCleared
  split <;> rfl

theorem countsCleared_stationTx (groups : Byte) (l : Link) :
    (countsCleared groups l).stationTx = l.stationTx := by
  unfold countsCleared
  split <;> rfl

/-- The answer is the summary in front of the clearing; LINK is the group of bit 0 (R4, R190). -/
theorem clearEvents_eq (groups : Byte) (s : State) :
    clearEvents [groups] s = okay [s.mgmt.summary] (eventsCleared groups s) := by
  refine (withLength_of_length (args := [groups]) rfl).trans (congrArg (okay [s.mgmt.summary]) ?_)
  unfold eventsCleared
  by_cases unnamed : groups &&& 0x01 = 0
  · rw [countsCleared_unnamed unnamed]
    exact if_pos unnamed
  · rw [countsCleared_named unnamed]
    exact if_neg unnamed

/-- The clearing and the frame received concern different parts of the link unit. -/
theorem eventsCleared_received (groups : Byte) (s : State) :
    eventsCleared groups (received .station s) = received .station (eventsCleared groups s) := by
  unfold eventsCleared
  by_cases unnamed : groups &&& 0x01 = 0
  · rw [countsCleared_unnamed unnamed, countsCleared_unnamed unnamed]
    rfl
  · rw [countsCleared_named unnamed, countsCleared_named unnamed]
    rfl

/-- Settles O37: the clearing touches neither the reply queue nor the station transmitter, so the reply is placed
behind it as behind any request. -/
theorem clearEventsResult : Obligations.ClearEventsResult := by
  intro s tag groups hl
  have work : clearEvents [groups] (received .station s) =
      okay [s.mgmt.summary] (received .station (eventsCleared groups s)) := by
    rw [clearEvents_eq, eventsCleared_received]
    rfl
  exact request_taken (exec_clearEvents tag [groups] s) hl work hl.1 (countsCleared_replies groups s.link)
    (countsCleared_stationTx groups s.link)

end Sys2Proof.Proofs.StatusAndEvents

/-! ### Proofs: what every command keeps

Each command's work keeps the invariants of Safety, and all but requests, resets and the end of a station
transmission leave the replies alone. -/

namespace Sys2Proof.Proofs.CommandsKeep

open Sys2Proof Machine Safety

/-- A command's work keeps the invariants and joins no reply (R7, R14). -/
structure Silent (s t : State) : Prop where
  safe : Safe s t
  replies : RepliesKept s t

theorem silent_of_keeps {s t : State} (k : Keeps s t) : Silent s t := ⟨safe_of_keeps k, k.replies⟩

theorem silent_refl (s : State) : Silent s s := silent_of_keeps (keeps_refl s)

theorem silent_trans {a b c : State} (h : Silent a b) (k : Silent b c) : Silent a c :=
  ⟨safe_trans h.safe k.safe, drawn_trans h.replies k.replies⟩

theorem silent_ite {b : Prop} [Decidable b] {s t u : State} (h : b → Silent s t) (k : ¬b → Silent s u) :
    Silent s (if b then t else u) := by
  split
  · next hb => exact h hb
  · next hb => exact k hb

theorem silent_settle (s : State) : Silent s (settle s) := silent_of_keeps (keeps_settle s)

/-- What a command leads to: a next state that keeps the invariants, and the replies too where it is none of those
that may touch them. -/
def Ends (quiet : Prop) (s : State) (o : Host.Outcome State Fault Refusal) : Prop :=
  ∃ t, o = .next t ∧ Safe s t ∧ (quiet → RepliesKept s t)

theorem ends_silent {quiet : Prop} {s t : State} (h : Silent s t) : Ends quiet s (complete t) :=
  have done := silent_trans h (silent_settle t)
  ⟨settle t, rfl, done.safe, fun _ => done.replies⟩

theorem ends_safe {quiet : Prop} {s t : State} (h : Safe s t) (loud : ¬quiet) : Ends quiet s (complete t) :=
  ⟨settle t, rfl, safe_trans h (silent_settle t).safe, fun k => absurd k loud⟩

theorem ends_keeps {quiet : Prop} {s t : State} (h : Keeps s t) : Ends quiet s (complete t) :=
  ends_silent (silent_of_keeps h)

/-- A request whose work is good keeps the invariants; its reply is its own (R14, R185). -/
theorem ends_request {quiet : Prop} {f : State → Answer} (good : GoodWork f) (tag : Byte) (s : State) (loud : ¬quiet) :
    Ends quiet s (complete (request tag f s)) :=
  ends_safe (safe_request tag f (fun u => (good u).1) (fun u => (good u).2) s) loud

/-- An event that is not due changes nothing (log entry 3). -/
theorem ends_whenDue {quiet : Prop} {due : Bool} {work : State → State} {s : State}
    (h : due = true → Keeps s (work s)) : Ends quiet s (whenDue due work s) :=
  ends_keeps (keeps_ite h fun _ => keeps_refl s)

theorem silent_takeFrame (p : Port) {f : State → State} (h : ∀ u, Silent u (f u)) (s : State) :
    Silent s (takeFrame p f s) :=
  silent_ite (fun _ => silent_refl s) fun _ => silent_trans (silent_of_keeps (keeps_received p s)) (h _)

theorem ends_frame {quiet : Prop} (p : Port) {f : State → State} (h : ∀ u, Keeps u (f u)) (s : State) :
    Ends quiet s (complete (takeFrame p f s)) :=
  ends_silent (silent_takeFrame p (fun u => silent_of_keeps (h u)) s)

/-! #### The path of a report (R45 to R55) -/

theorem replies_openPair (g : GateId) (x : Report) (s : State) : RepliesKept s (openPair g x s) := by
  unfold openPair
  split
  · exact (keeps_deliver x s).replies
  · exact drawn_same

theorem replies_pairStep (g : GateId) (x : Report) (s : State) : RepliesKept s (pairStep g x s) := by
  have single : RepliesKept s (deliver x s) := (keeps_deliver x s).replies
  unfold pairStep
  split
  · exact single
  · split
    · exact single
    · split
      · exact replies_openPair g x s
      · next p _ =>
        split
        · exact (keeps_partnerArrives p x s).replies
        · exact drawn_trans (keeps_releasePair p s).replies (replies_openPair g x _)

theorem silent_resolveReport (g : GateId) (code : Byte) (count : Count) (arrival : Ticks) (s : State) :
    Silent s (resolveReport g code count arrival s) := by
  refine ⟨safe_resolveReport g code count arrival s, ?_⟩
  unfold resolveReport
  split
  · exact (keeps_stray _ _ _ _ s).replies
  · dsimp only
    split
    · exact (keeps_stray _ _ _ _ s).replies
    · exact replies_pairStep _ _ s

theorem ends_xingReceived {quiet : Prop} (g code : Byte) (count : Count) (arrival : Ticks) (s : State) :
    Ends quiet s (execXingReceived g code count arrival s) := by
  refine ends_silent (silent_takeFrame .track (fun u => ?_) s)
  split
  · exact silent_of_keeps (keeps_badFrame .track u)
  · next id _ =>
    exact silent_ite
      (fun _ => silent_trans (silent_of_keeps (keeps_mirror _ u)) (silent_resolveReport id code count arrival _))
      fun _ => silent_of_keeps (keeps_badFrame .track u)

/-! #### The other frames -/

theorem ends_beaconReply {quiet : Prop} (g number : Byte) (count : Count) (arrival : Ticks) (s : State) :
    Ends quiet s (execBeaconReply g number count arrival s) := by
  refine ends_frame .track (fun u => ?_) s
  split
  · exact keeps_badFrame .track u
  · next id _ => exact keeps_beaconReply id number count arrival u

theorem keeps_emitButton (g : Nat) (arrival : Ticks) (s : State) : Keeps s (emitButton g arrival s) :=
  keeps_trans (keeps_emit _ s) (keeps_setGroup .marshal _)

theorem ends_marshalButton {quiet : Prop} (g : Byte) (arrival : Ticks) (s : State) :
    Ends quiet s (execMarshalButton g arrival s) := by
  refine ends_frame .track (fun u => ?_) s
  split
  · exact keeps_badFrame .track u
  · exact keeps_trans (keeps_emitButton _ arrival u) (keeps_buttonAction _)

theorem ends_driveFrame {quiet : Prop} (es : List DriveEntry) (arrival : Ticks) (s : State) :
    Ends quiet s (execDriveFrame es arrival s) :=
  ends_frame .station
    (fun u => keeps_ite (fun _ => keeps_editFrame es arrival u) fun _ => keeps_badFrame .station u) s

theorem ends_byteGapTimeout {quiet : Prop} (p : Port) (s : State) : Ends quiet s (execByteGapTimeout p s) :=
  ends_silent (silent_ite
    (fun _ => silent_takeFrame p (fun u => silent_of_keeps (keeps_badFrame p u)) s) fun _ => silent_refl s)

/-! #### Transmitters and clocks -/

/-- A transmission that has ended leaves the queues as they are. -/
theorem bounded_transmitters {s : State} (a b : Option Transmission) (h : Bounded s) :
    Bounded { s with link := { s.link with stationTx := a, trackTx := b } } :=
  ⟨h.up, h.down, h.drive, h.replies, h.records, h.stationBad, h.trackBad⟩

theorem safe_link (s : State) (l : Link) (h : Bounded s → Bounded { s with link := l }) :
    Safe s { s with link := l } :=
  safe_steady steady_same h

theorem ends_stationTransmitDone {quiet : Prop} (s : State) (loud : ¬quiet) :
    Ends quiet s (execStationTransmitDone s) :=
  ends_safe (safe_ite (fun _ => safe_link s _ (bounded_transmitters none s.link.trackTx)) fun _ => safe_refl s) loud

theorem ends_trackTransmitDone {quiet : Prop} (s : State) : Ends quiet s (execTrackTransmitDone s) :=
  ends_whenDue fun _ => keeps_link s _ (bounded_transmitters s.link.stationTx none)

theorem ends_beaconBoundary {quiet : Prop} (s : State) : Ends quiet s (execBeaconBoundary s) :=
  ends_whenDue fun _ => keeps_trans (keeps_raiseBalance s) (keeps_ageGates _)

/-- A beat touches nothing that an invariant speaks of (R193). -/
theorem ends_beat {quiet : Prop} (s : State) : Ends quiet s (execBeat s) :=
  ends_silent (silent_ite (fun _ => ⟨safe_steady steady_same, drawn_same⟩) fun _ => silent_refl s)

/-! #### The resolver's and the lap engine's deadlines -/

theorem ends_pairDeadline {quiet : Prop} (e : Entry) (s : State) : Ends quiet s (execPairDeadline e s) := by
  refine ends_keeps ?_
  split
  · next p _ => exact keeps_releasePair p s
  · exact keeps_refl s

theorem ends_drillCrossingDue {quiet : Prop} (e : Entry) (s : State) : Ends quiet s (execDrillCrossingDue e s) := by
  refine ends_keeps ?_
  split
  · next d _ => exact keeps_drillDue e d s
  · exact keeps_refl s

theorem dueExpiry_running {s : State} {e : Entry} {t : Ticks} (h : dueExpiry s e = some t) :
    (ctx s e).state = .running := by
  unfold dueExpiry at h
  split at h
  · split at h
    · next running => exact running.1
    · cases h
  · cases h

/-- A RUNNING car that goes OFF_TRACK keeps its place in the order (R88, R95). -/
theorem keeps_goOffTrack (e : Entry) (t : Ticks) (s : State) (h : (ctx s e).state = .running) :
    Keeps s (goOffTrack e t s) := by
  have leaves : ContextKept (ctx s e) { ctx s e with state := .offTrack, deadline := none } :=
    contextKept_state .offTrack ⟨by rw [h]; decide, by rw [h]; decide⟩ (by rw [h]; decide) rfl
  exact keeps_trans (keeps_updCtx s e _ leaves)
    (keeps_trans (keeps_emit _ _) (keeps_trans (keeps_setGroup .marshal _) (keeps_incident e .offTrack t _)))

theorem ends_overdueExpiry {quiet : Prop} (e : Entry) (s : State) : Ends quiet s (execOverdueExpiry e s) := by
  refine ends_keeps ?_
  split
  · next t ht =>
    split
    · exact keeps_updCtx s e _ (contextKept_of rfl rfl rfl)
    · exact keeps_goOffTrack e t s (dueExpiry_running ht)
  · exact keeps_refl s

/-! #### The session's timers -/

theorem silent_goGreen (s : State) (h : s.session.state = .countdown) : Silent s (goGreen s) :=
  ⟨safe_goGreen s h,
    have begun : RepliesKept s { s with session := { s.session with
      state := .green, greenTime := some s.clock.now, countdown := none } } := drawn_same
    drawn_trans begun (drawn_trans (keeps_announce .lightsOut _).replies
      (drawn_trans (keeps_launchField _).replies (keeps_startDrills _).replies))⟩

theorem replies_endStep (c : Countdown) (s : State) (h : s.session.state = .countdown) :
    RepliesKept s (endStep c s) := by
  unfold endStep
  split
  · have lowered : RepliesKept s (setCountdown { c with red := c.red - 1, remaining := s.settings.heat.stepIvl } s) :=
      drawn_same
    exact drawn_trans lowered (keeps_showLamp _).replies
  · split
    · exact (silent_goGreen s h).replies
    · exact drawn_same

theorem ends_countdownStepEnd {quiet : Prop} (s : State) : Ends quiet s (execCountdownStepEnd s) := by
  refine ends_silent ?_
  split
  · next c hc =>
    obtain ⟨counting, present⟩ := dueCountdown_spec hc
    exact ⟨safe_endStep c s counting present, replies_endStep c s counting⟩
  · exact silent_refl s

theorem ends_randomHoldEnd {quiet : Prop} (s : State) : Ends quiet s (execRandomHoldEnd s) := by
  refine ends_silent (silent_ite (fun due => ?_) fun _ => silent_refl s)
  obtain ⟨c, hc⟩ := Option.isSome_iff_exists.1 due
  exact silent_goGreen s (dueCountdown_spec hc).1

theorem heatClockDue_running {s : State} (h : heatClockDue s = true) :
    s.session.state = .green ∨ s.session.state = .caution := by
  unfold heatClockDue at h
  simp only [Bool.and_eq_true, Bool.or_eq_true, beq_iff_eq] at h
  exact h.2

/-- The end of the heat clock comes in a state that neither rests nor waits (R121). -/
theorem ends_heatClockExpiry {quiet : Prop} (s : State) : Ends quiet s (execHeatClockExpiry s) := by
  refine ends_whenDue fun due => keeps_trans ?_ (keeps_closeTest _)
  refine keeps_enterChequered .timeUp s ?_ fun rests => ?_
  · rcases heatClockDue_running due with h | h <;> rw [h] <;> rfl
  · rcases heatClockDue_running due with h | h
    · exact not_resting h (by decide) (by decide) rests
    · exact not_resting h (by decide) (by decide) rests

/-! #### Every command -/

/-- The commands that may touch the replies: requests, resets, and the end of a frame at the station port. -/
def Loud (c : Instr) : Prop :=
  requestCode c ≠ none ∨ c ∈ [.powerOnReset, .rstnFall, .rstnRelease, .stationTransmitDone]

theorem not_quiet_of_request {c : Instr} (h : (requestCode c).isSome = true) : ¬¬Loud c :=
  not_not.2 (.inl (Option.isSome_iff_ne_none.1 h))

/-- Every command completes, keeps the invariants, and is silent unless it is one of the loud ones. -/
theorem exec_ends (c : Instr) (s : State) : Ends (¬Loud c) s (exec c s) :=
  match c with
  | .powerOnReset => ends_safe
      (safe_ite (fun _ => safe_trans (safe_powerOn s) (safe_fall _)) fun _ => safe_powerOn s)
      (not_not.2 (.inr (by decide)))
  | .rstnFall => ends_safe (safe_ite (fun _ => safe_refl s) fun _ => safe_fall s) (not_not.2 (.inr (by decide)))
  | .rstnRelease => ends_safe (safe_ite (fun _ => safe_release s) fun _ => safe_refl s)
      (not_not.2 (.inr (by decide)))
  | .byteGapTimeout port => ends_byteGapTimeout port s
  | .xingReceived gate code count arrival => ends_xingReceived gate code count arrival s
  | .beaconReply gate number count arrival => ends_beaconReply gate number count arrival s
  | .marshalButton gate arrival => ends_marshalButton gate arrival s
  | .trackPassThrough _ _ => ends_frame .track (keeps_offerUp _) s
  | .driveFrame entries arrival => ends_driveFrame entries arrival s
  | .stationBeacLampDiscard _ _ => ends_frame .station (keeps_setGroup .link) s
  | .stationPassThrough _ _ => ends_frame .station (keeps_offerDown _) s
  | .stationTransmitDone => ends_stationTransmitDone s (not_not.2 (.inr (by decide)))
  | .trackTransmitDone => ends_trackTransmitDone s
  | .beaconBoundary => ends_beaconBoundary s
  | .beaconRoundClose => ends_whenDue fun _ => keeps_closeRound s
  | .clockLimit => ends_whenDue fun _ => keeps_closeHeat .clockLimit true s
  | .raceClockStop => ends_whenDue fun _ => keeps_closeRound s
  | .pairDeadline e => ends_pairDeadline e s
  | .drillCrossingDue e => ends_drillCrossingDue e s
  | .overdueExpiry e => ends_overdueExpiry e s
  | .countdownStepEnd => ends_countdownStepEnd s
  | .randomHoldEnd => ends_randomHoldEnd s
  | .heatClockExpiry => ends_heatClockExpiry s
  | .graceExpiry => ends_whenDue fun _ => keeps_closeHeat .graceUp false s
  | .beat => ends_beat s
  | .unknownRequest tag _ _ => ends_request good_unknown tag s (not_quiet_of_request rfl)
  | .setTiming tag args => ends_request (good_setTiming args) tag s (not_quiet_of_request rfl)
  | .setHeat tag args => ends_request (good_setHeat args) tag s (not_quiet_of_request rfl)
  | .setFuel tag args => ends_request (good_setFuel args) tag s (not_quiet_of_request rfl)
  | .setSeed tag args => ends_request (good_setSeed args) tag s (not_quiet_of_request rfl)
  | .setAttnMask tag args => ends_request (good_setAttnMask args) tag s (not_quiet_of_request rfl)
  | .writeGate tag args => ends_request (good_writeGate args) tag s (not_quiet_of_request rfl)
  | .writeLine tag args => ends_request (good_writeLine args) tag s (not_quiet_of_request rfl)
  | .writeEntry tag args => ends_request (good_writeEntry args) tag s (not_quiet_of_request rfl)
  | .writeRule tag args => ends_request (good_writeRule args) tag s (not_quiet_of_request rfl)
  | .readGate tag args => ends_request (good_readGate args) tag s (not_quiet_of_request rfl)
  | .readLine tag args => ends_request (good_readLine args) tag s (not_quiet_of_request rfl)
  | .readEntry tag args => ends_request (good_readEntry args) tag s (not_quiet_of_request rfl)
  | .readRule tag args => ends_request (good_readRule args) tag s (not_quiet_of_request rfl)
  | .readCar tag args => ends_request (good_readCar args) tag s (not_quiet_of_request rfl)
  | .readOwed tag args => ends_request (good_readOwed args) tag s (not_quiet_of_request rfl)
  | .readOrder tag args => ends_request (good_readOrder args) tag s (not_quiet_of_request rfl)
  | .status tag args => ends_request (good_status args) tag s (not_quiet_of_request rfl)
  | .arm tag args => ends_request (good_arm args) tag s (not_quiet_of_request rfl)
  | .start tag args => ends_request (good_start args) tag s (not_quiet_of_request rfl)
  | .caution tag args => ends_request (good_caution args) tag s (not_quiet_of_request rfl)
  | .green tag args => ends_request (good_green args) tag s (not_quiet_of_request rfl)
  | .hold tag args => ends_request (good_hold args) tag s (not_quiet_of_request rfl)
  | .resume tag args => ends_request (good_resume args) tag s (not_quiet_of_request rfl)
  | .abort tag args => ends_request (good_abort args) tag s (not_quiet_of_request rfl)
  | .dismiss tag args => ends_request (good_dismiss args) tag s (not_quiet_of_request rfl)
  | .issueCounted tag args => ends_request (good_issue args) tag s (not_quiet_of_request rfl)
  | .issueDirect tag args => ends_request (good_issue args) tag s (not_quiet_of_request rfl)
  | .waive tag args => ends_request (good_waive args) tag s (not_quiet_of_request rfl)
  | .retire tag args => ends_request (good_retire args) tag s (not_quiet_of_request rfl)
  | .clearBest tag args => ends_request (good_clearBest args) tag s (not_quiet_of_request rfl)
  | .drillOn tag args => ends_request (good_drill args) tag s (not_quiet_of_request rfl)
  | .drillOff tag args => ends_request (good_drill args) tag s (not_quiet_of_request rfl)
  | .clearEvents tag args => ends_request (good_clearEvents args) tag s (not_quiet_of_request rfl)
  | .restartRace tag args => ends_request (good_restart args) tag s (not_quiet_of_request rfl)
  | .restartAll tag args => ends_request (good_restart args) tag s (not_quiet_of_request rfl)
  | .frameCheckFailed port => ends_frame port (keeps_badFrame port) s
  | .lengthAbove60 port => ends_frame port (keeps_badFrame port) s
  | .malformedFrame port => ends_frame port (keeps_badFrame port) s

/-- Settles O2: no command's work touches the queue of commands or the draws, and only the loud ones may touch the
replies. -/
theorem everyCommandCompletes : Obligations.EveryCommandCompletes := by
  intro c s
  obtain ⟨t, next, safe, quiet⟩ := exec_ends c s
  refine ⟨t, next, safe.pending, safe.choices, fun event plain => quiet ?_⟩
  rintro (request | loud)
  · exact request event
  · exact plain loud

/-! #### Every step -/

/-- What every step keeps: the invariants, over any queue of commands. -/
structure Preserves (s t : State) : Prop where
  bounded : Bounded s → Bounded t
  range : InRange s → InRange t
  session : SessionShape s → SessionShape t
  periods : PeriodsShape s → PeriodsShape t
  contexts : ContextsShape s → ContextsShape t
  gates : GatesShape s → GatesShape t
  pairs : GatesShape s → PairsShape s → PairsShape t
  order : OrderShape s → OrderShape t
  tables : TablesShape s → TablesShape t

theorem preserves_of_safe {s t : State} (h : Safe s t) : Preserves s t :=
  ⟨h.bounded, h.range, h.session, h.periods, h.contexts, h.gates, h.pairs, h.order, h.tables⟩

theorem preserves_trans {a b c : State} (h : Preserves a b) (k : Preserves b c) : Preserves a c :=
  ⟨k.bounded ∘ h.bounded, k.range ∘ h.range, k.session ∘ h.session, k.periods ∘ h.periods,
    k.contexts ∘ h.contexts, k.gates ∘ h.gates, fun g p => k.pairs (h.gates g) (h.pairs g p), k.order ∘ h.order,
    k.tables ∘ h.tables⟩

/-- No invariant reads the queue of commands or the draws. -/
theorem preserves_requeue (s : State) (n : Nat) (p : List Instr) :
    Preserves s { s with choices := n, pending := p } :=
  have same : Steady s { s with choices := n, pending := p } := steady_same
  ⟨bounded_link, inRange_same, sessionShape_same, periodsShape_same, contextsShape_same, gatesShape_of same.gates,
    fun _ => pairsShape_of same.gates same.pairs same.rests, same.order, tablesShape_same⟩

/-! #### A tick (R1, R21, R64, R114, R120, R122) -/

theorem countdown_tick (x : Session) : x.tick.countdown =
    if x.state = .countdown then x.countdown.map Countdown.tick else x.countdown := rfl

/-- The countdown runs and stays what it is: present in COUNTDOWN, with its red count (R114). -/
theorem sessionShape_tick {s : State} (h : SessionShape s) : SessionShape { s with session := s.session.tick } := by
  refine ⟨h.held, h.origin, ?_, fun c hc => ?_, h.steps⟩
  · rw [countdown_tick]
    split
    · rw [Option.isSome_map]
      exact h.countdown
    · exact h.countdown
  · rw [countdown_tick] at hc
    split at hc
    · obtain ⟨d, hd, rfl⟩ := Option.map_eq_some_iff.1 hc
      exact h.red d hd
    · exact h.red c hc

/-- The drill schedules run beside the pairs and the LFSR (R64). -/
theorem resolver_tick_rest (st : SessionState) (r : Resolver) :
    (r.tick st).pairs = r.pairs ∧ (r.tick st).lfsr = r.lfsr := by
  unfold Resolver.tick
  split <;> exact ⟨rfl, rfl⟩

theorem elapse_resolver (s : State) : (elapse s).1.resolver.pairs = s.resolver.pairs ∧
    (elapse s).1.resolver.lfsr = s.resolver.lfsr := by
  show (if s.rstnLow then s.resolver else s.resolver.tick s.session.state).pairs = _ ∧
    (if s.rstnLow then s.resolver else s.resolver.tick s.session.state).lfsr = _
  split
  · exact ⟨rfl, rfl⟩
  · exact resolver_tick_rest _ _

theorem elapse_session (s : State) :
    (elapse s).1.session = s.session ∨ (elapse s).1.session = s.session.tick := by
  show (if s.rstnLow then s.session else s.session.tick) = _ ∨ _
  split
  · exact .inl rfl
  · exact .inr (if_neg ‹_›)

theorem sessionShape_elapse {s : State} (h : SessionShape s) : SessionShape (elapse s).1 := by
  rcases elapse_session s with same | ticked
  · exact sessionShape_same same rfl h
  · exact sessionShape_same (s := { s with session := s.session.tick }) ticked rfl (sessionShape_tick h)

theorem session_tick_fields (s : State) : (elapse s).1.session.state = s.session.state ∧
    (elapse s).1.session.periods = s.session.periods := by
  rcases elapse_session s with same | ticked
  · rw [same]
    exact ⟨rfl, rfl⟩
  · rw [ticked]
    exact ⟨rfl, rfl⟩

/-- A tick that passes keeps the invariants; the race clock stops at its highest value (R21). -/
theorem safe_elapse (s : State) : Safe s (elapse s).1 := by
  obtain ⟨pairs, lfsr⟩ := elapse_resolver s
  obtain ⟨state, periods⟩ := session_tick_fields s
  refine safe_steady (steady_same rfl pairs state rfl rfl) (fun h => ?_) (fun h => ?_) sessionShape_elapse
    (periodsShape_same periods) contextsShape_same tablesShape_same
  · exact ⟨h.up, h.down, h.drive, h.replies, h.records, h.stationBad, h.trackBad⟩
  · exact ⟨h.low, h.high, min_le_left _ _, lfsr ▸ h.lfsr⟩

theorem preserves_enqueue (cs : List Instr) (s : State) : Preserves s (enqueue cs s) := preserves_requeue s _ _

theorem preserves_tick (s : State) : Preserves s (tick s) := by
  have chosen : Preserves s (settle s) := preserves_of_safe (silent_settle s).safe
  unfold tick
  dsimp only
  split
  · exact preserves_trans chosen (preserves_trans (preserves_of_safe (safe_elapse _)) (preserves_enqueue _ _))
  · exact preserves_trans chosen (preserves_enqueue _ _)

/-- A step is a tick, or the front command carried out with the rest of the queue. -/
theorem step_preserves {s t : State} (h : step s = .next t) : Preserves s t := by
  unfold step at h
  split at h
  · exact Host.Outcome.next.inj h ▸ preserves_tick s
  · next c rest _ =>
    obtain ⟨u, next, safe, -⟩ := exec_ends c { s with pending := rest }
    have same : u = t := Host.Outcome.next.inj (next.symm.trans h)
    exact same ▸ preserves_trans (preserves_requeue s s.choices rest) (preserves_of_safe safe)

/-- Settles O7: every step preserves the capacities, and over a gate table in shape the pending pairs. -/
theorem stepKeepsBounded : Obligations.StepKeepsBounded := fun _ _ h =>
  ⟨(step_preserves h).bounded, (step_preserves h).pairs⟩

/-- Settles O8: every step preserves the ranges, the gate table and the other tables. -/
theorem stepKeepsInRange : Obligations.StepKeepsInRange := fun _ _ h =>
  ⟨(step_preserves h).range, (step_preserves h).gates, (step_preserves h).tables⟩

/-- Settles O9: every step preserves the session's shape. -/
theorem stepKeepsSessionShape : Obligations.StepKeepsSessionShape := fun _ _ shape h =>
  (step_preserves h).session shape

/-- Settles O10: every step preserves the shape of the neutral periods. -/
theorem stepKeepsPeriodsShape : Obligations.StepKeepsPeriodsShape := fun _ _ shape h =>
  (step_preserves h).periods shape

/-- Settles O11: every step preserves the contexts' shape and the running order. -/
theorem stepKeepsContextsShape : Obligations.StepKeepsContextsShape := fun _ _ h =>
  ⟨(step_preserves h).contexts, (step_preserves h).order⟩

/-- Settles O1: with a command waiting, a step is `exec` of the front one. -/
theorem stepTakesFrontCommand : Obligations.StepTakesFrontCommand := by
  intro s c rest h
  simp only [step, h]

/-- The invariants that Laws/Safe does not show of the power-on state itself. -/
theorem reset_session_periods : SessionShape State.reset ∧ PeriodsShape State.reset := by
  refine ⟨⟨by decide, nofun, by decide, nofun, by decide⟩, ⟨by decide, nofun⟩⟩

/-- Settles O12: the power-on state meets every invariant. -/
theorem resetHasInvariants : Obligations.ResetHasInvariants :=
  ⟨⟨by decide, by decide, by decide, by decide, by decide, by decide, by decide⟩,
    ⟨by decide, by decide, by decide, by decide⟩, reset_session_periods.1, reset_session_periods.2,
    contextsShape_reset, gatesShape_reset, pairsShape_nil rfl, orderShape_reset, tablesShape_reset⟩

end Sys2Proof.Proofs.CommandsKeep

/-! ### Proofs: the ports

Bad frames, passed-through frames, a full reply queue, a low line, and the choices of the two transmitters (R4, R9 to
R19, R30, R31). -/

namespace Sys2Proof.Proofs.Ports

open Sys2Proof Machine Safety FullAlignment

/-! #### Outputs without a reply, a record or a lamp -/

/-- As `Outputs`, with no reply, record or lamp joining its holding place. -/
structure Mute (g : Byte) (s t : State) : Prop where
  out : Outputs g s t
  records : RecordsKept s t
  lamp : LampKept s t
  replies : RepliesKept s t

theorem mute_of_quiet {g : Byte} {s t : State} (h : Quiet s t) (r : RepliesKept s t) : Mute g s t :=
  ⟨outputs_zero h.outputs, h.records, h.lamp, r⟩

theorem mute_trans {g : Byte} {a b c : State} (h : Mute g a b) (k : Mute g b c) : Mute g a c :=
  ⟨outputs_trans h.out k.out, drawn_trans h.records k.records, drawn_trans h.lamp k.lamp,
    drawn_trans h.replies k.replies⟩

theorem mute_settle (g : Byte) (s : State) : Mute g s (settle s) := mute_of_quiet (quiet_settle s) (replies_settle s)

theorem mute_received (g : Byte) (p : Port) (s : State) : Mute g s (received p s) :=
  mute_of_quiet (quiet_received p s) (emits_received g p s).replies

theorem mute_setGroup (x : Group) (s : State) : Mute (groupBit x) s (setGroup x s) :=
  ⟨outputs_setGroup x s, drawn_same, drawn_same, drawn_same⟩

theorem mute_chooseStation (g : Byte) (s : State) : Mute g s (chooseStation s) :=
  mute_of_quiet (quiet_chooseStation s) (replies_chooseStation s)

theorem mute_chooseTrack (g : Byte) (s : State) : Mute g s (chooseTrack s) :=
  mute_of_quiet (quiet_chooseTrack s) (replies_chooseTrack s)

/-- A frame received and discarded with LINK (R4, R10, R11, R14). -/
theorem mute_discarded (p : Port) (s : State) : Mute 0x01 s (settle (setGroup .link (received p s))) :=
  mute_trans (mute_received _ p s) (mute_trans (mute_setGroup .link _) (mute_settle _ _))

theorem link_discarded (p : Port) (s : State) : groupSet .link (settle (setGroup .link (received p s))) = true :=
  groupSet_settle (groupSet_setGroup .link _)

theorem takeFrame_high {s : State} (h : s.rstnLow = false) (p : Port) (work : State → State) :
    takeFrame p work s = work (received p s) := by
  unfold takeFrame
  rw [if_neg (by rw [h]; decide)]

theorem takeFrame_low {s : State} (h : s.rstnLow = true) (p : Port) (work : State → State) :
    takeFrame p work s = s := if_pos h

/-! #### A full reply queue, and a low line (R14, R19) -/

theorem request_full {s : State} (high : s.rstnLow = false) (full : 4 ≤ s.link.replies.length) (tag : Byte)
    (f : State → Answer) : request tag f s = setGroup .link (received .station s) := by
  unfold request
  rw [if_neg (by rw [high]; decide)]
  exact if_neg (Nat.not_lt.2 full)

/-- Settles O39: the request is discarded with LINK, as any frame that finds its place full. -/
theorem fullReplyQueue : Obligations.FullReplyQueue := by
  intro s c request high full
  obtain ⟨tag, f, next⟩ := exec_of_requestCode (s := s) request
  rw [request_full high full] at next
  have mute := mute_discarded .station s
  exact ⟨_, next, mute.out, link_discarded .station s, mute.replies, mute.records, mute.lamp⟩

theorem complete_low {s : State} (h : s.rstnLow = true) : complete s = .next s := by
  rw [complete, settle_low h]

theorem exec_frame_low {s : State} (h : s.rstnLow = true) (p : Port) (work : State → State) :
    complete (takeFrame p work s) = .next s := by
  rw [takeFrame_low h, complete_low h]

theorem exec_request_low {s : State} (h : s.rstnLow = true) {c : Instr} (r : (requestCode c).isSome = true) :
    exec c s = .next s := by
  obtain ⟨tag, f, next⟩ := exec_of_requestCode (s := s) r
  rw [next, request, if_pos h, complete_low h]

theorem exec_gap_low {s : State} (h : s.rstnLow = true) (p : Port) : exec (.byteGapTimeout p) s = .next s := by
  show complete (if gapDue (receiver p s) then takeFrame p (badFrame p) s else s) = _
  rw [takeFrame_low h, ite_self, complete_low h]

/-- A command that a frame brings is one of the seven frame commands or a request. -/
theorem exec_frameOf_low {s : State} (h : s.rstnLow = true) {c : Instr} (brought : (frameOf c).isSome = true) :
    exec c s = .next s := by
  by_cases request : (requestCode c).isSome = true
  · exact exec_request_low h request
  · cases c with
    | xingReceived | beaconReply | marshalButton | trackPassThrough => exact exec_frame_low h .track _
    | driveFrame | stationBeacLampDiscard | stationPassThrough => exact exec_frame_low h .station _
    | _ => simp_all [frameOf]

/-- Settles O40: a low line takes no frame, and its transmitters choose nothing. -/
theorem lowLineTakesNoFrame : Obligations.LowLineTakesNoFrame := by
  rintro s c low (brought | ⟨p, rfl | rfl | rfl | rfl⟩)
  · exact exec_frameOf_low low brought
  · exact exec_frame_low low p _
  · exact exec_frame_low low p _
  · exact exec_frame_low low p _
  · exact exec_gap_low low p

/-! #### Bad frames (R4) -/

/-- The state with a port's bad-frame count risen by 1 (R4). -/
def counted (p : Port) (s : State) : State :=
  { s with link := match p with
    | .station => { s.link with stationBad := min 255 (s.link.stationBad + 1) }
    | .track => { s.link with trackBad := min 255 (s.link.trackBad + 1) } }

theorem badFrame_received (p : Port) (s : State) :
    badFrame p (received p s) = setGroup .link (received p (counted p s)) := by
  cases p <;> rfl

theorem exec_badFrame {s : State} {c : Instr} {p : Port} (high : s.rstnLow = false)
    (h : c = .frameCheckFailed p ∨ c = .lengthAbove60 p ∨ c = .malformedFrame p ∨
      (c = .byteGapTimeout p ∧ gapDue (receiver p s) = true)) :
    exec c s = .next (settle (setGroup .link (received p (counted p s)))) := by
  have taken : complete (takeFrame p (badFrame p) s) = .next (settle (setGroup .link (received p (counted p s)))) := by
    rw [takeFrame_high high, badFrame_received, complete]
  rcases h with rfl | rfl | rfl | ⟨rfl, due⟩
  · exact taken
  · exact taken
  · exact taken
  · show complete (if gapDue (receiver p s) then takeFrame p (badFrame p) s else s) = _
    rw [if_pos due, taken]

theorem receiver_settle (p : Port) (s : State) : receiver p (settle s) = receiver p s := by
  cases p
  · exact (settle_receivers s).1
  · exact (settle_receivers s).2

theorem hunts_received (p : Port) (s : State) : (receiver p (received p s)).asm.state = .hunt := by
  cases p <;> rfl

/-- Settles O17: the four causes share one work, the count with LINK over a frame received and gone. -/
theorem badFramesAreCounted : Obligations.BadFramesAreCounted := by
  intro s c p high cause
  have mute := mute_discarded p (counted p s)
  have queues : (counted p s).link.records = s.link.records ∧ (counted p s).link.stationTx = s.link.stationTx ∧
      (counted p s).link.lamp = s.link.lamp ∧ (counted p s).link.trackTx = s.link.trackTx ∧
      (counted p s).link.replies = s.link.replies := by
    cases p <;> exact ⟨rfl, rfl, rfl, rfl, rfl⟩
  obtain ⟨records, stationTx, lamp, trackTx, replies⟩ := queues
  refine ⟨_, exec_badFrame high cause, link_discarded p _, ?_, mute.out, ?_, ?_, ?_⟩
  · rw [receiver_settle]
    exact hunts_received p _
  · have kept := mute.records
    rwa [RecordsKept, records, stationTx] at kept
  · have kept := mute.lamp
    rwa [LampKept, lamp, trackTx] at kept
  · have kept := mute.replies
    rwa [RepliesKept, replies, stationTx] at kept

/-! #### Passed-through frames (R9 to R11) -/

/-- A frame has joined the upward pass-through queue (R11). -/
def joinedUp (f : Frame) (s : State) : State := { s with link := { s.link with up := s.link.up ++ [f] } }

/-- A frame has joined the downward pass-through queue (R11). -/
def joinedDown (f : Frame) (s : State) : State := { s with link := { s.link with down := s.link.down ++ [f] } }

theorem offerUp_room {s : State} (high : s.rstnLow = false) (room : s.link.up.length < 8) (f : Frame) (p : Port) :
    offerUp f (received p s) = chooseStation (received p (joinedUp f s)) := by
  have high' : ¬(received p s).rstnLow = true := by rw [received_rstnLow, high]; decide
  unfold offerUp
  rw [if_neg high']
  cases p <;> exact if_pos room

theorem offerUp_full {s : State} (high : s.rstnLow = false) (full : ¬s.link.up.length < 8) (f : Frame) (p : Port) :
    offerUp f (received p s) = setGroup .link (received p s) := by
  have high' : ¬(received p s).rstnLow = true := by rw [received_rstnLow, high]; decide
  unfold offerUp
  rw [if_neg high']
  cases p <;> exact if_neg full

theorem offerDown_room {s : State} (high : s.rstnLow = false) (room : s.link.down.length < 8) (f : Frame)
    (p : Port) : offerDown f (received p s) = chooseTrack (received p (joinedDown f s)) := by
  have high' : ¬(received p s).rstnLow = true := by rw [received_rstnLow, high]; decide
  unfold offerDown
  rw [if_neg high']
  cases p <;> exact if_pos room

theorem offerDown_full {s : State} (high : s.rstnLow = false) (full : ¬s.link.down.length < 8) (f : Frame)
    (p : Port) : offerDown f (received p s) = setGroup .link (received p s) := by
  have high' : ¬(received p s).rstnLow = true := by rw [received_rstnLow, high]; decide
  unfold offerDown
  rw [if_neg high']
  cases p <;> exact if_neg full

theorem transmit_station (f : Frame) : transmit .station f = ⟨f, f.body.length + 5⟩ := by
  rw [transmit, frameTicks, byteTicks, Nat.mul_one]

theorem transmit_track (f : Frame) : transmit .track f = ⟨f, 2 * (f.body.length + 5)⟩ := by
  rw [transmit, frameTicks, byteTicks, Nat.mul_comm]

theorem mute_upward (f : Frame) (s : State) :
    Mute 0 (joinedUp f s) (settle (chooseStation (received .track (joinedUp f s)))) :=
  mute_trans (mute_received 0 .track _) (mute_trans (mute_chooseStation 0 _) (mute_settle 0 _))

theorem mute_downward (f : Frame) (s : State) :
    Mute 0 (joinedDown f s) (settle (chooseTrack (received .station (joinedDown f s)))) :=
  mute_trans (mute_received 0 .station _) (mute_trans (mute_chooseTrack 0 _) (mute_settle 0 _))

theorem exec_trackPassThrough {s : State} (high : s.rstnLow = false) (ftype : Byte) (body : List Byte) :
    exec (.trackPassThrough ftype body) s = .next (settle (offerUp ⟨ftype, body⟩ (received .track s))) := by
  show complete (takeFrame .track (offerUp ⟨ftype, body⟩) s) = _
  rw [takeFrame_high high, complete]

theorem exec_stationPassThrough {s : State} (high : s.rstnLow = false) (ftype : Byte) (body : List Byte) :
    exec (.stationPassThrough ftype body) s = .next (settle (offerDown ⟨ftype, body⟩ (received .station s))) := by
  show complete (takeFrame .station (offerDown ⟨ftype, body⟩) s) = _
  rw [takeFrame_high high, complete]

theorem exec_stationBeacLampDiscard {s : State} (high : s.rstnLow = false) (ftype : Byte) (body : List Byte) :
    exec (.stationBeacLampDiscard ftype body) s = .next (settle (setGroup .link (received .station s))) := by
  show complete (takeFrame .station (setGroup .link) s) = _
  rw [takeFrame_high high, complete]

/-- Settles O18: with room the frame joins its queue and the transmitter may take that queue's head; with none it is
discarded with LINK, as a BEAC or LAMP frame always is. -/
theorem passedFramesJoinTheirQueue : Obligations.PassedFramesJoinTheirQueue := by
  intro s ftype body high
  refine ⟨⟨_, exec_trackPassThrough high ftype body, ?_⟩, ⟨_, exec_stationPassThrough high ftype body, ?_⟩,
    ⟨_, exec_stationBeacLampDiscard high ftype body, ?_⟩⟩
  · split
    · next room =>
      rw [offerUp_room high room]
      have mute := mute_upward ⟨ftype, body⟩ s
      have last := mute.out.link.up.last
      rw [transmit_station] at last
      exact ⟨⟨mute.records, mute.lamp, mute.replies⟩, mute.out, last, mute.out.link.up.kept⟩
    · next full =>
      rw [offerUp_full high full]
      have mute := mute_discarded .track s
      exact ⟨⟨mute.records, mute.lamp, mute.replies⟩, mute.out, link_discarded .track s, mute.out.link.up.kept⟩
  · split
    · next room =>
      rw [offerDown_room high room]
      have mute := mute_downward ⟨ftype, body⟩ s
      have last := mute.out.link.down.last
      rw [transmit_track] at last
      exact ⟨⟨mute.records, mute.lamp, mute.replies⟩, mute.out, last, mute.out.link.down.kept⟩
    · next full =>
      rw [offerDown_full high full]
      have mute := mute_discarded .station s
      exact ⟨⟨mute.records, mute.lamp, mute.replies⟩, mute.out, link_discarded .station s, mute.out.link.down.kept⟩
  · have mute := mute_discarded .station s
    exact ⟨mute.out, link_discarded .station s, mute.records, mute.lamp, mute.replies⟩

/-! #### The station transmitter (R17) -/

/-- What an idle station transmitter takes of the three queues that feed it (R17). -/
def StationTakes (replies : List Reply) (up : List Frame) (records : List Record) (l : Link) : Prop :=
  match replies, up, records with
  | r :: rest, _, _ => l.stationTx = some (transmit .station r.frame) ∧ l.replies = rest ∧ l.up = up ∧
      l.records = records
  | [], g :: rest, _ => l.stationTx = some (transmit .station g) ∧ l.replies = [] ∧ l.up = rest ∧
      l.records = records
  | [], [], r :: rest => l.stationTx = some (transmit .station r.frame) ∧ l.replies = [] ∧ l.up = [] ∧
      l.records = rest
  | [], [], [] => l.stationTx = none ∧ l.replies = [] ∧ l.up = [] ∧ l.records = []

theorem chooseStation_takes {s : State} (high : s.rstnLow = false) (idle : s.link.stationTx = none) :
    StationTakes s.link.replies s.link.up s.link.records (chooseStation s).link := by
  have free : ¬(s.rstnLow || s.link.stationTx.isSome) = true := by rw [high, idle]; decide
  unfold chooseStation
  rw [if_neg free]
  cases hr : s.link.replies with
  | cons r rest => exact ⟨rfl, rfl, rfl, rfl⟩
  | nil =>
    cases hu : s.link.up with
    | cons f rest => exact ⟨rfl, hr, rfl, rfl⟩
    | nil =>
      cases hq : s.link.records with
      | cons r rest => exact ⟨rfl, hr, hu, rfl⟩
      | nil => exact ⟨idle, hr, hu, hq⟩

/-- What the track transmitter chooses leaves what feeds the station transmitter. -/
theorem chooseTrack_station (s : State) : (chooseTrack s).rstnLow = s.rstnLow ∧
    (chooseTrack s).link.up = s.link.up := by
  rcases chooseTrack_cases s with
    h | ⟨_, _, ⟨_, _, h⟩ | ⟨_, _, _, h⟩ | ⟨_, _, _, h⟩ | ⟨_, _, _, _, _, h⟩⟩ <;>
    rw [h] <;> exact ⟨rfl, rfl⟩

theorem settle_takes {s : State} (high : s.rstnLow = false) (idle : s.link.stationTx = none) :
    StationTakes s.link.replies s.link.up s.link.records (settle s).link := by
  obtain ⟨low, up⟩ := chooseTrack_station s
  have takes := chooseStation_takes (low.trans high) ((chooseTrack_stationTx s).trans idle)
  rwa [chooseTrack_replies, chooseTrack_records, up] at takes

theorem sent_end {x : Option Transmission} {f : Frame} (h : x = some ⟨f, 0⟩) : sent x = true := by
  rw [h]
  rfl

theorem exec_stationTransmitDone {s : State} {f : Frame} (h : s.link.stationTx = some ⟨f, 0⟩) :
    exec .stationTransmitDone s = .next (settle { s with link := { s.link with stationTx := none } }) :=
  congrArg complete (if_pos (sent_end h))

/-- Settles O19: the transmitter is idle again and makes the choice of an event's end. -/
theorem stationTransmitterChooses : Obligations.StationTransmitterChooses := by
  intro s f high sent
  have quiet := quiet_settle { s with link := { s.link with stationTx := none } }
  exact ⟨_, exec_stationTransmitDone sent, quiet.outputs, quiet.lamp,
    settle_takes (s := { s with link := { s.link with stationTx := none } }) high rfl⟩

/-! #### The track transmitter (R18, R30, R31) -/

theorem beaconOffer_forced (s : State) :
    beaconOffer s = some .forced ↔ s.clock.round = none ∧ s.clock.balance = 8 := by
  unfold beaconOffer
  cases s.clock.round with
  | some r => simp
  | none =>
    by_cases full : s.clock.balance = 8
    · simp [full]
    · simp only [Option.isSome_none, Bool.false_eq_true, if_false, full, and_false, iff_false]
      split
      · split <;> decide
      · split <;> decide

theorem beaconOffer_due {s : State} (drive : s.link.drive = []) :
    beaconOffer s = some .due ↔ s.clock.round = none ∧ 1 ≤ s.clock.balance ∧ s.clock.balance ≠ 8 := by
  unfold beaconOffer
  cases s.clock.round with
  | some r => simp
  | none =>
    by_cases full : s.clock.balance = 8
    · simp [full]
    · by_cases owed : 1 ≤ s.clock.balance
      · simp [full, owed, drive]
      · simp only [Option.isSome_none, Bool.false_eq_true, if_false, full, owed, false_and, and_false, iff_false]
        split <;> decide

theorem quietSession_iff (st : SessionState) : quietSession st = true ↔
    st = .idle ∨ st = .armed ∨ st = .held ∨ st = .closed := by
  cases st <;> decide

theorem beaconOffer_early {s : State} (drive : s.link.drive = []) (lamp : s.link.lamp = none)
    (down : s.link.down = []) (balance : s.clock.round = none → s.clock.balance ≤ 0) :
    beaconOffer s = some .early ↔ s.clock.round = none ∧ -8 < s.clock.balance ∧
      (s.session.state = .idle ∨ s.session.state = .armed ∨ s.session.state = .held ∨
        s.session.state = .closed) := by
  unfold beaconOffer
  cases hr : s.clock.round with
  | some r => simp
  | none =>
    have low := balance hr
    have full : s.clock.balance ≠ 8 := by omega
    have owed : ¬1 ≤ s.clock.balance := by omega
    simp only [← quietSession_iff]
    simp [full, owed, drive, lamp, down]

/-- What an idle track transmitter chooses, and the beacon that it may be (R18, R30, R31). -/
def trackChoice (s : State) : State :=
  if s.clock.round = none ∧ s.clock.balance = 8 then sendBeacon s
  else match s.link.drive, s.link.lamp with
    | d :: rest, _ => { s with link := { s.link with
        drive := rest, trackTx := some (transmit .track (driveFrameOf d)) } }
    | [], some l => { s with link := { s.link with
        lamp := none, trackTx := some (transmit .track l.frame) } }
    | [], none =>
      if s.clock.round = none ∧ 1 ≤ s.clock.balance ∧ s.clock.balance ≠ 8 then sendBeacon s
      else match s.link.down with
        | g :: rest => { s with link := { s.link with down := rest, trackTx := some (transmit .track g) } }
        | [] =>
          if s.clock.round = none ∧ -8 < s.clock.balance ∧
              (s.session.state = .idle ∨ s.session.state = .armed ∨ s.session.state = .held ∨
               s.session.state = .closed) then sendBeacon s
          else s

theorem chooseTrack_eq {s : State} (high : s.rstnLow = false) (idle : s.link.trackTx = none) :
    chooseTrack s = trackChoice s := by
  have free : ¬(s.rstnLow || s.link.trackTx.isSome) = true := by rw [high, idle]; decide
  unfold chooseTrack trackChoice
  rw [if_neg free]
  by_cases forced : s.clock.round = none ∧ s.clock.balance = 8
  · rw [if_pos forced, if_pos ((beaconOffer_forced s).2 forced)]
  · rw [if_neg forced, if_neg (mt (beaconOffer_forced s).1 forced)]
    cases drive : s.link.drive with
    | cons d rest => rfl
    | nil =>
      cases lamp : s.link.lamp with
      | some l => rfl
      | none =>
        by_cases due : s.clock.round = none ∧ 1 ≤ s.clock.balance ∧ s.clock.balance ≠ 8
        · simp only [if_pos due, if_pos ((beaconOffer_due drive).2 due)]
        · simp only [if_neg due, if_neg (mt (beaconOffer_due drive).1 due)]
          cases down : s.link.down with
          | cons g rest => rfl
          | nil =>
            have low : s.clock.round = none → s.clock.balance ≤ 0 := fun hr => by
              by_contra owed
              exact due ⟨hr, by omega, fun full => forced ⟨hr, full⟩⟩
            simp only [beaconOffer_early drive lamp down low]

theorem exec_trackTransmitDone {s : State} {f : Frame} (h : s.link.trackTx = some ⟨f, 0⟩) :
    exec .trackTransmitDone s = .next (settle { s with link := { s.link with trackTx := none } }) :=
  congrArg complete (if_pos (sent_end h))

/-- A choice at the station port touches only what feeds it. -/
theorem chooseStation_rest (s : State) : chooseStation s = { s with link := { s.link with
    stationTx := (chooseStation s).link.stationTx, replies := (chooseStation s).link.replies
    up := (chooseStation s).link.up, records := (chooseStation s).link.records } } := by
  rcases chooseStation_cases s with
    h | ⟨_, _, ⟨_, _, _, h⟩ | ⟨_, _, _, _, h⟩ | ⟨_, _, _, _, _, h⟩⟩ <;> rw [h]

theorem trackChoice_stationTx {s : State} (high : s.rstnLow = false) (idle : s.link.trackTx = none) :
    (trackChoice s).link.stationTx = s.link.stationTx :=
  chooseTrack_eq high idle ▸ chooseTrack_stationTx s

/-- Settles O20: the transmitter is idle again, chooses as R18 says, and the station transmitter chooses behind it. -/
theorem trackTransmitterChooses : Obligations.TrackTransmitterChooses := by
  intro s f high sent
  have choice : settle { s with link := { s.link with trackTx := none } } =
      chooseStation (trackChoice { s with link := { s.link with trackTx := none } }) :=
    congrArg chooseStation (chooseTrack_eq (s := { s with link := { s.link with trackTx := none } }) high rfl)
  have mute := mute_settle 0 { s with link := { s.link with trackTx := none } }
  refine ⟨_, exec_trackTransmitDone sent, ?_, fun busy => ?_, mute.replies, mute.records, mute.out.link.up⟩
  · rw [choice]
    exact chooseStation_rest _
  · have stays := trackChoice_stationTx (s := { s with link := { s.link with trackTx := none } }) high rfl
    rw [choice, chooseStation_busy (stays.symm ▸ busy)]
    rfl

/-! #### Rounds and beats (R21, R32, R193) -/

theorem quiet_complete (s : State) : ∃ t, complete s = .next t ∧ Quiet s t := ⟨_, rfl, quiet_settle s⟩

theorem roundDue_of {s : State} {r : Round} (hr : s.clock.round = some r) (h : r.closes ≤ s.clock.now) :
    roundDue s = true := by
  simp [roundDue, hr, h]

theorem stopDue_of {s : State} {r : Round} (hr : s.clock.round = some r) (now : s.clock.now = 4294967295)
    (h : 4294967295 < r.closes) : stopDue s = true := by
  simp [stopDue, hr, now, Config.clockMax, h]

/-- An event that is due does its work, and the transmitters choose. -/
theorem whenDue_quiet {due : Bool} (h : due = true) (work : State → State) (s : State) :
    ∃ t, whenDue due work s = .next t ∧ Quiet (work s) t := by
  rw [whenDue, if_pos h]
  exact quiet_complete _

/-- Settles O24: each event is due, and its work is the change stated. -/
theorem roundsCloseAndBeats : Obligations.RoundsCloseAndBeats := by
  refine ⟨fun s r hr => ⟨fun closes => ?_, fun now closes => ?_⟩, fun s timer => ?_⟩
  · exact whenDue_quiet (roundDue_of hr closes) closeRound s
  · exact whenDue_quiet (stopDue_of hr now closes) closeRound s
  · obtain ⟨t, next, quiet⟩ := whenDue_quiet (show beatDue s = true by simp [beatDue, timer, Config.beatPeriod])
      (fun s => { s with mgmt := { s.mgmt with
        beatTimer := 0, beatFlag := s.mgmt.beatFlag || !s.mgmt.beatInhibit } }) s
    have flag : (s.mgmt.beatFlag || !s.mgmt.beatInhibit) =
        if s.mgmt.beatInhibit then s.mgmt.beatFlag else true := by
      cases s.mgmt.beatInhibit <;> simp
    rw [← flag]
    exact ⟨t, next, quiet⟩

end Sys2Proof.Proofs.Ports

/-! ### Proofs: power-on and the line reset

The values of the power-on state, and what POWER_ON_RESET and the two moments of a line reset leave (R19, R20, R43,
R87, R127, R132, R176, R195). -/

namespace Sys2Proof.Proofs.Resets

open Sys2Proof Machine Safety Ports

/-! #### The power-on values -/

/-- Settles O13: the tables of the chapters, row by row. -/
theorem resetValues : Obligations.ResetValues := by
  refine ⟨rfl, rfl, rfl, rfl, rfl, rfl, rfl, rfl, rfl, rfl, rfl, rfl, rfl, rfl, rfl, rfl, fun g => ?_, rfl, rfl, rfl,
    fun e => ?_, fun e => ?_, rfl, rfl, rfl, rfl, rfl, rfl, rfl, rfl, rfl, rfl, rfl, fun e => ⟨?_, ?_⟩, fun e => ?_,
    fun j => ?_, rfl, rfl, rfl, rfl, rfl, rfl, rfl⟩
  · exact Vector.getElem_replicate _
  · exact Vector.getElem_replicate _
  · exact Vector.getElem_replicate _
  · exact Vector.getElem_replicate _
  · exact Vector.getElem_replicate _
  · exact Vector.getElem_replicate _
  · exact Vector.getElem_replicate _

/-! #### The fall (R19, R87, R119, R157, R176) -/

theorem interruptible_eq (st : SessionState) :
    interruptible st = (st == .green || st == .caution || st == .chequered) := by
  cases st <;> rfl

theorem cut_station (x : Option Transmission) : cut .station x = none := by
  cases x with
  | none => rfl
  | some x => exact if_pos (Nat.mod_one _)

/-- Of a track byte, two ticks long, the last tick is left where an odd number remained (R19). -/
theorem cut_track (x : Option Transmission) : cut .track x =
    match x with
    | some x => if x.remaining % 2 = 1 then some { x with remaining := 1 } else none
    | none => none := by
  cases x with
  | none => rfl
  | some x =>
    show (if x.remaining % 2 = 0 then none else some { x with remaining := x.remaining % 2 }) = _
    rcases Nat.mod_two_eq_zero_or_one x.remaining with even | odd
    · simp [even]
    · simp [odd]

/-- The fall opens a neutral period: a heat is running and no period is open (R119, R132). -/
def fallOpens (s : State) : Bool :=
  (s.session.state == .green || s.session.state == .caution || s.session.state == .chequered) &&
    s.session.periods.all fun p => p.stop.isSome

theorem not_periodOpen (s : State) :
    (s.session.periods.all fun p => p.stop.isSome) = true ↔ ¬PeriodOpen s := by
  simp [PeriodOpen, Option.isSome_iff_ne_none]

/-- The state of the fall before a period may open: the links silent, the deadlines suspended (R19, R87). -/
def silenced (s : State) : State := suspendDeadlines { s with link := s.link.fall, rstnLow := true }

/-- The rest of the fall: the stationary marks go, and the zone override is set (R157, R176). -/
def overridden (s : State) : State :=
  { clearMarks s with throttle := { (clearMarks s).throttle with zoneOverride := true } }

theorem ctx_silenced (s : State) (e : Entry) : ctx (silenced s) e =
    { ctx s e with deadline := (ctx s e).deadline.map (suspendDeadline s.clock.now) } :=
  ctx_updAllCtx e _ _

theorem fall_eq (s : State) : fall s =
    overridden (if interruptible s.session.state then openPeriod (silenced s) else silenced s) := rfl

theorem fall_stays {s : State} (h : fallOpens s = false) : fall s = overridden (silenced s) := by
  rw [fall_eq]
  split
  · next running =>
    have isOpen : PeriodOpen (silenced s) := by
      by_contra closed
      have opens : fallOpens s = true := by
        rw [fallOpens, ← interruptible_eq, Bool.and_eq_true]
        exact ⟨running, (not_periodOpen s).2 closed⟩
      rw [h] at opens
      cases opens
    rw [openPeriod_of_open isOpen]
  · rfl

theorem fall_opens {s : State} (h : fallOpens s = true) : fall s = overridden { silenced s with
    contexts := (silenced s).contexts.map neutralised
    session := { s.session with periods := opened s.clock.now s.session.periods } } := by
  rw [fallOpens, ← interruptible_eq, Bool.and_eq_true] at h
  obtain ⟨running, closed⟩ := h
  have closed : ¬PeriodOpen (silenced s) := (not_periodOpen s).1 closed
  rw [fall_eq, if_pos running, openPeriod_of_closed closed]
  rfl

theorem fall_link (s : State) : s.link.fall = { s.link with
    stationRx := toHunt s.link.stationRx, trackRx := toHunt s.link.trackRx
    up := [], down := [], drive := [], lamp := none, replies := [], records := [], stationTx := none
    trackTx := match s.link.trackTx with
      | some x => if x.remaining % 2 = 1 then some { x with remaining := 1 } else none
      | none => none } := by
  rw [Link.fall, cut_station, cut_track]

/-- What the fall leaves, field by field. -/
theorem overridden_eq (s : State) (contexts : Vector Context 16) (session : Session) :
    overridden { silenced s with contexts := contexts, session := session } = { s with
      link := { s.link with
        stationRx := toHunt s.link.stationRx, trackRx := toHunt s.link.trackRx
        up := [], down := [], drive := [], lamp := none, replies := [], records := [], stationTx := none
        trackTx := match s.link.trackTx with
          | some x => if x.remaining % 2 = 1 then some { x with remaining := 1 } else none
          | none => none }
      rstnLow := true, contexts := contexts, session := session
      pit := { s.pit with marks := Vector.replicate 16 none }
      throttle := { s.throttle with zoneOverride := true } } := by
  rw [← fall_link]
  rfl

theorem neutralised_eq (c : Context) : neutralised c =
    { c with marks := if c.state ≠ .unused then { c.marks with neutral := true } else c.marks } := by
  unfold neutralised
  by_cases unused : c.state = .unused
  · rw [if_pos unused, if_neg (not_not.2 unused)]
  · rw [if_neg unused, if_pos unused]

theorem opened_room {ps : List Period} (h : ps.length < 32) (now : Ticks) : opened now ps = ps ++ [⟨now, none⟩] :=
  congrArg (· ++ _) (if_pos h)

theorem opened_full {a b : Period} {rest : List Period} (h : 32 ≤ (a :: b :: rest).length) (now : Ticks) :
    opened now (a :: b :: rest) = ⟨a.start, b.stop⟩ :: (rest ++ [⟨now, none⟩]) := by
  unfold opened
  rw [if_neg (Nat.not_lt.2 h)]
  rfl

theorem exec_rstnFall {s : State} (high : s.rstnLow = false) : exec .rstnFall s = .next (fall s) := by
  show complete (if s.rstnLow then s else fall s) = _
  have low : (fall s).rstnLow = true := by
    cases h : fallOpens s with
    | false => rw [fall_stays h]; rfl
    | true => rw [fall_opens h]; rfl
  rw [if_neg (by rw [high]; decide), complete_low low]

/-- Settles O15: the fall with and without a period that opens; the rest is one state. -/
theorem rstnFallResult : Obligations.RstnFallResult := by
  intro s high
  refine ⟨fall s, exec_rstnFall high, ?_⟩
  show fall s = _ ∧ (∀ e : Entry, ctx (fall s) e = { ctx s e with
      deadline := (ctx s e).deadline.map (suspendDeadline s.clock.now)
      marks := if fallOpens s = true ∧ (ctx s e).state ≠ .unused then { (ctx s e).marks with neutral := true }
        else (ctx s e).marks }) ∧ (fallOpens s = false → _) ∧ (fallOpens s = true → _) ∧ (fallOpens s = true → _)
  cases opens : fallOpens s with
  | false =>
    rw [fall_stays opens]
    refine ⟨?_, fun e => ?_, fun _ => rfl, nofun, nofun⟩
    · exact overridden_eq s _ _
    · simp only [Bool.false_eq_true, false_and, if_false]
      exact ctx_silenced s e
  | true =>
    rw [fall_opens opens]
    refine ⟨?_, fun e => ?_, nofun, fun _ room => opened_room room _, fun _ a b rest h full => ?_⟩
    · exact overridden_eq s _ _
    · have marked : ctx (overridden { silenced s with
          contexts := (silenced s).contexts.map neutralised
          session := { s.session with periods := opened s.clock.now s.session.periods } }) e =
          neutralised (ctx (silenced s) e) := ctx_updAllCtx e neutralised (silenced s)
      rw [marked, ctx_silenced, neutralised_eq]
      simp only [true_and]
    · show opened s.clock.now s.session.periods = _
      rw [h] at full ⊢
      exact opened_full full _

/-! #### Power-on (R20, R127, R195) -/

/-- The part behind power-on: the power-on state, with LAMP DARK on its way (R20, R127). -/
def poweredOn (s : State) : State :=
  { State.reset with
    link := { Link.reset with
      stationRx := { idleReceiver with coming := s.link.stationRx.coming }
      trackRx := { idleReceiver with coming := s.link.trackRx.coming }
      trackTx := some ⟨⟨0x23, [0, 0]⟩, 14⟩ }
    choices := s.choices
    pending := s.pending }

theorem powerOn_eq (s : State) : powerOn s = poweredOn s := rfl

theorem settle_poweredOn (s : State) : settle (poweredOn s) = poweredOn s := rfl

/-- No car has a deadline to suspend behind power-on (R69). -/
theorem silenced_poweredOn_contexts (s : State) : (silenced (poweredOn s)).contexts = State.reset.contexts :=
  Vector.map_replicate

/-- The part behind power-on and a fall: LAMP DARK is cut at a byte's end, and the zone override is set (R19, R176). -/
theorem fall_poweredOn (s : State) : fall (poweredOn s) =
    { poweredOn s with
      link := { (poweredOn s).link with trackTx := none }
      throttle := { Throttle.reset with zoneOverride := true }
      rstnLow := true } :=
  congrArg (fun contexts => { poweredOn s with
      link := { (poweredOn s).link with trackTx := none }
      contexts := contexts
      throttle := { Throttle.reset with zoneOverride := true }
      rstnLow := true }) (silenced_poweredOn_contexts s)

/-- Settles O14: power-on sends LAMP DARK, and a fall behind it, where RSTN is low, takes that back. -/
theorem powerOnResetResult : Obligations.PowerOnResetResult := by
  intro s
  cases low : s.rstnLow with
  | false =>
    have next : exec .powerOnReset s = .next (poweredOn s) := by
      show complete (if s.rstnLow then fall (powerOn s) else powerOn s) = _
      rw [low, powerOn_eq, complete]
      exact congrArg _ (settle_poweredOn s)
    exact ⟨_, next, rfl, rfl, rfl, rfl, rfl, rfl, rfl, rfl, rfl, rfl, rfl, rfl, rfl⟩
  | true =>
    have next : exec .powerOnReset s = .next (fall (poweredOn s)) := by
      show complete (if s.rstnLow then fall (powerOn s) else powerOn s) = _
      rw [low, powerOn_eq, if_pos rfl, complete_low rfl]
    rw [fall_poweredOn] at next
    exact ⟨_, next, rfl, rfl, rfl, rfl, rfl, rfl, rfl, rfl, rfl, rfl, rfl, rfl, rfl⟩

/-! #### The release (R43, R58, R132) -/

/-- A heat that the release sends to HELD (R132). -/
def runningHeat (s : State) : Bool :=
  s.session.state == .green || s.session.state == .caution || s.session.state == .chequered

/-- The session's move at the release (R132). -/
def releasedSession (s : State) : Session :=
  if runningHeat s then { s.session with state := .held, heldFrom := some s.session.state }
  else if s.session.state = .countdown then { s.session with state := .armed, countdown := none }
  else s.session

/-- The part at the release, before the lamp is issued (R43, R58, R87, R132, R157). -/
def released (s : State) : State :=
  { s with
    link := { s.link with stationTx := none, trackTx := none }
    rstnLow := false
    clock := { s.clock with gates := s.clock.gates.map unalignSlot, round := none, balance := 0 }
    resolver := { s.resolver with pairs := [] }
    session := releasedSession s
    contexts := if runningHeat s then
        s.contexts.map fun c => { c with deadline := c.deadline.map (suspendDeadline s.clock.now) } else s.contexts
    pit := { s.pit with marks := if runningHeat s then Vector.replicate 16 none else s.pit.marks } }

theorem releaseMove_eq (s : State) :
    releaseMove (releaseGates { s with
      link := { s.link with stationTx := none, trackTx := none }, rstnLow := false }) = released s := by
  have running : interruptible s.session.state = runningHeat s := interruptible_eq _
  unfold releaseMove released releasedSession
  by_cases h : runningHeat s = true
  · rw [if_pos h, if_pos h, if_pos h]
    exact if_pos (running.trans h)
  · rw [if_neg h, if_neg h, if_neg h]
    refine (if_neg (running ▸ h)).trans ?_
    by_cases counting : s.session.state = .countdown
    · rw [if_pos counting]
      exact if_pos counting
    · rw [if_neg counting]
      exact if_neg counting

/-- A move is announced; without one the lamp is shown and SESSION is set (R132). -/
def releaseTold (s : State) : State :=
  if movesAtRelease s.session.state then announce .lineReset (released s)
  else setGroup .session (showLamp (released s))

theorem exec_rstnRelease {s : State} (low : s.rstnLow = true) :
    exec .rstnRelease s = .next (settle (releaseTold s)) := by
  show complete (if s.rstnLow then release s else s) = _
  rw [if_pos low]
  have told : release s = releaseTold s := by
    unfold release releaseTold
    dsimp only
    rw [releaseMove_eq]
    rfl
  rw [told, complete]

theorem outputs_releaseTold (s : State) : Outputs 0xC0 (released s) (releaseTold s) := by
  unfold releaseTold
  split
  · exact outputs_announce _ _
  · exact outputs_trans (outputs_zero (outputs_issueLamp _ _)) (outputs_mono (outputs_setGroup .session _) (by decide))

theorem group_releaseTold (s : State) : groupSet .session (releaseTold s) = true := by
  unfold releaseTold
  split
  · exact group_announce _ _
  · exact groupSet_setGroup _ _

theorem shows_releaseTold (s : State) : Shows (releaseTold s) (lampOf (releasedSession s)) := by
  unfold releaseTold
  split
  · exact shows_announce rfl .lineReset
  · exact shows_setGroup (shows_issueLamp rfl _) .session

/-- The lamp of the release occupies the track transmitter, so that no beacon goes out behind it (R18, R30). -/
theorem releaseTold_lampFirst (s : State) :
    (releaseTold s).clock = (released s).clock ∧ (releaseTold s).link.trackTx.isSome = true := by
  have lamp := issueLamp_idle (s := released s) (lampOf (released s).session) rfl rfl rfl
  unfold releaseTold
  split
  · unfold announce emitSession
    rw [setGroup_clock, setGroup_link, emit_clock, emit_trackTx]
    exact lamp
  · rw [setGroup_clock, setGroup_link]
    exact lamp

theorem settle_busyTrack_clock {s : State} (h : s.link.trackTx.isSome = true) : (settle s).clock = s.clock := by
  rw [settle, chooseTrack_busy h, chooseStation_clock]

theorem recorded_releaseTold {s : State} (moves : movesAtRelease s.session.state = true)
    (room : s.link.records.length < 64) : Recorded (releaseTold s)
      ⟨0, s.clock.now, .session (releasedSession s).state .lineReset (releasedSession s).heatClock⟩ := by
  rw [releaseTold, if_pos moves]
  exact recorded_announce (s := released s) rfl room .lineReset

theorem gate_released (s : State) (g : GateId) : gate (released s) g =
    if (gate s g).role = .unused then gate s g else { gate s g with alignment := .unaligned } :=
  gate_updAllGates g unalignSlot s

theorem ctx_released (s : State) (e : Entry) : ctx (released s) e =
    if runningHeat s then { ctx s e with deadline := (ctx s e).deadline.map (suspendDeadline s.clock.now) }
    else ctx s e := by
  unfold released ctx
  cases runningHeat s with
  | false => rfl
  | true => exact Vector.getElem_map _ _

theorem releasedSession_running {s : State} (h : runningHeat s = true) :
    releasedSession s = { s.session with state := .held, heldFrom := some s.session.state } := if_pos h

theorem releasedSession_countdown {s : State} (h : s.session.state = .countdown) :
    releasedSession s = { s.session with state := .armed, countdown := none } := by
  have idle : ¬runningHeat s = true := by rw [runningHeat, h]; decide
  rw [releasedSession, if_neg idle, if_pos h]

theorem releasedSession_stays {s : State} (h : s.session.state = .idle ∨ s.session.state = .closed ∨
    s.session.state = .armed ∨ s.session.state = .held) : releasedSession s = s.session := by
  have idle : ¬runningHeat s = true := by rcases h with h | h | h | h <;> rw [runningHeat, h] <;> decide
  have still : s.session.state ≠ .countdown := by rcases h with h | h | h | h <;> rw [h] <;> decide
  rw [releasedSession, if_neg idle, if_neg still]

theorem lampOf_dark {x : Session} (h : x.state = .idle ∨ x.state = .closed) : lampOf x = ⟨.dark, 0⟩ := by
  unfold lampOf
  rcases h with h | h <;> rw [h]

theorem lampOf_redHold {x : Session} (h : x.state = .armed ∨ x.state = .held) : lampOf x = ⟨.redHold, 0⟩ := by
  unfold lampOf
  rcases h with h | h <;> rw [h]

theorem moves_of_running {s : State} (h : runningHeat s = true) : movesAtRelease s.session.state = true := by
  rw [movesAtRelease, interruptible_eq]
  exact Bool.or_eq_true_iff.2 (.inl h)

section
variable {g : Byte} {s t : State} (h : Outputs g s t)
include h

theorem outputs_resolver : t.resolver = s.resolver := (congrArg State.resolver h.rest).trans rfl
theorem outputs_penalty : t.penalty = s.penalty := (congrArg State.penalty h.rest).trans rfl
theorem outputs_throttle : t.throttle = s.throttle := (congrArg State.throttle h.rest).trans rfl
theorem outputs_settings : t.settings = s.settings := (congrArg State.settings h.rest).trans rfl
theorem outputs_rstnLow : t.rstnLow = s.rstnLow := (congrArg State.rstnLow h.rest).trans rfl
theorem outputs_mgmt : t.mgmt = { s.mgmt with summary := t.mgmt.summary } :=
  (congrArg State.mgmt h.rest).trans rfl

end

/-- Settles O16: outputs leave every field of the released state but the clock, and the lamp that goes first keeps a
beacon off the track, so that the clock stays as well. -/
theorem rstnReleaseResult : Obligations.RstnReleaseResult := by
  intro s low
  have quiet := quiet_settle (releaseTold s)
  have out : Outputs 0xC0 (released s) (settle (releaseTold s)) :=
    outputs_trans (outputs_releaseTold s) (outputs_zero quiet.outputs)
  obtain ⟨clock, busy⟩ := releaseTold_lampFirst s
  have clock : (settle (releaseTold s)).clock = (released s).clock := (settle_busyTrack_clock busy).trans clock
  have shows := shows_settle (shows_releaseTold s)
  refine ⟨_, exec_rstnRelease low, outputs_rstnLow out, outputs_session out, ?_, fun g => ?_,
    outputs_resolver out, fun e => ?_, (congrArg Pit.holds (outputs_pit out)).trans rfl,
    (congrArg Pit.marks (outputs_pit out)).trans rfl, (outputs_order out).trans rfl, (outputs_penalty out).trans rfl, (outputs_throttle out).trans rfl,
    (outputs_settings out).trans rfl, out.link,
    groupSet_settle (group_releaseTold s), (outputs_mgmt out).trans rfl, out.only, fun h => ?_, fun h => ?_,
    fun h room => ?_, fun h room => ?_⟩
  · rw [clock]
    rfl
  · have kept : gate (settle (releaseTold s)) g = gate (released s) g :=
      congrArg (fun gates => gates[g]) (outputs_gates out)
    rw [kept, gate_released]
  · rw [outputs_ctx out, ctx_released]
    rfl
  · rwa [releasedSession_stays (h.elim .inl fun h => .inr (.inl h)), lampOf_dark h] at shows
  · suffices lamp : lampOf (releasedSession s) = ⟨.redHold, 0⟩ by rwa [lamp] at shows
    rcases h with h | h | h | h
    · rw [releasedSession_running h]
      rfl
    · rw [releasedSession_countdown h]
      rfl
    · rw [releasedSession_stays (.inr (.inr (.inl h)))]
      exact lampOf_redHold (.inl h)
    · rw [releasedSession_stays (.inr (.inr (.inr h)))]
      exact lampOf_redHold (.inr h)
  · have recorded := recorded_settle (recorded_releaseTold (moves_of_running h) room)
    rwa [releasedSession_running h] at recorded
  · have recorded := recorded_settle (recorded_releaseTold (by rw [h]; rfl) room)
    rwa [releasedSession_countdown h] at recorded

end Sys2Proof.Proofs.Resets

/-! ### Proofs: frames and commands

From bytes on the wire to the command a frame is, and the bodies that no command has (R1 to R7, R9, R10, and the
request index). -/

namespace Sys2Proof.Proofs.FramesDecode

open Sys2Proof Machine Safety

/-! #### The request index -/

/-- The request index read back, over all commands. -/
theorem requestOf_requestCode (i : Instr) : Laws.CommandCode.Statement i :=
  match i with
  | .powerOnReset => Laws.CommandCode.powerOnReset
  | .rstnFall => Laws.CommandCode.rstnFall
  | .rstnRelease => Laws.CommandCode.rstnRelease
  | .byteGapTimeout port => Laws.CommandCode.byteGapTimeout port
  | .xingReceived gate code count arrival => Laws.CommandCode.xingReceived gate code count arrival
  | .beaconReply gate number count arrival => Laws.CommandCode.beaconReply gate number count arrival
  | .marshalButton gate arrival => Laws.CommandCode.marshalButton gate arrival
  | .trackPassThrough ftype body => Laws.CommandCode.trackPassThrough ftype body
  | .driveFrame entries arrival => Laws.CommandCode.driveFrame entries arrival
  | .stationBeacLampDiscard ftype body => Laws.CommandCode.stationBeacLampDiscard ftype body
  | .stationPassThrough ftype body => Laws.CommandCode.stationPassThrough ftype body
  | .stationTransmitDone => Laws.CommandCode.stationTransmitDone
  | .trackTransmitDone => Laws.CommandCode.trackTransmitDone
  | .beaconBoundary => Laws.CommandCode.beaconBoundary
  | .beaconRoundClose => Laws.CommandCode.beaconRoundClose
  | .clockLimit => Laws.CommandCode.clockLimit
  | .raceClockStop => Laws.CommandCode.raceClockStop
  | .pairDeadline e => Laws.CommandCode.pairDeadline e
  | .drillCrossingDue e => Laws.CommandCode.drillCrossingDue e
  | .overdueExpiry e => Laws.CommandCode.overdueExpiry e
  | .countdownStepEnd => Laws.CommandCode.countdownStepEnd
  | .randomHoldEnd => Laws.CommandCode.randomHoldEnd
  | .heatClockExpiry => Laws.CommandCode.heatClockExpiry
  | .graceExpiry => Laws.CommandCode.graceExpiry
  | .beat => Laws.CommandCode.beat
  | .unknownRequest tag code args => Laws.CommandCode.unknownRequest tag code args
  | .setTiming tag args => Laws.CommandCode.setTiming tag args
  | .setHeat tag args => Laws.CommandCode.setHeat tag args
  | .setFuel tag args => Laws.CommandCode.setFuel tag args
  | .setSeed tag args => Laws.CommandCode.setSeed tag args
  | .setAttnMask tag args => Laws.CommandCode.setAttnMask tag args
  | .writeGate tag args => Laws.CommandCode.writeGate tag args
  | .writeLine tag args => Laws.CommandCode.writeLine tag args
  | .writeEntry tag args => Laws.CommandCode.writeEntry tag args
  | .writeRule tag args => Laws.CommandCode.writeRule tag args
  | .readGate tag args => Laws.CommandCode.readGate tag args
  | .readLine tag args => Laws.CommandCode.readLine tag args
  | .readEntry tag args => Laws.CommandCode.readEntry tag args
  | .readRule tag args => Laws.CommandCode.readRule tag args
  | .readCar tag args => Laws.CommandCode.readCar tag args
  | .readOwed tag args => Laws.CommandCode.readOwed tag args
  | .readOrder tag args => Laws.CommandCode.readOrder tag args
  | .status tag args => Laws.CommandCode.status tag args
  | .arm tag args => Laws.CommandCode.arm tag args
  | .start tag args => Laws.CommandCode.start tag args
  | .caution tag args => Laws.CommandCode.caution tag args
  | .green tag args => Laws.CommandCode.green tag args
  | .hold tag args => Laws.CommandCode.hold tag args
  | .resume tag args => Laws.CommandCode.resume tag args
  | .abort tag args => Laws.CommandCode.abort tag args
  | .dismiss tag args => Laws.CommandCode.dismiss tag args
  | .issueCounted tag args => Laws.CommandCode.issueCounted tag args
  | .issueDirect tag args => Laws.CommandCode.issueDirect tag args
  | .waive tag args => Laws.CommandCode.waive tag args
  | .retire tag args => Laws.CommandCode.retire tag args
  | .clearBest tag args => Laws.CommandCode.clearBest tag args
  | .drillOn tag args => Laws.CommandCode.drillOn tag args
  | .drillOff tag args => Laws.CommandCode.drillOff tag args
  | .clearEvents tag args => Laws.CommandCode.clearEvents tag args
  | .restartRace tag args => Laws.CommandCode.restartRace tag args
  | .restartAll tag args => Laws.CommandCode.restartAll tag args
  | .frameCheckFailed port => Laws.CommandCode.frameCheckFailed port
  | .lengthAbove60 port => Laws.CommandCode.lengthAbove60 port
  | .malformedFrame port => Laws.CommandCode.malformedFrame port

/-- A request is brought by the MGMT frame of its tag, code and arguments (R7). -/
theorem frameOf_request {i : Instr} {tag code : Byte} {args : List Byte} (h : requestCode i = some (tag, code, args)) :
    frameOf i = some (.station, typeMgmt, tag :: code :: args) := by
  cases i <;> cases h <;> rfl

theorem commandOf_mgmt (a : Ticks) (tag code : Byte) (args : List Byte) :
    commandOf .station a typeMgmt (tag :: code :: args) = requestOf tag code args := rfl

/-! #### The frame commands (R6, R9, R10) -/

theorem commandOf_xing {a : Ticks} {g c : Byte} (count : Count) (hg : gateInRange g = true)
    (hc : codeInRange c = true) :
    commandOf .track a typeXing (g :: c :: countBytes count) = .xingReceived g c count a := by
  show (if gateInRange g && codeInRange c then Instr.xingReceived g c _ a else .malformedFrame .track) = _
  rw [hg, hc, count_of_bytes]
  rfl

theorem commandOf_reply {a : Ticks} {g : Byte} (n : Byte) (count : Count) (hg : gateInRange g = true) :
    commandOf .track a typeGstat (g :: 1 :: n :: countBytes count) = .beaconReply g n count a := by
  show (if gateInRange g && (1 : Byte) == 1 then Instr.beaconReply g n _ a else .malformedFrame .track) = _
  rw [hg, count_of_bytes]
  rfl

theorem commandOf_button {a : Ticks} {g : Byte} (hg : gateInRange g = true) :
    commandOf .track a typeGstat [g, 2] = .marshalButton g a := by
  show (if gateInRange g && (2 : Byte) == 2 then Instr.marshalButton g a else .malformedFrame .track) = _
  rw [hg]
  rfl

theorem commandOf_trackPassed {ftype : Byte} (a : Ticks) (body : List Byte) (hx : ftype ≠ typeXing)
    (hg : ftype ≠ typeGstat) : commandOf .track a ftype body = .trackPassThrough ftype body := by
  simp [commandOf, hx, hg]

theorem commandOf_drive {es : List DriveEntry} (a : Ticks) (h : driveInRange es = true) :
    commandOf .station a typeDrive (driveBody es) = .driveFrame es a := by
  have few : es.length < 256 := by
    have range : 1 ≤ es.length ∧ es.length ≤ 16 := by simpa [driveInRange] using h
    omega
  show driveOf a (BitVec.ofNat 8 es.length :: (es.map DriveEntry.bytes).flatten) = _
  simp [driveOf, driveEntries_of_bytes, h, byte_toNat _ few]

theorem commandOf_discarded {ftype : Byte} (a : Ticks) (body : List Byte) (h : ftype = typeBeac ∨ ftype = typeLamp) :
    commandOf .station a ftype body = .stationBeacLampDiscard ftype body := by
  rcases h with rfl | rfl <;> rfl

theorem commandOf_stationPassed {ftype : Byte} (a : Ticks) (body : List Byte) (hd : ftype ≠ typeDrive)
    (hm : ftype ≠ typeMgmt) (hb : ftype ≠ typeBeac) (hl : ftype ≠ typeLamp) :
    commandOf .station a ftype body = .stationPassThrough ftype body := by
  simp [commandOf, hd, hm, hb, hl]

/-- Settles O4: a request is read back by its code, each of the seven other frame commands by its layout. -/
theorem frameDecodesToItsCommand : Obligations.FrameDecodesToItsCommand := by
  intro i port ftype body a wf brought arrives
  cases request : requestCode i with
  | some r =>
    obtain ⟨tag, code, args⟩ := r
    rw [frameOf_request request] at brought
    cases brought
    rw [commandOf_mgmt]
    exact requestOf_requestCode i tag code args request wf
  | none =>
    cases i with
    | xingReceived g c count arrival =>
      cases brought
      obtain rfl := arrives _ rfl
      simp only [WellFormed, Bool.and_eq_true] at wf
      exact commandOf_xing count wf.1.1 wf.1.2
    | beaconReply g n count arrival =>
      cases brought
      obtain rfl := arrives _ rfl
      simp only [WellFormed, Bool.and_eq_true] at wf
      exact commandOf_reply n count wf.1
    | marshalButton g arrival =>
      cases brought
      obtain rfl := arrives _ rfl
      simp only [WellFormed, Bool.and_eq_true] at wf
      exact commandOf_button wf.1
    | trackPassThrough ftype body =>
      cases brought
      simp only [WellFormed, Bool.and_eq_true, bne_iff_ne] at wf
      exact commandOf_trackPassed a body wf.1.2 wf.2
    | driveFrame es arrival =>
      cases brought
      obtain rfl := arrives _ rfl
      simp only [WellFormed, Bool.and_eq_true] at wf
      exact commandOf_drive _ wf.1
    | stationBeacLampDiscard ftype body =>
      cases brought
      simp only [WellFormed, Bool.and_eq_true, Bool.or_eq_true, beq_iff_eq] at wf
      exact commandOf_discarded a body wf.2
    | stationPassThrough ftype body =>
      cases brought
      simp only [WellFormed, Bool.and_eq_true, bne_iff_ne] at wf
      obtain ⟨⟨⟨⟨-, drive⟩, mgmt⟩, beac⟩, lamp⟩ := wf
      exact commandOf_stationPassed a body drive mgmt beac lamp
    | _ => simp_all [frameOf]

/-! #### The assembler (R1 to R3) -/

/-- A word is its high byte and its low byte. -/
theorem word_of_bytes (w : BitVec 16) : (w.extractLsb' 8 8 : Byte) ++ (w.extractLsb' 0 8 : Byte) = w := by
  rw [BitVec.extractLsb'_append_extractLsb'_eq_extractLsb' (by omega)]
  exact BitVec.extractLsb'_eq_self

/-- Settles O5: the wire is the covered bytes with the frame's own check behind them. -/
theorem wireIsReceived : Obligations.WireIsReceived := by
  intro a f width start hunts fits
  have received := feedAll_frame a f (f.check.extractLsb' 8 8) (f.check.extractLsb' 0 8) width start hunts fits
  rwa [word_of_bytes] at received

/-! #### Bodies that no command has (R4, R6, R7) -/

/-- A length above 60 is told at once, and the assembler is back in HUNT (R2). -/
theorem feedAll_tooLong (a : Assembler) (ftype n : Byte) (width : Nat) (start : Ticks) (h : a.state = .hunt)
    (long : 60 < n.toNat) :
    ∃ b, a.feedAll width start [0xA5, ftype, n] = (b, [.tooLong]) ∧ b.state = .hunt := by
  refine ⟨{ idleAssembler with state := .hunt, arrival := start, ftype := ftype }, ?_, rfl⟩
  have marker : a.feed 0xA5 start = ({ idleAssembler with state := .type, arrival := start }, none) := by
    unfold Assembler.feed
    rw [h]
    rfl
  have second : Assembler.feed { idleAssembler with state := .type, arrival := start } ftype (start + width) =
      ({ idleAssembler with state := .length, arrival := start, ftype := ftype }, none) := rfl
  have tells : Assembler.feed { idleAssembler with state := .length, arrival := start, ftype := ftype } n
      (start + width + width) =
      ({ idleAssembler with state := .hunt, arrival := start, ftype := ftype }, some .tooLong) :=
    if_pos long
  rw [feedAll_cons, marker, feedAll_cons, second, feedAll_cons, tells]
  rfl

theorem commandFor_checked (port : Port) (arrival : Ticks) (f : Frame) :
    commandFor port (.frame arrival f f.check) = commandOf port arrival f.ftype f.body := if_pos rfl

/-- Three bytes make a drive entry, so that the bytes are entries where their number is a multiple of 3 (R6). -/
theorem driveEntries_isSome : ∀ l : List Byte, (driveEntries l).isSome = true ↔ 3 ∣ l.length
  | [] => by decide
  | [_] => by simp [driveEntries]
  | [_, _] => by simp [driveEntries]
  | a :: b :: c :: rest => by
    have rest_iff := driveEntries_isSome rest
    show ((driveEntries rest).map _).isSome = true ↔ 3 ∣ rest.length + 3
    rw [Option.isSome_map, rest_iff, Nat.dvd_add_self_right]

theorem driveEntries_length : ∀ (l : List Byte) (es : List DriveEntry), driveEntries l = some es →
    l.length = 3 * es.length
  | [], es, h => by cases h; rfl
  | [_], _, h => by cases h
  | [_, _], _, h => by cases h
  | a :: b :: c :: rest, es, h => by
    obtain ⟨tail, ht, rfl⟩ := Option.map_eq_some_iff.1 (show (driveEntries rest).map _ = some es from h)
    have len := driveEntries_length rest tail ht
    simp only [List.length_cons, len]
    omega

/-- A DRIVE body is well formed where its count is 1 to 16 and asks for its length (R6). -/
theorem driveOf_malformed (a : Ticks) (body : List Byte) : driveOf a body = .malformedFrame .station ↔
    ¬(1 ≤ (body.getD 0 0).toNat ∧ (body.getD 0 0).toNat ≤ 16 ∧
      body.length = 1 + 3 * (body.getD 0 0).toNat) := by
  cases body with
  | nil => simp [driveOf]
  | cons m rest =>
    cases hd : driveEntries rest with
    | none =>
      have odd : ¬3 ∣ rest.length := by rw [← driveEntries_isSome, hd]; decide
      have len : ¬rest.length + 1 = 1 + 3 * m.toNat := fun h => odd ⟨m.toNat, by omega⟩
      simp [driveOf, hd, len]
    | some es =>
      have len := driveEntries_length rest es hd
      have asks : es.length = m.toNat ↔ rest.length + 1 = 1 + 3 * m.toNat := by omega
      simp only [driveOf, hd, List.getD_cons_zero, List.length_cons, ← asks]
      by_cases count : es.length = m.toNat
      · by_cases range : 1 ≤ m.toNat ∧ m.toNat ≤ 16
        · simp [driveInRange, count, range]
        · have out : driveInRange es = false := by simpa [driveInRange, count] using range
          simpa [out, count] using range
      · simp [count]

theorem requestOf_ne_malformed (tag code : Byte) (args : List Byte) (p : Port) :
    requestOf tag code args ≠ .malformedFrame p := by
  unfold requestOf
  repeat' split
  all_goals nofun

theorem mgmtOf_malformed (body : List Byte) : mgmtOf body = .malformedFrame .station ↔ body.length < 2 := by
  match body with
  | [] => simp [mgmtOf]
  | [_] => simp [mgmtOf]
  | tag :: code :: args => simp [mgmtOf, requestOf_ne_malformed]

theorem gateInRange_iff (g : Byte) : gateInRange g = true ↔ 1 ≤ g.toNat ∧ g.toNat ≤ 32 := by
  simp [gateInRange]

theorem codeInRange_iff (c : Byte) : codeInRange c = true ↔ c.toNat ≤ 15 ∨ c.toNat = 31 := by
  simp [codeInRange]

/-- An XING body is well formed where it has five bytes, a gate and a car code (R6). -/
theorem xingOf_malformed (a : Ticks) (body : List Byte) : xingOf a body = .malformedFrame .track ↔
    ¬(body.length = 5 ∧ (1 ≤ (body.getD 0 0).toNat ∧ (body.getD 0 0).toNat ≤ 32) ∧
      ((body.getD 1 0).toNat ≤ 15 ∨ (body.getD 1 0).toNat = 31)) := by
  match body with
  | [g, c, _, _, _] =>
    have form : [g, c, ‹Byte›, ‹Byte›, ‹Byte›].length = 5 := rfl
    simp only [xingOf, List.getD_cons_zero, List.getD_cons_succ, List.length_cons, List.length_nil, true_and,
      ← gateInRange_iff, ← codeInRange_iff, ← Bool.and_eq_true]
    split
    · next ok => simp [ok]
    · next bad => simpa using bad
  | [] | [_] | [_, _] | [_, _, _] | [_, _, _, _] => simp [xingOf]
  | _ :: _ :: _ :: _ :: _ :: _ :: _ => simp [xingOf]

/-- A GSTAT body is well formed where it is a beacon reply of six bytes or a press of two, and names a gate (R6). -/
theorem gstatOf_malformed (a : Ticks) (body : List Byte) : gstatOf a body = .malformedFrame .track ↔
    ¬((1 ≤ (body.getD 0 0).toNat ∧ (body.getD 0 0).toNat ≤ 32) ∧
      (((body.getD 1 0).toNat = 1 ∧ body.length = 6) ∨ ((body.getD 1 0).toNat = 2 ∧ body.length = 2))) := by
  have kind (k : Byte) (n : Nat) (h : n < 256) : k.toNat = n ↔ k = BitVec.ofNat 8 n := by
    rw [← BitVec.toNat_inj, byte_toNat n h]
  match body with
  | [g, k] =>
    simp only [gstatOf, List.getD_cons_zero, List.getD_cons_succ, List.length_cons, List.length_nil,
      ← gateInRange_iff, kind k 1 (by decide), kind k 2 (by decide)]
    by_cases press : k = 2
    · subst press
      cases gateInRange g <;> simp
    · simp
  | [g, k, _, _, _, _] =>
    simp only [gstatOf, List.getD_cons_zero, List.getD_cons_succ, List.length_cons, List.length_nil,
      ← gateInRange_iff, kind k 1 (by decide), kind k 2 (by decide)]
    by_cases reply : k = 1
    · subst reply
      cases gateInRange g <;> simp
    · simp
  | [] | [_] | [_, _, _] | [_, _, _, _] | [_, _, _, _, _] => simp [gstatOf]
  | _ :: _ :: _ :: _ :: _ :: _ :: _ :: _ => simp [gstatOf]

theorem commandOf_station_malformed (a : Ticks) (ftype : Byte) (body : List Byte) :
    commandOf .station a ftype body = .malformedFrame .station ↔
      (ftype = 0x21 ∧ driveOf a body = .malformedFrame .station) ∨
      (ftype = 0x31 ∧ mgmtOf body = .malformedFrame .station) := by
  by_cases drive : ftype = typeDrive
  · subst drive
    exact ⟨fun h => .inl ⟨rfl, h⟩, fun h => h.elim And.right fun h => absurd h.1 (by decide)⟩
  · by_cases mgmt : ftype = typeMgmt
    · subst mgmt
      exact ⟨fun h => .inr ⟨rfl, h⟩, fun h => h.elim (fun h => absurd h.1 (by decide)) And.right⟩
    · refine ⟨fun h => ?_, fun h => h.elim (fun h => absurd h.1 drive) fun h => absurd h.1 mgmt⟩
      unfold commandOf at h
      simp only [drive, mgmt, if_false] at h
      split at h <;> cases h

theorem commandOf_track_malformed (a : Ticks) (ftype : Byte) (body : List Byte) :
    commandOf .track a ftype body = .malformedFrame .track ↔
      (ftype = 0x11 ∧ xingOf a body = .malformedFrame .track) ∨
      (ftype = 0x12 ∧ gstatOf a body = .malformedFrame .track) := by
  by_cases xing : ftype = typeXing
  · subst xing
    exact ⟨fun h => .inl ⟨rfl, h⟩, fun h => h.elim And.right fun h => absurd h.1 (by decide)⟩
  · by_cases gstat : ftype = typeGstat
    · subst gstat
      exact ⟨fun h => .inr ⟨rfl, h⟩, fun h => h.elim (fun h => absurd h.1 (by decide)) And.right⟩
    · refine ⟨fun h => ?_, fun h => h.elim (fun h => absurd h.1 xing) fun h => absurd h.1 gstat⟩
      rw [commandOf_trackPassed a body xing gstat] at h
      cases h

/-- Settles O6: what the assembler brings of a damaged frame, and for each port the layouts that make its body
malformed. -/
theorem damagedFramesAreBadFrames : Obligations.DamagedFramesAreBadFrames := by
  refine ⟨fun a f hi lo width start port hunts fits wrong => ?_, fun a ftype n width start port hunts long => ?_,
    fun f arrival => ⟨?_, ?_⟩⟩
  · obtain ⟨b, fed, hunt⟩ := feedAll_frame a f hi lo width start hunts fits
    exact ⟨b, fed, hunt, if_neg (Ne.symm wrong)⟩
  · obtain ⟨b, fed, hunt⟩ := feedAll_tooLong a ftype n width start hunts long
    exact ⟨b, fed, hunt, rfl⟩
  · rw [commandFor_checked, commandOf_station_malformed, driveOf_malformed, mgmtOf_malformed]
  · rw [commandFor_checked, commandOf_track_malformed, xingOf_malformed, gstatOf_malformed]

end Sys2Proof.Proofs.FramesDecode

/-! ### Proofs: time and alignment

A step without a command (R1, R2, R4, R21, R23, R64, R114, R120, R122, R193), the ageing of the gates at a beacon
boundary (R29, R38, R39), and the trim of a gate (R34, R36, R37). -/

namespace Sys2Proof.Proofs.TimeAndAlignment

open Sys2Proof Machine Safety FullAlignment Ports Resets

/-! #### GATE records (R39) -/

theorem emitGate_eq {k : GateCondition} (h : k ≠ .alignedFull) (g : GateId) (time : Ticks) (error : Option Int)
    (s : State) : emitGate g time k error s = setGroup .gate (emit ⟨g.val + 1, time, .gate k error⟩ s) := if_neg h

/-- A GATE record with its group (R39). -/
theorem emits_emitGate {k : GateCondition} (h : k ≠ .alignedFull) (g : GateId) (time : Ticks) (error : Option Int)
    (s : State) : Emits 0x82 1 s (emitGate g time k error s) [⟨g.val + 1, time, .gate k error⟩] := by
  rw [emitGate_eq h]
  exact emits_trans (emits_mono (emits_emit _ s) (by decide)) (emits_mono (emits_group .gate _) (by decide))

/-! #### A beacon boundary (R23, R29, R38) -/

theorem kept_ageGate (v : State) (g : GateId) : RepliesKept v (ageGate v g) ∧ LampKept v (ageGate v g) := by
  rw [ageGate_eq]
  cases change : (Safety.aged v.clock.now v.settings.timing.beaconIvl (gate v g)).2 with
  | none => exact ⟨drawn_same, drawn_same⟩
  | some k =>
    have told := fun slot => emits_emitGate (aged_not_alignedFull change) g v.clock.now none (setGate g slot v)
    exact ⟨(told _).replies, (told _).lamp⟩

theorem kept_ageGate_fold (l : List GateId) (v : State) :
    RepliesKept v (l.foldl ageGate v) ∧ LampKept v (l.foldl ageGate v) := by
  induction l generalizing v with
  | nil => exact ⟨drawn_same, drawn_same⟩
  | cons g l ih =>
    obtain ⟨replies, lamp⟩ := kept_ageGate v g
    obtain ⟨replies', lamp'⟩ := ih (ageGate v g)
    exact ⟨drawn_trans replies replies', drawn_trans lamp lamp'⟩

theorem kept_ageGates (v : State) : RepliesKept v (ageGates v) ∧ LampKept v (ageGates v) :=
  kept_ageGate_fold allGates v

theorem aged_ageGates (v : State) : Aged v (ageGates v) allGates := ageGate_fold allGates v (by decide)

theorem boundaryDue_of {s : State} (moved : 0 < s.clock.now)
    (divides : s.clock.now % s.settings.timing.beaconIvl = 0) : boundaryDue s = true := by
  simp [boundaryDue, moved, divides]

theorem exec_beaconBoundary (s : State) :
    exec .beaconBoundary s = whenDue (boundaryDue s) (fun s => ageGates (raiseBalance s)) s := rfl

/-- Settles O21: the ageing of every slot, behind the balance and before the transmitters' choices. -/
theorem boundaryRaisesBalanceAndAges : Obligations.BoundaryRaisesBalanceAndAges := by
  intro s moved divides change
  have quiet := quiet_settle (ageGates (raiseBalance s))
  have aged := aged_ageGates (raiseBalance s)
  obtain ⟨replies, lamp⟩ := kept_ageGates (raiseBalance s)
  have noReply : RepliesKept s (settle (ageGates (raiseBalance s))) :=
    drawn_trans replies (replies_settle (ageGates (raiseBalance s)))
  have noLamp : LampKept s (settle (ageGates (raiseBalance s))) := drawn_trans lamp quiet.lamp
  have gates : (settle (ageGates (raiseBalance s))).clock.gates = (ageGates (raiseBalance s)).clock.gates :=
    outputs_gates quiet.outputs
  refine ⟨settle (ageGates (raiseBalance s)), ?_, ?_, fun g => ?_, fun g k reports => ⟨?_, fun high room => ?_⟩,
    noReply, noLamp, fun still => ?_⟩
  · rw [exec_beaconBoundary, whenDue, if_pos (boundaryDue_of moved divides), complete]
  · rw [gates]
    exact outputs_trans aged.out (outputs_zero quiet.outputs)
  · have slot := aged.gates g
    rw [if_pos (mem_allGates g)] at slot
    rw [gate, gates]
    exact slot
  · exact groupSet_settle (aged.recd g (mem_allGates g) k reports).1
  · exact recorded_settle ((aged.recd g (mem_allGates g) k reports).2 high (Nat.add_le_add_right room 32))
  · have same : ageGates (raiseBalance s) = raiseBalance s := aged.none fun g _ => still g
    rw [same]
    exact ⟨congrArg Mgmt.summary (settle_mgmt _), (quiet_settle (raiseBalance s)).records⟩

/-! #### A trim (R34, R36, R37) -/

/-- The slot after a trim whose error is known, and the condition it reports, if any (R36, R37). -/
def trimmed (slot : GateSlot) (limit : Nat) (ref : Reference) (sent : Ticks) (count : Count) (error : Int) :
    GateSlot × Option GateCondition :=
  let time : Int := predicted ref count + correction limit error
  if time < 0 ∨ 4294967295 < time then ({ slot with alignment := .unaligned, strikes := 3 }, some .unaligned)
  else if correction limit error = error then
    ({ slot with alignment := .aligned ⟨time.toNat, count, sent⟩, strikes := 0 }, none)
  else if 3 ≤ slot.strikes + 1 then ({ slot with alignment := .unaligned, strikes := 3 }, some .unaligned)
  else ({ slot with alignment := .aligned ⟨time.toNat, count, sent⟩, strikes := slot.strikes + 1 },
    some .trimClamped)

/-- The error of a trim (R36). -/
def trimError (slot : GateSlot) (ref : Reference) (sent : Ticks) (count : Count) : Int :=
  ((sent + slot.hop : Nat) : Int) - predicted ref count

/-- The work of a trim: the slot, and the record of its condition. -/
def reported (g : GateId) (arrival : Ticks) (error : Int) (p : GateSlot × Option GateCondition) (s : State) : State :=
  match p.2 with
  | none => setGate g p.1 s
  | some k => emitGate g arrival k (some error) (setGate g p.1 s)

theorem trimAlign_eq (g : GateId) (ref : Reference) (sent : Ticks) (count : Count) (arrival : Ticks) (s : State) :
    trimAlign g ref sent count arrival s =
      reported g arrival (trimError (gate s g) ref sent count)
        (trimmed (gate s g) s.settings.timing.trimLimit ref sent count (trimError (gate s g) ref sent count)) s := by
  unfold trimAlign trimmed trimError
  dsimp only
  generalize predicted ref count = p
  generalize correction s.settings.timing.trimLimit _ = c
  have top : ((Config.clockMax : Nat) : Int) = 4294967295 := rfl
  rw [top]
  by_cases out : p + c < 0 ∨ 4294967295 < p + c
  · rw [if_pos out, if_pos out]
    rfl
  · rw [if_neg out, if_neg out]
    split
    · rfl
    · split <;> rfl

theorem trimmed_condition {slot : GateSlot} {limit : Nat} {ref : Reference} {sent : Ticks} {count : Count}
    {error : Int} {k : GateCondition} (h : (trimmed slot limit ref sent count error).2 = some k) :
    k ≠ .alignedFull := by
  unfold trimmed at h
  revert h
  dsimp only
  split
  · rintro ⟨⟩; decide
  · split
    · nofun
    · split <;> · rintro ⟨⟩; decide

theorem applyReply_trims {s : State} {g : GateId} {ref : Reference}
    (h : (gate s g).alignment = .aligned ref ∨ (gate s g).alignment = .stale ref) (r : Round) (count : Count)
    (arrival : Ticks) : applyReply g r count arrival s = trimAlign g ref r.sent count arrival
      { s with clock := { s.clock with round := some { r with replied := r.replied ++ [g] } } } := by
  have same : ∀ round, (gate { s with clock := { s.clock with round := round } } g) = gate s g := fun _ => rfl
  rcases h with h | h <;> simp only [applyReply, same, h]

/-- The state before a trim's record goes out. -/
def trimmedIn (g : GateId) (r : Round) (slot : GateSlot) (s : State) : State :=
  { s with clock := { s.clock with
    round := some { r with replied := r.replied ++ [g] }, gates := s.clock.gates.set g slot } }

theorem exec_beaconReply_trims {s : State} {g : GateId} {r : Round} {ref : Reference} (high : s.rstnLow = false)
    (open_ : s.clock.round = some r) (used : (gate s g).role ≠ .unused) (first : g ∉ r.replied)
    (h : (gate s g).alignment = .aligned ref ∨ (gate s g).alignment = .stale ref) (count : Count) (arrival : Ticks) :
    exec (.beaconReply (BitVec.ofNat 8 (g.val + 1)) r.number count arrival) s =
      .next (settle (reported g arrival (trimError (gate s g) ref r.sent count)
        (trimmed (gate s g) s.settings.timing.trimLimit ref r.sent count (trimError (gate s g) ref r.sent count))
        (received .track
          { s with clock := { s.clock with round := some { r with replied := r.replied ++ [g] } } }))) := by
  have taken := beaconReply_taken (s := received .track s) open_ used first count arrival
  have trims := applyReply_trims (s := received .track s) h r count arrival
  rw [exec_beaconReply s g _ _ _ high, taken, trims, trimAlign_eq]
  rfl

/-- What a trim sends. -/
theorem reported_outputs (s : State) (g : GateId) (r : Round) (arrival : Ticks) (error : Int)
    (p : GateSlot × Option GateCondition) (high : s.rstnLow = false) (named : ∀ k, p.2 = some k → k ≠ .alignedFull) :
    let t := settle (reported g arrival error p (received .track
      { s with clock := { s.clock with round := some { r with replied := r.replied ++ [g] } } }))
    Outputs 0x82 (trimmedIn g r p.1 s) t ∧ LampKept s t ∧
      match p.2 with
      | none => t.mgmt.summary = s.mgmt.summary ∧ RecordsKept s t
      | some k => groupSet .gate t = true ∧ Joined s t [⟨g.val + 1, arrival, .gate k (some error)⟩] ∧
          (s.link.records.length < 64 → Recorded t ⟨g.val + 1, arrival, .gate k (some error)⟩) := by
  obtain ⟨slot, condition⟩ := p
  cases condition with
  | none =>
    have mute := mute_trans (mute_received 0x82 .track (trimmedIn g r slot s)) (mute_settle 0x82 _)
    exact ⟨mute.out, mute.lamp, congrArg Mgmt.summary ((settle_mgmt _).trans rfl), mute.records⟩
  | some k =>
    have told := emits_trans (emits_received 0x82 .track (trimmedIn g r slot s))
      (emits_trans (emits_emitGate (named k rfl) g arrival (some error) _) (emits_settle 0x82 _))
    refine ⟨told.out, told.lamp, ?_, fun busy room => (told.queue high busy room).1,
      fun room => (told.room high room).2 _ (List.mem_singleton_self _)⟩
    exact groupSet_settle (groupSet_emitGate g arrival k _ (named k rfl))

/-- Settles O23: a reply taken by the open round trims its slot and reports the condition. -/
theorem replyTrims : Obligations.ReplyTrims := by
  intro s g r ref count arrival high open_ used first h v d limit error c time slot step
  have difference : predicted ref count = ref.time + d := congrArg (_ + ·) (signedDiff_eq ref.count count)
  have error_eq : trimError slot ref r.sent count = error := by
    rw [trimError, difference, Nat.cast_add]
  have clamp : correction s.settings.timing.trimLimit error = c := correction_eq _ _
  have step_eq : trimmed slot s.settings.timing.trimLimit ref r.sent count error = step := by
    rw [trimmed, difference, clamp]
  have next := exec_beaconReply_trims high open_ used first h count arrival
  rw [error_eq, step_eq] at next
  have sends := reported_outputs s g r arrival error step high fun k named => trimmed_condition (step_eq ▸ named)
  exact ⟨_, next, sends⟩

/-! #### A step without a command (R1, R21, R23, R64, R114, R120, R122, R193; log entries 1, 2, 6, 25, 31 and 32) -/

theorem settle_pending (s : State) : (settle s).pending = s.pending :=
  (congrArg State.pending (quiet_settle s).outputs.rest).trans rfl

theorem due_enqueue (s : State) (cs : List Instr) (c : Instr) : c ∈ dueEvents s ↔ Due (enqueue cs s) c :=
  mem_dueEvents (enqueue cs s) c

theorem enqueue_rest (cs : List Instr) (s : State) :
    enqueue cs s = { s with pending := (enqueue cs s).pending, choices := (enqueue cs s).choices } := rfl

/-- Commands that join an empty queue are all of it, in an open order (log entry 2). -/
theorem enqueue_perm {s : State} (empty : s.pending = []) (cs : List Instr) : (enqueue cs s).pending.Perm cs := by
  show (s.pending ++ (arrange cs s.choices).1).Perm cs
  rw [empty, List.nil_append]
  exact perm_arrange cs s.choices

theorem tick_due {s : State} (due : ∃ c, Due (settle s) c) :
    tick s = enqueue (dueEvents (settle s)) (settle s) := by
  obtain ⟨c, hc⟩ := due
  refine if_neg fun none => ?_
  have mem := (mem_dueEvents (settle s) c).2 hc
  rw [List.isEmpty_iff.1 none] at mem
  cases mem

theorem tick_idle {s : State} (idle : ∀ c, ¬Due (settle s) c) :
    tick s = enqueue (tickEvents (settle s) (elapse (settle s)).1 (elapse (settle s)).2) (elapse (settle s)).1 :=
  if_pos (List.isEmpty_iff.2 (List.eq_nil_iff_forall_not_mem.2 fun c hc => idle c ((mem_dueEvents _ c).1 hc)))

theorem drillSession_iff (st : SessionState) :
    drillSession st = true ↔ st = .green ∨ st = .caution ∨ st = .chequered := by
  cases st <;> decide

theorem session_tick (x : Session) : x.tick = { x with
    countdown := if x.state = .countdown then x.countdown.map fun c => { c with remaining := c.remaining - 1 }
      else x.countdown
    heatClock := if x.state = .green ∨ x.state = .caution ∨ x.state = .chequered then x.heatClock - 1 else x.heatClock
    grace := if x.state = .chequered then x.grace.map fun n => n - 1 else x.grace } := by
  rw [Session.tick]
  simp only [drillSession_iff]
  rfl

theorem resolver_tick_rest (st : SessionState) (r : Resolver) : r.tick st = { r with drills := (r.tick st).drills } := by
  rw [Resolver.tick]
  split <;> rfl

theorem resolver_tick_drills (st : SessionState) (r : Resolver) (e : Entry) : (r.tick st).drills[e] =
    if st = .green ∨ st = .caution ∨ st = .chequered then
      r.drills[e].map fun d => { d with remaining := d.remaining - 1 } else r.drills[e] := by
  rw [Resolver.tick]
  by_cases runs : drillSession st = true
  · rw [if_pos runs, if_pos ((drillSession_iff st).1 runs)]
    rw [show (r.drills.map fun d => d.map DrillSchedule.tick)[e] = r.drills[e].map DrillSchedule.tick from
      Vector.getElem_map _ _]
    rfl
  · rw [if_neg runs, if_neg fun h => runs ((drillSession_iff st).2 h)]

/-- What the race clock's arrival at its present value brings (R21, R23). -/
theorem clockEvents_eq {s : State} (moved : 0 < s.clock.now) : clockEvents s =
    (if s.clock.now % s.settings.timing.beaconIvl = 0 then [.beaconBoundary] else []) ++
    (if s.clock.now = 4200000000 then [.clockLimit] else []) ++
    (if s.clock.now = 4294967295 then [.raceClockStop] else []) := by
  simp [clockEvents, dueIf, boundaryDue, limitDue, Config.clockLimit, Config.clockMax, moved]

/-- The clock's events of a tick come only where the clock has moved (R21). -/
theorem movedEvents (before : State) (after : State) (passes : after.clock.now = min 4294967295 (before.clock.now + 1)) :
    (if after.clock.now = before.clock.now then [] else clockEvents after) =
    (if after.clock.now ≠ before.clock.now ∧ after.clock.now % after.settings.timing.beaconIvl = 0 then
      [.beaconBoundary] else []) ++
    (if after.clock.now ≠ before.clock.now ∧ after.clock.now = 4200000000 then [.clockLimit] else []) ++
    (if after.clock.now ≠ before.clock.now ∧ after.clock.now = 4294967295 then [.raceClockStop] else []) := by
  by_cases moved : after.clock.now = before.clock.now
  · simp [moved]
  · have positive : 0 < after.clock.now := by
      rw [passes]
      exact Nat.lt_min.2 ⟨by decide, Nat.succ_pos _⟩
    rw [if_neg moved, clockEvents_eq positive]
    simp [moved]

/-- The state `t` stands one tick behind `u`, with what the tick brings in its queue. -/
structure Ticked (u t : State) : Prop where
  rest : t = { u with
    link := { u.link with
      stationRx := t.link.stationRx, trackRx := t.link.trackRx
      stationTx := u.link.stationTx.map Transmission.tick, trackTx := u.link.trackTx.map Transmission.tick }
    clock := { u.clock with now := min 4294967295 (u.clock.now + 1) }
    mgmt := { u.mgmt with beatTimer := u.mgmt.beatTimer + 1 }
    session := if u.rstnLow = true then u.session else u.session.tick
    resolver := { u.resolver with drills := t.resolver.drills }
    pending := t.pending, choices := t.choices }
  drills : t.resolver = if u.rstnLow = true then u.resolver else u.resolver.tick u.session.state
  station : Carried .station u.rstnLow u.clock.now u.link.stationRx t.link.stationRx
    (u.link.stationRx.tick .station u.rstnLow u.clock.now).2
  track : Carried .track u.rstnLow u.clock.now u.link.trackRx t.link.trackRx
    (u.link.trackRx.tick .track u.rstnLow u.clock.now).2
  queue : t.pending.Perm (tickEvents u (elapse u).1 (elapse u).2)
  due : ∀ c, c ∈ dueEvents (elapse u).1 ↔ Due t c

theorem elapse_resolver (low : Bool) (st : SessionState) (r : Resolver) :
    (if low = true then r else r.tick st) = { r with drills := (if low = true then r else r.tick st).drills } := by
  cases low with
  | true => rfl
  | false => exact resolver_tick_rest st r

theorem ticked {u : State} (empty : u.pending = []) :
    Ticked u (enqueue (tickEvents u (elapse u).1 (elapse u).2) (elapse u).1) where
  rest := by
    have drills := elapse_resolver u.rstnLow u.session.state u.resolver
    exact congrArg (fun r => { enqueue (tickEvents u (elapse u).1 (elapse u).2) (elapse u).1 with resolver := r })
      drills
  drills := rfl
  station := carried_tick .station _ _ _
  track := carried_tick .track _ _ _
  queue := enqueue_perm empty _
  due := due_enqueue _ _

/-- As `Ticked`, in the words of the spec: which timers have run, and what stands in the queue. -/
theorem ticked_result {u t : State} (ticked : Ticked u t) :
    let now := min 4294967295 (u.clock.now + 1)
    let running : Prop := u.session.state = .green ∨ u.session.state = .caution ∨ u.session.state = .chequered
    let sending (x : Transmission) : Transmission := { x with remaining := x.remaining - 1 }
    t = { u with
      link := { u.link with
        stationRx := t.link.stationRx, trackRx := t.link.trackRx
        stationTx := u.link.stationTx.map sending, trackTx := u.link.trackTx.map sending }
      clock := { u.clock with now := now }
      mgmt := { u.mgmt with beatTimer := u.mgmt.beatTimer + 1 }
      session := if u.rstnLow = true then u.session else { u.session with
        countdown := if u.session.state = .countdown then
            u.session.countdown.map fun c => { c with remaining := c.remaining - 1 } else u.session.countdown
        heatClock := if running then u.session.heatClock - 1 else u.session.heatClock
        grace := if u.session.state = .chequered then u.session.grace.map fun n => n - 1 else u.session.grace }
      resolver := { u.resolver with drills := t.resolver.drills }
      pending := t.pending, choices := t.choices } ∧
    (∀ e : Entry, t.resolver.drills[e] =
      if u.rstnLow = false ∧ running then u.resolver.drills[e].map fun d => { d with remaining := d.remaining - 1 }
      else u.resolver.drills[e]) ∧
    ∃ (a b : Option Instr) (due : List Instr),
      Carried .station u.rstnLow u.clock.now u.link.stationRx t.link.stationRx a ∧
      Carried .track u.rstnLow u.clock.now u.link.trackRx t.link.trackRx b ∧
      due.Nodup ∧ (∀ c, c ∈ due ↔ Due t c) ∧
      t.pending.Perm (a.toList ++ b.toList ++
        (if now ≠ u.clock.now ∧ now % u.settings.timing.beaconIvl = 0 then [.beaconBoundary] else []) ++
        (if now ≠ u.clock.now ∧ now = 4200000000 then [.clockLimit] else []) ++
        (if now ≠ u.clock.now ∧ now = 4294967295 then [.raceClockStop] else []) ++ due) := by
  intro now running sending
  refine ⟨?_, fun e => ?_, _, _, _, ticked.station, ticked.track, nodup_dueEvents _, ticked.due, ?_⟩
  · rw [← session_tick]
    exact ticked.rest
  · rw [ticked.drills]
    cases u.rstnLow with
    | true => rfl
    | false =>
      rw [if_neg (by decide), resolver_tick_drills]
      exact if_congr (and_iff_right rfl).symm rfl rfl
  · have queue := ticked.queue
    rw [tickEvents, movedEvents u (elapse u).1 rfl] at queue
    rw [← List.append_assoc, ← List.append_assoc] at queue
    exact queue

/-- Settles O3: the two branches of the tick behind the transmitters' choices. -/
theorem stepWithoutCommand : Obligations.StepWithoutCommand := by
  intro s empty
  have next : step s = .next (tick s) := by rw [step, empty]
  refine ⟨tick s, next, quiet_settle s, fun due => ?_, fun idle => ?_⟩
  · rw [tick_due due]
    have queue := enqueue_perm ((settle_pending s).trans empty) (dueEvents (settle s))
    exact ⟨enqueue_rest _ _, queue.nodup_iff.2 (nodup_dueEvents _), fun c => queue.mem_iff.trans (mem_dueEvents _ c)⟩
  · rw [tick_idle idle]
    have now : (settle s).clock.now = s.clock.now := outputs_now (quiet_settle s).outputs
    have session := outputs_session (quiet_settle s).outputs
    have resolver := outputs_resolver (quiet_settle s).outputs
    have settings := outputs_settings (quiet_settle s).outputs
    have low := outputs_rstnLow (quiet_settle s).outputs
    have mgmt := settle_mgmt s
    obtain ⟨stationRx, trackRx⟩ := settle_receivers s
    have empty := (settle_pending s).trans empty
    rw [← session, ← resolver, ← settings, ← low, ← mgmt, ← now, ← stationRx, ← trackRx]
    exact ticked_result (ticked empty)

end Sys2Proof.Proofs.TimeAndAlignment

/-! ### Proofs: the settings

SET_TIMING, SET_HEAT and SET_FUEL: the arguments are the settings as sent, the answer is the settings as loaded (R130,
R182, R187, R188). -/

namespace Sys2Proof.Proofs.LoadedSettings

open Sys2Proof Machine Safety RequestChecks

/-! #### Requests that load values (R187) -/

/-- A request that loads values is answered OK where each stays as it was sent, ADJUSTED otherwise (R187). -/
theorem request_loads {s u : State} {c : Instr} {tag : Byte} {f : State → Answer} {adjusted : Bool} {b : List Byte}
    {asSent : Prop} (he : exec c s = complete (request tag f s)) (hl : Listening s)
    (work : f (received .station s) = taken adjusted b (received .station u))
    (brought : adjusted = true ↔ ¬asSent) (high : u.rstnLow = false) (link : u.link = s.link) :
    ∃ t, exec c s = .next t ∧ Quiet u t ∧ (asSent → Replied s t tag .ok b) ∧
      (¬asSent → Replied s t tag .adjusted b) := by
  obtain ⟨t, next, quiet, replied⟩ := request_taken he hl work high (congrArg Link.replies link)
    (congrArg Link.stationTx link)
  refine ⟨t, next, quiet, fun kept => ?_, fun moved => ?_⟩
  · rwa [if_neg fun h => brought.1 h kept] at replied
  · rwa [if_pos (brought.2 moved)] at replied

theorem anyClamped_iff (l : List (Nat × Nat × Nat)) :
    anyClamped l = true ↔ ¬∀ p ∈ l, clamp p.1 p.2.1 p.2.2 = p.2.2 := by
  simp [anyClamped]

/-! #### SET_TIMING (R188) -/

theorem exec_setTiming (tag : Byte) (args : List Byte) (s : State) :
    exec (.setTiming tag args) s = complete (request tag (setTiming args) s) := rfl

/-- The settings with each number brought into its range (R188). -/
def timingBrought (x : TimingSettings) : TimingSettings :=
  { x with
    beaconIvl := clamp 25000 400000 x.beaconIvl, trimLimit := clamp 1 255 x.trimLimit
    lagMax := clamp 100 20000 x.lagMax, lineHoldoff := clamp 1000 500000 x.lineHoldoff
    pairWindow := clamp 10 2000 x.pairWindow, missTol := clamp 0 4 x.missTol, lines := clamp 1 5 x.lines
    jumpLevel := clamp 1 63 x.jumpLevel, cautionCap := clamp 0 63 x.cautionCap, pitCap := clamp 0 63 x.pitCap }

/-- The numbers of the settings fit into their argument bytes. -/
structure TimingFits (x : TimingSettings) : Prop where
  beaconIvl : x.beaconIvl < 4294967296
  trimLimit : x.trimLimit < 4294967296
  lagMax : x.lagMax < 4294967296
  lineHoldoff : x.lineHoldoff < 4294967296
  pairWindow : x.pairWindow < 4294967296
  missTol : x.missTol < 256
  lines : x.lines < 256
  jumpLevel : x.jumpLevel < 256
  cautionCap : x.cautionCap < 256
  pitCap : x.pitCap < 256

/-- The numbers are read back from their places (R5, R188). -/
theorem timingNumbers_timingBytes {x : TimingSettings} (fits : TimingFits x) : timingNumbers (timingBytes x) =
    [(25000, 400000, x.beaconIvl), (1, 255, x.trimLimit), (100, 20000, x.lagMax), (1000, 500000, x.lineHoldoff),
     (10, 2000, x.pairWindow), (0, 4, x.missTol), (1, 5, x.lines), (1, 63, x.jumpLevel), (0, 63, x.cautionCap),
     (0, 63, x.pitCap)] := by
  simp only [timingNumbers, arg32, arg16, arg8, timingBytes, u32, u8, yesNo, List.cons_append, List.nil_append,
    List.getD_cons_succ, List.getD_cons_zero, Nat.reduceAdd, long_toNat _ fits.beaconIvl,
    long_toNat _ fits.trimLimit, long_toNat _ fits.lagMax, long_toNat _ fits.lineHoldoff,
    long_toNat _ fits.pairWindow, byte_toNat _ fits.missTol, byte_toNat _ fits.lines, byte_toNat _ fits.jumpLevel,
    byte_toNat _ fits.cautionCap, byte_toNat _ fits.pitCap]

/-- The on/off bytes and the lane byte are read back (R188). -/
theorem timingFlags_timingBytes (x : TimingSettings) :
    argBool (timingBytes x) 22 = some x.mirror ∧ argBool (timingBytes x) 23 = some x.startHold ∧
    argBool (timingBytes x) 26 = some x.cautionClose ∧ argBool (timingBytes x) 29 = some x.lockout ∧
    (timingBytes x).getD 28 0 = x.lanesEnabled := by
  simp only [argBool, arg8, timingBytes, u32, u8, yesNo, List.cons_append, List.nil_append, List.getD_cons_succ,
    List.getD_cons_zero, yesNo_read, and_self]

theorem timingBytes_length (x : TimingSettings) : (timingBytes x).length = 30 := by
  simp [timingBytes, u32, u8, yesNo]

theorem timingOf_timingBytes {x : TimingSettings} (fits : TimingFits x) (lanes : lanesByte x.lanesEnabled = true) :
    timingOf (timingBytes x) = some (timingBrought x) := by
  have numbers := timingNumbers_timingBytes fits
  simp only [timingNumbers, List.cons.injEq, Prod.mk.injEq, true_and, and_true] at numbers
  obtain ⟨ivl, trim, lag, holdoff, window, tol, n, jump, cap, pit⟩ := numbers
  obtain ⟨mirror, startHold, close, lockout, lanesByte_eq⟩ := timingFlags_timingBytes x
  rw [timingOf, mirror, startHold, close, lockout]
  dsimp only
  rw [lanesByte_eq, if_pos lanes, ivl, trim, lag, holdoff, window, tol, n, jump, cap, pit]
  rfl

theorem timing_adjusted {x : TimingSettings} (fits : TimingFits x) :
    anyClamped (timingNumbers (timingBytes x)) = true ↔ timingBrought x ≠ x := by
  rw [anyClamped_iff, timingNumbers_timingBytes fits, ne_eq, not_iff_not]
  cases x
  simp [timingBrought]

theorem lanesByte_true {b : Byte} (one : b ≠ 0) (few : b.toNat < 64) : lanesByte b = true := by
  simpa [lanesByte, few] using one

theorem lanesByte_false {b : Byte} (h : b = 0 ∨ 64 ≤ b.toNat) : lanesByte b = false := by
  rcases h with rfl | h
  · rfl
  · simp [lanesByte, Nat.not_lt.2 h]

/-- An on/off byte above 1, and a byte that is no set of lanes, leave no settings to load (R188). -/
theorem timingOf_none {raw : List Byte}
    (h : 1 < (raw.getD 22 0).toNat ∨ 1 < (raw.getD 23 0).toNat ∨ 1 < (raw.getD 26 0).toNat ∨
      1 < (raw.getD 29 0).toNat ∨ raw.getD 28 0 = 0 ∨ 64 ≤ (raw.getD 28 0).toNat) : timingOf raw = none := by
  unfold timingOf
  split
  · next mirror hold close lock =>
    rcases h with h | h | h | h | h
    · rw [argBool_none h] at mirror
      cases mirror
    · rw [argBool_none h] at hold
      cases hold
    · rw [argBool_none h] at close
      cases close
    · rw [argBool_none h] at lock
      cases lock
    · rw [lanesByte_false h]
      rfl
  · rfl

section
variable {s : State} (hl : Listening s) (tag : Byte)
include hl

/-- SET_TIMING outside a heat, or with LINES as they stand, loads its settings (R188). -/
theorem setTiming_loads {x : TimingSettings} (fits : TimingFits x) (lanes : lanesByte x.lanesEnabled = true)
    (free : betweenHeats s.session.state = true ∨ (timingBrought x).lines = lines s) :
    ∃ t, exec (.setTiming tag (timingBytes x)) s = .next t ∧
      Quiet { s with settings := { s.settings with timing := timingBrought x } } t ∧
      (timingBrought x = x → Replied s t tag .ok (timingBytes (timingBrought x))) ∧
      (¬timingBrought x = x → Replied s t tag .adjusted (timingBytes (timingBrought x))) := by
  refine request_loads (exec_setTiming tag _ s) hl ((withLength_of_length (timingBytes_length x)).trans ?_)
    (timing_adjusted fits) hl.1 rfl
  rw [timingOf_timingBytes fits lanes]
  refine if_neg fun barred => ?_
  rcases free with between | same
  · have between : betweenHeats (received .station s).session.state = true := between
    rw [between] at barred
    cases barred
  · have same : (timingBrought x).lines = lines (received .station s) := same
    rw [same] at barred
    simp at barred

theorem setTiming_refuses_lines {x : TimingSettings} (fits : TimingFits x) (lanes : lanesByte x.lanesEnabled = true)
    (heat : betweenHeats s.session.state = false) (moved : (timingBrought x).lines ≠ lines s) :
    Refuses (.setTiming tag (timingBytes x)) s tag .wrongState := by
  refine request_refused (exec_setTiming tag _ s) hl ((withLength_of_length (timingBytes_length x)).trans ?_)
  rw [timingOf_timingBytes fits lanes]
  refine if_pos (Bool.and_eq_true_iff.2 ⟨?_, bne_iff_ne.2 moved⟩)
  show (!betweenHeats s.session.state) = true
  rw [heat]
  rfl

theorem setTiming_refuses_bytes {raw : List Byte} (len : raw.length = 30) (bad : timingOf raw = none) :
    Refuses (.setTiming tag raw) s tag .badValue := by
  refine request_refused (exec_setTiming tag _ s) hl ((withLength_of_length len).trans ?_)
  rw [bad]

theorem setTiming_refuses_lanes {x : TimingSettings} (bad : x.lanesEnabled = 0 ∨ 64 ≤ x.lanesEnabled.toNat) :
    Refuses (.setTiming tag (timingBytes x)) s tag .badValue := by
  obtain ⟨-, -, -, -, lanes_eq⟩ := timingFlags_timingBytes x
  rw [← lanes_eq] at bad
  exact setTiming_refuses_bytes hl tag (timingBytes_length x) (timingOf_none (.inr (.inr (.inr (.inr bad)))))

end

/-- Settles O25: the arguments are the settings as sent, so that loading them is bringing each into its range. -/
theorem setTimingResult : Obligations.SetTimingResult := by
  intro s tag lanes ivl trim lag holdoff window tol n jump cap pit mirror startHold close lockout hl
    hivl htrim hlag hholdoff hwindow htol hn hjump hcap hpit args near new exact_ answer between
  let x : TimingSettings := ⟨ivl, trim, lag, holdoff, window, tol, n, mirror, startHold, jump, cap, close, pit, lanes,
    lockout⟩
  have fits : TimingFits x := ⟨hivl, htrim, hlag, hholdoff, hwindow, htol, hn, hjump, hcap, hpit⟩
  have loaded : timingBrought x = new := by
    simp only [timingBrought, clamp_eq, Nat.reduceLeDiff]
    rfl
  have sent : timingBrought x = x ↔ exact_ := by
    rw [loaded]
    simp [exact_, x, new]
  refine ⟨fun one few free => ?_, fun one few heat moved => ?_, fun bad => ?_, fun raw len bad => ?_⟩
  · have loads := setTiming_loads hl tag fits (lanesByte_true one few)
      (free.imp (betweenHeats_iff _).2 (congrArg TimingSettings.lines loaded).trans)
    rw [sent, loaded] at loads
    exact loads
  · exact setTiming_refuses_lines (x := x) hl tag fits (lanesByte_true one few) (betweenHeats_false heat)
      ((congrArg TimingSettings.lines loaded).trans_ne moved)
  · exact setTiming_refuses_lanes (x := x) hl tag bad
  · exact setTiming_refuses_bytes hl tag len (timingOf_none bad)

/-! #### SET_HEAT (R130) -/

theorem exec_setHeat (tag : Byte) (args : List Byte) (s : State) :
    exec (.setHeat tag args) s = complete (request tag (setHeat args) s) := rfl

/-- The heat settings with each number brought into its range (R130). -/
def heatBrought (x : HeatSettings) : HeatSettings :=
  { x with
    raceLaps := clamp 1 9999 x.raceLaps, heatLen := clamp 1 36000 x.heatLen, countSteps := clamp 1 5 x.countSteps
    stepIvl := clamp 50000 200000 x.stepIvl, randomMax := clamp 0 300000 x.randomMax
    finishGrace := clamp 1 600 x.finishGrace }

/-- The numbers of the heat settings fit into their argument bytes. -/
structure HeatFits (x : HeatSettings) : Prop where
  raceLaps : x.raceLaps < 65536
  heatLen : x.heatLen < 65536
  countSteps : x.countSteps < 256
  stepIvl : x.stepIvl < 4294967296
  randomMax : x.randomMax < 4294967296
  finishGrace : x.finishGrace < 65536

theorem heatBytes_length (x : HeatSettings) : (heatBytes x).length = 17 := by
  simp [heatBytes, u32, u16, u8]

/-- The numbers are read back from their places (R5, R130). -/
theorem heatNumbers_heatBytes {x : HeatSettings} (fits : HeatFits x) : heatNumbers (heatBytes x) =
    [(1, 9999, x.raceLaps), (1, 36000, x.heatLen), (1, 5, x.countSteps), (50000, 200000, x.stepIvl),
     (0, 300000, x.randomMax), (1, 600, x.finishGrace)] := by
  simp only [heatNumbers, arg32, arg16, arg8, heatBytes, u32, u16, u8, List.cons_append, List.nil_append,
    List.getD_cons_succ, List.getD_cons_zero, Nat.reduceAdd, word_toNat _ fits.raceLaps, word_toNat _ fits.heatLen,
    byte_toNat _ fits.countSteps, long_toNat _ fits.stepIvl, long_toNat _ fits.randomMax,
    word_toNat _ fits.finishGrace]

/-- The codes are read back (R130). -/
theorem heatCodes_heatBytes (x : HeatSettings) :
    raceKindOf (arg8 (heatBytes x) 0) = some x.raceKind ∧
    marshalActionOf (arg8 (heatBytes x) 16) = some x.marshalAction := by
  simp only [arg8, heatBytes, u32, u16, u8, List.cons_append, List.nil_append, List.getD_cons_succ,
    List.getD_cons_zero, raceKindOf_code, marshalActionOf_code, and_self]

theorem heatOf_heatBytes {x : HeatSettings} (fits : HeatFits x) : heatOf (heatBytes x) = some (heatBrought x) := by
  have numbers := heatNumbers_heatBytes fits
  simp only [heatNumbers, List.cons.injEq, Prod.mk.injEq, true_and, and_true] at numbers
  obtain ⟨laps, len, steps, ivl, rand, grace⟩ := numbers
  obtain ⟨kind, action⟩ := heatCodes_heatBytes x
  rw [heatOf, kind, action]
  dsimp only
  rw [laps, len, steps, ivl, rand, grace]
  rfl

theorem heat_adjusted {x : HeatSettings} (fits : HeatFits x) :
    anyClamped (heatNumbers (heatBytes x)) = true ↔ heatBrought x ≠ x := by
  rw [anyClamped_iff, heatNumbers_heatBytes fits, ne_eq, not_iff_not]
  cases x
  simp [heatBrought]

theorem heatOf_none {raw : List Byte} (h : 1 < arg8 raw 0 ∨ 2 < arg8 raw 16) : heatOf raw = none := by
  unfold heatOf
  split
  · next kind action =>
    rcases h with h | h
    · rw [raceKindOf_none h] at kind
      cases kind
    · rw [marshalActionOf_none h] at action
      cases action
  · rfl

/-- The state once heat settings have been loaded: in ARMED the heat clock is set again (R130). -/
def heatLoaded (x : HeatSettings) (s : State) : State :=
  { s with
    settings := { s.settings with heat := x }
    session := { s.session with
      heatClock := if s.session.state = .armed then fullHeatClock x else s.session.heatClock } }

theorem setHeat_loads {s : State} (hl : Listening s) (tag : Byte) {x : HeatSettings} (fits : HeatFits x)
    (before : beforeStart s.session.state = true) :
    ∃ t, exec (.setHeat tag (heatBytes x)) s = .next t ∧ Quiet (heatLoaded (heatBrought x) s) t ∧
      (heatBrought x = x → Replied s t tag .ok (heatBytes (heatBrought x))) ∧
      (¬heatBrought x = x → Replied s t tag .adjusted (heatBytes (heatBrought x))) := by
  refine request_loads (exec_setHeat tag _ s) hl (checks_passed (heatBytes_length x) before ?_) (heat_adjusted fits)
    hl.1 rfl
  rw [heatOf_heatBytes fits]
  refine congrArg (taken _ _) ?_
  by_cases armed : s.session.state = .armed
  · rw [heatLoaded, if_pos armed]
    exact if_pos armed
  · rw [heatLoaded, if_neg armed]
    exact if_neg armed

/-- Settles O26: the arguments are the heat settings as sent, and the load brings each number into its range. -/
theorem setHeatResult : Obligations.SetHeatResult := by
  intro s tag kind action laps len steps ivl rand grace hl hlaps hlen hsteps hivl hrand hgrace args near new exact_
    answer before
  let x : HeatSettings := ⟨kind, laps, len, steps, ivl, rand, grace, action⟩
  have fits : HeatFits x := ⟨hlaps, hlen, hsteps, hivl, hrand, hgrace⟩
  have loaded : heatBrought x = new := by
    simp only [heatBrought, clamp_eq, Nat.reduceLeDiff]
    rfl
  have sent : heatBrought x = x ↔ exact_ := by
    rw [loaded]
    simp [exact_, x, new]
  have clock : fullHeatClock new = if kind = .time then new.heatLen * 100000 else 0 :=
    ArmAndStart.fullHeatClock_eq new
  refine ⟨fun taken => ?_, fun raw len => ⟨fun taken bad => ?_, fun late => ?_⟩⟩
  · have loads := setHeat_loads hl tag fits ((beforeStart_iff _).2 taken)
    rw [sent, loaded, heatLoaded, clock] at loads
    exact loads
  · refine refuses_work (exec_setHeat tag raw s) hl len ((beforeStart_iff _).2 taken) ?_
    rw [heatOf_none bad]
  · exact refuses_wrongState (exec_setHeat tag raw s) hl len (beforeStart_false late)

/-! #### SET_FUEL (R182) -/

theorem exec_setFuel (tag : Byte) (args : List Byte) (s : State) :
    exec (.setFuel tag args) s = complete (request tag (setFuel args) s) := rfl

/-- The fuel settings brought into range, FUEL_CAP first (R182). -/
def fuelBrought (x : FuelSettings) : FuelSettings :=
  { cap := clamp 0 60000 x.cap, warn := clamp 0 (clamp 0 60000 x.cap) x.warn, limp := clamp 0 63 x.limp
    refuel := clamp 1 1000 x.refuel }

/-- The fuel settings fit into their argument bytes. -/
structure FuelFits (x : FuelSettings) : Prop where
  cap : x.cap < 65536
  warn : x.warn < 65536
  limp : x.limp < 256
  refuel : x.refuel < 65536

theorem fuelBytes_length (x : FuelSettings) : (fuelBytes x).length = 7 := rfl

/-- The numbers are read back from their places (R5, R182). -/
theorem fuelNumbers_fuelBytes {x : FuelSettings} (fits : FuelFits x) : fuelNumbers (fuelBytes x) =
    [(0, 60000, x.cap), (0, clamp 0 60000 x.cap, x.warn), (0, 63, x.limp), (1, 1000, x.refuel)] := by
  simp only [fuelNumbers, arg16, arg8, fuelBytes, u16, u8, List.cons_append, List.nil_append, List.getD_cons_succ,
    List.getD_cons_zero, Nat.reduceAdd, word_toNat _ fits.cap, word_toNat _ fits.warn, byte_toNat _ fits.limp,
    word_toNat _ fits.refuel]

theorem fuelOf_fuelBytes {x : FuelSettings} (fits : FuelFits x) : fuelOf (fuelBytes x) = fuelBrought x := by
  have numbers := fuelNumbers_fuelBytes fits
  simp only [fuelNumbers, List.cons.injEq, Prod.mk.injEq, true_and, and_true] at numbers
  obtain ⟨cap, ⟨-, warn⟩, limp, refuel⟩ := numbers
  rw [fuelOf, cap, warn, limp, refuel]
  rfl

theorem fuel_adjusted {x : FuelSettings} (fits : FuelFits x) :
    anyClamped (fuelNumbers (fuelBytes x)) = true ↔ fuelBrought x ≠ x := by
  rw [anyClamped_iff, fuelNumbers_fuelBytes fits, ne_eq, not_iff_not]
  cases x
  simp [fuelBrought]

/-- The state once fuel settings have been loaded and every car has been refitted (R182). -/
def fuelLoaded (x : FuelSettings) (s : State) : State :=
  updAllCtx (refit (s.session.state == .armed) x.cap) { s with settings := { s.settings with fuel := x } }

theorem setFuel_loads {s : State} (hl : Listening s) (tag : Byte) {x : FuelSettings} (fits : FuelFits x)
    (before : beforeStart s.session.state = true) :
    ∃ t, exec (.setFuel tag (fuelBytes x)) s = .next t ∧ Quiet (fuelLoaded (fuelBrought x) s) t ∧
      (fuelBrought x = x → Replied s t tag .ok (fuelBytes (fuelBrought x))) ∧
      (¬fuelBrought x = x → Replied s t tag .adjusted (fuelBytes (fuelBrought x))) := by
  refine request_loads (exec_setFuel tag _ s) hl (checks_passed (fuelBytes_length x) before ?_) (fuel_adjusted fits)
    hl.1 rfl
  rw [fuelOf_fuelBytes fits]
  rfl

theorem ctx_fuelLoaded (x : FuelSettings) (s : State) (e : Entry) : ctx (fuelLoaded x s) e =
    if s.session.state = .armed then
      (if (ctx s e).state = .unused then ctx s e else { ctx s e with fuel := x.cap, fuelState := .normal })
    else { ctx s e with fuel := min x.cap (ctx s e).fuel } := by
  rw [fuelLoaded, ctx_updAllCtx, refit]
  simp only [beq_iff_eq]
  rfl

/-- Settles O27: the settings are loaded, and the contexts behind the load are those refitted. -/
theorem setFuelResult : Obligations.SetFuelResult := by
  intro s tag cap warn limp step hl hcap hwarn hlimp hstep args new exact_ answer before
  let x : FuelSettings := ⟨cap, warn, limp, step⟩
  have fits : FuelFits x := ⟨hcap, hwarn, hlimp, hstep⟩
  have refuel : clamp 1 1000 step = if step = 0 then 1 else min 1000 step := by
    unfold clamp
    split <;> omega
  have loaded : fuelBrought x = new := by
    simp only [fuelBrought, x, refuel]
    simp only [clamp, Nat.zero_max]
    rfl
  have sent : fuelBrought x = x ↔ exact_ := by
    rw [loaded]
    simp [exact_, x, new]
  refine ⟨fun taken => ?_, fun late raw len =>
    refuses_wrongState (exec_setFuel tag raw s) hl len (beforeStart_false late)⟩
  obtain ⟨t, next, quiet, ok, adjusted⟩ := setFuel_loads hl tag fits ((beforeStart_iff _).2 taken)
  rw [loaded] at quiet
  rw [sent, loaded] at ok adjusted
  refine ⟨t, next, ?_, fun e => ?_, ok, adjusted⟩
  · rw [outputs_contexts quiet.outputs]
    exact quiet
  · rw [outputs_ctx quiet.outputs, ctx_fuelLoaded]

end Sys2Proof.Proofs.LoadedSettings

/-! ### Proofs: the tables

WRITE_GATE, WRITE_LINE, WRITE_ENTRY and WRITE_RULE: a row is stored, or the request is refused (R25, R26, R136, R138,
R170, R177). -/

namespace Sys2Proof.Proofs.StoredRows

open Sys2Proof Machine Safety RequestChecks LoadedSettings

/-! #### WRITE_GATE (R25, R26) -/

theorem exec_writeGate (tag : Byte) (args : List Byte) (s : State) :
    exec (.writeGate tag args) s = complete (request tag (writeGate args) s) := rfl

/-- The arguments of a write: the gate, and the contents sent for its slot (R25). -/
def gateArgs (g : GateId) (role : GateRole) (line : Line) (lane : Nat) (pos : PairPosition) (hop : Nat) : List Byte :=
  u8 (g.val + 1) ++ [role.code] ++ u8 line.val ++ u8 lane ++ [pos.code] ++ u8 hop

/-- A stored slot collides with another where that one has its role, and for a LINE role its place (R26). -/
theorem slotsCollide_slotFor (role : GateRole) (line : Line) (lane : Nat) (pos : PairPosition) (hop : Nat)
    (b : GateSlot) : slotsCollide (slotFor role line lane pos hop) b = true ↔
      b.role = role ∧ (role = .pitEntry ∨ role = .pitExit ∨
        (role = .line ∧ b.line = line ∧ b.lane = lane ∧ b.position = pos)) := by
  unfold slotsCollide
  cases role with
  | line =>
    cases h : b.role <;>
      simp [slotFor, and_assoc, eq_comm (a := line), eq_comm (a := lane), eq_comm (a := pos)]
  | pitEntry => cases h : b.role <;> simp [slotFor]
  | pitExit => cases h : b.role <;> simp [slotFor]
  | unused => simp [slotFor, defaultSlot]

theorem pairedCount_congr {s t : State} (h : t.clock.gates = s.clock.gates) : pairedCount t = pairedCount s := by
  simp only [pairedCount, isPaired, hasLineGate, gate, h]

/-- What breaks a constraint of the gate table (R26). -/
theorem gateConflict_iff (s : State) (g : GateId) (role : GateRole) (line : Line) (lane : Nat) (pos : PairPosition)
    (hop : Nat) : gateConflict s g (slotFor role line lane pos hop) = true ↔
      (∃ h : GateId, h ≠ g ∧ (gate s h).role = role ∧
        (role = .pitEntry ∨ role = .pitExit ∨
         (role = .line ∧ (gate s h).line = line ∧ (gate s h).lane = lane ∧ (gate s h).position = pos))) ∨
      12 < pairedCount (setGate g (slotFor role line lane pos hop) s) := by
  rw [gateConflict, Bool.or_eq_true, decide_eq_true_iff, List.any_eq_true]
  simp only [Bool.and_eq_true, bne_iff_ne, slotsCollide_slotFor, mem_allGates, true_and]
  rfl

theorem gateConflict_received (s : State) (g : GateId) (slot : GateSlot) :
    gateConflict (received .station s) g slot = gateConflict s g slot := by
  have count : pairedCount (setGate g slot (received .station s)) = pairedCount (setGate g slot s) :=
    pairedCount_congr rfl
  rw [gateConflict, count]
  rfl

/-- The arguments are read back, and what is left are the checks of the pit roles and of the table (R25, R26). -/
theorem writeGate_gateArgs {s : State} (hs : betweenHeats s.session.state = true) {g : GateId} {role : GateRole}
    {line : Line} {lane : Nat} {pos : PairPosition} {hop : Nat} (low : 1 ≤ lane) (high : lane ≤ 6) (fits : hop < 256) :
    writeGate (gateArgs g role line lane pos hop) (received .station s) =
      if (role = .pitEntry ∨ role = .pitExit) ∧ pos = .secondary then refuse .badValue (received .station s)
      else if gateConflict s g (slotFor role line lane pos hop) then refuse .conflict (received .station s)
      else okay [] (received .station (setGate g (slotFor role line lane pos hop) s)) := by
  refine checks_passed rfl hs ?_
  have gate_eq : gateOf (arg8 (gateArgs g role line lane pos hop) 0) = some g := gateOf_byte g
  have role_eq : roleOf (arg8 (gateArgs g role line lane pos hop) 1) = some role := roleOf_code role
  have line_eq : lineOf (arg8 (gateArgs g role line lane pos hop) 2) = some line := lineOf_byte line
  have lane_eq : arg8 (gateArgs g role line lane pos hop) 3 = lane := byte_toNat lane (by omega)
  have pos_eq : positionOf (arg8 (gateArgs g role line lane pos hop) 4) = some pos := positionOf_code pos
  have hop_eq : arg8 (gateArgs g role line lane pos hop) 5 = hop := byte_toNat hop fits
  rw [gate_eq, role_eq, pos_eq]
  dsimp only
  rw [line_eq, lane_eq, hop_eq]
  dsimp only
  rw [if_neg (by omega), gateConflict_received]
  rfl

section
variable {s : State} (hl : Listening s) (tag : Byte) (hs : betweenHeats s.session.state = true)
include hl hs

section
variable {g : GateId} {role : GateRole} {line : Line} {lane : Nat} {pos : PairPosition} {hop : Nat}
variable (low : 1 ≤ lane) (high : lane ≤ 6) (fits : hop < 256)
include low high fits

theorem writeGate_stores (given : ¬((role = .pitEntry ∨ role = .pitExit) ∧ pos = .secondary))
    (free : ¬gateConflict s g (slotFor role line lane pos hop) = true) :
    ∃ t, exec (.writeGate tag (gateArgs g role line lane pos hop)) s = .next t ∧
      Quiet (setGate g (slotFor role line lane pos hop) s) t ∧ Replied s t tag .ok [] := by
  refine request_taken (exec_writeGate tag _ s) hl ?_ hl.1 rfl
  rw [writeGate_gateArgs hs low high fits, if_neg given, if_neg free]
  rfl

theorem writeGate_refuses_conflict (given : ¬((role = .pitEntry ∨ role = .pitExit) ∧ pos = .secondary))
    (taken : gateConflict s g (slotFor role line lane pos hop) = true) :
    Refuses (.writeGate tag (gateArgs g role line lane pos hop)) s tag .conflict := by
  refine request_refused (exec_writeGate tag _ s) hl ?_
  rw [writeGate_gateArgs hs low high fits, if_neg given, if_pos taken]

theorem writeGate_refuses_secondary (pit : (role = .pitEntry ∨ role = .pitExit) ∧ pos = .secondary) :
    Refuses (.writeGate tag (gateArgs g role line lane pos hop)) s tag .badValue := by
  refine request_refused (exec_writeGate tag _ s) hl ?_
  rw [writeGate_gateArgs hs low high fits, if_pos pit]

end

/-- A role, a pair position, a line or a lane outside its codes or range is refused for a gate that exists (R25). -/
theorem writeGate_refuses_bytes {raw : List Byte} (len : raw.length = 6) (named : 1 ≤ arg8 raw 0 ∧ arg8 raw 0 ≤ 32)
    (bad : 3 < arg8 raw 1 ∨ 4 < arg8 raw 2 ∨ arg8 raw 3 < 1 ∨ 6 < arg8 raw 3 ∨ 1 < arg8 raw 4) :
    Refuses (.writeGate tag raw) s tag .badValue := by
  refine refuses_work (exec_writeGate tag raw s) hl len hs ?_
  obtain ⟨g, gate_eq⟩ := gateOf_some named
  rw [gate_eq]
  dsimp only
  split
  · next role pos role_eq pos_eq =>
    split
    · rfl
    · next line line_eq =>
      rcases bad with bad | bad | bad | bad | bad
      · rw [roleOf_none bad] at role_eq
        cases role_eq
      · rw [lineOf_none bad] at line_eq
        cases line_eq
      · rw [if_pos (.inl bad)]
      · rw [if_pos (.inr bad)]
      · rw [positionOf_none bad] at pos_eq
        cases pos_eq
  · rfl

end

/-- A byte that is 0 is below 1. -/
theorem toNat_lt_one {b : Byte} (h : b = 0) : b.toNat < 1 := by
  rw [h]
  decide

/-- Settles O28: the checks of a write, in their order, behind the reading of its arguments. -/
theorem writeGateResult : Obligations.WriteGateResult := by
  intro s tag g role line lane pos hop hl low high fits args slot pitSecondary conflict between
  have slot_eq : slotFor role line lane pos hop = slot := by cases role <;> rfl
  have conflict_iff : gateConflict s g (slotFor role line lane pos hop) = true ↔ conflict := by
    rw [gateConflict_iff, slot_eq]
  refine ⟨fun hs given free => ?_, fun hs given taken => ?_, fun hs pit => ?_, fun raw len => ⟨?_, fun heat => ?_⟩⟩
  · have stored := writeGate_stores hl tag ((betweenHeats_iff _).2 hs) low high fits given (mt conflict_iff.1 free)
    rw [slot_eq] at stored
    exact stored
  · exact writeGate_refuses_conflict hl tag ((betweenHeats_iff _).2 hs) low high fits given (conflict_iff.2 taken)
  · exact writeGate_refuses_secondary hl tag ((betweenHeats_iff _).2 hs) low high fits pit
  · intro hs first last bad
    exact writeGate_refuses_bytes hl tag ((betweenHeats_iff _).2 hs) len ⟨first, last⟩
      (bad.imp_right (Or.imp_right (Or.imp_left toNat_lt_one)))
  · exact refuses_wrongState (exec_writeGate tag raw s) hl len (betweenHeats_false heat)

/-! #### WRITE_LINE (R177) -/

theorem exec_writeLine (tag : Byte) (args : List Byte) (s : State) :
    exec (.writeLine tag args) s = complete (request tag (writeLine args) s) := rfl

/-- The arguments of a write: the line, and the row sent for it (R177). -/
def lineArgs (j : Line) (r : LineRow) : List Byte :=
  u8 j.val ++ u32 r.overdue ++ [r.mode.code] ++ u32 r.minSector

/-- A row brought into range, an overdue limit of 0 kept (R177). -/
def lineBrought (r : LineRow) : LineRow := ⟨clampOverdue r.overdue, r.mode, clamp 0 6000000 r.minSector⟩

/-- The state once a row has been stored (R176, R177). -/
def lineStored (j : Line) (r : LineRow) (s : State) : State :=
  { s with throttle := { s.throttle with lines := s.throttle.lines.set j r, zoneOverride := false } }

theorem writeLine_stores {s : State} (hl : Listening s) (tag : Byte) (hs : betweenHeats s.session.state = true)
    (j : Line) {r : LineRow} (limit : r.overdue < 4294967296) (sector : r.minSector < 4294967296) :
    ∃ t, exec (.writeLine tag (lineArgs j r)) s = .next t ∧ Quiet (lineStored j (lineBrought r) s) t ∧
      (lineBrought r = r → Replied s t tag .ok (lineBytes (lineBrought r))) ∧
      (¬lineBrought r = r → Replied s t tag .adjusted (lineBytes (lineBrought r))) := by
  have line_eq : lineOf (arg8 (lineArgs j r) 0) = some j := lineOf_byte j
  have limit_eq : arg32 (lineArgs j r) 1 = r.overdue := long_toNat _ limit
  have mode_eq : zoneModeOf (arg8 (lineArgs j r) 5) = some r.mode := zoneModeOf_code r.mode
  have sector_eq : arg32 (lineArgs j r) 6 = r.minSector := long_toNat _ sector
  refine request_loads (adjusted := (lineBrought r).overdue != r.overdue || (lineBrought r).minSector != r.minSector)
    (exec_writeLine tag _ s) hl (checks_passed rfl hs ?_) ?_ hl.1 rfl
  · rw [line_eq]
    dsimp only
    rw [mode_eq, limit_eq, sector_eq]
    rfl
  · cases r
    simp [lineBrought, imp_iff_not_or]

theorem clampOverdue_eq (n : Nat) :
    clampOverdue n = if n = 0 then 0 else if n < 100000 then 100000 else min 6000000 n := by
  unfold clampOverdue clamp
  split
  · rfl
  · split <;> omega

/-- Settles O29: the row is stored as it is brought into range. -/
theorem writeLineResult : Obligations.WriteLineResult := by
  intro s tag j limit sector mode hl hlimit hsector args row exact_ answer between
  let r : LineRow := ⟨limit, mode, sector⟩
  have brought : lineBrought r = row := by
    rw [lineBrought, clampOverdue_eq, clamp, Nat.zero_max]
  have sent : lineBrought r = r ↔ exact_ := by
    rw [brought]
    simp [exact_, r, row]
  refine ⟨fun hs => ?_, fun raw len => ⟨fun hs named bad => ?_, fun heat => ?_⟩⟩
  · have stored := writeLine_stores hl tag ((betweenHeats_iff _).2 hs) j (r := r) hlimit hsector
    rw [sent, brought] at stored
    exact stored
  · obtain ⟨i, line_eq⟩ := lineOf_some named
    refine refuses_work (exec_writeLine tag raw s) hl len ((betweenHeats_iff _).2 hs) ?_
    have line_eq : lineOf (arg8 raw 0) = some i := line_eq
    have mode_eq : zoneModeOf (arg8 raw 5) = none := zoneModeOf_none bad
    rw [line_eq]
    dsimp only
    rw [mode_eq]
  · exact refuses_wrongState (exec_writeLine tag raw s) hl len (betweenHeats_false heat)

/-! #### WRITE_ENTRY (R170) -/

theorem exec_writeEntry (tag : Byte) (args : List Byte) (s : State) :
    exec (.writeEntry tag args) s = complete (request tag (writeEntry args) s) := rfl

/-- The arguments of a write: the entry, and the row sent for it, with controller 0 for none (R170). -/
def entryArgs (e : Entry) (controller : Nat) (r : EntryRow) : List Byte :=
  u8 (e.val + 1) ++ u8 controller ++ [r.code] ++ u8 r.weight ++ [r.drillMode.code] ++ u32 r.drillLap ++
    u32 r.drillStep ++ u8 r.drillLane

/-- A row brought into range (R170). -/
def entryBrought (r : EntryRow) : EntryRow :=
  { r with
    weight := clamp 0 15 r.weight, drillLap := clamp 100000 6000000 r.drillLap
    drillStep := clamp 0 500000 r.drillStep }

/-- The numbers of a row that a write admits (R170). -/
structure EntryFits (r : EntryRow) : Prop where
  code : r.code.toNat ≤ 15
  weight : r.weight < 256
  drillLap : r.drillLap < 4294967296
  drillStep : r.drillStep < 4294967296
  drillLane : 1 ≤ r.drillLane ∧ r.drillLane ≤ 6

/-- The state once a row has been stored (R170). -/
def entryStored (e : Entry) (r : EntryRow) (s : State) : State :=
  { s with throttle := { s.throttle with entries := s.throttle.entries.set e r } }

theorem controllerOf_getD (n : Nat) : (controllerOf n).getD 0 = n := by
  unfold controllerOf
  split <;> simp_all

/-- The mapped rows that a write of a mapped row collides with (R170). -/
theorem entryConflict_iff (s : State) (e : Entry) (row : EntryRow) : entryConflict s e row = true ↔
    row.controller ≠ none ∧ ∃ f : Entry, f ≠ e ∧ (entryRow s f).controller ≠ none ∧
      ((entryRow s f).controller = row.controller ∨ (entryRow s f).code = row.code) := by
  simp [entryConflict, mapped, Option.isSome_iff_ne_none, mem_allEntries, and_assoc]

/-- The answer to a write that passes the checks of its bytes (R170). -/
def entryAnswer (e : Entry) (r : EntryRow) (s : State) : Answer :=
  if entryConflict s e (entryBrought r) then refuse .conflict (received .station s)
  else taken ((entryBrought r).weight != r.weight || (entryBrought r).drillLap != r.drillLap ||
      (entryBrought r).drillStep != r.drillStep) (entryBytes (entryBrought r))
    (received .station (entryStored e (entryBrought r) s))

section
variable {s : State} (hl : Listening s) (tag : Byte) (hs : betweenHeats s.session.state = true)
include hs

theorem writeEntry_entryArgs (e : Entry) {controller : Nat} {r : EntryRow} (mapped : controller ≤ 16)
    (named : r.controller = controllerOf controller) (fits : EntryFits r) :
    writeEntry (entryArgs e controller r) (received .station s) = entryAnswer e r s := by
  refine checks_passed rfl hs ?_
  have entry_eq : entryOf (arg8 (entryArgs e controller r) 0) = some e := entryOf_byte e
  have controller_eq : arg8 (entryArgs e controller r) 1 = controller := byte_toNat _ (by omega)
  have code_eq : arg8 (entryArgs e controller r) 2 = r.code.toNat := rfl
  have byte_eq : (entryArgs e controller r).getD 2 0 = r.code := rfl
  have weight_eq : arg8 (entryArgs e controller r) 3 = r.weight := byte_toNat _ fits.weight
  have mode_eq : drillModeOf (arg8 (entryArgs e controller r) 4) = some r.drillMode := drillModeOf_code _
  have lap_eq : arg32 (entryArgs e controller r) 5 = r.drillLap := long_toNat _ fits.drillLap
  have step_eq : arg32 (entryArgs e controller r) 9 = r.drillStep := long_toNat _ fits.drillStep
  have lane_eq : arg8 (entryArgs e controller r) 13 = r.drillLane :=
    byte_toNat _ (fits.drillLane.2.trans_lt (by decide))
  have code_low := fits.code
  have lane_range := fits.drillLane
  rw [entry_eq]
  dsimp only
  rw [mode_eq, controller_eq, code_eq, byte_eq, weight_eq, lap_eq, step_eq, lane_eq, ← named]
  dsimp only
  rw [if_neg (by omega), if_neg (by omega)]
  rfl

include hl

theorem writeEntry_stores (e : Entry) {controller : Nat} {r : EntryRow} (mapped : controller ≤ 16)
    (named : r.controller = controllerOf controller) (fits : EntryFits r)
    (free : ¬entryConflict s e (entryBrought r) = true) :
    ∃ t, exec (.writeEntry tag (entryArgs e controller r)) s = .next t ∧
      Quiet (entryStored e (entryBrought r) s) t ∧
      (entryBrought r = r → Replied s t tag .ok (entryBytes (entryBrought r))) ∧
      (¬entryBrought r = r → Replied s t tag .adjusted (entryBytes (entryBrought r))) := by
  refine request_loads (exec_writeEntry tag _ s) hl
    ((writeEntry_entryArgs hs e mapped named fits).trans (if_neg free)) ?_ hl.1 rfl
  cases r
  simp [entryBrought, imp_iff_not_or, or_assoc]

theorem writeEntry_refuses_conflict (e : Entry) {controller : Nat} {r : EntryRow} (mapped : controller ≤ 16)
    (named : r.controller = controllerOf controller) (fits : EntryFits r)
    (taken : entryConflict s e (entryBrought r) = true) :
    Refuses (.writeEntry tag (entryArgs e controller r)) s tag .conflict :=
  request_refused (exec_writeEntry tag _ s) hl ((writeEntry_entryArgs hs e mapped named fits).trans (if_pos taken))

/-- A controller number, car code, drill mode or drill lane outside its range is refused for an entry that exists
(R170). -/
theorem writeEntry_refuses_bytes {raw : List Byte} (len : raw.length = 14) (named : 1 ≤ arg8 raw 0 ∧ arg8 raw 0 ≤ 16)
    (bad : 16 < arg8 raw 1 ∨ 15 < arg8 raw 2 ∨ 3 < arg8 raw 4 ∨ arg8 raw 13 < 1 ∨ 6 < arg8 raw 13) :
    Refuses (.writeEntry tag raw) s tag .badValue := by
  refine refuses_work (exec_writeEntry tag raw s) hl len hs ?_
  obtain ⟨e, entry_eq⟩ := entryOf_some named
  rw [entry_eq]
  dsimp only
  split
  · rfl
  · next mode mode_eq =>
    rcases bad with bad | bad | bad | bad
    · rw [if_pos (.inl bad)]
    · rw [if_pos (.inr bad)]
    · rw [drillModeOf_none bad] at mode_eq
      cases mode_eq
    · rw [if_pos (c := arg8 raw 13 < 1 ∨ 6 < arg8 raw 13) bad, ite_self]

end

/-- Settles O30: the row is stored as it is brought into range, unless a mapped row stands in its way. -/
theorem writeEntryResult : Obligations.WriteEntryResult := by
  intro s tag code e controller weight lap step lane mode hl hcontroller hcode hweight hlap hstep low high args row
    exact_ answer conflict between
  let r : EntryRow := ⟨controllerOf controller, code, weight, mode, lap, step, lane⟩
  have fits : EntryFits r := ⟨hcode, hweight, hlap, hstep, low, high⟩
  have lap_eq : clamp 100000 6000000 lap = if lap < 100000 then 100000 else min 6000000 lap := by
    unfold clamp
    split <;> omega
  have brought : entryBrought r = row := by
    rw [entryBrought, lap_eq, clamp, clamp, Nat.zero_max, Nat.zero_max]
    rfl
  have sent : entryBrought r = r ↔ exact_ := by
    rw [brought]
    simp [exact_, r, row, controllerOf]
  have conflict_iff : entryConflict s e (entryBrought r) = true ↔ conflict := by
    rw [brought, entryConflict_iff]
    by_cases free : controller = 0
    · simp [row, conflict, free]
    · simp [row, conflict, free]
  have reply : entryBytes row = answer := by
    rw [entryBytes, show row.controller.getD 0 = controller from controllerOf_getD controller]
  refine ⟨fun hs free => ?_, fun hs taken => ?_, fun raw len => ⟨fun hs first last bad => ?_, fun heat => ?_⟩⟩
  · have stored := writeEntry_stores (r := r) hl tag ((betweenHeats_iff _).2 hs) e hcontroller rfl fits
      (mt conflict_iff.1 free)
    rw [sent, brought, reply] at stored
    exact stored
  · exact writeEntry_refuses_conflict (r := r) hl tag ((betweenHeats_iff _).2 hs) e hcontroller rfl fits
      (conflict_iff.2 taken)
  · exact writeEntry_refuses_bytes hl tag ((betweenHeats_iff _).2 hs) len ⟨first, last⟩
      (bad.imp_right (Or.imp_right (Or.imp_right (Or.imp_left toNat_lt_one))))
  · exact refuses_wrongState (exec_writeEntry tag raw s) hl len (betweenHeats_false heat)

/-! #### WRITE_RULE (R136, R138) -/

theorem exec_writeRule (tag : Byte) (args : List Byte) (s : State) :
    exec (.writeRule tag args) s = complete (request tag (writeRule args) s) := rfl

/-- The allowance byte of a rule that has an allowance of the table (R136). -/
theorem allowanceOf_byte {a : Option Nat} (h : a ∈ [none, some 0, some 1, some 2, some 4, some 8, some 16]) :
    allowanceOf (BitVec.ofNat 8 (a.getD 255)).toNat = some a := by
  revert h
  revert a
  decide

theorem allowanceByte_eq (a : Option Nat) : allowanceByte a = u8 (a.getD 255) := by
  cases a <;> rfl

/-- The arguments of a write: the kind, and the row sent for it (R138). -/
def ruleArgs (kind : IncidentKind) (r : Rule) : List Byte :=
  [kind.code] ++ u8 (r.allowance.getD 255) ++ [r.sanction.code] ++ u8 r.amount ++ u8 r.window ++ u8 r.fallback ++
    yesNo r.enforce ++ yesNo r.attention

/-- A row brought into range (R136, R138). -/
def ruleBrought (r : Rule) : Rule :=
  { r with
    amount := storedAmount r.sanction r.amount, window := clamp 1 15 r.window
    fallback := clamp 1 255 r.fallback }

/-- A sanction may not stand in a row: one that is served, for the kind UNSERVED (R136). -/
def Barred (kind : IncidentKind) (k : Sanction) : Prop := kind = .unserved ∧ (k = .driveThrough ∨ k = .stopGo)

/-- The state once a row has been stored (R138). -/
def ruleStored (kind : IncidentKind) (r : Rule) (s : State) : State :=
  { s with penalty := { s.penalty with rules := s.penalty.rules.set (kindIndex kind) r } }

/-- The numbers of a row that a write admits (R138). -/
structure RuleFits (r : Rule) : Prop where
  allowance : r.allowance ∈ [none, some 0, some 1, some 2, some 4, some 8, some 16]
  amount : r.amount < 256
  window : r.window < 256
  fallback : r.fallback < 256

theorem ruleOf_ruleStored (kind other : IncidentKind) (r : Rule) (s : State) :
    ruleOf (ruleStored kind r s) other = if other = kind then r else ruleOf s other := ruleOf_set s kind other r

section
variable {s : State}

/-- The arguments are read back (R5, R138). -/
theorem writeRule_ruleArgs (kind : IncidentKind) {r : Rule} (fits : RuleFits r) :
    writeRule (ruleArgs kind r) (received .station s) =
      if kind = .unserved ∧ (r.sanction = .driveThrough ∨ r.sanction = .stopGo) then
        refuse .badValue (received .station s)
      else taken (rulingAdjusted r.sanction r.amount r.window r.fallback) (ruleBytes (ruleBrought r))
        (received .station (ruleStored kind (ruleBrought r) s)) := by
  refine (withLength_of_length (n := 8) (args := ruleArgs kind r) rfl).trans ?_
  have kind_eq : kindOf (arg8 (ruleArgs kind r) 0) = some kind := kindOf_code kind
  have allowance_eq : allowanceOf (arg8 (ruleArgs kind r) 1) = some r.allowance := allowanceOf_byte fits.allowance
  have sanction_eq : sanctionOf (arg8 (ruleArgs kind r) 2) = some r.sanction := sanctionOf_code _
  have amount_eq : arg8 (ruleArgs kind r) 3 = r.amount := byte_toNat _ fits.amount
  have window_eq : arg8 (ruleArgs kind r) 4 = r.window := byte_toNat _ fits.window
  have fallback_eq : arg8 (ruleArgs kind r) 5 = r.fallback := byte_toNat _ fits.fallback
  have enforce_eq : argBool (ruleArgs kind r) 6 = some r.enforce := yesNo_read _
  have attention_eq : argBool (ruleArgs kind r) 7 = some r.attention := yesNo_read _
  rw [kind_eq]
  dsimp only
  rw [allowance_eq, sanction_eq, enforce_eq, attention_eq, amount_eq, window_eq, fallback_eq]
  rfl

variable (hl : Listening s) (tag : Byte)
include hl

theorem writeRule_stores (kind : IncidentKind) {r : Rule} (fits : RuleFits r) (free : ¬Barred kind r.sanction) :
    ∃ t, exec (.writeRule tag (ruleArgs kind r)) s = .next t ∧ Quiet (ruleStored kind (ruleBrought r) s) t ∧
      (rulingAdjusted r.sanction r.amount r.window r.fallback = false →
        Replied s t tag .ok (ruleBytes (ruleBrought r))) ∧
      (¬rulingAdjusted r.sanction r.amount r.window r.fallback = false →
        Replied s t tag .adjusted (ruleBytes (ruleBrought r))) :=
  request_loads (exec_writeRule tag _ s) hl ((writeRule_ruleArgs kind fits).trans (if_neg free))
    (by rw [Bool.not_eq_false]) hl.1 rfl

theorem writeRule_refuses_barred (kind : IncidentKind) {r : Rule} (fits : RuleFits r)
    (barred : Barred kind r.sanction) : Refuses (.writeRule tag (ruleArgs kind r)) s tag .badValue :=
  request_refused (exec_writeRule tag _ s) hl ((writeRule_ruleArgs kind fits).trans (if_pos barred))

/-- An allowance or a sanction outside its codes, and an on/off byte above 1, are refused for a kind that exists
(R138). -/
theorem writeRule_refuses_bytes {raw : List Byte} (len : raw.length = 8) (named : arg8 raw 0 ≤ 6)
    (bad : arg8 raw 1 ∉ [0, 1, 2, 4, 8, 16, 255] ∨ 5 < arg8 raw 2 ∨ 1 < arg8 raw 6 ∨ 1 < arg8 raw 7) :
    Refuses (.writeRule tag raw) s tag .badValue := by
  refine request_refused (exec_writeRule tag raw s) hl ((withLength_of_length len).trans ?_)
  obtain ⟨kind, kind_eq⟩ := kindOf_some named
  rw [kind_eq]
  dsimp only
  split
  · next allowance_eq sanction_eq enforce_eq attention_eq =>
    rcases bad with bad | bad | bad | bad
    · rw [allowanceOf_none bad] at allowance_eq
      cases allowance_eq
    · rw [sanctionOf_none bad] at sanction_eq
      cases sanction_eq
    · rw [argBool_none bad] at enforce_eq
      cases enforce_eq
    · rw [argBool_none bad] at attention_eq
      cases attention_eq
  · rfl

end

/-- Settles O31: the row is stored as it is brought into range, and no other row moves. -/
theorem writeRuleResult : Obligations.WriteRuleResult := by
  intro s tag kind allowance k amount window fallback enforce attention hl hallowance hamount hwindow hfallback args
    near size row exact_ answer barred
  let r : Rule := ⟨allowance, k, amount, window, fallback, enforce, attention⟩
  have fits : RuleFits r := ⟨hallowance, hamount, hwindow, hfallback⟩
  have near_eq (lo hi v : Nat) (h : lo ≤ hi) : clamp lo hi v = near lo hi v := clamp_eq lo hi v h
  have size_eq : storedAmount k amount = size := by
    cases k with
    | timeAdd => exact near_eq 1 255 amount (by decide)
    | lapDeduct => exact near_eq 1 15 amount (by decide)
    | stopGo => exact near_eq 1 60 amount (by decide)
    | note => rfl
    | driveThrough => rfl
    | blackFlag => rfl
  have brought : ruleBrought r = row := by
    rw [ruleBrought, size_eq, near_eq 1 15 window (by decide), near_eq 1 255 fallback (by decide)]
  have takes : (amountRange k).isSome = false ↔ k = .note ∨ k = .driveThrough ∨ k = .blackFlag := by
    cases k <;> decide
  have sent : rulingAdjusted k amount window fallback = false ↔ exact_ := by
    rw [rulingAdjusted, Bool.or_eq_false_iff, Bool.or_eq_false_iff, Bool.and_eq_false_iff, takes, bne_eq_false_iff_eq,
      bne_eq_false_iff_eq, bne_eq_false_iff_eq, size_eq, near_eq 1 15 window (by decide),
      near_eq 1 255 fallback (by decide), or_comm, and_assoc]
  have reply : ruleBytes row = answer := by
    rw [ruleBytes, allowanceByte_eq]
  refine ⟨fun free => ?_, fun bar => writeRule_refuses_barred (r := r) hl tag kind fits bar,
    fun raw len named bad => writeRule_refuses_bytes hl tag len named bad⟩
  obtain ⟨t, next, quiet, ok, adjusted⟩ := writeRule_stores (r := r) hl tag kind fits free
  rw [brought] at quiet ok adjusted
  rw [sent, reply] at ok adjusted
  have rules : t.penalty.rules = (ruleStored kind row s).penalty.rules :=
    congrArg Penalty.rules (Resets.outputs_penalty quiet.outputs)
  have rule_eq (other : IncidentKind) : ruleOf t other = ruleOf (ruleStored kind row s) other := by
    rw [ruleOf, rules, ruleOf]
  refine ⟨t, next, ?_, ?_, fun other h => ?_, ok, adjusted⟩
  · rw [rules]
    exact quiet
  · rw [rule_eq, ruleOf_ruleStored, if_pos rfl]
  · rw [rule_eq, ruleOf_ruleStored, if_neg h]

end Sys2Proof.Proofs.StoredRows

/-! ### Proofs: reads and refusals

The requests that read tables, cars and the order (R27, R93, R106, R139, R166, R171, R178), the drill switch (R61), and
the refusals of malformed requests (R185). -/

namespace Sys2Proof.Proofs.ReadsAndRefusals

open Sys2Proof Machine Safety RequestChecks StoredRows

/-! #### Indexes outside their range -/

theorem gateOf_outside {n : Byte} (h : n = 0 ∨ 32 < n.toNat) : gateOf n.toNat = none := by
  refine gateOf_none fun ⟨first, last⟩ => ?_
  rcases h with rfl | h
  · exact absurd first (by decide)
  · omega

theorem entryOf_outside {n : Byte} (h : n = 0 ∨ 16 < n.toNat) : entryOf n.toNat = none := by
  refine entryOf_none fun ⟨first, last⟩ => ?_
  rcases h with rfl | h
  · exact absurd first (by decide)
  · omega

/-! #### The commands and their work -/

section
variable (tag : Byte) (args : List Byte) (s : State)

theorem exec_readGate : exec (.readGate tag args) s = complete (request tag (readGate args) s) := rfl
theorem exec_readLine : exec (.readLine tag args) s = complete (request tag (readLine args) s) := rfl
theorem exec_readEntry : exec (.readEntry tag args) s = complete (request tag (readEntry args) s) := rfl
theorem exec_readRule : exec (.readRule tag args) s = complete (request tag (readRule args) s) := rfl
theorem exec_readCar : exec (.readCar tag args) s = complete (request tag (readCar args) s) := rfl
theorem exec_readOwed : exec (.readOwed tag args) s = complete (request tag (readOwed args) s) := rfl
theorem exec_readOrder : exec (.readOrder tag args) s = complete (request tag (readOrder args) s) := rfl
theorem exec_drillOn : exec (.drillOn tag args) s = complete (request tag (drill args) s) := rfl
theorem exec_drillOff : exec (.drillOff tag args) s = complete (request tag (drill args) s) := rfl
theorem exec_issueCounted : exec (.issueCounted tag args) s = complete (request tag (issue args) s) := rfl
theorem exec_issueDirect : exec (.issueDirect tag args) s = complete (request tag (issue args) s) := rfl

end

/-! #### Reads of the tables (R27, R139, R171, R178) -/

theorem readGate_eq (g : GateId) (s : State) : readGate (u8 (g.val + 1)) s = okay (slotBytes (gate s g)) s := by
  have index : gateOf (arg8 (u8 (g.val + 1)) 0) = some g := gateOf_byte g
  refine (withLength_of_length (n := 1) (args := u8 (g.val + 1)) rfl).trans ?_
  rw [index]

theorem readLine_eq (j : Line) (s : State) :
    readLine (u8 j.val) s = okay (lineBytes (lineRow s j) ++ yesNo s.throttle.zoneOverride) s := by
  have index : lineOf (arg8 (u8 j.val) 0) = some j := lineOf_byte j
  refine (withLength_of_length (n := 1) (args := u8 j.val) rfl).trans ?_
  rw [index]

theorem readEntry_eq (e : Entry) (s : State) :
    readEntry (u8 (e.val + 1)) s = okay (entryBytes (entryRow s e)) s := by
  have index : entryOf (arg8 (u8 (e.val + 1)) 0) = some e := entryOf_byte e
  refine (withLength_of_length (n := 1) (args := u8 (e.val + 1)) rfl).trans ?_
  rw [index]

theorem readRule_eq (k : IncidentKind) (s : State) : readRule [k.code] s = okay (ruleBytes (ruleOf s k)) s := by
  have index : kindOf (arg8 [k.code] 0) = some k := kindOf_code k
  refine (withLength_of_length (n := 1) (args := [k.code]) rfl).trans ?_
  rw [index]

/-- A slot's bytes, the reference written out (R27). -/
theorem slotBytes_eq (slot : GateSlot) : slotBytes slot =
    [slot.role.code] ++ u8 slot.line.val ++ u8 slot.lane ++ [slot.position.code] ++ u8 slot.hop ++
      [slot.alignment.code] ++ optField u32 ((referenceOf slot.alignment).map fun r => r.time) ++
      optField countBytes ((referenceOf slot.alignment).map fun r => r.count) ++
      optField u32 ((referenceOf slot.alignment).map fun r => r.aligned) ++ u8 slot.strikes ++ u8 slot.unpaired := by
  simp only [slotBytes, referenceBytes, List.append_assoc]

section
variable {s : State} (hl : Listening s) (tag : Byte)
include hl

theorem readGate_refuses {n : Byte} (h : n = 0 ∨ 32 < n.toNat) : Refuses (.readGate tag [n]) s tag .badIndex := by
  have index : gateOf (arg8 [n] 0) = none := gateOf_outside h
  refine request_refused (exec_readGate tag _ s) hl ?_
  refine (withLength_of_length (n := 1) (args := [n]) rfl).trans ?_
  rw [index]

theorem readLine_refuses {n : Byte} (h : 4 < n.toNat) : Refuses (.readLine tag [n]) s tag .badIndex := by
  have index : lineOf (arg8 [n] 0) = none := lineOf_none h
  refine request_refused (exec_readLine tag _ s) hl ?_
  refine (withLength_of_length (n := 1) (args := [n]) rfl).trans ?_
  rw [index]

theorem readEntry_refuses {n : Byte} (h : n = 0 ∨ 16 < n.toNat) : Refuses (.readEntry tag [n]) s tag .badIndex := by
  have index : entryOf (arg8 [n] 0) = none := entryOf_outside h
  refine request_refused (exec_readEntry tag _ s) hl ?_
  refine (withLength_of_length (n := 1) (args := [n]) rfl).trans ?_
  rw [index]

theorem readRule_refuses {n : Byte} (h : 6 < n.toNat) : Refuses (.readRule tag [n]) s tag .badIndex := by
  have index : kindOf (arg8 [n] 0) = none := kindOf_none h
  refine request_refused (exec_readRule tag _ s) hl ?_
  refine (withLength_of_length (n := 1) (args := [n]) rfl).trans ?_
  rw [index]

end

/-- Settles O32: each read answers the row of its index, and an index of no row is refused. -/
theorem tableReads : Obligations.TableReads := by
  intro s tag hl
  refine ⟨fun g => ?_, fun j => ?_, fun e => ?_, fun k => ?_, fun n => ⟨readGate_refuses hl tag,
    readLine_refuses hl tag, readEntry_refuses hl tag, readRule_refuses hl tag⟩⟩
  · obtain ⟨t, next, quiet, replied⟩ :=
      request_reads (exec_readGate tag _ s) hl (readGate_eq g (received .station s))
    refine ⟨t, next, quiet, ?_⟩
    rw [slotBytes_eq] at replied
    exact replied
  · exact request_reads (exec_readLine tag _ s) hl (readLine_eq j _)
  · exact request_reads (exec_readEntry tag _ s) hl (readEntry_eq e _)
  · obtain ⟨t, next, quiet, replied⟩ :=
      request_reads (exec_readRule tag _ s) hl (readRule_eq k (received .station s))
    refine ⟨t, next, quiet, ?_⟩
    rw [ruleBytes, allowanceByte_eq] at replied
    exact replied

/-! #### Reads of the heat (R93, R106, R166) -/

theorem readCar_timing (e : Entry) (s : State) :
    readCar (u8 (e.val + 1) ++ [0]) s = okay (timingPart s.clock.now (ctx s e)) s := by
  have index : entryOf (arg8 (u8 (e.val + 1) ++ [0]) 0) = some e := entryOf_byte e
  refine (withLength_of_length (n := 2) (args := u8 (e.val + 1) ++ [0]) rfl).trans ?_
  rw [index]
  rfl

theorem readCar_standing (e : Entry) (s : State) :
    readCar (u8 (e.val + 1) ++ [1]) s = okay (standingPart (ctx s e)) s := by
  have index : entryOf (arg8 (u8 (e.val + 1) ++ [1]) 0) = some e := entryOf_byte e
  refine (withLength_of_length (n := 2) (args := u8 (e.val + 1) ++ [1]) rfl).trans ?_
  rw [index]
  rfl

theorem readCar_otherPart (e : Entry) {part : Byte} (h : 1 < part.toNat) (s : State) :
    readCar (u8 (e.val + 1) ++ [part]) s = refuse .badValue s := by
  have index : entryOf (arg8 (u8 (e.val + 1) ++ [part]) 0) = some e := entryOf_byte e
  have part_eq : arg8 (u8 (e.val + 1) ++ [part]) 1 = part.toNat := rfl
  refine (withLength_of_length (n := 2) (args := u8 (e.val + 1) ++ [part]) rfl).trans ?_
  rw [index]
  dsimp only
  rw [part_eq, if_neg (by omega), if_neg (by omega)]

/-- The stationary ticks are given while a STOP_GO head is in service (R166). -/
theorem servedTicks_eq (c : Context) : servedTicks c = match c.owed with
    | o :: _ => if o.inService = true ∧ o.sanction = .stopGo then
        some ((c.transit.map fun x => x.stationary).getD 0) else none
    | [] => none := by
  unfold servedTicks headInService
  cases c.owed with
  | nil => rfl
  | cons o rest =>
    dsimp only
    cases o.inService with
    | false => rfl
    | true =>
      simp only [if_true, true_and]
      rfl

theorem readOwed_eq (e : Entry) (s : State) : readOwed (u8 (e.val + 1)) s =
    okay (listField owedBytes (ctx s e).owed ++ optField u32 (servedTicks (ctx s e)) ++ yesNo s.pit.holds[e]) s := by
  have index : entryOf (arg8 (u8 (e.val + 1)) 0) = some e := entryOf_byte e
  refine (withLength_of_length (n := 1) (args := u8 (e.val + 1)) rfl).trans ?_
  rw [index]

theorem readOrder_otherPart {part : Byte} (h : 2 < part.toNat) (s : State) :
    readOrder [part] s = refuse .badValue s := by
  have part_eq : arg8 [part] 0 = part.toNat := rfl
  refine (withLength_of_length (n := 1) (args := [part]) rfl).trans ?_
  rw [part_eq]
  dsimp only
  rw [if_neg (by omega), if_neg (by omega), if_neg (by omega)]

theorem readOrder_classification (s : State) : readOrder [2] (received .station s) =
    okay (listField (fun e : Entry => u8 (e.val + 1)) (classification s)) (received .station s) := by
  have same : classification (received .station s) = classification s := classification_congr rfl rfl rfl
  rw [← same]
  rfl

section
variable {s : State} (hl : Listening s) (tag : Byte)
include hl

theorem readCar_refuses {n : Byte} (part : Byte) (h : n = 0 ∨ 16 < n.toNat) :
    Refuses (.readCar tag [n, part]) s tag .badIndex := by
  have index : entryOf (arg8 [n, part] 0) = none := entryOf_outside h
  refine request_refused (exec_readCar tag _ s) hl ?_
  refine (withLength_of_length (n := 2) (args := [n, part]) rfl).trans ?_
  rw [index]

theorem readOwed_refuses {n : Byte} (h : n = 0 ∨ 16 < n.toNat) : Refuses (.readOwed tag [n]) s tag .badIndex := by
  have index : entryOf (arg8 [n] 0) = none := entryOf_outside h
  refine request_refused (exec_readOwed tag _ s) hl ?_
  refine (withLength_of_length (n := 1) (args := [n]) rfl).trans ?_
  rw [index]

theorem readOrder_refuses {part : Byte} (h : 2 < part.toNat) : Refuses (.readOrder tag [part]) s tag .badValue :=
  request_refused (exec_readOrder tag _ s) hl (readOrder_otherPart h _)

end

/-- Settles O33: each read answers the part that it names, in every session state. -/
theorem heatReads : Obligations.HeatReads := by
  intro s tag hl
  refine ⟨fun e => ⟨?_, ?_, ?_⟩, ?_, ?_, ?_, fun n part => ⟨fun h => ⟨readCar_refuses hl tag part h,
    readOwed_refuses hl tag h⟩, fun e h => ?_, readOrder_refuses hl tag⟩⟩
  · exact request_reads (exec_readCar tag _ s) hl (readCar_timing e (received .station s))
  · exact request_reads (exec_readCar tag _ s) hl (readCar_standing e (received .station s))
  · obtain ⟨t, next, quiet, replied⟩ :=
      request_reads (exec_readOwed tag _ s) hl (readOwed_eq e (received .station s))
    refine ⟨t, next, quiet, ?_⟩
    rw [servedTicks_eq] at replied
    exact replied
  · exact request_reads (exec_readOrder tag _ s) hl rfl
  · exact request_reads (exec_readOrder tag _ s) hl rfl
  · exact request_reads (exec_readOrder tag _ s) hl (readOrder_classification s)
  · exact request_refused (exec_readCar tag _ s) hl (readCar_otherPart e h _)

/-! #### The drill switch (R61) -/

theorem drill_on (s : State) : drill [1] s =
    if s.session.state = .armed then okay [] { s with resolver := { s.resolver with drillOn := true } }
    else refuse .wrongState s := rfl

/-- The schedules and the switch once DRILL OFF has been taken (R61). -/
def drillEnded (s : State) : State :=
  { s with resolver := { s.resolver with drillOn := false, drills := Vector.replicate 16 none } }

theorem drill_off (s : State) : drill [0] s =
    if inHeat s.session.state then okay [] (drillEnded s) else refuse .wrongState s := rfl

section
variable {s : State} (hl : Listening s) (tag : Byte)
include hl

theorem drillOn_taken (armed : s.session.state = .armed) : ∃ t, exec (.drillOn tag [1]) s = .next t ∧
    Quiet { s with resolver := { s.resolver with drillOn := true } } t ∧ Replied s t tag .ok [] := by
  have armed : (received .station s).session.state = .armed := armed
  refine request_taken (exec_drillOn tag _ s) hl ?_ hl.1 rfl
  rw [drill_on, if_pos armed]
  rfl

theorem drillOn_refused (other : s.session.state ≠ .armed) : Refuses (.drillOn tag [1]) s tag .wrongState :=
  request_refused (exec_drillOn tag _ s) hl ((drill_on _).trans (if_neg other))

theorem drillOff_taken (heat : inHeat s.session.state = true) :
    ∃ t, exec (.drillOff tag [0]) s = .next t ∧ Quiet (drillEnded s) t ∧ Replied s t tag .ok [] := by
  have heat : inHeat (received .station s).session.state = true := heat
  refine request_taken (exec_drillOff tag _ s) hl ?_ hl.1 rfl
  rw [drill_off, if_pos heat]
  rfl

theorem drillOff_refused (rests : ¬inHeat s.session.state = true) : Refuses (.drillOff tag [0]) s tag .wrongState :=
  request_refused (exec_drillOff tag _ s) hl ((drill_off _).trans (if_neg rests))

theorem drill_refuses_value {v : Byte} (h : 1 < v.toNat) : Refuses (.drillOn tag [v]) s tag .badValue := by
  have value : arg8 [v] 0 = v.toNat := rfl
  refine request_refused (exec_drillOn tag _ s) hl ?_
  refine (withLength_of_length (n := 1) (args := [v]) rfl).trans ?_
  rw [value, if_neg (by omega), if_neg (by omega)]

end

/-- Settles O36: DRILL OFF leaves no schedule, and the other arms change the switch alone or nothing. -/
theorem drillSwitchResult : Obligations.DrillSwitchResult := by
  intro s tag hl heat
  refine ⟨drillOn_taken hl tag, drillOn_refused hl tag, fun on => ?_,
    fun rests => drillOff_refused hl tag (mt (inHeat_iff _).1 rests), fun v => drill_refuses_value hl tag⟩
  obtain ⟨t, next, quiet, replied⟩ := drillOff_taken hl tag ((inHeat_iff _).2 on)
  have resolver : t.resolver = (drillEnded s).resolver := Resets.outputs_resolver quiet.outputs
  refine ⟨t, next, ?_, fun e => ?_, replied⟩
  · rw [resolver]
    exact quiet
  · rw [resolver]
    exact Vector.getElem_replicate _

/-! #### Malformed requests (R185) -/

/-- An argument part of another length is refused, whatever the session's state (R185). -/
theorem refuses_length {n : Nat} {args : List Byte} {f : State → Answer} {s : State} {c : Instr} {tag : Byte}
    (hl : Listening s) (he : exec c s = complete (request tag (withLength n args f) s)) (wrong : args.length ≠ n) :
    Refuses c s tag .badValue :=
  request_refused he hl (if_neg wrong)

section
variable {s : State} (hl : Listening s) (tag : Byte)
include hl

theorem issue_refuses_short {args : List Byte} (short : args.length < 3) :
    Refuses (.issueCounted tag args) s tag .badValue ∧ Refuses (.issueDirect tag args) s tag .badValue :=
  ⟨request_refused (exec_issueCounted tag _ s) hl (if_pos short),
    request_refused (exec_issueDirect tag _ s) hl (if_pos short)⟩

section
variable {n : Byte} {rest : List Byte}

theorem writeGate_refuses_index (between : betweenHeats s.session.state = true) (h : n = 0 ∨ 32 < n.toNat)
    (len : rest.length = 5) : Refuses (.writeGate tag (n :: rest)) s tag .badIndex := by
  have index : gateOf (arg8 (n :: rest) 0) = none := gateOf_outside h
  refine refuses_work (exec_writeGate tag _ s) hl (congrArg (· + 1) len) between ?_
  rw [index]

theorem writeLine_refuses_index (between : betweenHeats s.session.state = true) (h : 4 < n.toNat)
    (len : rest.length = 9) : Refuses (.writeLine tag (n :: rest)) s tag .badIndex := by
  have index : lineOf (arg8 (n :: rest) 0) = none := lineOf_none h
  refine refuses_work (exec_writeLine tag _ s) hl (congrArg (· + 1) len) between ?_
  rw [index]

theorem writeEntry_refuses_index (between : betweenHeats s.session.state = true) (h : n = 0 ∨ 16 < n.toNat)
    (len : rest.length = 13) : Refuses (.writeEntry tag (n :: rest)) s tag .badIndex := by
  have index : entryOf (arg8 (n :: rest) 0) = none := entryOf_outside h
  refine refuses_work (exec_writeEntry tag _ s) hl (congrArg (· + 1) len) between ?_
  rw [index]

theorem writeRule_refuses_index (h : 6 < n.toNat) (len : rest.length = 7) :
    Refuses (.writeRule tag (n :: rest)) s tag .badIndex := by
  have index : kindOf (arg8 (n :: rest) 0) = none := kindOf_none h
  refine request_refused (exec_writeRule tag _ s) hl ((withLength_of_length (congrArg (· + 1) len)).trans ?_)
  rw [index]

theorem issue_refuses_index (races : racing s.session.state = true) (h : n = 0 ∨ 16 < n.toNat)
    (len : 2 ≤ rest.length) : Refuses (.issueCounted tag (n :: rest)) s tag .badIndex ∧
      Refuses (.issueDirect tag (n :: rest)) s tag .badIndex := by
  have index : entryOf (arg8 (n :: rest) 0) = none := entryOf_outside h
  have work : issue (n :: rest) (received .station s) = refuse .badIndex (received .station s) := by
    rw [issue, if_neg (by rw [List.length_cons]; omega), inStates_taken races, index]
  exact ⟨request_refused (exec_issueCounted tag _ s) hl work, request_refused (exec_issueDirect tag _ s) hl work⟩

theorem waive_refuses_index (heat : inHeat s.session.state = true) (h : n = 0 ∨ 16 < n.toNat)
    (len : rest.length = 1) : Refuses (.waive tag (n :: rest)) s tag .badIndex := by
  have index : entryOf (arg8 (n :: rest) 0) = none := entryOf_outside h
  refine refuses_work (s := s) (args := n :: rest) rfl hl (congrArg (· + 1) len) heat ?_
  rw [index]

theorem retire_refuses_index (heat : inHeat s.session.state = true) (h : n = 0 ∨ 16 < n.toNat) :
    Refuses (.retire tag [n]) s tag .badIndex := by
  have index : entryOf (arg8 [n] 0) = none := entryOf_outside h
  refine refuses_work (s := s) (args := [n]) rfl hl rfl heat ?_
  rw [index]

end

end

/-- Settles O41: the length check stands in front of every request, the index check first in each request's work. -/
theorem refusedRequests : Obligations.RefusedRequests := by
  intro s tag args hl
  refine ⟨fun code => request_refused (f := unknown) rfl hl rfl, ?_, issue_refuses_short hl tag,
    fun n rest => ?_,
    fun n => ⟨readGate_refuses hl tag, readLine_refuses hl tag, fun h => ⟨readEntry_refuses hl tag h,
      readOwed_refuses hl tag h, fun part => readCar_refuses hl tag part h⟩, readRule_refuses hl tag,
      readOrder_refuses hl tag⟩⟩
  · repeat refine List.forall_mem_cons.2 ⟨refuses_length hl rfl, ?_⟩
    exact fun _ h => nomatch h
  · exact ⟨fun hs => writeGate_refuses_index hl tag ((betweenHeats_iff _).2 hs),
      fun hs => writeLine_refuses_index hl tag ((betweenHeats_iff _).2 hs),
      fun hs => writeEntry_refuses_index hl tag ((betweenHeats_iff _).2 hs),
      writeRule_refuses_index hl tag,
      fun hs => issue_refuses_index hl tag ((racing_iff _).2 hs),
      fun hs => waive_refuses_index hl tag ((inHeat_iff _).2 (not_or.1 hs)),
      fun hs => retire_refuses_index hl tag ((inHeat_iff _).2 (not_or.1 hs))⟩

end Sys2Proof.Proofs.ReadsAndRefusals

/-! ### Proofs: the moves of a heat

CAUTION, GREEN, HOLD, RESUME, ABORT, DISMISS, the clock limit, and the ends of the heat clock and of the grace (R21, R87,
R116 to R126). -/

namespace Sys2Proof.Proofs.HeatMoves

open Sys2Proof Machine Safety FullAlignment RequestChecks Ports

/-! #### Lamps and states -/

theorem lampOf_green {x : Session} (h : x.state = .green) : lampOf x = ⟨.green, 0⟩ := by
  rw [lampOf, h]

theorem lampOf_yellow {x : Session} (h : x.state = .caution) : lampOf x = ⟨.yellow, 0⟩ := by
  rw [lampOf, h]

theorem lampOf_chequer {x : Session} (h : x.state = .chequered) : lampOf x = ⟨.chequer, 0⟩ := by
  rw [lampOf, h]

/-- A request that announces a state made from the received one: outputs stand behind that state (R127, R129). -/
theorem request_announces {s u w : State} {c : Instr} {tag : Byte} {f : State → Answer} {cause : Cause}
    (he : exec c s = complete (request tag f s)) (hl : Listening s)
    (work : f (received .station s) = okay [] (announce cause w)) (made : w = received .station u)
    (link : u.link = s.link) (low : u.rstnLow = s.rstnLow) :
    ∃ t, exec c s = .next t ∧ Outputs 0xC0 u t ∧ Announced s t (lampOf w.session) w.session.state cause ∧
      Replied s t tag .ok [] ∧ Outputs 0xC0 w t := by
  subst made
  refine request_moves he hl work ?_ low (quiet_received .station u).outputs
  exact congrArg (fun l : Link => { l with
    stationRx := { l.stationRx with asm := { l.stationRx.asm with state := .hunt } } }) link

/-! #### CAUTION and GREEN (R100, R116) -/

theorem exec_caution (tag : Byte) (args : List Byte) (s : State) :
    exec (.caution tag args) s = complete (request tag (caution args) s) := rfl

theorem exec_green (tag : Byte) (args : List Byte) (s : State) :
    exec (.green tag args) s = complete (request tag (green args) s) := rfl

/-- The state that CAUTION announces, given its contexts and periods. -/
def cautioned (contexts : Vector Context 16) (periods : List Period) (s : State) : State :=
  { s with
    contexts := contexts, order := { s.order with snapshot := some s.order.list }
    session := { s.session with state := .caution, periods := periods } }

/-- The state that GREEN announces. -/
def restored (s : State) : State :=
  { s with
    order := { s.order with snapshot := none }
    session := { s.session with state := .green, periods := ended s.clock.now s.session.periods } }

theorem toGreen_eq (cause : Cause) (s : State) : toGreen cause s = announce cause (restored s) := by
  rw [toGreen, closePeriod_eq]
  rfl

/-- Settles O44: each request announces the state that its move makes. -/
theorem cautionAndGreenResult : Obligations.CautionAndGreenResult := by
  intro s tag hl
  refine ⟨fun green => ?_, fun other => refuses_wrongState (exec_caution tag [] s) hl rfl (beq_eq_false_iff_ne.2 other),
    fun yellow => ?_, fun other => refuses_wrongState (exec_green tag [] s) hl rfl (beq_eq_false_iff_ne.2 other)⟩
  · obtain ⟨w, move, made, kept, fresh⟩ := toCaution_eq .request (received .station s)
    have made : w = received .station (cautioned w.contexts w.session.periods s) := made
    have yellow : w.session.state = .caution := congrArg (fun x => x.session.state) made
    have work : caution [] (received .station s) = okay [] (announce .request w) :=
      checks_passed rfl (beq_iff_eq.2 green) (congrArg (okay []) move)
    obtain ⟨t, next, out, announced, replied, behind⟩ :=
      request_announces (exec_caution tag [] s) hl work made rfl rfl
    rw [lampOf_yellow yellow, yellow] at announced
    refine ⟨t, next, ?_, fun open_ => ?_, fun closed => ?_, announced, replied⟩
    · rw [outputs_contexts behind, outputs_session behind]
      exact out
    · rw [outputs_session behind]
      exact ⟨(kept open_).1, fun e => (outputs_ctx behind e).trans ((kept open_).2 e)⟩
    · rw [outputs_session behind]
      exact ⟨(fresh closed).1, fun e => (outputs_ctx behind e).trans ((fresh closed).2 e)⟩
  · have work : green [] (received .station s) = okay [] (announce .request (received .station (restored s))) :=
      checks_passed rfl (beq_iff_eq.2 yellow) (congrArg (okay []) (toGreen_eq .request _))
    obtain ⟨t, next, out, announced, replied, -⟩ := request_announces (exec_green tag [] s) hl work rfl rfl rfl
    exact ⟨t, next, out, announced, replied⟩

/-! #### HOLD (R87, R117) -/

theorem exec_hold (tag : Byte) (args : List Byte) (s : State) :
    exec (.hold tag args) s = complete (request tag (hold args) s) := rfl

/-- The state that HOLD announces, given its contexts, stationary marks and periods. -/
def heldUp (contexts : Vector Context 16) (marks : Vector (Option Ticks) 16) (periods : List Period) (s : State) :
    State :=
  { s with
    contexts := contexts, pit := { s.pit with marks := marks }
    session := { s.session with state := .held, heldFrom := some s.session.state, periods := periods } }

theorem holdable_iff (st : SessionState) : holdable st = true ↔ st = .green ∨ st = .caution ∨ st = .chequered := by
  cases st <;> decide

/-- Settles O45: the request announces the state that its move makes. -/
theorem holdResult : Obligations.HoldResult := by
  intro s tag hl takes held
  refine ⟨fun taken => ?_, fun other => refuses_wrongState (exec_hold tag [] s) hl rfl
    (Bool.eq_false_iff.2 (mt (holdable_iff _).1 other))⟩
  obtain ⟨w, move, made, marks, kept, fresh⟩ := toHeld_eq .request (received .station s)
  have made : w = received .station (heldUp w.contexts w.pit.marks w.session.periods s) := made
  have stopped : w.session.state = .held := congrArg (fun x => x.session.state) made
  have work : hold [] (received .station s) = okay [] (announce .request w) :=
    checks_passed rfl ((holdable_iff _).2 taken) (congrArg (okay []) move)
  obtain ⟨t, next, out, announced, replied, behind⟩ := request_announces (exec_hold tag [] s) hl work made rfl rfl
  rw [Resets.lampOf_redHold (.inr stopped), stopped] at announced
  refine ⟨t, next, ?_, fun e => ?_, fun open_ => ?_, fun closed => ?_, announced, replied⟩
  · rw [outputs_contexts behind, outputs_session behind, outputs_pit behind]
    exact out
  · rw [outputs_pit behind]
    exact marks e
  · rw [outputs_session behind]
    exact ⟨(kept open_).1, fun e => (outputs_ctx behind e).trans ((kept open_).2 e)⟩
  · rw [outputs_session behind]
    exact ⟨(fresh closed).1, fun e => (outputs_ctx behind e).trans ((fresh closed).2 e)⟩

/-! #### ABORT, DISMISS and the clock limit (R21, R124 to R126, R163) -/

theorem exec_abort (tag : Byte) (args : List Byte) (s : State) :
    exec (.abort tag args) s = complete (request tag (abort args) s) := rfl

theorem exec_dismiss (tag : Byte) (args : List Byte) (s : State) :
    exec (.dismiss tag args) s = complete (request tag (dismiss args) s) := rfl

theorem exec_clockLimit (s : State) : exec .clockLimit s =
    whenDue (limitDue s && inHeat s.session.state) (closeHeat .clockLimit true) s := rfl

/-- The state that an abort announces, given its contexts and pit. -/
def abortedWith (contexts : Vector Context 16) (pit : Pit) (s : State) : State :=
  { s with
    contexts := contexts, pit := pit
    order := { s.order with snapshot := none }
    resolver := { s.resolver with pairs := [], drillOn := false, drills := State.reset.resolver.drills }
    session := { s.session with
      state := .closed, aborted := true, countdown := none, heldFrom := none, grace := none
      periods := ended s.clock.now s.session.periods } }

/-- The contexts and the pit after an abort: each service has ended, its ticks and owed entries stay (R163). -/
structure ServicesEnded (s : State) (contexts : Vector Context 16) (pit : Pit) : Prop where
  serving : ∀ e : Entry, Serving (ctx s e) → pit.marks[e] = none ∧ pit.holds[e] = false ∧
    contexts[e] = { ctx s e with
      deadline := none
      owed := (ctx s e).owed.modifyHead fun o => { o with inService := false }
      transit := (ctx s e).transit.map fun x => { x with service := false } }
  rest : ∀ e : Entry, ¬Serving (ctx s e) → pit.marks[e] = s.pit.marks[e] ∧ pit.holds[e] = s.pit.holds[e] ∧
    contexts[e] = { ctx s e with deadline := none }

/-- A close that is an abort: the state announced, and what goes out behind it. -/
theorem closeHeat_aborts (cause : Cause) (s : State) : ∃ contexts pit,
    ServicesEnded s contexts pit ∧ (s.rstnLow = false → Shows (closeHeat cause true s) ⟨.dark, 0⟩) ∧
    EmitsMove 1 (abortedWith contexts pit s) (closeHeat cause true s)
      [⟨0, s.clock.now, .session .closed cause s.session.heatClock⟩] := by
  obtain ⟨v, w, contexts, pit, closed, emits, dark, made, serving, rest⟩ := closeHeat_aborted cause s
  subst made
  rw [closed]
  refine ⟨contexts, pit, ⟨fun e on => ?_, fun e off => ?_⟩, fun high => dark _ high rfl, emits⟩
  · obtain ⟨context, mark, hold⟩ := serving e on
    exact ⟨mark, hold, context⟩
  · obtain ⟨context, mark, hold⟩ := rest e off
    exact ⟨mark, hold, context⟩

/-- The state behind an abort, read off its own contexts and pit. -/
theorem aborted_outputs {s t : State} {contexts : Vector Context 16} {pit : Pit}
    (out : Outputs 0xC0 (abortedWith contexts pit s) t) (ends : ServicesEnded s contexts pit) :
    Outputs 0xC0 (abortedWith t.contexts t.pit s) t ∧
      ∀ e : Entry, (Serving (ctx s e) → t.pit.marks[e] = none ∧ t.pit.holds[e] = false ∧
          ctx t e = { ctx s e with
            deadline := none
            owed := (ctx s e).owed.modifyHead fun o => { o with inService := false }
            transit := (ctx s e).transit.map fun x => { x with service := false } }) ∧
        (¬Serving (ctx s e) → t.pit.marks[e] = s.pit.marks[e] ∧ t.pit.holds[e] = s.pit.holds[e] ∧
          ctx t e = { ctx s e with deadline := none }) := by
  refine ⟨?_, fun e => ?_⟩
  · rw [outputs_contexts out, outputs_pit out]
    exact out
  · rw [outputs_pit out, outputs_ctx out]
    exact ⟨ends.serving e, ends.rest e⟩

/-- Settles O47: both aborts close the heat alike, and DISMISS announces IDLE. -/
theorem abortAndDismissResult : Obligations.AbortAndDismissResult := by
  intro s tag heat closes
  refine ⟨fun on hl => ?_, fun off hl => ?_, fun on limit => ?_, fun off => ?_, fun closed hl => ?_, fun other hl => ?_⟩
  · obtain ⟨contexts, pit, ends, dark, emits⟩ := closeHeat_aborts .abortRequest (received .station s)
    have work : abort [] (received .station s) = ⟨closeHeat .abortRequest true (received .station s), .ok, []⟩ :=
      checks_passed rfl ((inHeat_iff _).2 on) rfl
    have out : Outputs 0xC0 (abortedWith contexts pit s) (closeHeat .abortRequest true (received .station s)) :=
      outputs_trans (outputs_zero (quiet_received .station (abortedWith contexts pit s)).outputs) emits.out
    have low : (closeHeat .abortRequest true (received .station s)).rstnLow = false :=
      (Resets.outputs_rstnLow out).trans hl.1
    obtain ⟨t, next, behind, replied, quiet, -⟩ := request_done (exec_abort tag [] s) hl work low emits.replies out
    have ends : ServicesEnded s contexts pit := ⟨ends.serving, ends.rest⟩
    exact ⟨t, next, aborted_outputs behind ends, emits.announced rfl rfl rfl (fun _ => dark hl.1) quiet, replied⟩
  · exact refuses_wrongState (exec_abort tag [] s) hl rfl (Bool.eq_false_iff.2 (mt (inHeat_iff _).1 off))
  · obtain ⟨contexts, pit, ends, dark, emits⟩ := closeHeat_aborts .clockLimit s
    have due : (limitDue s && inHeat s.session.state) = true :=
      Bool.and_eq_true_iff.2 ⟨beq_iff_eq.2 limit, (inHeat_iff _).2 on⟩
    have quiet := quiet_settle (closeHeat .clockLimit true s)
    refine ⟨settle (closeHeat .clockLimit true s), ?_,
      aborted_outputs (outputs_trans emits.out (outputs_zero quiet.outputs)) ends,
      emits.announced rfl rfl rfl dark quiet⟩
    rw [exec_clockLimit, whenDue, if_pos due, complete]
  · have idle : ¬(limitDue s && inHeat s.session.state) = true := fun due =>
      off ((inHeat_iff _).1 (Bool.and_eq_true_iff.1 due).2)
    refine ⟨settle s, ?_, quiet_settle s⟩
    rw [exec_clockLimit, whenDue, if_neg idle, complete]
  · have work : dismiss [] (received .station s) = okay [] (announce .request (received .station
        { s with session := { s.session with state := .idle, aborted := false } })) :=
      checks_passed rfl (beq_iff_eq.2 closed) rfl
    obtain ⟨t, next, out, announced, replied, -⟩ := request_announces (exec_dismiss tag [] s) hl work rfl rfl rfl
    exact ⟨t, next, out, announced, replied⟩
  · exact refuses_wrongState (exec_dismiss tag [] s) hl rfl (beq_eq_false_iff_ne.2 other)

/-! #### The end of the grace (R122 to R124) -/

theorem exec_graceExpiry (s : State) :
    exec .graceExpiry s = whenDue (graceDue s) (closeHeat .graceUp false) s := rfl

/-- Nothing has been sent. -/
theorem sends_refl (g : Byte) (s : State) : Sends g s s [] := (emits_refl g s).sends (Nat.le_refl 0)

/-- Settles O49: the close stands behind no other record. -/
theorem graceExpiryResult : Obligations.GraceExpiryResult := by
  intro s high chequered ended_
  have due : graceDue s = true := by
    simp [graceDue, high, chequered, ended_]
  have closes : HeatCloses 0xC0 s (closeHeat .graceUp false s) .graceUp [] :=
    (heatCloses_of (sends_refl 0 s) high).mono (by decide)
  refine ⟨settle (closeHeat .graceUp false s), ?_, closes.quiet (quiet_settle _)⟩
  rw [exec_graceExpiry, whenDue, if_pos due, complete]

/-! #### The end of the heat clock (R121 to R123) -/

theorem exec_heatClockExpiry (s : State) : exec .heatClockExpiry s =
    whenDue (heatClockDue s) (fun s => closeTest (enterChequered .timeUp s)) s := rfl

/-- The state that an entry to CHEQUERED announces. -/
def chequered (s : State) : State :=
  { s with
    order := { s.order with snapshot := none }
    session := { s.session with
      state := .chequered, periods := ended s.clock.now s.session.periods
      grace := some (s.settings.heat.finishGrace * 100000) } }

theorem afield_announce (cause : Cause) (w : State) : Afield (announce cause w) ↔ Afield w :=
  afield_ctx fun e => congrArg Context.state (outputs_ctx (outputs_announce cause w) e)

/-- The close test behind an announced CHEQUERED, with a car afield (R123). -/
theorem closeTest_announced_stays {w : State} (afield : Afield w) (cause : Cause) :
    closeTest (announce cause w) = announce cause w :=
  closeTest_stay (.inr ((afield_announce cause w).2 afield))

/-- The close test behind an announced CHEQUERED, with no car afield (R123). -/
theorem closeTest_announced_closes {w : State} (state : w.session.state = .chequered) (empty : ¬Afield w)
    (cause : Cause) : closeTest (announce cause w) = closeHeat .allFinished false (announce cause w) :=
  closeTest_close ((congrArg Session.state (outputs_session (outputs_announce cause w))).trans state)
    (mt (afield_announce cause w).1 empty)

/-- The session behind a close whose periods had been closed before (R119, R124). -/
theorem HeatCloses.session_eq {g : Byte} {u t : State} {cause : Cause} {L : List Record} {x : Session}
    (h : HeatCloses g u t cause L) (same : closedSession u.clock.now u.session = x) : t.session = x :=
  (outputs_session h.out).trans same

theorem announced_of_settle {s w : State} {cause : Cause} (low : w.rstnLow = s.rstnLow) (link : w.link = s.link) :
    Announced s (settle (announce cause w)) (lampOf w.session) w.session.state cause :=
  announced_of low (congrArg Link.records link) (congrArg Link.stationTx link) (quiet_settle _)

theorem closedSession_chequered (s : State) : closedSession s.clock.now (chequered s).session =
    { s.session with
      state := .closed, aborted := false, heldFrom := none, countdown := none, grace := none
      periods := ended s.clock.now s.session.periods } := by
  rw [closedSession, chequered, ended_ended]

/-- Settles O51: CHEQUERED is announced, and closed at once where nobody is afield. -/
theorem heatClockExpiryResult : Obligations.HeatClockExpiryResult := by
  intro s high kind zero state
  have due : heatClockDue s = true := by
    simpa [heatClockDue, high, kind, zero] using state
  have next (v : State) (hv : closeTest (announce .timeUp (chequered s)) = v) :
      exec .heatClockExpiry s = .next (settle v) := by
    rw [exec_heatClockExpiry, whenDue, if_pos due, enterChequered_eq, complete, ← hv]
    rfl
  refine ⟨fun afield => ?_, fun empty => ?_⟩
  · refine ⟨_, next _ (closeTest_announced_stays (w := chequered s) afield .timeUp), ?_,
      announced_of_settle (w := chequered s) rfl rfl⟩
    exact outputs_trans (outputs_announce .timeUp (chequered s)) (outputs_zero (quiet_settle _).outputs)
  · have sends := (emitsMove_announce .timeUp (chequered s)).sends (Nat.le_refl 1)
    have record : (⟨0, s.clock.now, .session .chequered .timeUp s.session.heatClock⟩ : Record) =
        ⟨0, s.clock.now, .session .chequered .timeUp 0⟩ := by rw [zero]
    have closes := (heatCloses_of (cause := .allFinished) sends high).quiet (quiet_settle _)
    have before : [(⟨0, (chequered s).clock.now,
        .session (chequered s).session.state .timeUp (chequered s).session.heatClock⟩ : Record)] =
        [⟨0, s.clock.now, .session .chequered .timeUp 0⟩] := congrArg (fun r => [r]) record
    rw [before] at closes
    refine ⟨_, next _ (closeTest_announced_closes (w := chequered s) rfl empty .timeUp), closes,
      HeatCloses.session_eq closes (closedSession_chequered s), fun room => ?_⟩
    exact closes.kept (Nat.le_of_lt (Nat.succ_lt_succ room)) _ (List.mem_singleton_self _) rfl

/-! #### RESUME (R87, R118, R122, R123, R176) -/

theorem exec_resume (tag : Byte) (args : List Byte) (s : State) :
    exec (.resume tag args) s = complete (request tag (resume args) s) := rfl

/-- A context with its deadline running again (R87). -/
def rearmed (now : Ticks) (c : Context) : Context := { c with deadline := c.deadline.map (rearmDeadline now) }

/-- The state that RESUME announces in GREEN and CAUTION. -/
def resumed (st : SessionState) (s : State) : State :=
  { s with
    contexts := s.contexts.map (rearmed s.clock.now)
    throttle := { s.throttle with zoneOverride := false }
    session := { s.session with
      state := st, heldFrom := none
      periods := if st = .green then ended s.clock.now s.session.periods else s.session.periods } }

/-- The state that RESUME announces in CHEQUERED. -/
def resumedChequered (s : State) : State :=
  { s with
    contexts := s.contexts.map (rearmed s.clock.now)
    order := { s.order with snapshot := none }
    throttle := { s.throttle with zoneOverride := false }
    session := { s.session with
      state := .chequered, heldFrom := none
      grace := some (s.session.grace.getD (s.settings.heat.finishGrace * 100000))
      periods := ended s.clock.now s.session.periods } }

theorem resumeTo_resumed {st : SessionState} (h : st = .green ∨ st = .caution) (s : State) :
    resumeTo st s = announce .request (resumed st s) := by
  rcases h with rfl | rfl
  · rw [resumeTo]
    dsimp only
    rw [if_neg (by decide), if_pos (by decide), closePeriod_eq]
    rfl
  · rfl

theorem ctx_resumed (st : SessionState) (s : State) (e : Entry) :
    ctx (resumed st s) e = rearmed s.clock.now (ctx s e) := Vector.getElem_map _ _

theorem ctx_resumedChequered (s : State) (e : Entry) :
    ctx (resumedChequered s) e = rearmed s.clock.now (ctx s e) := Vector.getElem_map _ _

theorem afield_resumedChequered (s : State) : Afield (resumedChequered s) ↔ Afield s :=
  afield_ctx fun e => (congrArg Context.state (ctx_resumedChequered s e)).trans rfl

/-- RESUME in HELD is the return to the held-from state, or is refused at the gate test (R118). -/
theorem resume_work {s : State} {st : SessionState} (held : s.session.state = .held)
    (origin : s.session.heldFrom = some st) : resume [] (received .station s) =
      if gatesAligned s then okay [] (resumeTo st (received .station s))
      else refuse .notAligned (received .station s) := by
  refine checks_passed rfl (beq_iff_eq.2 held) ?_
  have origin : (received .station s).session.heldFrom = some st := origin
  rw [origin]
  rfl

section
variable {s : State} (hl : Listening s) (tag : Byte) (held : s.session.state = .held)
include hl held

theorem resume_restores {st : SessionState} (origin : s.session.heldFrom = some st) (ready : GatesReady s)
    (h : st = .green ∨ st = .caution) : ∃ t, exec (.resume tag []) s = .next t ∧ Outputs 0xC0 (resumed st s) t ∧
      Announced s t (lampOf (resumed st s).session) st .request ∧ Replied s t tag .ok [] := by
  have work : resume [] (received .station s) = okay [] (announce .request (received .station (resumed st s))) := by
    rw [resume_work held origin, if_pos ((gatesAligned_iff s).2 ready), resumeTo_resumed h]
    rfl
  obtain ⟨t, next, out, announced, replied, -⟩ := request_announces (exec_resume tag [] s) hl work rfl rfl rfl
  exact ⟨t, next, out, announced, replied⟩

theorem resume_chequered (origin : s.session.heldFrom = some .chequered) (ready : GatesReady s) (afield : Afield s) :
    ∃ t, exec (.resume tag []) s = .next t ∧ Outputs 0xC0 (resumedChequered s) t ∧
      Announced s t ⟨.chequer, 0⟩ .chequered .request ∧ Replied s t tag .ok [] := by
  have work : resume [] (received .station s) =
      okay [] (announce .request (received .station (resumedChequered s))) := by
    rw [resume_work held origin, if_pos ((gatesAligned_iff s).2 ready), resumeTo_chequered]
    exact congrArg (okay []) (closeTest_announced_stays (w := received .station (resumedChequered s))
      ((afield_resumedChequered s).2 afield) .request)
  obtain ⟨t, next, out, announced, replied, -⟩ := request_announces (exec_resume tag [] s) hl work rfl rfl rfl
  exact ⟨t, next, out, announced, replied⟩

theorem resume_closes (origin : s.session.heldFrom = some .chequered) (ready : GatesReady s) (empty : ¬Afield s) :
    ∃ t, exec (.resume tag []) s = .next t ∧ HeatCloses 0xC0 (resumedChequered s) t .allFinished
      [⟨0, s.clock.now, .session .chequered .request s.session.heatClock⟩] ∧ Replied s t tag .ok [] := by
  have work : resume [] (received .station s) = ⟨closeHeat .allFinished false
      (announce .request (received .station (resumedChequered s))), .ok, []⟩ := by
    rw [resume_work held origin, if_pos ((gatesAligned_iff s).2 ready), resumeTo_chequered]
    exact congrArg (okay []) (closeTest_announced_closes (w := received .station (resumedChequered s)) rfl
      (mt (afield_resumedChequered s).1 empty) .request)
  have sends : Sends 0xC0 (resumedChequered s) (announce .request (received .station (resumedChequered s)))
      [⟨0, s.clock.now, .session .chequered .request s.session.heatClock⟩] :=
    sends_trans ((emits_received 0xC0 .station (resumedChequered s)).sends (Nat.le_refl 0))
      ((emitsMove_announce .request (received .station (resumedChequered s))).sends (Nat.le_refl 1))
  have closes := (heatCloses_of (cause := .allFinished) sends hl.1).mono (g' := 0xC0) (by decide)
  obtain ⟨v, closed, -, -, -, replies, -, low, -, -⟩ :=
    closeHeat_keeps .allFinished (announce .request (received .station (resumedChequered s)))
  rw [closed] at work closes
  have low : v.rstnLow = false :=
    low.trans ((Resets.outputs_rstnLow (outputs_announce _ _)).trans hl.1)
  have replies : RepliesKept s v :=
    drawn_trans (replies_announce .request (received .station (resumedChequered s))) replies
  obtain ⟨t, next, -, replied, quiet, -⟩ := request_done (exec_resume tag [] s) hl work low replies closes.out
  exact ⟨t, next, closes.quiet quiet, replied⟩

end

theorem closedSession_resumedChequered (s : State) : closedSession s.clock.now (resumedChequered s).session =
    { s.session with
      state := .closed, aborted := false, heldFrom := none, countdown := none, grace := none
      periods := ended s.clock.now s.session.periods } := by
  rw [closedSession, resumedChequered, ended_ended]

/-- The lamp of a return to GREEN or CAUTION (R127). -/
theorem lampOf_resumed {st : SessionState} (h : st = .green ∨ st = .caution) (s : State) :
    lampOf (resumed st s).session = if st = .green then ⟨.green, 0⟩ else ⟨.yellow, 0⟩ := by
  rcases h with rfl | rfl <;> rfl

/-- Settles O46: the return announces the held-from state, and closes the heat where nobody is afield in CHEQUERED. -/
theorem resumeResult : Obligations.ResumeResult := by
  intro s tag st hl armed
  have armed_eq : armed = rearmed s.clock.now := rfl
  refine ⟨fun held origin ready => ⟨fun back => ?_, ?_, ?_⟩, fun held origin unready => ?_, fun other =>
    refuses_wrongState (exec_resume tag [] s) hl rfl (beq_eq_false_iff_ne.2 other)⟩
  · obtain ⟨t, next, out, announced, replied⟩ := resume_restores hl tag held origin ready back
    rw [lampOf_resumed back] at announced
    refine ⟨t, next, ?_, fun e => ?_, announced, replied⟩
    · rw [outputs_contexts out]
      exact out
    · rw [outputs_ctx out, ctx_resumed, armed_eq]
  · rintro rfl afield
    obtain ⟨t, next, out, announced, replied⟩ := resume_chequered hl tag held origin ready afield
    refine ⟨t, next, ?_, fun e => ?_, announced, replied⟩
    · rw [outputs_contexts out]
      exact out
    · rw [outputs_ctx out, ctx_resumedChequered, armed_eq]
  · rintro rfl empty
    obtain ⟨t, next, closes, replied⟩ := resume_closes hl tag held origin ready empty
    exact ⟨t, next, closes, HeatCloses.session_eq closes (closedSession_resumedChequered s), replied⟩
  · refine request_refused (exec_resume tag [] s) hl ?_
    rw [resume_work held origin, if_neg (mt (gatesAligned_iff s).1 unready)]

end Sys2Proof.Proofs.HeatMoves

/-! ### Proofs: the countdown and the button

The countdown's steps, its hold and GREEN (R62, R63, R66, R72, R114, R115), and the marshal's button (R15, R128). -/

namespace Sys2Proof.Proofs.CountdownAndButton

open Sys2Proof Machine Safety FullAlignment Ports Resets HeatMoves

/-! #### The countdown (R114) -/

/-- The commands of a countdown that has run out in a phase (R114, R115). -/
theorem dueCountdown_of {s : State} {c : Countdown} (high : s.rstnLow = false) (state : s.session.state = .countdown)
    (counts : s.session.countdown = some c) (over_ : c.remaining = 0) {phase : CountPhase} (h : c.phase = phase) :
    dueCountdown s phase = some c := by
  simp [dueCountdown, high, state, counts, over_, h]

theorem exec_countdownStepEnd {s : State} {c : Countdown} (due : dueCountdown s .steps = some c) :
    exec .countdownStepEnd s = .next (settle (endStep c s)) := by
  show complete (match dueCountdown s .steps with
    | some c => endStep c s
    | none => s) = _
  rw [due]
  rfl

theorem exec_randomHoldEnd {s : State} {c : Countdown} (due : dueCountdown s .hold = some c) :
    exec .randomHoldEnd s = .next (settle (goGreen s)) := by
  show complete (if (dueCountdown s .hold).isSome then goGreen s else s) = _
  rw [due]
  rfl

theorem records_issueLamp (l : Lamp) (s : State) : RecordsKept s (issueLamp l s) := by
  have station : (issueLamp l s).link.stationTx = s.link.stationTx := by
    unfold issueLamp
    split
    · rfl
    · rw [chooseTrack_stationTx]
  unfold RecordsKept
  rw [issueLamp_records, station]
  exact drawn_same

/-- A lamp issued, with the choices of the event's end behind it (R127). -/
theorem issueLamp_settle {s : State} (high : s.rstnLow = false) (l : Lamp) :
    Outputs 0 s (settle (issueLamp l s)) ∧ Shows (settle (issueLamp l s)) l ∧
      RecordsKept s (settle (issueLamp l s)) :=
  ⟨outputs_trans (outputs_issueLamp l s) (quiet_settle _).outputs, shows_settle (shows_issueLamp high l),
    drawn_trans (records_issueLamp l s) (quiet_settle _).records⟩

/-! #### GREEN (R62, R63, R66, R72, R115) -/

/-- The session at GREEN (R115). -/
def atGreen (s : State) : State :=
  { s with session := { s.session with state := .green, greenTime := some s.clock.now, countdown := none } }

/-- How many SCATTER laps have been drawn before an entry number, with the drill switch as it stands (R62, R63). -/
def scatters (s : State) (n : Nat) : Nat := if s.resolver.drillOn then scattersBefore s n else 0

theorem scatters_eq (s : State) (n : Nat) : ((allEntries.filter fun e => decide (e.val < n)).filter fun e =>
    s.resolver.drillOn && (entryRow s e).controller.isSome && (entryRow s e).drillMode == .scatter).length =
      scatters s n := by
  rw [scatters]
  cases s.resolver.drillOn with
  | false => simp
  | true =>
    simp only [Bool.true_and]
    rfl

/-- The schedule of a drill car at GREEN (R62, R63). -/
def greenSchedule (s : State) (e : Entry) : DrillSchedule where
  lap := 0
  lapTime := if (entryRow s e).drillMode = .scatter
    then (entryRow s e).drillLap + (shifted^[scatters s (e.val + 1)] s.resolver.lfsr).toNat %
      ((entryRow s e).drillStep + 1) else (entryRow s e).drillLap
  launchDue := true
  nextLine := 0
  remaining := (entryRow s e).drillLap / s.settings.timing.lines

/-- The field and the resolver at GREEN, given the drill schedules. -/
def greened (drills : Vector (Option DrillSchedule) 16) (s t : State) : State :=
  { t with
    contexts := s.contexts.map (launchGrid s.clock.now (lineRow s 0).overdue)
    resolver := { s.resolver with drills := drills, lfsr := shifted^[scatters s 16] s.resolver.lfsr } }

theorem launchField_of {s a : State} (contexts : a.contexts = s.contexts) (now : a.clock.now = s.clock.now)
    (throttle : a.throttle = s.throttle) : launchField a =
    { a with contexts := s.contexts.map (launchGrid s.clock.now (lineRow s 0).overdue) } := by
  have limit : lineRow a 0 = lineRow s 0 := by rw [lineRow, throttle, lineRow]
  rw [launchField, updAllCtx, contexts, now, limit]

/-- The drill cars' schedules depend on the resolver, the entry table and LINES alone (R62). -/
theorem startDrills_of {s v : State} (resolver : v.resolver = s.resolver) (throttle : v.throttle = s.throttle)
    (settings : v.settings = s.settings) : ∃ drills,
    startDrills v = { v with
      resolver := { s.resolver with drills := drills, lfsr := shifted^[scatters s 16] s.resolver.lfsr } } ∧
    ∀ e : Entry, (¬(s.resolver.drillOn = true ∧ isDrillCar s e) → drills[e] = s.resolver.drills[e]) ∧
      (s.resolver.drillOn = true ∧ isDrillCar s e → drills[e] = some (greenSchedule s e)) := by
  have row : entryRow v = entryRow s := by
    funext e
    rw [entryRow, throttle, entryRow]
  have scatter : scatterCar v = scatterCar s := by
    funext e
    simp only [scatterCar, mapped, row]
  have before : scattersBefore v = scattersBefore s := by
    funext n
    rw [scattersBefore, scatter, scattersBefore]
  have car (e : Entry) : isDrillCar v e ↔ isDrillCar s e := by
    simp only [isDrillCar, mapped, row]
  obtain ⟨drills, started, schedules⟩ := startDrills_eq v
  rw [resolver, before] at started
  refine ⟨drills, started, fun e => ?_⟩
  have schedule := schedules e
  rw [resolver, car, row, before, settings] at schedule
  refine ⟨schedule.1, fun runs => (schedule.2 runs).trans ?_⟩
  rw [greenSchedule, scatters, if_pos runs.1]

/-- The field and the schedules behind an announced GREEN (R62, R72). -/
theorem startDrills_launchField {s a : State} {g : Byte} (out : Outputs g (atGreen s) a) :
    ∃ drills, startDrills (launchField a) = greened drills s a ∧
    ∀ e : Entry, (¬(s.resolver.drillOn = true ∧ isDrillCar s e) → drills[e] = s.resolver.drills[e]) ∧
      (s.resolver.drillOn = true ∧ isDrillCar s e → drills[e] = some (greenSchedule s e)) := by
  have launched := launchField_of ((outputs_contexts out).trans rfl) ((outputs_now out).trans rfl)
    ((outputs_throttle out).trans rfl) (s := s)
  rw [launched]
  exact startDrills_of ((outputs_resolver out).trans rfl) ((outputs_throttle out).trans rfl)
    ((outputs_settings out).trans rfl)

/-- The move to GREEN is announced, the field is launched, and every drill car has its schedule (R62, R72). -/
theorem goGreen_eq (s : State) : ∃ drills, goGreen s = greened drills s (announce .lightsOut (atGreen s)) ∧
    ∀ e : Entry, (¬(s.resolver.drillOn = true ∧ isDrillCar s e) → drills[e] = s.resolver.drills[e]) ∧
      (s.resolver.drillOn = true ∧ isDrillCar s e → drills[e] = some (greenSchedule s e)) :=
  startDrills_launchField (outputs_announce .lightsOut (atGreen s))

/-- What a move sends is the same over other contexts and another resolver. -/
theorem emitsMove_field {n : Nat} {w v : State} {L : List Record} (h : EmitsMove n w v L)
    (contexts : Vector Context 16) (resolver : Resolver) : EmitsMove n { w with contexts := contexts, resolver := resolver }
      { v with contexts := contexts, resolver := resolver } L := by
  have emits := emitsMove_congr h contexts w.pit w.order resolver w.session w.penalty w.throttle
  have same : ({ v with
      contexts := contexts, pit := w.pit, order := w.order, resolver := resolver, session := w.session
      penalty := w.penalty, throttle := w.throttle } : State) =
      { v with contexts := contexts, resolver := resolver } := by
    rw [← outputs_pit h.out, ← outputs_order h.out, ← outputs_session h.out, ← outputs_penalty h.out,
      ← outputs_throttle h.out]
  rwa [same] at emits

/-- The move to GREEN sends its SESSION record and shows its lamp (R115, R127, R129). -/
theorem greened_emits (drills : Vector (Option DrillSchedule) 16) (s : State) :
    EmitsMove 1 (greened drills s (atGreen s)) (greened drills s (announce .lightsOut (atGreen s)))
      [⟨0, s.clock.now, .session .green .lightsOut s.session.heatClock⟩] :=
  emitsMove_field (emitsMove_announce .lightsOut (atGreen s)) _ _

/-- A car at GREEN (R72). -/
theorem ctx_greened (drills : Vector (Option DrillSchedule) 16) (s t : State) (e : Entry) :
    ctx (greened drills s t) e = launchGrid s.clock.now (lineRow s 0).overdue (ctx s e) := Vector.getElem_map _ _

/-- What stands behind the move to GREEN. -/
structure Greened (s t : State) : Prop where
  out : Outputs 0xC0 (greened t.resolver.drills s (atGreen s)) t
  announced : Announced s t ⟨.green, 0⟩ .green .lightsOut
  field : ∀ e : Entry, ctx t e = launchGrid s.clock.now (lineRow s 0).overdue (ctx s e)
  rests : ∀ e : Entry, ¬(s.resolver.drillOn = true ∧ isDrillCar s e) → t.resolver.drills[e] = s.resolver.drills[e]
  drills : ∀ e : Entry, s.resolver.drillOn = true ∧ isDrillCar s e → t.resolver.drills[e] = some (greenSchedule s e)

theorem greened_of_goGreen (s : State) : Greened s (settle (goGreen s)) := by
  obtain ⟨drills, green, schedules⟩ := goGreen_eq s
  have emits := greened_emits drills s
  rw [green]
  have quiet := quiet_settle (greened drills s (announce .lightsOut (atGreen s)))
  have out := outputs_trans emits.out (outputs_zero quiet.outputs)
  have resolver : (settle (greened drills s (announce .lightsOut (atGreen s)))).resolver.drills = drills :=
    congrArg Resolver.drills ((outputs_resolver out).trans rfl)
  refine ⟨?_, emits.announced rfl rfl rfl (fun high => shows_announce (s := atGreen s) high .lightsOut) quiet,
    fun e => ?_, fun e h => ?_, fun e h => ?_⟩
  · rw [resolver]
    exact out
  · rw [outputs_ctx out, ctx_greened]
  · rw [resolver]
    exact (schedules e).1 h
  · rw [resolver]
    exact (schedules e).2 h

theorem endStep_lowers {c : Countdown} (more : 1 < c.red) (s : State) : endStep c s = issueLamp
    (lampOf (setCountdown { c with red := c.red - 1, remaining := s.settings.heat.stepIvl } s).session)
    (setCountdown { c with red := c.red - 1, remaining := s.settings.heat.stepIvl } s) := if_pos more

theorem endStep_greens {c : Countdown} (last : c.red ≤ 1) (none : c.hold = 0) (s : State) : endStep c s = goGreen s :=
  (if_neg (Nat.not_lt.2 last)).trans (if_pos none)

theorem endStep_holds {c : Countdown} (last : c.red ≤ 1) (some : 0 < c.hold) (s : State) :
    endStep c s = setCountdown { c with phase := .hold, remaining := c.hold } s :=
  (if_neg (Nat.not_lt.2 last)).trans (if_neg (Nat.pos_iff_ne_zero.1 some))

/-- The lamp of a countdown is its red count (R114, R127). -/
theorem lampOf_countdown {x : Session} {c : Countdown} (state : x.state = .countdown) (counts : x.countdown = some c) :
    lampOf x = ⟨.red, c.red⟩ := by
  rw [lampOf, state]
  dsimp only
  rw [counts]
  rfl

/-- Settles O50: the end of a step is a lower count, the hold or GREEN, and the end of the hold is GREEN. -/
theorem countdownRuns : Obligations.CountdownRuns := by
  intro s c high state counts over_ draw drills scatters_ green
  have drillCar (e : Entry) : drills e ↔ s.resolver.drillOn = true ∧ isDrillCar s e := by
    simp only [drills, isDrillCar, mapped, Option.isSome_iff_ne_none]
  have drawn (n : Nat) : scatters_ n = scatters s n := scatters_eq s n
  have greens (t : State) (h : Greened s t) : green t := by
    refine ⟨?_, h.announced, h.field, fun e => ⟨fun off => h.rests e (mt (drillCar e).2 off), fun on => ?_⟩⟩
    · rw [outputs_contexts h.out, drawn]
      exact h.out
    · rw [h.drills e ((drillCar e).1 on), drawn]
      rfl
  have stepDue := fun h : c.phase = .steps => exec_countdownStepEnd (dueCountdown_of high state counts over_ h)
  refine ⟨fun steps more => ?_, fun steps last some => ?_, fun steps last none => ?_, fun hold => ?_⟩
  · refine ⟨_, stepDue steps, ?_⟩
    rw [endStep_lowers more, lampOf_countdown (x := (setCountdown _ s).session) state rfl]
    exact issueLamp_settle (s := setCountdown _ s) high _
  · refine ⟨_, stepDue steps, ?_⟩
    rw [endStep_holds last some]
    exact quiet_settle _
  · refine ⟨_, stepDue steps, ?_⟩
    rw [endStep_greens last none]
    exact greens _ (greened_of_goGreen s)
  · exact ⟨_, exec_randomHoldEnd (dueCountdown_of high state counts over_ hold), greens _ (greened_of_goGreen s)⟩

/-! #### The marshal's button (R15, R128) -/

/-- The record of a press (R128). -/
def pressRecord (g : GateId) (arrival : Ticks) : Record := ⟨g.val + 1, arrival, .button (g.val + 1)⟩

/-- The state behind a press, before what it moves (R128). -/
def pressed (g : GateId) (arrival : Ticks) (s : State) : State :=
  setGroup .marshal (emit (pressRecord g arrival) (received .track s))

theorem exec_marshalButton {s : State} (high : s.rstnLow = false) (g : GateId) (arrival : Ticks) :
    exec (.marshalButton (BitVec.ofNat 8 (g.val + 1)) arrival) s =
      .next (settle (buttonAction (pressed g arrival s))) := by
  show complete (takeFrame .track (fun s => match gateOf (BitVec.ofNat 8 (g.val + 1)).toNat with
    | none => badFrame .track s
    | some id => buttonAction (emitButton (gateNumber id) arrival s)) s) = _
  rw [takeFrame_high high, gateOf_byte]
  rfl

/-- A press sends its record and sets MARSHAL (R128). -/
theorem emits_pressed (g : GateId) (arrival : Ticks) (s : State) :
    Emits 0x90 1 s (pressed g arrival s) [pressRecord g arrival] :=
  emits_trans (emits_received 0x90 .track s)
    (emits_trans (emits_mono (emits_emit _ _) (by decide)) (emits_mono (emits_group .marshal _) (by decide)))

/-- The heat moved to other contexts, pit, order and session. -/
def movedTo (contexts : Vector Context 16) (pit : Pit) (order : Order) (session : Session) (s : State) : State :=
  { s with contexts := contexts, pit := pit, order := order, session := session }

/-- What some work sends is the same over another heat. -/
theorem sends_movedTo {g : Byte} {s t : State} {L : List Record} (h : Sends g s t L) (contexts : Vector Context 16)
    (pit : Pit) (order : Order) (session : Session) :
    Sends g (movedTo contexts pit order session s) (movedTo contexts pit order session t) L := by
  have sends := sends_congr h contexts pit order s.resolver session s.penalty s.throttle
  have same : ({ t with
      contexts := contexts, pit := pit, order := order, resolver := s.resolver, session := session
      penalty := s.penalty, throttle := s.throttle } : State) = movedTo contexts pit order session t := by
    rw [← outputs_resolver h.out, ← outputs_penalty h.out, ← outputs_throttle h.out]
    rfl
  rwa [same] at sends

/-- What stands behind a press whose move has been announced (R128). -/
structure ButtonMoves (u s t : State) (r : Record) (l : Lamp) (st : SessionState) : Prop where
  out : Outputs 0xD0 u t
  marshal : groupSet .marshal t = true
  press : s.link.records.length < 63 → Recorded t r
  lamp : Shows t l
  group : groupSet .session t = true
  joined : Joined s t [r, ⟨0, s.clock.now, .session st .button s.session.heatClock⟩]
  record : s.link.records.length < 63 → Recorded t ⟨0, s.clock.now, .session st .button s.session.heatClock⟩

/-- The announcement of a move behind a press (R128). -/
theorem button_announces {s : State} (high : s.rstnLow = false) (g : GateId) (arrival : Ticks)
    (contexts : Vector Context 16) (pit : Pit) (order : Order) (session : Session)
    (heatClock : session.heatClock = s.session.heatClock) :
    ButtonMoves (movedTo contexts pit order session s) s
      (settle (announce .button (movedTo contexts pit order session (pressed g arrival s))))
      (pressRecord g arrival) (lampOf session) session.state := by
  have emits := emits_pressed g arrival s
  have now : (pressed g arrival s).clock.now = s.clock.now := outputs_now emits.out
  have highPressed : (pressed g arrival s).rstnLow = false := (outputs_rstnLow emits.out).trans high
  have moves := emitsMove_announce .button (movedTo contexts pit order session (pressed g arrival s))
  have sends := sends_settle (sends_trans
    (sends_mono (sends_movedTo (emits.sends (Nat.le_refl 1)) contexts pit order session) (g' := 0xD0) (by decide))
    (sends_mono (moves.sends (Nat.le_refl 1)) (g' := 0xD0) (by decide)))
  have last : (⟨0, (movedTo contexts pit order session (pressed g arrival s)).clock.now,
      .session session.state .button session.heatClock⟩ : Record) =
      ⟨0, s.clock.now, .session session.state .button s.session.heatClock⟩ := by
    rw [← now, ← heatClock]
    rfl
  have marshal : groupSet .marshal (pressed g arrival s) = true := groupSet_setGroup .marshal _
  refine ⟨sends.out, groupSet_settle (groupSet_mono marshal moves.out.kept), fun room => ?_,
    shows_settle (shows_announce (s := movedTo contexts pit order session (pressed g arrival s)) highPressed .button),
    groupSet_settle moves.group, fun busy room => ?_, fun room => ?_⟩
  · exact (sends.room high (Nat.succ_le_succ room)).2 _ (List.mem_cons_self ..)
  · rw [← last]
    exact (sends.queue high busy room).1
  · rw [← last]
    exact (sends.room high (Nat.succ_le_succ room)).2 _ (List.mem_cons_of_mem _ (List.mem_cons_self ..))

section
variable {s : State} (high : s.rstnLow = false) (g : GateId) (arrival : Ticks)
include high

/-- The record queue behind a press that moves nothing, where the transmitter is busy (R15). -/
theorem records_pressed_busy (busy : s.link.stationTx.isSome = true) :
    (settle (pressed g arrival s)).link.records = joinRecords s.link.records (pressRecord g arrival) := by
  have sent := emit_busy (s := received .track s) (pressRecord g arrival) high busy
  have kept : (pressed g arrival s).link.records = joinRecords s.link.records (pressRecord g arrival) ∧
      (pressed g arrival s).link.stationTx = s.link.stationTx := by
    rw [pressed, sent]
    split <;> exact ⟨rfl, rfl⟩
  rw [records_settle_busy (by rw [kept.2]; exact busy), kept.1]

/-- RECORDS is set by a press exactly where its record finds the queue full (R15). -/
theorem recordsGroup_pressed :
    (s.link.records.length < 64 → groupSet .records (settle (pressed g arrival s)) = groupSet .records s) ∧
    (s.link.stationTx.isSome = true → 64 ≤ s.link.records.length →
      groupSet .records (settle (pressed g arrival s)) = true) := by
  have settled : groupSet .records (settle (pressed g arrival s)) = groupSet .records (pressed g arrival s) := by
    rw [groupSet, settle_mgmt, groupSet]
  have other : groupSet .records (pressed g arrival s) =
      groupSet .records (emit (pressRecord g arrival) (received .track s)) :=
    groupSet_outputs (outputs_setGroup .marshal _) (by decide)
  rw [settled, other]
  refine ⟨fun room => ?_, fun busy full => ?_⟩
  · have same : (emit (pressRecord g arrival) (received .track s)).mgmt.summary = s.mgmt.summary :=
      summary_emit _ (.inr room)
    rw [groupSet, same, groupSet]
  · have full : ¬(received .track s).link.records.length < 64 := Nat.not_lt.2 full
    rw [emit_busy (s := received .track s) (pressRecord g arrival) high busy, if_neg full]
    exact groupSet_setGroup .records _

/-- A press that moves nothing (R15, R128). -/
theorem press_rests : Outputs 0x90 s (settle (pressed g arrival s)) ∧ LampKept s (settle (pressed g arrival s)) ∧
    (s.link.stationTx.isSome = true →
      (s.link.records.length < 64 →
        (settle (pressed g arrival s)).link.records = s.link.records ++ [pressRecord g arrival] ∧
        groupSet .records (settle (pressed g arrival s)) = groupSet .records s) ∧
      (64 ≤ s.link.records.length → groupSet .records (settle (pressed g arrival s)) = true ∧
        (∀ before x after, s.link.records = before ++ x :: after → x.isSector = true →
          (∀ y ∈ before, y.isSector = false) →
          (settle (pressed g arrival s)).link.records = before ++ after ++ [pressRecord g arrival]) ∧
        ((∀ y ∈ s.link.records, y.isSector = false) →
          (settle (pressed g arrival s)).link.records = s.link.records))) := by
  have told := emits_trans (emits_pressed g arrival s) (emits_settle 0x90 _)
  obtain ⟨kept, lost⟩ := recordsGroup_pressed high g arrival
  refine ⟨told.out, told.lamp, fun busy => ?_⟩
  rw [records_pressed_busy high g arrival busy]
  refine ⟨fun room => ⟨joinRecords_room _ room, kept room⟩, fun full => ⟨lost busy full, ?_, joinRecords_lost _ full⟩⟩
  intro before x after split sector older
  rw [split] at full ⊢
  exact joinRecords_full _ full sector older

end

section
variable {p : State}

theorem buttonAction_caution (action : p.settings.heat.marshalAction = .caution) (state : p.session.state = .green) :
    buttonAction p = toCaution .button p := by
  rw [buttonAction, action]
  exact if_pos state

theorem buttonAction_hold (action : p.settings.heat.marshalAction = .hold) (state : holdable p.session.state = true) :
    buttonAction p = toHeld .button p := by
  rw [buttonAction, action]
  exact if_pos state

theorem buttonAction_rests (yellow : ¬(p.settings.heat.marshalAction = .caution ∧ p.session.state = .green))
    (stop : ¬(p.settings.heat.marshalAction = .hold ∧ holdable p.session.state = true)) : buttonAction p = p := by
  unfold buttonAction
  split
  · rfl
  · next action => exact if_neg fun state => yellow ⟨action, state⟩
  · next action => exact if_neg fun state => stop ⟨action, state⟩

end

theorem periodOpen_pressed (g : GateId) (arrival : Ticks) (s : State) :
    PeriodOpen (pressed g arrival s) ↔ PeriodOpen s := by
  rw [PeriodOpen, outputs_session (emits_pressed g arrival s).out, PeriodOpen]

/-- Settles O52: a press sends its record, and behind it the announcement of the move that MARSHAL_ACTION names. -/
theorem marshalButtonResult : Obligations.MarshalButtonResult := by
  intro s g arrival high action yellow stop held press
  have emits := emits_pressed g arrival s
  have settings : (pressed g arrival s).settings = s.settings := outputs_settings emits.out
  have session : (pressed g arrival s).session = s.session := outputs_session emits.out
  have pit : (pressed g arrival s).pit = s.pit := outputs_pit emits.out
  have order : (pressed g arrival s).order = s.order := outputs_order emits.out
  have now : (pressed g arrival s).clock.now = s.clock.now := outputs_now emits.out
  have ctx_eq (e : Entry) : ctx (pressed g arrival s) e = ctx s e := outputs_ctx emits.out e
  have next := exec_marshalButton high g arrival
  by_cases isYellow : yellow
  · have noStop : ¬stop := fun h => by
      have both : MarshalAction.caution = .hold := isYellow.1.symm.trans h.1
      cases both
    rw [buttonAction_caution ((congrArg (fun x => x.heat.marshalAction) settings).trans isYellow.1)
      ((congrArg Session.state session).trans isYellow.2)] at next
    obtain ⟨w, move, made, kept, fresh⟩ := toCaution_eq .button (pressed g arrival s)
    have made : w = movedTo w.contexts s.pit { s.order with snapshot := some s.order.list }
        { s.session with state := .caution, periods := w.session.periods } (pressed g arrival s) := by
      rw [← pit, ← order, ← session]
      exact made
    have moves := button_announces high g arrival w.contexts s.pit { s.order with snapshot := some s.order.list }
      { s.session with state := .caution, periods := w.session.periods } rfl
    rw [← made] at moves
    rw [move] at next
    have behind : Outputs 0xC0 w (settle (announce .button w)) :=
      outputs_trans (outputs_announce .button w) (outputs_zero (quiet_settle _).outputs)
    refine ⟨_, next, moves.marshal, moves.press, fun h => absurd isYellow h, fun _ => ⟨?_, moves.lamp, moves.group,
      moves.joined, moves.record, fun closed => ?_, fun open_ => ?_⟩, fun h => absurd h noStop⟩
    · rw [outputs_contexts behind, outputs_session behind]
      exact moves.out
    · obtain ⟨periods, contexts⟩ := fresh (mt (periodOpen_pressed g arrival s).1 closed)
      rw [now, session] at periods
      rw [outputs_session behind]
      exact ⟨periods, fun e => by rw [outputs_ctx behind, contexts, ctx_eq]⟩
    · obtain ⟨periods, contexts⟩ := kept ((periodOpen_pressed g arrival s).2 open_)
      rw [session] at periods
      rw [outputs_session behind]
      exact ⟨periods, fun e => by rw [outputs_ctx behind, contexts, ctx_eq]⟩
  · by_cases isStop : stop
    · rw [buttonAction_hold ((congrArg (fun x => x.heat.marshalAction) settings).trans isStop.1)
        (by rw [session]; exact (holdable_iff _).2 isStop.2)] at next
      obtain ⟨w, move, made, marks, kept, fresh⟩ := toHeld_eq .button (pressed g arrival s)
      have made : w = movedTo w.contexts { s.pit with marks := w.pit.marks } s.order
          { s.session with state := .held, heldFrom := some s.session.state, periods := w.session.periods }
          (pressed g arrival s) := by
        rw [← pit, ← order, ← session]
        exact made
      have moves := button_announces high g arrival w.contexts { s.pit with marks := w.pit.marks } s.order
        { s.session with state := .held, heldFrom := some s.session.state, periods := w.session.periods } rfl
      rw [← made] at moves
      rw [move] at next
      have behind : Outputs 0xC0 w (settle (announce .button w)) :=
        outputs_trans (outputs_announce .button w) (outputs_zero (quiet_settle _).outputs)
      refine ⟨_, next, moves.marshal, moves.press, fun _ h => absurd isStop h, fun h => absurd h isYellow,
        fun _ => ⟨?_, fun e => ?_, moves.lamp, moves.group, moves.joined, moves.record, fun closed => ?_,
          fun open_ => ?_⟩⟩
      · rw [outputs_contexts behind, outputs_session behind, outputs_pit behind]
        exact moves.out
      · rw [outputs_pit behind]
        exact marks e
      · obtain ⟨periods, contexts⟩ := fresh (mt (periodOpen_pressed g arrival s).1 closed)
        rw [now, session] at periods
        rw [outputs_session behind]
        refine ⟨periods, fun e => ?_⟩
        rw [outputs_ctx behind, contexts, ctx_eq, now]
        rfl
      · obtain ⟨periods, contexts⟩ := kept ((periodOpen_pressed g arrival s).2 open_)
        rw [session] at periods
        rw [outputs_session behind]
        refine ⟨periods, fun e => ?_⟩
        rw [outputs_ctx behind, contexts, ctx_eq, now]
        rfl
    · rw [buttonAction_rests (by rw [settings, session]; exact isYellow)
        (by rw [settings, session, holdable_iff]; exact isStop)] at next
      have rests := press_rests high g arrival
      exact ⟨_, next, groupSet_settle (groupSet_setGroup .marshal _), fun room =>
        recorded_settle ((emits.room high (Nat.le_succ_of_le room)).2 _ (List.mem_singleton_self _)),
        fun _ _ => rests, fun h => absurd h isYellow, fun h => absurd h isStop⟩

end Sys2Proof.Proofs.CountdownAndButton

/-! ### Proofs: the director's calls

ISSUE, counted and direct (R140 to R150), WAIVE (R165) and RETIRE (R94). -/

namespace Sys2Proof.Proofs.DirectorCalls

open Sys2Proof Machine Safety RequestChecks StoredRows ReadsAndRefusals FullAlignment

/-! #### The checks of ISSUE, in the order of R149 -/

section
variable {e : Entry} {s : State} {args : List Byte} {kind : IncidentKind}

theorem inStates_takes {ok : SessionState → Bool} {f : State → Answer} {s : State} (h : ok s.session.state = true) :
    inStates ok f s = f s := if_pos h

theorem issue_outside (rests : ¬racing s.session.state = true) (len : 3 ≤ args.length) :
    issue args (received .station s) = refuse .wrongState (received .station s) :=
  (if_neg (Nat.not_lt.2 len)).trans (inStates_refused (Bool.eq_false_iff.2 rests))

section
variable (races : racing s.session.state = true) (index : entryOf (arg8 args 0) = some e)
include races index

theorem issue_unused (len : 3 ≤ args.length) (unused : (ctx s e).state = .unused) :
    issue args s = refuse .badIndex s := by
  simp only [issue, inStates_takes races, index, unused, Nat.not_lt.2 len, if_true, if_false]

variable (used : (ctx s e).state ≠ .unused)
include used

theorem issue_otherKind (len : 3 ≤ args.length) (code : kindOf (arg8 args 1) = none) :
    issue args s = refuse .badValue s := by
  simp only [issue, inStates_takes races, index, used, code, Nat.not_lt.2 len, if_false]

theorem issue_otherMode (len : 3 ≤ args.length) (mode : 1 < arg8 args 2) : issue args s = refuse .badValue s := by
  have zero : arg8 args 2 ≠ 0 := by omega
  have one : arg8 args 2 ≠ 1 := by omega
  cases code : kindOf (arg8 args 1) with
  | none => exact issue_otherKind races index used len code
  | some kind =>
    simp only [issue, inStates_takes races, index, used, code, zero, one, Nat.not_lt.2 len, if_false]

theorem issue_counted_length (len : 3 < args.length) (mode : arg8 args 2 = 0) :
    issue args s = refuse .badValue s := by
  cases code : kindOf (arg8 args 1) with
  | none => exact issue_otherKind races index used len.le code
  | some kind =>
    have longer : args.length ≠ 3 := by omega
    have least : ¬args.length < 3 := by omega
    simp only [issue, inStates_takes races, index, used, code, mode, longer, least, if_false, if_true, ne_eq,
      not_false_eq_true]

theorem issue_direct_length (least : 3 ≤ args.length) (len : args.length ≠ 8) (mode : arg8 args 2 = 1) :
    issue args s = refuse .badValue s := by
  cases code : kindOf (arg8 args 1) with
  | none => exact issue_otherKind races index used least code
  | some kind =>
    simp only [issue, inStates_takes races, index, used, code, mode, len, Nat.not_lt.2 least, if_false, if_true, ne_eq,
      not_false_eq_true, one_ne_zero]

theorem issue_direct_values (len : args.length = 8) (mode : arg8 args 2 = 1)
    (values : 5 < arg8 args 3 ∨ 1 < (args.getD 7 0).toNat) : issue args s = refuse .badValue s := by
  have least : ¬args.length < 3 := by omega
  cases code : kindOf (arg8 args 1) with
  | none => exact issue_otherKind races index used (not_lt.1 least) code
  | some kind =>
    simp only [issue, inStates_takes races, index, used, code, mode, len, if_false, if_true, one_ne_zero, ne_eq,
      not_true, Nat.reduceLT]
    rcases values with sanction | enforce
    · rw [sanctionOf_none sanction]
    · rw [argBool_none enforce]
      cases sanctionOf (arg8 args 3) <;> rfl

variable (code : kindOf (arg8 args 1) = some kind)
include code

/-- A counted ISSUE in form is refused to a car that can take no more incidents (R149). -/
theorem issue_counted_gone (len : args.length = 3) (mode : arg8 args 2 = 0)
    (gone : (ctx s e).disqualified = true ∨ leftRunning (ctx s e).state = true) :
    issue args s = refuse .wrongState s := by
  simp only [issue, inStates_takes races, index, used, code, mode, len, if_false, if_true, ne_eq, not_true,
    Nat.lt_irrefl]
  rcases gone with out | left
  · rw [if_pos out]
  · rw [if_pos left, ite_self]

theorem issue_counted_takes (len : args.length = 3) (mode : arg8 args 2 = 0)
    (fair : (ctx s e).disqualified = false) (here : leftRunning (ctx s e).state = false) :
    issue args s = issueCounted e kind s := by
  simp only [issue, inStates_takes races, index, used, code, mode, len, fair, here, if_false, if_true, ne_eq, not_true,
    Nat.lt_irrefl, Bool.false_eq_true]

variable {k : Sanction} {enforce : Bool} (len : args.length = 8) (mode : arg8 args 2 = 1)
  (sanction : sanctionOf (arg8 args 3) = some k) (flag : argBool args 7 = some enforce)
include len mode sanction flag

/-- A direct ISSUE in form is refused to a disqualified car, and to one that could not serve it (R149). -/
theorem issue_direct_gone (gone : (ctx s e).disqualified = true ∨
    (leftRunning (ctx s e).state = true ∧ (k = .driveThrough ∨ k = .stopGo))) :
    issue args s = refuse .wrongState s := by
  simp only [issue, inStates_takes races, index, used, code, mode, len, sanction, flag, if_false, if_true, one_ne_zero,
    ne_eq, not_true, Nat.reduceLT]
  rcases gone with out | left
  · rw [if_pos out]
  · rw [if_pos left, ite_self]

theorem issue_direct_takes (fair : (ctx s e).disqualified = false)
    (serves : ¬(leftRunning (ctx s e).state = true ∧ (k = .driveThrough ∨ k = .stopGo))) :
    issue args s = issueDirect e kind k enforce args s := by
  simp only [issue, inStates_takes races, index, used, code, mode, len, sanction, flag, fair, serves, if_false, if_true,
    one_ne_zero, ne_eq, not_true, Nat.reduceLT, Bool.false_eq_true]

end

theorem leftRunning_iff (st : CarState) : leftRunning st = true ↔ st = .finished ∨ st = .retired := by
  cases st <;> decide

end

/-! #### A call, and the close that its black flag may bring (R148, R123) -/

/-- Behind a black flag's CALL the session controller is told, and closes the heat where no other car is afield. -/
theorem told_flag {s a : State} {e : Entry} {g : Byte} {n : Nat} {x : Context} {enforce : Bool} {L : List Record}
    (ha : Emits g n (struck e x (some enforce) s) a L) (out : x.state = .retired) :
    (GoesOn s e → closeTest a = a) ∧ (¬GoesOn s e → closeTest a = closeHeat .allFinished false a) := by
  have contexts : a.contexts = s.contexts.set e x := outputs_contexts ha.out
  have session : a.session.state = s.session.state := by rw [outputs_session ha.out, struck_session]
  have self : (ctx a e).state = .retired := by rw [ctx, contexts]; exact (congrArg _ (get_set _ _ _)).trans out
  have others : ∀ g, g ≠ e → (ctx a g).state = (ctx s g).state := fun g hg => by
    rw [ctx, contexts]; exact congrArg _ (ctx_struck_ne x none s hg)
  exact ⟨closeTest_told_stay self others session, closeTest_told_close self others session⟩

/-- A request whose work ends with a CALL, and with a close where that was a black flag's. -/
theorem request_tells {s a : State} {c : Instr} {tag : Byte} {f : State → Answer} {e : Entry} {x : Context}
    {F : Prop} [Decidable F] {enforce : Bool} {call : CallBody} {r : Result} {b : List Byte}
    (he : exec c s = complete (request tag f s)) (hl : Listening s)
    (hf : f (received .station s) = ⟨if F then closeTest a else a, r, b⟩)
    (ha : Emits 0x88 1 (struck e x (if F then some enforce else none) (received .station s)) a
      [⟨e.val + 1, s.clock.now, .call call⟩])
    (hg : groupSet .call a = ((ruleOf s call.kind).attention || groupSet .call s))
    (out : F → x.state = .retired) :
    ∃ t, exec c s = .next t ∧
      (¬F → Outputs 0x88 (struck e x none s) t) ∧
      (F → GoesOn s e → Outputs 0x88 (struck e x (some enforce) s) t) ∧
      (¬F ∨ GoesOn s e → LampKept s t ∧ Joined s t [⟨e.val + 1, s.clock.now, .call call⟩]) ∧
      (F → ¬GoesOn s e → HeatCloses 0xC8 (struck e x (some enforce) s) t .allFinished
        [⟨e.val + 1, s.clock.now, .call call⟩]) ∧
      Called s t e s.clock.now call ∧ Replied s t tag r b := by
  by_cases flag : F
  · rw [if_pos flag] at hf ha
    obtain ⟨stays, closes⟩ := told_flag ha (out flag)
    by_cases on : GoesOn s e
    · rw [stays on] at hf
      obtain ⟨t, run, stays, -, called, replied⟩ := request_calls he hl hf ha hg (.inl rfl)
      obtain ⟨outputs, rest⟩ := stays rfl
      exact ⟨t, run, (absurd flag ·), fun _ _ => outputs, fun _ => rest, fun _ no => absurd on no, called, replied⟩
    · rw [closes on] at hf
      obtain ⟨t, run, -, closes, called, replied⟩ := request_calls he hl hf ha hg (.inr rfl)
      exact ⟨t, run, (absurd flag ·), fun _ yes => absurd yes on, fun h => absurd (h.resolve_left (absurd flag ·)) on,
        fun _ _ => closes rfl, called, replied⟩
  · rw [if_neg flag] at hf ha
    obtain ⟨t, run, stays, -, called, replied⟩ := request_calls he hl hf ha hg (.inl rfl)
    obtain ⟨outputs, rest⟩ := stays rfl
    exact ⟨t, run, fun _ => outputs, (absurd · flag), fun _ => rest, (absurd · flag), called, replied⟩

/-! #### Counted calls (R135, R140, R150) -/

theorem struck_self (e : Entry) (s : State) : struck e (ctx s e) none s = s := by
  have same : s.contexts.set e (ctx s e) = s.contexts := Vector.set_getElem_self _
  rw [struck, same]

/-- The context of a car that ISSUE names: a JUMP_START marks it. -/
def named (kind : IncidentKind) (c : Context) : Context :=
  if kind = .jumpStart then { c with jumpFlagged := true } else c

theorem issueCounted_eq (e : Entry) (kind : IncidentKind) (s : State) : issueCounted e kind s =
    let r := incidentCall e kind s.clock.now (struck e (named kind (ctx s e)) none s)
    okay ((r.2.map callBytes).getD []) r.1 := by
  unfold issueCounted named
  split
  · rfl
  · rw [struck_self]

section
variable {s : State} {tag : Byte} {e : Entry} {kind : IncidentKind} (hl : Listening s)
include hl

open Classical in
theorem issueCounted_calls (races : racing s.session.state = true) (takes : takesIncidents (ctx s e).state = true)
    (fair : (ctx s e).disqualified = false) :
    let p := judged s kind (named kind (ctx s e))
    ∃ t, exec (.issueCounted tag (u8 (e.val + 1) ++ [kind.code, 0])) s = .next t ∧
      (¬FlagsCar p.2 → Outputs 0x88 (struck e p.1 none s) t) ∧
      (FlagsCar p.2 → GoesOn s e → Outputs 0x88 (struck e p.1 (some (ruleOf s kind).enforce) s) t) ∧
      (¬FlagsCar p.2 ∨ GoesOn s e → LampKept s t ∧ Joined s t [⟨e.val + 1, s.clock.now, .call p.2⟩]) ∧
      (FlagsCar p.2 → ¬GoesOn s e → HeatCloses 0xC8 (struck e p.1 (some (ruleOf s kind).enforce) s) t .allFinished
        [⟨e.val + 1, s.clock.now, .call p.2⟩]) ∧
      Called s t e s.clock.now p.2 ∧
      Replied s t tag .ok ([p.2.cls.code] ++ u8 p.2.number ++ yesNo p.2.converted) := by
  intro p
  have state : (named kind (ctx s e)).state = (ctx s e).state := by unfold named; split <;> rfl
  have marked : (named kind (ctx s e)).disqualified = (ctx s e).disqualified := by unfold named; split <;> rfl
  have own := ctx_struck e (named kind (ctx s e)) none (received .station s)
  obtain ⟨a, call, plain, flagged, group, ofKind, out⟩ := incident_spec_of_not_disqualified e kind s.clock.now
    (struck e (named kind (ctx s e)) none (received .station s)) (by rw [own, state, takes]) (by rw [own, marked, fair])
  rw [own] at call plain flagged ofKind out
  have used : (ctx s e).state ≠ .unused := fun h => by rw [h] at takes; cases takes
  have here : leftRunning (ctx s e).state = false := by
    generalize (ctx s e).state = st at takes ⊢; cases st <;> first | rfl | cases takes
  have work : issue (u8 (e.val + 1) ++ [kind.code, 0]) (received .station s) =
      ⟨if FlagsCar p.2 then closeTest a else a, .ok, callBytes ⟨p.2.cls, p.2.number, p.2.converted⟩⟩ := by
    refine (issue_counted_takes (args := u8 (e.val + 1) ++ [kind.code, 0]) (s := received .station s) races
      (entryOf_byte e) used (kindOf_code kind) rfl rfl fair here).trans ?_
    rw [issueCounted_eq]
    exact congrArg (fun r : State × Option CallInfo => okay ((r.2.map callBytes).getD []) r.1) call
  have kind_eq : p.2.kind = kind := ofKind
  refine request_tells (exec_issueCounted tag _ s) hl work ?_ (by rw [kind_eq]; exact group) out
  by_cases flag : FlagsCar p.2
  · rw [if_pos flag]; have := flagged flag; rw [struck_struck] at this; exact this
  · rw [if_neg flag]; have := plain flag; rw [struck_struck] at this; exact this

end

/-- Settles O53: the checks of R149, then the incident as the engine counts it, on the marked context. -/
theorem countedIssueResult : Obligations.CountedIssueResult := by
  intro s tag e kind hl taken c p
  have races (h : taken) : racing s.session.state = true := (racing_iff _).2 h
  refine ⟨fun h takes fair => issueCounted_calls hl (races h) ((takesIncidents_iff _).2 takes) fair,
    fun h unused => request_refused (exec_issueCounted tag _ s) hl
      (issue_unused (args := u8 (e.val + 1) ++ [kind.code, 0]) (races h) (entryOf_byte e) (Nat.le_refl 3) unused),
    fun h used gone => request_refused (exec_issueCounted tag _ s) hl
      (issue_counted_gone (args := u8 (e.val + 1) ++ [kind.code, 0]) (races h) (entryOf_byte e) used (kindOf_code kind)
        rfl rfl (gone.imp_right (leftRunning_iff _).2)), fun h raw len => ?_⟩
  exact request_refused (exec_issueCounted tag raw s) hl (issue_outside (mt (racing_iff _).1 h) len)

/-! #### Direct calls (R149, R150) -/

/-- The arguments of a direct ISSUE (R149). -/
def directArgs (e : Entry) (kind : IncidentKind) (k : Sanction) (amount window fallback : Nat) (enforce : Bool) :
    List Byte :=
  u8 (e.val + 1) ++ [kind.code, 1, k.code] ++ u8 amount ++ u8 window ++ u8 fallback ++ yesNo enforce

section
variable {s : State} {e : Entry} {kind : IncidentKind} {k : Sanction} {amount window fallback : Nat} {enforce : Bool}

theorem issueDirect_eq (hamount : amount < 256) (hwindow : window < 256) (hfallback : fallback < 256) :
    issueDirect e kind k enforce (directArgs e kind k amount window fallback enforce) s =
      let p := penalise e kind s.clock.now 0 (rulingFrom k amount window fallback enforce) s
      taken (rulingAdjusted k amount window fallback) (callBytes p.2) p.1 := by
  have amount_eq : arg8 (directArgs e kind k amount window fallback enforce) 4 = amount := byte_toNat _ hamount
  have window_eq : arg8 (directArgs e kind k amount window fallback enforce) 5 = window := byte_toNat _ hwindow
  have fallback_eq : arg8 (directArgs e kind k amount window fallback enforce) 6 = fallback := byte_toNat _ hfallback
  rw [issueDirect, amount_eq, window_eq, fallback_eq]

theorem issue_direct_checked (hamount : amount < 256) (hwindow : window < 256) (hfallback : fallback < 256)
    (races : racing s.session.state = true) (used : (ctx s e).state ≠ .unused) (fair : (ctx s e).disqualified = false)
    (serves : ¬(leftRunning (ctx s e).state = true ∧ (k = .driveThrough ∨ k = .stopGo))) :
    issue (directArgs e kind k amount window fallback enforce) s =
      let p := penalise e kind s.clock.now 0 (rulingFrom k amount window fallback enforce) s
      taken (rulingAdjusted k amount window fallback) (callBytes p.2) p.1 :=
  (issue_direct_takes (args := directArgs e kind k amount window fallback enforce) races (entryOf_byte e) used
    (kindOf_code kind) rfl rfl (sanctionOf_code k) (yesNo_read _) fair serves).trans
    (issueDirect_eq hamount hwindow hfallback)

theorem issue_direct_refuses (races : racing s.session.state = true) (used : (ctx s e).state ≠ .unused)
    (gone : (ctx s e).disqualified = true ∨
      (leftRunning (ctx s e).state = true ∧ (k = .driveThrough ∨ k = .stopGo))) :
    issue (directArgs e kind k amount window fallback enforce) (received .station s) =
      refuse .wrongState (received .station s) :=
  issue_direct_gone (args := directArgs e kind k amount window fallback enforce) (s := received .station s) races
    (entryOf_byte e) used (kindOf_code kind) rfl rfl (sanctionOf_code k) (yesNo_read _) gone

/-- The bytes of an ISSUE that no state of the car can take: kind, mode, count, sanction and enforce (R149). -/
theorem issue_malformed {x mode : Byte} {rest : List Byte} (races : racing s.session.state = true)
    (used : (ctx s e).state ≠ .unused)
    (bad : 6 < x.toNat ∨ 1 < mode.toNat ∨ (mode = 0 ∧ rest ≠ []) ∨ (mode = 1 ∧ rest.length ≠ 5) ∨
      (mode = 1 ∧ (5 < (rest.getD 0 0).toNat ∨ 1 < (rest.getD 4 0).toNat))) :
    issue (u8 (e.val + 1) ++ [x, mode] ++ rest) s = refuse .badValue s := by
  have index : entryOf (arg8 (u8 (e.val + 1) ++ [x, mode] ++ rest) 0) = some e := entryOf_byte e
  have length : (u8 (e.val + 1) ++ [x, mode] ++ rest).length = rest.length + 3 := by
    rw [List.length_append, Nat.add_comm]; rfl
  have least : 3 ≤ (u8 (e.val + 1) ++ [x, mode] ++ rest).length := by omega
  have wrong_length (one : mode = 1) (len : rest.length ≠ 5) :
      issue (u8 (e.val + 1) ++ [x, mode] ++ rest) s = refuse .badValue s :=
    issue_direct_length races index used least (by omega) (congrArg BitVec.toNat one)
  rcases bad with kind | mode_ | ⟨zero, more⟩ | ⟨one, len⟩ | ⟨one, values⟩
  · exact issue_otherKind races index used least (kindOf_none kind)
  · exact issue_otherMode races index used least mode_
  · have : 0 < rest.length := List.length_pos_iff.2 more
    exact issue_counted_length races index used (by omega) (congrArg BitVec.toNat zero)
  · exact wrong_length one len
  · by_cases len : rest.length = 5
    · exact issue_direct_values races index used (by omega) (congrArg BitVec.toNat one) values
    · exact wrong_length one len

variable {tag : Byte} (hl : Listening s)
include hl

theorem issueDirect_calls (hamount : amount < 256) (hwindow : window < 256) (hfallback : fallback < 256)
    (races : racing s.session.state = true) (used : (ctx s e).state ≠ .unused) (fair : (ctx s e).disqualified = false)
    (serves : ¬(leftRunning (ctx s e).state = true ∧ (k = .driveThrough ∨ k = .stopGo))) :
    let r := rulingFrom k amount window fallback enforce
    let p := sanctioned kind r (ctx s e)
    let call : CallBody := ⟨kind, .penalty, 0, k, calledAmount r, p.2.1, p.2.2⟩
    ∃ t, exec (.issueDirect tag (directArgs e kind k amount window fallback enforce)) s = .next t ∧
      (¬k = .blackFlag → Outputs 0x88 (struck e p.1 none s) t) ∧
      (k = .blackFlag → GoesOn s e → Outputs 0x88 (struck e p.1 (some enforce) s) t) ∧
      (¬k = .blackFlag ∨ GoesOn s e → LampKept s t ∧ Joined s t [⟨e.val + 1, s.clock.now, .call call⟩]) ∧
      (k = .blackFlag → ¬GoesOn s e → HeatCloses 0xC8 (struck e p.1 (some enforce) s) t .allFinished
        [⟨e.val + 1, s.clock.now, .call call⟩]) ∧
      Called s t e s.clock.now call ∧
      Replied s t tag (if rulingAdjusted k amount window fallback then .adjusted else .ok)
        ([call.cls.code] ++ u8 0 ++ yesNo call.converted) := by
  intro r p call
  obtain ⟨a, ruled, emits, group⟩ := penalise_spec e kind s.clock.now 0 r (received .station s) fun _ => fair
  refine request_tells (exec_issueDirect tag _ s) hl
    ((issue_direct_checked (s := received .station s) hamount hwindow hfallback races used fair serves).trans ?_)
    emits group ?_
  · exact congrArg (fun p : State × CallInfo => taken (rulingAdjusted k amount window fallback) (callBytes p.2) p.1)
      ruled
  · rintro rfl
    rfl

end

/-- Settles O54: the checks of R149, then the penalty with the ruling that the arguments name. -/
theorem directIssueResult : Obligations.DirectIssueResult := by
  intro s tag e kind k amount window fallback enforce hl hamount hwindow hfallback racing_ taken_ gone near stored r
    exact_ c p call
  have near_eq (lo hi v : Nat) (h : lo ≤ hi) : clamp lo hi v = near lo hi v := clamp_eq lo hi v h
  have stored_eq : storedAmount k amount = stored := by
    cases k with
    | timeAdd => exact near_eq 1 255 amount (by decide)
    | lapDeduct => exact near_eq 1 15 amount (by decide)
    | stopGo => exact near_eq 1 60 amount (by decide)
    | note => rfl
    | driveThrough => rfl
    | blackFlag => rfl
  have ruling : rulingFrom k amount window fallback enforce = r := by
    rw [rulingFrom, stored_eq, near_eq 1 15 window (by decide), near_eq 1 255 fallback (by decide)]
  have takes : (amountRange k).isSome = true ↔ k = .timeAdd ∨ k = .lapDeduct ∨ k = .stopGo := by
    cases k <;> decide
  have sent : rulingAdjusted k amount window fallback = false ↔ exact_ := by
    rw [rulingAdjusted, Bool.or_eq_false_iff, Bool.or_eq_false_iff, Bool.and_eq_false_imp, takes, bne_eq_false_iff_eq,
      bne_eq_false_iff_eq, bne_eq_false_iff_eq, stored_eq, near_eq 1 15 window (by decide),
      near_eq 1 255 fallback (by decide), and_assoc]
  have races (h : racing_) : racing s.session.state = true := (racing_iff _).2 h
  have left : leftRunning (ctx s e).state = true ↔ gone := leftRunning_iff _
  refine ⟨fun h fair serves => ?_, fun h out => ?_, fun h out serves => ?_, fun h unused => ?_, fun h raw len => ?_,
    fun h x mode rest bad => ?_⟩
  · obtain ⟨t, run, plain, stays, joins, closes, called, replied⟩ := issueDirect_calls (kind := kind)
      (enforce := enforce) (tag := tag) hl hamount hwindow hfallback (races h.1) h.2 fair fun both =>
        both.2.elim (serves (left.1 both.1)).1 (serves (left.1 both.1)).2
    rw [ruling] at plain stays joins closes called replied
    refine ⟨t, run, plain, stays, joins, closes, called, fun yes => ?_, fun no => ?_⟩
    · rw [sent.2 yes] at replied
      exact replied
    · rw [Bool.eq_true_of_not_eq_false (mt sent.1 no)] at replied
      exact replied
  · exact request_refused (exec_issueDirect tag _ s) hl (issue_direct_refuses (races h.1) h.2 (.inl out))
  · exact request_refused (exec_issueDirect tag _ s) hl
      (issue_direct_refuses (races h.1) h.2 (.inr ⟨left.2 out, serves⟩))
  · exact request_refused (exec_issueDirect tag _ s) hl
      (issue_unused (args := directArgs e kind k amount window fallback enforce) (s := received .station s) (races h)
        (entryOf_byte e) (Nat.le_add_left 3 5) unused)
  · exact request_refused (exec_issueDirect tag raw s) hl (issue_outside (mt (racing_iff _).1 h) len)
  · have work := issue_malformed (s := received .station s) (races h.1) h.2 bad
    exact ⟨request_refused (exec_issueCounted tag _ s) hl work, request_refused (exec_issueDirect tag _ s) hl work⟩

/-! #### WAIVE (R165) -/

/-- The state once an owed entry has been waived: its service ends with it. -/
def waived (e : Entry) (i : Nat) (o : Owed) (s : State) : State :=
  { s with
    contexts := s.contexts.set e { ctx s e with
      owed := (ctx s e).owed.eraseIdx i
      transit := if o.inService then (ctx s e).transit.map fun x => { x with stationary := 0, service := false }
        else (ctx s e).transit }
    pit := if o.inService then { marks := s.pit.marks.set e none, holds := s.pit.holds.set e false } else s.pit }

theorem updCtx_updCtx_eq (e : Entry) (f g : Context → Context) (s : State) :
    updCtx e g (updCtx e f s) = { s with contexts := s.contexts.set e (g (f (ctx s e))) } := by
  rw [updCtx_updCtx]; rfl

theorem waiveEntry_eq (e : Entry) (i : Nat) (o : Owed) (s : State) : waiveEntry e i o s =
    emit ⟨e.val + 1, s.clock.now, .serve .waived o.sanction (waivedTicks o (ctx s e))⟩ (waived e i o s) := by
  unfold waiveEntry waived
  dsimp only
  split
  · rw [updCtx_updCtx]; rfl
  · rfl

theorem owed_waiveEntry (e : Entry) (i : Nat) (o : Owed) (s : State) :
    (ctx (waiveEntry e i o s) e).owed = (ctx s e).owed.eraseIdx i := by
  rw [waiveEntry_eq, outputs_ctx (emits_emit _ (waived e i o s)).out]
  exact congrArg Context.owed (get_set _ _ _)

section
variable {s : State} {tag : Byte} (hl : Listening s)
include hl

/-- A request whose work leaves one record behind other changes. -/
theorem request_records {u : State} {c : Instr} {f : State → Answer} {told : Record} {b : List Byte}
    (he : exec c s = complete (request tag f s)) (link : u.link = s.link) (low : u.rstnLow = s.rstnLow)
    (hf : f (received .station s) = ⟨emit told (received .station u), .ok, b⟩) :
    ∃ t, exec c s = .next t ∧ Outputs 0x80 u t ∧
      ((s.link.records.length < 64 → Recorded t told) ∧ Joined s t [told]) ∧ LampKept s t ∧ Replied s t tag .ok b := by
  have emits : Emits 0x80 1 u (emit told (received .station u)) [told] :=
    emits_trans (emits_received 0x80 .station u) (emits_emit told (received .station u))
  have high : u.rstnLow = false := low.trans hl.1
  have replies : RepliesKept s (emit told (received .station u)) := by
    have := emits.replies
    rw [RepliesKept, link] at this
    exact this
  obtain ⟨t, run, out, replied, quiet, -⟩ := request_done he hl hf
    ((Resets.outputs_rstnLow emits.out).trans high) replies emits.out
  have room (h : s.link.records.length < 64) : 0 + u.link.records.length + 1 ≤ 64 := by rw [link]; omega
  refine ⟨t, run, out, ⟨fun h => recorded_quiet quiet ((emits.room high (by rw [link]; omega)).2 told (.head _)),
    fun busy fits => ?_⟩, ?_, replied⟩
  · obtain ⟨records, tx⟩ := emits.queue high (by rw [link]; exact busy) (by rw [link]; exact fits)
    rw [quiet.records.kept (by rw [tx, link]; exact busy), records, link]
  · have lamp : Drawn _ _ u.link.trackTx _ u.link.lamp.toList _ := drawn_trans emits.lamp quiet.lamp
    rw [link] at lamp
    exact lamp

theorem waive_removes {e : Entry} {i : Nat} {o : Owed} (heat : inHeat s.session.state = true)
    (used : (ctx s e).state ≠ .unused) (small : i < 256) (owed : (ctx s e).owed[i]? = some o) :
    ∃ t, exec (.waive tag (u8 (e.val + 1) ++ u8 i)) s = .next t ∧ Outputs 0x80 (waived e i o s) t ∧
      (let told : Record := ⟨e.val + 1, s.clock.now, .serve .waived o.sanction (waivedTicks o (ctx s e))⟩
       (s.link.records.length < 64 → Recorded t told) ∧ Joined s t [told]) ∧ LampKept s t ∧
      Replied s t tag .ok (u8 ((ctx s e).owed.length - 1)) := by
  have index : entryOf (arg8 (u8 (e.val + 1) ++ u8 i) 0) = some e := entryOf_byte e
  have number : arg8 (u8 (e.val + 1) ++ u8 i) 1 = i := byte_toNat i small
  have inside : i < (ctx s e).owed.length := (List.getElem?_eq_some_iff.1 owed).1
  refine request_records (c := .waive tag (u8 (e.val + 1) ++ u8 i)) hl rfl (u := waived e i o s) rfl rfl
    (checks_passed (n := 2) (args := u8 (e.val + 1) ++ u8 i) rfl heat ?_)
  rw [index, number]
  refine (if_neg used).trans ?_
  rw [show (ctx (received .station s) e).owed[i]? = some o from owed]
  exact (congrArg (fun n => okay (u8 n) (waiveEntry e i o (received .station s)))
    ((congrArg List.length (owed_waiveEntry e i o (received .station s))).trans
      (List.length_eraseIdx_of_lt inside))).trans
    (congrArg (okay _) (waiveEntry_eq e i o _))

end

/-! #### RETIRE (R94, R98) -/

/-- The context of a retired car: an IN_PIT car loses its transit unjudged. -/
def retiredContext (c : Context) : Context :=
  { c with
    state := .retired, deadline := none
    owed := if c.state = .inPit then c.owed.modifyHead fun o => { o with inService := false } else c.owed
    transit := if c.state = .inPit then none else c.transit }

/-- The state once a car has left the running, its place still to be found. -/
def withRetired (e : Entry) (s : State) : State :=
  { s with
    contexts := s.contexts.set e (retiredContext (ctx s e))
    pit := if (ctx s e).state = .inPit then
        { marks := s.pit.marks.set e none, holds := s.pit.holds.set e false }
      else s.pit }

theorem retireCar_eq (e : Entry) (s : State) : retireCar e s = closeTest (place e (withRetired e s)) := by
  unfold retireCar withRetired retiredContext
  dsimp only
  by_cases pit : (ctx s e).state = .inPit
  · rw [if_pos (beq_iff_eq.2 pit), if_pos pit, if_pos pit, if_pos pit, endService_eq, dropTransit]
    unfold updCtx setCtx serviceEnded
    simp only [ctx, Vector.set_set, Vector.getElem_set_self, Fin.getElem_fin]
  · rw [if_neg (by rw [beq_iff_eq]; exact pit), if_neg pit, if_neg pit, if_neg pit]
    rfl

section
variable {s : State} {tag : Byte} {e : Entry} (heat : inHeat s.session.state = true) (used : (ctx s e).state ≠ .unused)
include heat used

/-- The work of RETIRE for a car still in the running: the car is placed and the session controller told. -/
theorem retire_tells {v : State} (running : (ctx s e).state ≠ .finished) (here : (ctx s e).state ≠ .retired)
    (told : closeTest (place e (withRetired e (received .station s))) = v) :
    retire (u8 (e.val + 1)) (received .station s) = ⟨v, .ok, []⟩ := by
  have index : entryOf (arg8 (u8 (e.val + 1)) 0) = some e := entryOf_byte e
  refine checks_passed (n := 1) (args := u8 (e.val + 1)) rfl heat ?_
  rw [index]
  exact (if_neg used).trans ((if_neg running).trans ((if_neg here).trans
    (congrArg (okay []) ((retireCar_eq e _).trans told))))

end

/-- The running order once the retired car has been placed. -/
def retiredOrder (e : Entry) (s : State) : List Entry := (place e (withRetired e s)).order.list

/-- The state once a car has been retired and placed. -/
def retired (e : Entry) (s : State) : State :=
  { withRetired e s with order := { s.order with list := retiredOrder e s } }

section
variable {s : State} {tag : Byte} {e : Entry}

theorem state_retired (f : Entry) :
    (ctx (retired e s) f).state = if f = e then .retired else (ctx s f).state := by
  split
  · next h => subst h; exact congrArg Context.state (get_set _ _ _)
  · next h => exact congrArg Context.state (ctx_struck_ne _ none s h)

theorem placed_retired {t : State} (contexts : t.contexts = (retired e s).contexts)
    (list : t.order.list = retiredOrder e s) : Placed s t e :=
  place_placed e (withRetired e s) t contexts list s rfl

theorem closeTest_retired_stays (on : GoesOn s e) :
    closeTest (received .station (retired e s)) = received .station (retired e s) :=
  closeTest_told_stay (s := s) (e := e) ((state_retired e).trans (if_pos rfl))
    (fun f h => (state_retired f).trans (if_neg h)) rfl on

theorem closeTest_retired_closes (last : ¬GoesOn s e) : closeTest (received .station (retired e s)) =
    closeHeat .allFinished false (received .station (retired e s)) :=
  closeTest_told_close (s := s) (e := e) ((state_retired e).trans (if_pos rfl))
    (fun f h => (state_retired f).trans (if_neg h)) rfl last

end

section
variable {s : State} {tag : Byte} {e : Entry} (hl : Listening s) (heat : inHeat s.session.state = true)
  (used : (ctx s e).state ≠ .unused) (running : (ctx s e).state ≠ .finished) (here : (ctx s e).state ≠ .retired)
include hl heat used running here

theorem retire_goes_on (on : GoesOn s e) : ∃ t, exec (.retire tag (u8 (e.val + 1))) s = .next t ∧
    Replied s t tag .ok [] ∧ Quiet (retired e s) t := by
  have work := retire_tells heat used running here (closeTest_retired_stays on)
  obtain ⟨t, run, -, replied, quiet, -⟩ := request_done (u := received .station (retired e s)) (g := 0)
    (c := .retire tag (u8 (e.val + 1))) rfl hl work hl.1 drawn_same (outputs_refl _ _)
  exact ⟨t, run, replied, quiet_trans (quiet_received .station (retired e s)) quiet⟩

theorem retire_closes (last : ¬GoesOn s e) : ∃ t, exec (.retire tag (u8 (e.val + 1))) s = .next t ∧
    Replied s t tag .ok [] ∧ HeatCloses 0xC0 (retired e s) t .allFinished [] := by
  have work := retire_tells heat used running here (closeTest_retired_closes last)
  have closes := heatCloses_of (cause := .allFinished)
    ((emits_received 0xC0 .station (retired e s)).sends (Nat.le_refl 0)) hl.1
  obtain ⟨v, closed, -, -, -, replies, -, low, -, -⟩ := closeHeat_keeps .allFinished (received .station (retired e s))
  rw [closed] at work closes
  obtain ⟨t, run, -, replied, quiet, -⟩ := request_done (c := .retire tag (u8 (e.val + 1))) rfl hl work
    (low.trans hl.1) replies closes.out
  exact ⟨t, run, replied, (closes.mono (by decide)).quiet quiet⟩

end

section
variable {s : State} {tag : Byte} {e : Entry} (hl : Listening s)
include hl

theorem retire_again (heat : inHeat s.session.state = true) (out : (ctx s e).state = .retired) :
    ∃ t, exec (.retire tag (u8 (e.val + 1))) s = .next t ∧ Quiet s t ∧ Replied s t tag .ok [] := by
  have index : entryOf (arg8 (u8 (e.val + 1)) 0) = some e := entryOf_byte e
  refine request_reads (c := .retire tag (u8 (e.val + 1))) rfl hl (checks_passed (n := 1) (args := u8 (e.val + 1))
    rfl heat ?_)
  rw [index]
  have state : (ctx (received .station s) e).state = .retired := out
  dsimp only
  rw [state]
  rfl

theorem retire_finished (heat : inHeat s.session.state = true) (finished : (ctx s e).state = .finished) :
    Refuses (.retire tag (u8 (e.val + 1))) s tag .wrongState := by
  have index : entryOf (arg8 (u8 (e.val + 1)) 0) = some e := entryOf_byte e
  refine refuses_work (s := s) (args := u8 (e.val + 1)) rfl hl rfl heat ?_
  have state : (ctx (received .station s) e).state = .finished := finished
  rw [index]
  dsimp only
  rw [state]
  rfl

theorem retire_unused (heat : inHeat s.session.state = true) (unused : (ctx s e).state = .unused) :
    Refuses (.retire tag (u8 (e.val + 1))) s tag .badIndex := by
  have index : entryOf (arg8 (u8 (e.val + 1)) 0) = some e := entryOf_byte e
  refine refuses_work (s := s) (args := u8 (e.val + 1)) rfl hl rfl heat ?_
  rw [index]
  exact if_pos unused

theorem waive_unused (heat : inHeat s.session.state = true) (unused : (ctx s e).state = .unused) (i : Nat) :
    Refuses (.waive tag (u8 (e.val + 1) ++ u8 i)) s tag .badIndex := by
  have index : entryOf (arg8 (u8 (e.val + 1) ++ u8 i) 0) = some e := entryOf_byte e
  refine refuses_work (s := s) (args := u8 (e.val + 1) ++ u8 i) rfl hl rfl heat ?_
  rw [index]
  exact if_pos unused

theorem waive_beyond (heat : inHeat s.session.state = true) (used : (ctx s e).state ≠ .unused) {i : Nat}
    (small : i < 256) (beyond : (ctx s e).owed.length ≤ i) :
    Refuses (.waive tag (u8 (e.val + 1) ++ u8 i)) s tag .badIndex := by
  have index : entryOf (arg8 (u8 (e.val + 1) ++ u8 i) 0) = some e := entryOf_byte e
  have number : arg8 (u8 (e.val + 1) ++ u8 i) 1 = i := byte_toNat i small
  refine refuses_work (s := s) (args := u8 (e.val + 1) ++ u8 i) rfl hl rfl heat ?_
  rw [index, number]
  refine (if_neg used).trans ?_
  rw [show (ctx (received .station s) e).owed[i]? = none from List.getElem?_eq_none beyond]

end

/-- Settles O55: an owed entry leaves with its SERVE record; a retired car is placed, and the session told. -/
theorem waiveAndRetireResult : Obligations.WaiveAndRetireResult := by
  intro s tag e hl heat waive retire ticks
  have on (h : heat) : inHeat s.session.state = true := (inHeat_iff _).2 h
  refine ⟨fun h used i o small owed => ?_, fun h used i small beyond => waive_beyond hl (on h) used small beyond,
    fun h used running here => ?_, fun h out => retire_again hl (on h) out,
    fun h finished => retire_finished hl (on h) finished,
    fun h unused => ⟨retire_unused hl (on h) unused, fun i _ => waive_unused hl (on h) unused i⟩, fun h => ?_⟩
  · have told : waivedTicks o (ctx s e) = if o.inService = true ∧ o.sanction = .stopGo then some ticks else none := by
      rw [waivedTicks]
      simp only [Bool.and_eq_true, beq_iff_eq]
      rfl
    have := waive_removes (tag := tag) hl (on h) used small owed
    rw [told] at this
    exact this
  · by_cases stays : GoesOn s e
    · obtain ⟨t, run, replied, quiet⟩ := retire_goes_on (tag := tag) hl (on h) used running here stays
      have list : t.order.list = retiredOrder e s := congrArg Order.list (outputs_order quiet.outputs)
      refine ⟨t, run, replied, fun _ => ⟨?_, placed_retired (outputs_contexts quiet.outputs) list, quiet.records,
        quiet.lamp⟩, (absurd stays ·)⟩
      rw [list]
      exact quiet.outputs
    · obtain ⟨t, run, replied, closes⟩ := retire_closes (tag := tag) hl (on h) used running here stays
      have list : t.order.list = retiredOrder e s := (congrArg Order.list (outputs_order closes.out)).trans rfl
      refine ⟨t, run, replied, (absurd · stays), fun _ => ?_⟩
      rw [list]
      exact ⟨placed_retired rfl rfl, closes⟩
  · have off : inHeat s.session.state = false := Bool.eq_false_iff.2 (mt (inHeat_iff _).1 h)
    exact ⟨refuses_wrongState (c := retire) rfl hl rfl off,
      fun i _ => refuses_wrongState (c := waive i) rfl hl rfl off⟩

end Sys2Proof.Proofs.DirectorCalls

/-! ### Proofs: drive frames

The drive queue (R12), and what becomes of each entry of a frame (R145, R156, R158, R172 to R175, R180, R181). -/

namespace Sys2Proof.Proofs.DriveFrames

open Sys2Proof Machine Safety FullAlignment Ports DirectorCalls

/-! #### A frame is offered to the drive queue (R12) -/

theorem driveStands_settle {es : List DriveEntry} {s : State} (h : DriveStands es s) : DriveStands es (settle s) := by
  have track := driveStands_chooseTrack h
  rw [settle, chooseStation_rest]
  exact track

/-- What becomes of an edited frame: behind the drive queue, whose oldest a full queue drops with LINK. -/
structure Offered (es : List DriveEntry) (s t : State) : Prop where
  records : RecordsKept s t
  lamp : LampKept s t
  stands : DriveStands es t
  room : s.link.drive.length < 2 → Outputs 0 { s with link := { s.link with drive := s.link.drive ++ [es] } } t
  full : 2 ≤ s.link.drive.length → groupSet .link t = true ∧
    Outputs 0x01 { s with link := { s.link with drive := s.link.drive.drop 1 ++ [es] } } t

theorem quiet_ends (s : State) : Quiet s (settle (chooseTrack s)) := quiet_trans (quiet_chooseTrack s) (quiet_settle _)

theorem offerDrive_offered (es : List DriveEntry) {s : State} (high : s.rstnLow = false) :
    Offered es s (settle (offerDrive es s)) := by
  unfold offerDrive
  rw [if_neg (by rw [high]; decide)]
  by_cases room : s.link.drive.length < Config.driveCapacity
  · rw [if_pos room]
    have ends := quiet_ends { s with link := { s.link with drive := s.link.drive ++ [es] } }
    exact ⟨ends.records, ends.lamp, driveStands_settle (driveStands_chooseTrack (.inl List.getLast?_concat)),
      fun _ => ends.outputs, fun full => absurd room (Nat.not_lt.2 full)⟩
  · rw [if_neg room]
    generalize hu : ({ s with link := { s.link with drive := s.link.drive.drop 1 ++ [es] } } : State) = u
    have ends := quiet_ends (setGroup .link u)
    have link := outputs_trans (outputs_setGroup .link u) (outputs_zero ends.outputs)
    have set := groupSet_mono (groupSet_setGroup .link u) ends.outputs.kept
    subst hu
    exact ⟨ends.records, ends.lamp, driveStands_settle (driveStands_chooseTrack (.inl List.getLast?_concat)),
      fun h => absurd h room, fun _ => ⟨set, link⟩⟩

theorem exec_driveFrame {s : State} (high : s.rstnLow = false) {es : List DriveEntry} (some_ : 1 ≤ es.length)
    (most : es.length ≤ 16) (time : Ticks) :
    exec (.driveFrame es time) s = .next (settle (editFrame es time (received .station s))) := by
  have inRange : driveInRange es = true := by simp [driveInRange, some_, most]
  have frame : exec (.driveFrame es time) s = complete (takeFrame .station
    (fun s => if driveInRange es then editFrame es time s else badFrame .station s) s) := rfl
  rw [frame, takeFrame_high high, inRange]
  rfl

/-! #### The entry that goes out (R172 to R175) -/

/-- The ceilings of a car, each with its condition (R174). -/
def caps (e : Entry) (u : State) : List (Prop × Nat) := [
  (u.settings.timing.startHold = true ∧ (u.session.state = .armed ∨ u.session.state = .countdown), 0),
  (u.session.state = .caution, u.settings.timing.cautionCap), (u.session.state = .held, 0),
  ((ctx u e).state = .inPit, u.settings.timing.pitCap), (u.pit.holds[e] = true, 0),
  ((ctx u e).fuelState = .out, u.settings.fuel.limp), (e ∈ u.penalty.stopSet, 0)]

/-- The change request of a car is stripped (R175). -/
def Stripped (e : Entry) (u : State) : Prop :=
  (lineRow u (ctx u e).expected).mode = .veto ∨
  (u.session.state = .caution ∧ u.settings.timing.cautionClose = true) ∨ u.throttle.zoneOverride = true

open Classical in
/-- An entry goes out with this throttle, under the ceiling and the stripping rule as they stand in `u`. -/
def Rewritten (e : Entry) (d : DriveEntry) (code : Byte) (sent : Option DriveEntry) (u : State) (out : Nat) : Prop :=
  let throttle : Nat := min 63 d.throttle.toNat
  let stripped : Prop := (lineRow u (ctx u e).expected).mode = .veto ∨
    (u.session.state = .caution ∧ u.settings.timing.cautionClose = true) ∨ u.throttle.zoneOverride = true
  out ≤ throttle ∧ (∀ p ∈ caps e u, p.1 → out ≤ p.2) ∧ (out = throttle ∨ ∃ p ∈ caps e u, p.1 ∧ out = p.2) ∧
  sent = some ⟨code, BitVec.ofNat 8 out, if ¬stripped ∧ (d.change = 1 ∨ d.change = 2) then d.change else 0⟩

theorem mem_ceilingSources_caps (e : Entry) (u : State) (x : Nat) :
    x ∈ ceilingSources u e ↔ ∃ p ∈ caps e u, p.1 ∧ x = p.2 := by
  rw [mem_ceilingSources, caps]
  simp only [List.exists_mem_cons_iff, List.not_mem_nil, false_and, exists_false, or_false]

theorem stripsRequest_iff (e : Entry) (u : State) : stripsRequest u e = true ↔ Stripped e u := by
  rw [stripsRequest, Stripped]
  simp only [Bool.or_eq_true, Bool.and_eq_true, beq_iff_eq, or_assoc]

theorem outgoingRequest_eq (e : Entry) (u : State) (b : Byte) {_ : Decidable (¬Stripped e u ∧ (b = 1 ∨ b = 2))} :
    outgoingRequest u e b = if ¬Stripped e u ∧ (b = 1 ∨ b = 2) then b else 0 := by
  unfold outgoingRequest readRequest
  by_cases h : Stripped e u
  · rw [if_pos ((stripsRequest_iff e u).2 h), if_neg fun both => both.1 h]
  · rw [if_neg (mt (stripsRequest_iff e u).1 h)]
    exact if_congr (and_iff_right h).symm rfl rfl

/-- The entry that the gate makes of a matched one, as the part stands behind the jump watch (R172). -/
theorem rewritten_ceiling (e : Entry) (d : DriveEntry) (u : State) :
    Rewritten e d (entryRow u e).code (some ⟨(entryRow u e).code,
        BitVec.ofNat 8 (min (incomingThrottle d) (ceiling u e)), outgoingRequest u e d.change⟩) u
      (min (incomingThrottle d) (ceiling u e)) := by
  obtain ⟨below, under, exact_⟩ := ceiling_spec (ceilingSources u e) (caps e u) (incomingThrottle d)
    (mem_ceilingSources_caps e u) (Nat.min_le_left _ _)
  exact ⟨below, under, exact_, congrArg (fun request => some (DriveEntry.mk _ _ request)) (outgoingRequest_eq e u _)⟩

/-! #### An entry of no mapped row (R173) -/

section
variable {s : State} {d : DriveEntry} (unmapped : ∀ e : Entry, (entryRow s e).controller ≠ some d.first.toNat)
include unmapped

theorem editEntry_unmapped (time : Ticks) : editEntry time d s = if lockedOut s then (s, none)
    else (s, some { d with throttle := BitVec.ofNat 8 (min 63 d.throttle.toNat) }) := by
  unfold editEntry
  rw [entryWithController_none unmapped]
  rfl

theorem editEntry_removed (time : Ticks) (lockout : s.settings.timing.lockout = true)
    (idle : s.session.state ≠ .idle) (closed : s.session.state ≠ .closed) : editEntry time d s = (s, none) := by
  refine (editEntry_unmapped unmapped time).trans (if_pos ?_)
  simp [lockedOut, lockout, idle, closed]

theorem editEntry_passes (time : Ticks)
    (free : s.settings.timing.lockout = false ∨ s.session.state = .idle ∨ s.session.state = .closed) :
    editEntry time d s = (s, some { d with throttle := BitVec.ofNat 8 (min 63 d.throttle.toNat) }) := by
  refine (editEntry_unmapped unmapped time).trans (if_neg ?_)
  rcases free with h | h | h <;> simp [lockedOut, h]

end

/-! #### An entry of a car (R156, R158, R179 to R181) -/

theorem editEntry_matched {s : State} {d : DriveEntry} {e : Entry}
    (mapped : ∀ f : Entry, (entryRow s f).controller = some d.first.toNat ↔ f = e) (time : Ticks) :
    editEntry time d s = ((editMatched e d time s).1, some (editMatched e d time s).2) := by
  unfold editEntry
  rw [entryWithController_some mapped]

/-- A drive entry starts its car in the hold of the countdown, for the first time (R71, R179). -/
def Jumps (e : Entry) (d : DriveEntry) (s : State) : Prop :=
  s.session.state = .countdown ∧ (s.session.countdown.map fun x => x.phase) = some .hold ∧
  (ctx s e).state = .grid ∧ s.settings.timing.jumpLevel ≤ min 63 d.throttle.toNat ∧ (ctx s e).jumpFlagged = false

theorem jumpWatch_passes {e : Entry} {d : DriveEntry} {s : State} (h : ¬Jumps e d s) (time : Ticks) :
    jumpWatch e (incomingThrottle d) time s = s := by
  unfold jumpWatch
  split
  · next starts =>
    obtain ⟨countdown, hold, grid, level⟩ := starts
    exact jumpStart_of_flagged (Bool.eq_true_of_not_eq_false fun flag => h ⟨countdown, hold, grid, level, flag⟩)
  · rfl

theorem jumpWatch_charges {e : Entry} {d : DriveEntry} {s : State} (h : Jumps e d s) (time : Ticks) :
    jumpWatch e (incomingThrottle d) time s = incident e .jumpStart time
      (struck e { ctx s e with jumpFlagged := true } none s) := by
  obtain ⟨countdown, hold, grid, level, flag⟩ := h
  unfold jumpWatch
  rw [if_pos ⟨countdown, hold, grid, level⟩, jumpStart, if_neg (by rw [flag]; decide)]
  rfl

/-! The figures of a matched entry: the stationary time, the hold and the fuel that it leaves. -/

/-- The ticks that an entry adds to a stop-go in service (R156). -/
def stoodTicks (e : Entry) (throttle : Nat) (time : Ticks) (s : State) : Ticks :=
  match headStopGo (ctx s e), s.pit.marks[e] with
  | some _, some m => if s.session.state ≠ .held ∧ throttle = 0 then time - m else 0
  | _, _ => 0

/-- Stationary ticks behind an entry, from those before it (R156). -/
def stationaryAfter (e : Entry) (throttle : Nat) (time : Ticks) (s : State) (n : Ticks) : Ticks :=
  if headStopGo (ctx s e) = none ∨ s.session.state = .held then n
  else min 4294967295 (n + stoodTicks e throttle time s)

/-- The car's transit behind an entry (R156). -/
def stoodTransit (e : Entry) (throttle : Nat) (time : Ticks) (s : State) : Option Transit :=
  (ctx s e).transit.map fun x => { x with stationary := stationaryAfter e throttle time s x.stationary }

/-- The marks and holds behind an entry (R156, R158). -/
def stoodPit (e : Entry) (throttle : Nat) (time : Ticks) (s : State) : Pit :=
  match headStopGo (ctx s e) with
  | none => s.pit
  | some o =>
    if s.session.state = .held then { s.pit with marks := s.pit.marks.set e none }
    else {
      marks := s.pit.marks.set e (some time)
      holds := s.pit.holds.set e ((s.pit.holds[e] || (o.enforce && decide (throttle = 0))) &&
        decide (((stoodTransit e throttle time s).map fun x => x.stationary).getD 0 < o.amount * 100000)) }

/-- The state behind an entry's stationary time. -/
def stood (e : Entry) (throttle : Nat) (time : Ticks) (s : State) : State :=
  { s with
    contexts := s.contexts.set e { ctx s e with transit := stoodTransit e throttle time s }
    pit := stoodPit e throttle time s }

theorem stationaryStep_eq (e : Entry) (throttle : Nat) (time : Ticks) (s : State) :
    stationaryStep e throttle time s = stood e throttle time s :=
  stationary_spec e throttle time s

open Classical in
/-- A car's fuel level behind an entry (R180). -/
noncomputable def fuelLevel (e : Entry) (throttle out : Nat) (s : State) : Nat :=
  let burns : Prop := s.settings.fuel.cap ≠ 0 ∧
    (s.session.state = .green ∨ s.session.state = .caution ∨ s.session.state = .chequered)
  if ¬burns then (ctx s e).fuel else match (ctx s e).state with
    | .running => (ctx s e).fuel - out * (entryRow s e).weight
    | .offTrack => (ctx s e).fuel - out * (entryRow s e).weight
    | .inPit => if throttle = 0 then min s.settings.fuel.cap ((ctx s e).fuel + s.settings.fuel.refuel)
      else (ctx s e).fuel
    | _ => (ctx s e).fuel

/-- What an entry leaves of its car's fuel in the state `t`. -/
structure Fuelled (e : Entry) (level : Nat) (fuel : FuelState × Option FuelCondition) (time : Ticks) (s t : State) :
    Prop where
  lamp : LampKept s t
  silent : fuel.2 = none → groupSet .fuel t = groupSet .fuel s ∧ RecordsKept s t
  told : ∀ k, fuel.2 = some k → groupSet .fuel t = true ∧ Joined s t [⟨e.val + 1, time, .fuel k level⟩] ∧
    (s.link.records.length < 64 → Recorded t ⟨e.val + 1, time, .fuel k level⟩)

theorem fuelStep_fuelled (e : Entry) (throttle out : Nat) (time : Ticks) {s : State} (high : s.rstnLow = false) :
    let level := fuelLevel e throttle out s
    let fuel := fuelOutcome (ctx s e) s.settings.fuel.warn level
    Outputs 0xA0 { s with contexts := s.contexts.set e { ctx s e with fuel := level, fuelState := fuel.1 } }
      (fuelStep e throttle out time s) ∧ Fuelled e level fuel time s (fuelStep e throttle out time s) := by
  obtain ⟨out_, lamp, silent, told⟩ := fuel_spec e throttle out time s high
  exact ⟨out_, lamp, silent, told⟩

theorem fuelStep_stood (e : Entry) (throttle out : Nat) (time : Ticks) {s : State} (high : s.rstnLow = false) :
    let level := fuelLevel e throttle out s
    let fuel := fuelOutcome (ctx s e) s.settings.fuel.warn level
    let t := fuelStep e throttle out time (stood e throttle time s)
    Outputs 0xA0 { s with
      contexts := s.contexts.set e { ctx s e with
        transit := stoodTransit e throttle time s, fuel := level, fuelState := fuel.1 }
      pit := stoodPit e throttle time s } t ∧ Fuelled e level fuel time s t := by
  have own : ctx (stood e throttle time s) e = { ctx s e with transit := stoodTransit e throttle time s } :=
    get_set _ _ _
  have level_eq : fuelLevel e throttle out (stood e throttle time s) = fuelLevel e throttle out s := by
    unfold fuelLevel
    rw [own]
    rfl
  obtain ⟨outputs, ⟨lamp, silent, told⟩⟩ := fuelStep_fuelled e throttle out time (s := stood e throttle time s) high
  rw [level_eq, own] at outputs silent told
  refine ⟨?_, lamp, silent, told⟩
  have twice (c : Context) : (stood e throttle time s).contexts.set e c = s.contexts.set e c := Vector.set_set ..
  rw [twice] at outputs
  exact outputs

section
variable {s : State} {d : DriveEntry} {e : Entry}
  (mapped : ∀ f : Entry, (entryRow s f).controller = some d.first.toNat ↔ f = e)
include mapped

/-- An entry that is no jump start: it goes out under the rules as they stand, then counts and burns. -/
theorem editEntry_plain (high : s.rstnLow = false) (time : Ticks) (plain : ¬Jumps e d s) : ∃ out : Nat,
    Rewritten e d (entryRow s e).code (editEntry time d s).2 s out ∧
    let throttle : Nat := min 63 d.throttle.toNat
    let level := fuelLevel e throttle out s
    let fuel := fuelOutcome (ctx s e) s.settings.fuel.warn level
    Outputs 0xA0 { s with
      contexts := s.contexts.set e { ctx s e with
        transit := stoodTransit e throttle time s, fuel := level, fuelState := fuel.1 }
      pit := stoodPit e throttle time s } (editEntry time d s).1 ∧
    Fuelled e level fuel time s (editEntry time d s).1 := by
  refine ⟨min (incomingThrottle d) (ceiling s e), ?_⟩
  rw [editEntry_matched mapped, editMatched]
  dsimp only
  rw [jumpWatch_passes plain, stationaryStep_eq]
  exact ⟨rewritten_ceiling e d s, fuelStep_stood e _ _ time high⟩

end

/-! The charge of a jump start (R145, R179). -/

/-- The context that a jump start marks. -/
def jumped (c : Context) : Context := { c with jumpFlagged := true }

/-- The state behind the charge of a jump start. -/
def charged (e : Entry) (time : Ticks) (s : State) : State :=
  incident e .jumpStart time (struck e (jumped (ctx s e)) none s)

section
variable {s : State} {e : Entry} (time : Ticks) (grid : (ctx s e).state = .grid)
include grid

theorem takes_jumped : takesIncidents (ctx (struck e (jumped (ctx s e)) none s) e).state = true := by
  rw [ctx_struck, jumped, grid]
  rfl

variable (high : s.rstnLow = false) (countdown : s.session.state = .countdown)
include countdown

theorem state_charged : (ctx (charged e time s) e).state ≠ .inPit := by
  have state : (ctx (struck e (jumped (ctx s e)) none s) e).state = .grid :=
    (congrArg Context.state (ctx_struck e _ none s)).trans grid
  have open_ : (struck e (jumped (ctx s e)) none s).session.state ≠ .chequered :=
    fun h => nomatch countdown.symm.trans h
  rcases incident_state e .jumpStart time (struck e (jumped (ctx s e)) none s) open_ with h | h
  · exact fun pit => nomatch (pit.symm.trans h).trans state
  · exact fun pit => nomatch pit.symm.trans h

open Classical in
theorem charged_emits
    (fair : FlagsCar (judged s .jumpStart (jumped (ctx s e))).2 → (ctx s e).disqualified = false) :
    let p := judged s .jumpStart (jumped (ctx s e))
    Emits 0x88 1 (struck e p.1 (if FlagsCar p.2 then some (ruleOf s .jumpStart).enforce else none) s)
      (charged e time s) [⟨e.val + 1, time, .call p.2⟩] := by
  have own := ctx_struck e (jumped (ctx s e)) none s
  obtain ⟨a, call, plain, flagged, -⟩ := incident_spec e .jumpStart time (struck e (jumped (ctx s e)) none s)
    (takes_jumped grid) (by rw [own]; exact fair)
  rw [own, struck_struck] at plain flagged
  have emits : Emits 0x88 1 (struck e (judged s .jumpStart (jumped (ctx s e))).1
      (if FlagsCar (judged s .jumpStart (jumped (ctx s e))).2 then some (ruleOf s .jumpStart).enforce else none) s) a
      [⟨e.val + 1, time, .call (judged s .jumpStart (jumped (ctx s e))).2⟩] := by
    split
    · next flag => exact flagged flag
    · next flag => exact plain flag
  have stays : closeTest a = a := by
    refine closeTest_stay (.inl ?_)
    rw [outputs_session emits.out, struck_session, countdown]
    decide
  have charged_eq : charged e time s = a := by
    rw [charged, incident, call, stays, ite_self]
  rw [charged_eq]
  exact emits

include high

theorem charged_called :
    Called s (charged e time s) e time (judged s .jumpStart (jumped (ctx s e))).2 ∧
    (charged e time s).session = s.session := by
  have called := incident_called e .jumpStart time (struck e (jumped (ctx s e)) none s) (takes_jumped grid) high
    fun h => nomatch countdown.symm.trans h
  rw [ctx_struck] at called
  exact called

end

section
variable {s : State} {d : DriveEntry} {e : Entry} (high : s.rstnLow = false) (time : Ticks) (jumps : Jumps e d s)
include high jumps

theorem editMatched_charged : ∃ out : Nat, (editMatched e d time s).1 = charged e time s ∧
    Rewritten e d (entryRow s e).code (some (editMatched e d time s).2) (charged e time s) out := by
  obtain ⟨countdown, -, grid, -, -⟩ := id jumps
  have row : entryRow (charged e time s) e = entryRow s e := by
    rw [entryRow, charged, (keeps_incident e .jumpStart time _).throttle]
    rfl
  have stop : servingStop (ctx (charged e time s) e) = none := if_neg (state_charged time grid countdown)
  have still (throttle : Nat) : stationaryStep e throttle time (charged e time s) = charged e time s := by
    rw [stationaryStep, stop]
  have dry (throttle out : Nat) : fuelStep e throttle out time (charged e time s) = charged e time s := by
    refine if_neg ?_
    rw [(charged_called time grid high countdown).2, countdown]
    simp [fuelSession]
  refine ⟨min (incomingThrottle d) (ceiling (charged e time s) e), ?_⟩
  have watch : jumpWatch e (incomingThrottle d) time s = charged e time s := jumpWatch_charges jumps time
  rw [editMatched]
  dsimp only
  rw [watch, still, dry, ← row]
  exact ⟨rfl, rewritten_ceiling e d _⟩

end

/-- Settles O56: the frame's entries one by one, then the drive queue. -/
theorem driveFrameResult : Obligations.DriveFrameResult := by
  intro s time high
  refine ⟨fun es some_ most => ?_, fun d unmapped => ⟨fun lockout idle closed => ?_, fun free => ?_⟩,
    fun d e mapped => ?_⟩
  · intro r queue
    have edited : r = editEntries time es (received .station s) := editEntries_fold time es (received .station s) []
    have low : r.1.rstnLow = false := by
      rw [edited, (keeps_editEntries time es (received .station s)).rstnLow]
      exact high
    have frame : editFrame es time (received .station s) = if r.2.isEmpty then r.1 else offerDrive r.2 r.1 := by
      rw [edited, editFrame]
    refine ⟨settle (editFrame es time (received .station s)), exec_driveFrame high some_ most time, ?_⟩
    rw [frame]
    by_cases none_left : r.2 = []
    · rw [if_pos (List.isEmpty_iff.2 none_left)]
      have quiet := quiet_settle r.1
      exact ⟨quiet.records, quiet.lamp, fun _ => quiet.outputs, (absurd none_left ·)⟩
    · rw [if_neg (mt List.isEmpty_iff.1 none_left)]
      obtain ⟨records, lamp, stands, room, full⟩ := offerDrive_offered r.2 low
      exact ⟨records, lamp, (absurd · none_left), fun _ => ⟨stands, room, full⟩⟩
  · exact editEntry_removed unmapped time lockout idle closed
  · exact editEntry_passes unmapped time free
  · refine ⟨fun plain => ?_, fun jumps => ?_⟩
    · obtain ⟨out, rewritten, outputs, ⟨lamp, silent, told⟩⟩ := editEntry_plain mapped high time plain
      exact ⟨out, rewritten, outputs, lamp, silent, told⟩
    · obtain ⟨countdown, -, grid, -, -⟩ := id jumps
      obtain ⟨out, after, rewritten⟩ := editMatched_charged (d := d) high time jumps
      rw [editEntry_matched mapped]
      dsimp only
      rw [after]
      have called := (charged_called time grid high countdown).1
      have emits := charged_emits time grid countdown
      refine ⟨fun plain => ?_, fun flag fair => ?_, fun fair => ⟨?_, ?_⟩, called, out, rewritten⟩
      · have := (emits (absurd · plain)).out
        rw [if_neg (show ¬FlagsCar (judged s .jumpStart (jumped (ctx s e))).2 from plain)] at this
        exact this
      · have := (emits fun _ => fair).out
        rw [if_pos (show FlagsCar (judged s .jumpStart (jumped (ctx s e))).2 from flag)] at this
        exact this
      · have := (emits fair).lamp
        rw [LampKept, struck_link] at this
        exact this
      · intro busy room
        have := ((emits fair).queue ((struck_rstnLow _ _ _ s).trans high) (by rw [struck_link]; exact busy)
          (by rw [struck_link]; exact room)).1
        rw [struck_link] at this
        exact this

end Sys2Proof.Proofs.DriveFrames

/-! ### Proofs: the path of one report

Strays, the holdoff and the order check (R46 to R51, R56, R57, R60), and the pair step (R52 to R55). -/

namespace Sys2Proof.Proofs.CrossingPath

open Sys2Proof Machine Safety

/-! #### The copy on its way up (R45) -/

/-- The part behind the mirror step of a report. -/
def behindMirror (s : State) (g : GateId) (code : Byte) (count : Count) : State :=
  mirror (xingFrame (BitVec.ofNat 8 (g.val + 1)) code count) (received .track s)

section
variable {s : State} {g : GateId} {code : Byte} {count : Count} (high : s.rstnLow = false)

theorem mirrored_stationTx : (mirrored s g code count).link.stationTx = s.link.stationTx := by
  unfold mirrored; split <;> rfl

theorem mirrored_trackTx : (mirrored s g code count).link.trackTx = s.link.trackTx := by
  unfold mirrored; split <;> rfl

theorem mirrored_lamp : (mirrored s g code count).link.lamp = s.link.lamp := by
  unfold mirrored; split <;> rfl

theorem mirrored_records : (mirrored s g code count).link.records = s.link.records := by
  unfold mirrored; split <;> rfl

theorem mirrored_rstnLow : (mirrored s g code count).rstnLow = s.rstnLow := (sameAs_mirrored s g code count).rstnLow

theorem lampKept_of_mirrored {t : State} (h : LampKept (mirrored s g code count) t) : LampKept s t := by
  rw [LampKept, mirrored_trackTx, mirrored_lamp] at h
  exact h

include high

theorem emits_behindMirror : Emits 1 0 (mirrored s g code count) (behindMirror s g code count) [] :=
  (emits_mirror s g code count high).1

theorem recordsKept_behindMirror : RecordsKept s (behindMirror s g code count) := (emits_mirror s g code count high).2

theorem sameAs_behindMirror : SameAs s (behindMirror s g code count) :=
  sameAs_outputs (sameAs_mirrored s g code count) (emits_behindMirror high).out

theorem exec_resolves (readable : code.toNat ≤ 15 ∨ code.toNat = 31) {arrival : Ticks} {v : State}
    (work : resolveReport g code count arrival (behindMirror s g code count) = v) :
    exec (.xingReceived (BitVec.ofNat 8 (g.val + 1)) code count arrival) s = .next (settle v) :=
  work ▸ exec_xingReceived s g code count arrival high readable

/-! #### Reports that are strayed or dropped (R56, R60) -/

/-- A report is strayed: LINK aside, nothing but its STRAY record comes of it. -/
def Strayed (s : State) (c : Instr) (g : GateId) (code : Byte) (count : Count) (reason : StrayReason) (time : Ticks) :
    Prop :=
  ∃ t, exec c s = .next t ∧ Outputs 0x85 (mirrored s g code count) t ∧ groupSet .stray t = true ∧ LampKept s t ∧
    Joined s t [⟨g.val + 1, time, .stray code reason⟩] ∧
    (s.link.records.length < 64 → Recorded t ⟨g.val + 1, time, .stray code reason⟩)

theorem strays (readable : code.toNat ≤ 15 ∨ code.toNat = 31) {arrival time : Ticks} {reason : StrayReason}
    (work : resolveReport g code count arrival (behindMirror s g code count) =
      stray (g.val + 1) time code reason (behindMirror s g code count)) :
    Strayed s (.xingReceived (BitVec.ofNat 8 (g.val + 1)) code count arrival) g code count reason time := by
  have emits := emits_trans (emits_mono (g' := 0x85) (emits_behindMirror (g := g) (code := code) (count := count) high)
    (by decide)) (emits_mono (g' := 0x85) (emits_trans (emits_stray (g.val + 1) time code reason _)
    (emits_settle 0x84 _)) (by decide))
  have group : groupSet .stray (settle (stray (g.val + 1) time code reason (behindMirror s g code count))) = true :=
    groupSet_mono (groupSet_setGroup .stray _) (quiet_settle _).outputs.kept
  have low : (mirrored s g code count).rstnLow = false := mirrored_rstnLow.trans high
  refine ⟨_, exec_resolves high readable work, emits.out, group, lampKept_of_mirrored emits.lamp, fun busy room => ?_,
    fun room => (emits.room low (by rw [mirrored_records]; omega)).2 _ (.head _)⟩
  rw [← mirrored_stationTx (g := g) (code := code) (count := count)] at busy
  have queue := (emits.queue low busy (by rw [mirrored_records]; exact room)).1
  rw [mirrored_records] at queue
  exact queue

/-- A report that changes nothing leaves its copy alone behind it. -/
theorem drops : let t := settle (behindMirror s g code count)
    Outputs 0x01 (mirrored s g code count) t ∧ RecordsKept s t ∧ LampKept s t := by
  have emits := emits_behindMirror (g := g) (code := code) (count := count) high
  have quiet := quiet_settle (behindMirror s g code count)
  exact ⟨outputs_trans emits.out (outputs_zero quiet.outputs),
    drawn_trans (recordsKept_behindMirror high) quiet.records,
    lampKept_of_mirrored (drawn_trans emits.lamp quiet.lamp)⟩

end

/-! #### Checks and identity (R46 to R51) -/

section
variable {s m : State} {g : GateId} {code : Byte} {count : Count} {arrival : Ticks} (same : SameAs s m)

theorem gateCheck_unused (unused : GateUnused s g) : gateCheck s g = some .gateUnused := if_pos unused

theorem gateCheck_laneOff (used : ¬GateUnused s g) (off : ¬LaneOn s g) : gateCheck s g = some .laneOff :=
  (if_neg used).trans (if_pos (by rw [Bool.not_eq_true', Bool.eq_false_iff]; exact mt (laneOn_iff s g).1 off))

theorem gateCheck_notInHeat (used : ¬GateUnused s g) (on : LaneOn s g)
    (rests : s.session.state = .idle ∨ s.session.state = .closed) : gateCheck s g = some .notInHeat :=
  (if_neg used).trans ((if_neg (by rw [(laneOn_iff s g).2 on]; decide)).trans (if_pos rests))

theorem identify_unknown {time : Ticks} (readable : code.toNat ≤ 15)
    (unknown : ∀ e : Entry, (entryRow s e).controller ≠ none → (entryRow s e).code ≠ code) :
    identify s g code time = .inr .unknownCar := by
  have nobody : entryWithCode s code = none := by
    rw [entryWithCode, List.find?_eq_none]
    intro e _ both
    obtain ⟨mapped, holds⟩ := Bool.and_eq_true_iff.1 both
    exact unknown e (Option.isSome_iff_ne_none.1 mapped) (beq_iff_eq.1 holds)
  rw [identify, if_neg (by rw [unreadable_iff]; omega), nobody]

theorem identify_unattributed {time : Ticks} (unread : code.toNat = 31) (alone : NoPartner s g)
    (open_ : ∀ e : Entry, ∃ f : Entry, ¬(Candidate s g time f ↔ f = e)) :
    identify s g code time = .inr .unattributed := by
  rw [identify, if_pos ((unreadable_iff code).2 unread), partnerPair_none alone]
  dsimp only
  split
  · next e one =>
    obtain ⟨f, differs⟩ := open_ e
    exact absurd (by rw [← mem_candidates, one, List.mem_singleton]) differs
  · rfl

include same

theorem resolve_unchecked {reason : StrayReason} (check : gateCheck s g = some reason) :
    resolveReport g code count arrival m = stray (g.val + 1) arrival code reason m := by
  rw [resolveReport, same_gateCheck same, check]
  rfl

variable (check : gateCheck s g = none)
include check

theorem resolve_nobody {reason : StrayReason}
    (nobody : identify s g code (converted s g count arrival).1 = .inr reason) :
    resolveReport g code count arrival m = stray (g.val + 1) (converted s g count arrival).1 code reason m := by
  rw [resolveReport, same_gateCheck same, check]
  dsimp only
  rw [same_convert same, convert_eq, same_identify same, nobody]
  rfl

theorem resolve_identified {e : Entry} {inferred : Bool}
    (who : identify m g code (converted s g count arrival).1 = .inl (e, inferred)) :
    resolveReport g code count arrival m = pairStep g (singleReport s g code count arrival e inferred) m := by
  rw [resolveReport, same_gateCheck same, check]
  dsimp only
  rw [same_convert same, convert_eq, who]
  dsimp only
  rw [reportOf, same_gate same]
  rfl

end

/-! #### Single reports (R56, R57) -/

section
variable {s m : State} {g : GateId} {code : Byte} {count : Count} {arrival : Ticks} {e : Entry} {inferred : Bool}

/-- A report in the holdoff of the last accepted crossing at its place (R56). -/
def InHoldoff (s : State) (g : GateId) (time : Ticks) (c : Context) : Prop :=
  ∃ l, c.last = some l ∧ SamePlace s g l ∧ time < l.time + s.settings.timing.lineHoldoff

theorem heldOff_iff_inHoldoff {u : State} (settings : u.settings = s.settings) :
    heldOff u (singleReport s g code count arrival e inferred) = true ↔
      InHoldoff s g (converted s g count arrival).1 (ctx u e) := by
  unfold heldOff InHoldoff
  rw [settings]
  show (match (ctx u e).last with | none => false | some l => _) = true ↔ _
  cases (ctx u e).last with
  | none => simp
  | some l =>
    have place := samePlace_iff (⟨rfl, rfl, rfl, rfl, rfl, rfl, rfl, rfl, rfl, rfl, rfl⟩ : SameAs s s) g
      (singleReport s g code count arrival e inferred) l rfl rfl
    dsimp only
    rw [Bool.and_eq_true, place, decide_eq_true_iff]
    exact ⟨fun h => ⟨l, rfl, h⟩, fun ⟨_, last, h⟩ => Option.some.inj last ▸ h⟩

variable (same : SameAs s m)
include same

theorem deliver_held {l : LastCrossing} (last : (ctx s e).last = some l) (place : SamePlace s g l)
    (soon : (converted s g count arrival).1 < l.time + s.settings.timing.lineHoldoff) :
    deliver (singleReport s g code count arrival e inferred) m = m := by
  rw [deliver_eq same, if_pos ((heldOff_iff same ..).2 ⟨l, last, place, soon⟩)]

theorem deliver_late {l : LastCrossing} (last : (ctx s e).last = some l) (place : ¬SamePlace s g l)
    (late : (converted s g count arrival).1 ≤ l.time) :
    deliver (singleReport s g code count arrival e inferred) m =
      stray (g.val + 1) (converted s g count arrival).1 code .order m := by
  have clear : ¬heldOff m (singleReport s g code count arrival e inferred) = true := fun h => by
    obtain ⟨k, last', place', -⟩ := (heldOff_iff same ..).1 h
    cases last.symm.trans last'
    exact place place'
  rw [deliver_eq same, if_neg clear, if_pos ((outOfOrder_iff same ..).2 ⟨l, last, late⟩)]

end

/-! #### Reports of a paired line-lane (R52 to R55) -/

theorem outputs_withResolver {b : Byte} {s t : State} (h : Outputs b s t) (r : Resolver) :
    Outputs b { s with resolver := r } { t with resolver := r } :=
  ⟨h.link, h.clock, h.beacon, h.kept, h.only, congrArg (fun z : State => { z with resolver := r }) h.rest⟩

theorem unpairedRaised_congr {s m : State} (gates : m.clock.gates = s.clock.gates) {p : PendingPair}
    {table : Vector GateSlot 32} (h : UnpairedRaised m p table) : UnpairedRaised s p table := by
  have slot (k : GateId) : gate m k = gate s k := by rw [gate, gate, gates]
  have silent (k : GateId) : Silent m p k ↔ Silent s p k := by rw [Silent, Silent, slot]
  obtain ⟨one, no⟩ := h
  refine ⟨fun k quiet only => ?_, fun noisy => ?_⟩
  · rw [one k ((silent k).2 quiet) fun h quiet' => only h ((silent h).1 quiet'), slot, gates]
  · rw [no fun k => mt (silent k).1 (noisy k), gates]

/-- The state with the pairs of `s` and more. -/
def withPairs (s : State) (more : List PendingPair) (m : State) : State :=
  { m with resolver := { s.resolver with pairs := s.resolver.pairs ++ more } }

theorem opens_quietly {s : State} {g : GateId} {code : Byte} {count : Count} (high : s.rstnLow = false)
    (more : List PendingPair) : let t := settle (withPairs s more (behindMirror s g code count))
    Outputs 0x01 (withPairs s more (mirrored s g code count)) t ∧ RecordsKept s t ∧ LampKept s t := by
  have emits := emits_behindMirror (g := g) (code := code) (count := count) high
  have quiet := quiet_settle (withPairs s more (behindMirror s g code count))
  exact ⟨outputs_trans (outputs_withResolver emits.out _) (outputs_zero quiet.outputs),
    drawn_trans (recordsKept_behindMirror high) quiet.records,
    lampKept_of_mirrored (drawn_trans emits.lamp quiet.lamp)⟩

section
variable {s m : State} {g : GateId} {code : Byte} {count : Count} {arrival : Ticks} {e : Entry} {inferred : Bool}

/-- A pair is of the line-lane of a gate. -/
def Here (s : State) (g : GateId) (p : PendingPair) : Prop := p.line = (gate s g).line ∧ p.lane = (gate s g).lane

/-- The pair that a report opens (R53). -/
def openedPair (s : State) (g : GateId) (code : Byte) (count : Count) (arrival : Ticks) (e : Entry)
    (inferred : Bool) : PendingPair :=
  ⟨e, code, (gate s g).line, (gate s g).lane, g, (converted s g count arrival).1, arrival,
    (converted s g count arrival).2, inferred, arrival + s.settings.timing.pairWindow + s.settings.timing.lagMax⟩

/-- A pair is opened, unless the report is in its holdoff (R53). -/
theorem openPair_opens {u : State} (settings : u.settings = s.settings) :
    openPair g (singleReport s g code count arrival e inferred) u =
      if heldOff u (singleReport s g code count arrival e inferred) then u
      else { u with resolver := { u.resolver with
        pairs := u.resolver.pairs ++ [openedPair s g code count arrival e inferred] } } := by
  have window := converted_window s g count arrival
  rw [openPair_eq _ _ _ (deliveryWindow_id u _ window.1 (by rw [settings]; exact window.2)), settings]
  rfl

variable (same : SameAs s m)
include same

theorem pairAt_other (shape : PairsShape s) :
    ((pairAt m (gate s g).line (gate s g).lane).any fun p => p.entry != e) = true ↔
      ∃ p ∈ s.resolver.pairs, Here s g p ∧ p.entry ≠ e := by
  constructor
  · intro h
    rw [Option.any_eq_true] at h
    obtain ⟨p, found, other⟩ := h
    rw [pairAt, same.resolver] at found
    have place := List.find?_some found
    obtain ⟨line, lane⟩ := Bool.and_eq_true_iff.1 place
    exact ⟨p, List.mem_of_find?_eq_some found, ⟨beq_iff_eq.1 line, beq_iff_eq.1 lane⟩, bne_iff_ne.1 other⟩
  · rintro ⟨p, held, ⟨line, lane⟩, other⟩
    rw [pairAt_some same.resolver shape held line lane]
    exact bne_iff_ne.2 other

theorem not_pairAt_other (shape : PairsShape s) (own : ∀ p ∈ s.resolver.pairs, Here s g p → p.entry = e) :
    ¬((pairAt m (gate s g).line (gate s g).lane).any fun p => p.entry != e) = true := fun h => by
  obtain ⟨p, held, here, other⟩ := (pairAt_other same shape).1 h
  exact other (own p held here)

variable (line : (gate s g).role = .line) (paired : PairedPlace s (gate s g).line (gate s g).lane)
  (shape : PairsShape s)
include line paired shape

/-- Another entry's pair stands at the line-lane: the report goes on singly (R53). -/
theorem pairStep_other (other : ∃ p ∈ s.resolver.pairs, Here s g p ∧ p.entry ≠ e) :
    pairStep g (singleReport s g code count arrival e inferred) m =
      deliver (singleReport s g code count arrival e inferred) m := by
  rw [pairStep_paired same (x := singleReport s g code count arrival e inferred) line paired]
  exact if_pos ((pairAt_other same shape).2 other)

variable (own : ∀ p ∈ s.resolver.pairs, Here s g p → p.entry = e)
include own

/-- The entry holds no pair: the report opens one (R53). -/
theorem pairStep_opens (free : ∀ p ∈ s.resolver.pairs, p.entry ≠ e) :
    pairStep g (singleReport s g code count arrival e inferred) m =
      openPair g (singleReport s g code count arrival e inferred) m := by
  rw [pairStep_paired same (x := singleReport s g code count arrival e inferred) line paired]
  refine (if_neg (not_pairAt_other same shape own)).trans ?_
  rw [pairOf_none (e := (singleReport s g code count arrival e inferred).entry) same.resolver free]

variable {p : PendingPair} (held : p ∈ s.resolver.pairs) (owner : p.entry = e)
include held owner

/-- The entry's pair is held from the other gate of the line-lane: the report is its partner (R54). -/
theorem pairStep_partner (here : Here s g p) (across : p.gate ≠ g) :
    pairStep g (singleReport s g code count arrival e inferred) m =
      partnerArrives p (singleReport s g code count arrival e inferred) m := by
  rw [pairStep_paired same (x := singleReport s g code count arrival e inferred) line paired]
  refine (if_neg (not_pairAt_other same shape own)).trans ?_
  rw [pairOf_some (e := (singleReport s g code count arrival e inferred).entry) same.resolver shape held owner]
  exact if_pos ⟨here.1, here.2, across⟩

/-- The entry's pair is held elsewhere: it is released first (R53). -/
theorem pairStep_releases (elsewhere : ¬(Here s g p ∧ p.gate ≠ g)) :
    pairStep g (singleReport s g code count arrival e inferred) m =
      openPair g (singleReport s g code count arrival e inferred) (releasePair p m) := by
  rw [pairStep_paired same (x := singleReport s g code count arrival e inferred) line paired]
  refine (if_neg (not_pairAt_other same shape own)).trans ?_
  rw [pairOf_some (e := (singleReport s g code count arrival e inferred).entry) same.resolver shape held owner]
  exact if_neg fun h => elsewhere ⟨⟨h.1, h.2.1⟩, h.2.2⟩

end

/-! The partner report: a merge, or the held report alone in front of it (R54). -/

section
variable {s m : State} {g : GateId} {code : Byte} {count : Count} {arrival : Ticks} {e : Entry} {inferred : Bool}
  (same : SameAs s m) (p : PendingPair)
include same

/-- The two reports of a pair merge (R54). -/
def Merges (s : State) (time : Ticks) (e : Entry) (p : PendingPair) : Prop :=
  time ≤ p.time + s.settings.timing.pairWindow ∧ p.time ≤ time + s.settings.timing.pairWindow ∧
  ∀ l, (ctx s e).last = some l → l.time < time

theorem canMerge_iff : canMerge m p (singleReport s g code count arrival e inferred) = true ↔
    Merges s (converted s g count arrival).1 e p := by
  have order : outOfOrder m (singleReport s g code count arrival e inferred) = false ↔
      ∀ l, (ctx s e).last = some l → l.time < (converted s g count arrival).1 := by
    rw [← Bool.not_eq_true, outOfOrder_iff same]
    simp only [not_exists, not_and, Nat.not_le]
  rw [canMerge, Bool.and_eq_true, Bool.and_eq_true, Bool.not_eq_true', order, decide_eq_true_iff, decide_eq_true_iff,
    same.settings, and_assoc]
  rfl

theorem partnerArrives_alone (apart : ¬Merges s (converted s g count arrival).1 e p) :
    partnerArrives p (singleReport s g code count arrival e inferred) m =
      deliver (singleReport s g code count arrival e inferred) (deliver (heldAlone p) (unpaired p m)) :=
  if_neg (mt (canMerge_iff same p).1 apart)

theorem lineGate_primary {line : Line} {lane : Nat} {h : GateId}
    (only : ∀ k : GateId, ((gate s k).role = .line ∧ (gate s k).line = line ∧ (gate s k).lane = lane ∧
      (gate s k).position = .primary) ↔ k = h) : lineGate m line lane .primary = some h := by
  have slot (k : GateId) : ((gate m k).role == .line && (gate m k).line == line && (gate m k).lane == lane &&
      (gate m k).position == .primary) = true ↔ k = h := by
    rw [← only k, same_gate same]
    simp only [Bool.and_eq_true, beq_iff_eq, and_assoc]
  exact find_unique ((slot h).2 rfl) fun k => (slot k).1

theorem partnerArrives_merges (line : (gate s g).role = .line) (here : Here s g p) (owner : p.entry = e)
    (merges : Merges s (converted s g count arrival).1 e p) {h : GateId}
    (only : ∀ k : GateId, ((gate s k).role = .line ∧ (gate s k).line = (gate s g).line ∧
      (gate s k).lane = (gate s g).lane ∧ (gate s k).position = .primary) ↔ k = h) :
    partnerArrives p (singleReport s g code count arrival e inferred) m =
      deliver { singleReport s g code count arrival e inferred with
        code := codeOfMerge p.code code
        time := (p.time + (converted s g count arrival).1) / 2
        gate := h.val + 1
        lowConf := p.lowConf || (singleReport s g code count arrival e inferred).lowConf
        inferred := p.inferred || inferred } (unpaired p m) := by
  have merged : mergedReport m p (singleReport s g code count arrival e inferred) =
      { singleReport s g code count arrival e inferred with
        code := codeOfMerge p.code code
        time := (p.time + (converted s g count arrival).1) / 2
        gate := h.val + 1
        lowConf := p.lowConf || (singleReport s g code count arrival e inferred).lowConf
        inferred := p.inferred || inferred } := by
    rw [mergedReport, here.1, here.2, owner, lineGate_primary same only, singleReport, line]
    rfl
  rw [← merged]
  exact if_pos ((canMerge_iff same p).2 merges)

end

/-- Settles O57: each turn of the path by its check, then the pair step by the pairs that are held. -/
theorem crossingsAreStrayed : Obligations.CrossingsAreStrayed := by
  intro s g code count arrival high readable c time strayed heat
  have same : SameAs s (behindMirror s g code count) := sameAs_behindMirror high
  refine ⟨fun unused => strays high readable (resolve_unchecked same (gateCheck_unused unused)),
    fun used off => strays high readable (resolve_unchecked same (gateCheck_laneOff used off)),
    fun used on rests => strays high readable (resolve_unchecked same (gateCheck_notInHeat used on ?_)),
    fun used on races => ?_⟩
  · exact or_iff_not_and_not.2 rests
  have check : gateCheck s g = none := gateCheck_none used on races
  refine ⟨fun known unknown => strays high readable (resolve_nobody same check (identify_unknown known unknown)),
    fun unread alone open_ =>
      strays high readable (resolve_nobody same check (identify_unattributed unread alone open_)),
    fun e inferred l who single last => ?_, fun e inferred line paired shape => ?_⟩
  · have path := resolveReport_eq same used on races who single
    refine ⟨fun place soon => ?_,
      fun place late => strays high readable (path.trans (deliver_late same last place late))⟩
    exact ⟨_, exec_resolves high readable (path.trans (deliver_held same last place soon)), drops high⟩
  · intro here who x m pair held
    have path : resolveReport g code count arrival m = pairStep g x m := by
      refine resolve_identified same check ?_
      rcases who with who | ⟨unread, rfl, p, stands, ⟨line', lane'⟩, across, rfl⟩
      · rw [same_identify same, identify_attributed who]
      · exact identify_partner same shape _ code unread line stands line' lane' across
    have takes {v : State} (work : pairStep g x m = v) : exec c s = .next (settle v) :=
      exec_resolves high readable (path.trans work)
    refine ⟨fun other => takes (pairStep_other same line paired shape other), fun own => ⟨fun free => ?_,
      fun p stands owner here across => ?_, fun p stands owner elsewhere => ?_⟩⟩
    · have opens : pairStep g x m = if heldOff m x then m else withPairs s [pair] m :=
        (pairStep_opens same line paired shape own free).trans
          ((openPair_opens same.settings).trans (by rw [withPairs, same.resolver]; rfl))
      by_cases soon : held (ctx s e)
      · have off : heldOff m x = true := (heldOff_iff_inHoldoff same.settings).2 (by rw [same_ctx same]; exact soon)
        obtain ⟨outputs, records, lamp⟩ := drops (g := g) (code := code) (count := count) high
        exact ⟨_, takes (opens.trans (if_pos off)), records, lamp, fun _ => outputs, (absurd soon ·)⟩
      · have clear : ¬heldOff m x = true := fun off => soon (by
          have := (heldOff_iff_inHoldoff same.settings).1 off
          rw [same_ctx same] at this
          exact this)
        obtain ⟨outputs, records, lamp⟩ := opens_quietly (g := g) (code := code) (count := count) high [pair]
        exact ⟨_, takes (opens.trans (if_neg clear)), records, lamp, (absurd · soon), fun _ => outputs⟩
    · refine ⟨fun merges h only => takes ?_, fun apart => takes ?_⟩
      · exact (pairStep_partner same line paired shape own stands owner here across).trans
          (partnerArrives_merges same p line here owner merges only)
      · exact (pairStep_partner same line paired shape own stands owner here across).trans
          (partnerArrives_alone same p apart)
    · obtain ⟨gates, raised, released⟩ := releasePair_eq p m
      refine ⟨gates, unpairedRaised_congr same.gates raised, ?_⟩
      intro u
      have settings : u.settings = s.settings := ((keeps_deliver _ _).settings).trans same.settings
      have opens : pairStep g x m = if heldOff u x then u
          else { u with resolver := { u.resolver with pairs := u.resolver.pairs ++ [pair] } } :=
        (pairStep_releases same line paired shape own stands owner elsewhere).trans
          ((congrArg (openPair g x) released).trans (openPair_opens settings))
      exact ⟨fun soon => takes (opens.trans (if_pos ((heldOff_iff_inHoldoff settings).2 soon))),
        fun later => takes (opens.trans (if_neg (mt (heldOff_iff_inHoldoff settings).1 later)))⟩

end Sys2Proof.Proofs.CrossingPath

/-! ### Proofs: timed crossings

What the part's own clocks bring: pair deadlines (R55), drill crossings (R63 to R66), overdue expiries (R88). -/

namespace Sys2Proof.Proofs.TimedCrossings

open Sys2Proof Machine Safety DirectorCalls

/-! #### Deliveries (R56, R57, R70) -/

section
variable {x : Report} {s : State} {l : LastCrossing} (last : (ctx s x.entry).last = some l)
include last

theorem deliver_inHoldoff (place : samePlace (deliveryWindow s x) l = true)
    (soon : (deliveryWindow s x).time < l.time + s.settings.timing.lineHoldoff) : deliver x s = s := by
  have held : heldOff s (deliveryWindow s x) = true := by
    have own : (ctx s (deliveryWindow s x).entry).last = some l := last
    rw [heldOff, own]
    exact Bool.and_eq_true_iff.2 ⟨place, decide_eq_true soon⟩
  exact if_pos held

theorem deliver_accepted (clear : samePlace (deliveryWindow s x) l = true →
    l.time + s.settings.timing.lineHoldoff ≤ (deliveryWindow s x).time)
    (later : l.time < (deliveryWindow s x).time) :
    deliver x s = acceptCrossing (deliveryWindow s x) s := by
  have own : (ctx s (deliveryWindow s x).entry).last = some l := last
  have free : ¬heldOff s (deliveryWindow s x) = true := by
    rw [heldOff, own]
    intro both
    obtain ⟨place, soon⟩ := Bool.and_eq_true_iff.1 both
    exact Nat.not_lt.2 (clear place) (of_decide_eq_true soon)
  have ordered : ¬outOfOrder s (deliveryWindow s x) = true := by
    rw [outOfOrder, own]
    exact fun late => Nat.not_le.2 later (of_decide_eq_true late)
  exact (if_neg free).trans (if_neg ordered)

end

theorem deliver_first {x : Report} {s : State} (first : (ctx s x.entry).last = none) :
    deliver x s = acceptCrossing (deliveryWindow s x) s := by
  have own : (ctx s (deliveryWindow s x).entry).last = none := first
  have free : ¬heldOff s (deliveryWindow s x) = true := by rw [heldOff, own]; exact Bool.false_ne_true
  have ordered : ¬outOfOrder s (deliveryWindow s x) = true := by rw [outOfOrder, own]; exact Bool.false_ne_true
  exact (if_neg free).trans (if_neg ordered)

theorem acceptCrossing_done {x : Report} {s : State}
    (done : (ctx s x.entry).state = .finished ∨ (ctx s x.entry).state = .retired) :
    acceptCrossing x s = recordLast x s := by
  unfold acceptCrossing
  rcases done with h | h <;> rw [h]

theorem samePlace_line {x : Report} (line : x.role = .line) (l : LastCrossing) :
    samePlace x l = true ↔ l.role = .line ∧ l.line = x.line := by
  have entry : (GateRole.line == GateRole.pitEntry) = false := rfl
  have exit : (GateRole.line == GateRole.pitExit) = false := rfl
  rw [samePlace, line, entry, exit]
  simp only [Bool.false_and, Bool.or_false, beq_self_eq_true, Bool.true_and, Bool.and_eq_true, beq_iff_eq]
  exact and_congr_right fun _ => eq_comm

/-! #### Records that have gone out -/

/-- Records emitted from a state whose link unit is that of `s`. -/
theorem told_of_emits {g : Byte} {s B T : State} {e : Entry} {time : Ticks} {l : List RecordBody}
    (emits : Emits g l.length B T (recordsOf e time l)) (link : B.link = s.link) (high : B.rstnLow = false)
    (call : groupSet .call T = (l.any (asksCall s) || groupSet .call s)) : Told s (settle T) e time l := by
  have quiet := quiet_settle T
  refine ⟨?_, fun room b member => ?_, fun busy room => ?_, ?_⟩
  · rw [groupSet_outputs quiet.outputs (by simp), call]
  · exact recorded_quiet quiet ((emits.room high (by rw [link]; exact room)).2 _ (List.mem_map_of_mem member))
  · rw [List.length_map] at room
    obtain ⟨records, tx⟩ := emits.queue high (by rw [link]; exact busy) (by rw [link]; exact room)
    rw [quiet.records.kept (by rw [tx, link]; exact busy), records, link]
    rfl
  · have lamp : Drawn _ _ B.link.trackTx _ B.link.lamp.toList _ := drawn_trans emits.lamp quiet.lamp
    rw [link] at lamp
    exact lamp

/-- The place of a group's bit in the event summary (R189). -/
def groupIndex : Group → Nat
  | .link => 0
  | .gate => 1
  | .stray => 2
  | .call => 3
  | .marshal => 4
  | .fuel => 5
  | .session => 6
  | .records => 7

theorem groupBit_eq_twoPow (b : Group) : groupBit b = BitVec.twoPow 8 (groupIndex b) := by
  cases b <;> rfl

theorem and_groupBit (b : Group) (v : Byte) :
    v &&& groupBit b = if v &&& groupBit b != 0 then groupBit b else 0 := by
  rw [groupBit_eq_twoPow, BitVec.and_twoPow]
  split
  · split
    · rfl
    · next h => simp only [bne_iff_ne, ne_eq, not_not] at h; exact h
  · rfl

theorem and_not_split (v g b : Byte) : v &&& ~~~g = (v &&& ~~~(g ||| b)) ||| (v &&& b &&& ~~~g) := by
  ext i hi
  simp only [BitVec.getElem_and, BitVec.getElem_or, BitVec.getElem_not]
  cases v[i] <;> cases g[i] <;> cases b[i] <;> rfl
/-- A group that keeps its value is none of those that have been set. -/
theorem outputs_without {g : Byte} {b : Group} {s t : State} (h : Outputs (g ||| groupBit b) s t)
    (same : groupSet b t = groupSet b s) : Outputs g s t := by
  refine ⟨h.link, h.clock, h.beacon, h.kept, ?_, h.rest⟩
  have bit : t.mgmt.summary &&& groupBit b = s.mgmt.summary &&& groupBit b := by
    rw [groupSet, groupSet] at same
    rw [and_groupBit, same, ← and_groupBit]
  rw [and_not_split _ g (groupBit b), h.only, bit, ← and_not_split]

/-! #### Pair deadlines (R55) -/

section
variable {s : State} {e : Entry} {p : PendingPair}

theorem exec_pairDeadline (stands : p ∈ s.resolver.pairs) (high : s.rstnLow = false)
    (only : ∀ q ∈ s.resolver.pairs, q.entry = e ↔ q = p) (reached : p.deadline ≤ s.clock.now) :
    exec (.pairDeadline e) s = .next (settle (releasePair p s)) := by
  have due : duePair s e = some p := by
    rw [duePair, if_neg (by rw [high]; decide), pairOf_unique stands only, Option.filter_some,
      if_pos (decide_eq_true reached)]
  have frame : exec (.pairDeadline e) s = complete (match duePair s e with
    | some p => releasePair p s
    | none => s) := rfl
  rw [frame, due]
  rfl

theorem heldAlone_time (u : State) : (deliveryWindow u (heldAlone p)).time =
    if p.arrival < p.time then p.arrival
    else if p.time < p.arrival - u.settings.timing.lagMax then p.arrival - u.settings.timing.lagMax else p.time :=
  intoWindow_time _ _ _

/-- A held report that goes on alone within its holdoff is dropped; a car that has left the running takes it as its
last accepted crossing (R56, R70). -/
theorem deliver_heldAlone {u : State} {l : LastCrossing} (last : (ctx u p.entry).last = some l) :
    let time : Ticks := if p.arrival < p.time then p.arrival
      else if p.time < p.arrival - u.settings.timing.lagMax then p.arrival - u.settings.timing.lagMax else p.time
    (l.role = .line → l.line = p.line → time < l.time + u.settings.timing.lineHoldoff →
      deliver (heldAlone p) u = u) ∧
    ((l.role = .line → l.line = p.line → l.time + u.settings.timing.lineHoldoff ≤ time) → l.time < time →
      (ctx u p.entry).state = .finished ∨ (ctx u p.entry).state = .retired →
      deliver (heldAlone p) u =
        { u with contexts := u.contexts.set p.entry { ctx u p.entry with
          last := some ⟨time, p.line, p.lane, p.gate.val + 1, .line⟩ } }) := by
  intro time
  have time_eq : (deliveryWindow u (heldAlone p)).time = time := heldAlone_time u
  have place := samePlace_line (x := deliveryWindow u (heldAlone p)) rfl l
  refine ⟨fun role line soon => deliver_inHoldoff last (place.2 ⟨role, line⟩) (by rw [time_eq]; exact soon),
    fun clear later done => ?_⟩
  refine (deliver_accepted last (fun same => ?_) (by rw [time_eq]; exact later)).trans
    ((acceptCrossing_done done).trans ?_)
  · rw [time_eq]
    exact clear (place.1 same).1 (place.1 same).2
  · exact congrArg (fun t => updCtx p.entry
      (fun c => { c with last := some ⟨t, p.line, p.lane, p.gate.val + 1, .line⟩ }) u) time_eq

end

/-! #### Drill crossings (R63 to R66) -/

section
variable {s : State} {e : Entry} {d : DrillSchedule}

theorem exec_drillCrossingDue (high : s.rstnLow = false)
    (races : s.session.state = .green ∨ s.session.state = .caution ∨ s.session.state = .chequered)
    (drilled : s.resolver.drills[e] = some d) (due : d.remaining = 0) :
    exec (.drillCrossingDue e) s = .next (settle (drillDue e d s)) := by
  have runs : (!s.rstnLow && drillSession s.session.state) = true := by
    rw [high]
    rcases races with h | h | h <;> rw [h] <;> rfl
  have found : dueDrill s e = some d := by
    rw [dueDrill, if_pos runs, drilled, Option.filter_some, if_pos (beq_iff_eq.2 due)]
  have frame : exec (.drillCrossingDue e) s = complete (match dueDrill s e with
    | some d => drillDue e d s
    | none => s) := rfl
  rw [frame, found]
  rfl

/-- The LFSR once a schedule has moved on: a SCATTER lap draws its time (R66). -/
def drillLfsr (s : State) (e : Entry) (d : DrillSchedule) : BitVec 16 :=
  if (d.nextLine == 0 && !d.launchDue) = true ∧ (entryRow s e).drillMode = .scatter then
    (if s.resolver.lfsr.getLsbD 0 then (s.resolver.lfsr >>> 1) ^^^ 0xB400 else s.resolver.lfsr >>> 1)
  else s.resolver.lfsr

/-- The lap time of a schedule once it has moved on (R63). -/
def drillLap (s : State) (e : Entry) (d : DrillSchedule) : Ticks :=
  if (d.nextLine == 0 && !d.launchDue) = false then d.lapTime else
    if (entryRow s e).drillMode = .ramp then (entryRow s e).drillLap + (d.lap + 1) * (entryRow s e).drillStep
    else if (entryRow s e).drillMode = .scatter then
      (entryRow s e).drillLap + (drillLfsr s e d).toNat % ((entryRow s e).drillStep + 1)
    else (entryRow s e).drillLap

/-- A schedule once it has moved on to its next line (R63, R64). -/
def drillMoved (s : State) (e : Entry) (d : DrillSchedule) : DrillSchedule where
  lap := if (d.nextLine == 0 && !d.launchDue) = true then d.lap + 1 else d.lap
  lapTime := drillLap s e d
  launchDue := false
  nextLine := nextLine s.settings.timing.lines d.nextLine
  remaining := if nextLine s.settings.timing.lines d.nextLine = 0 then
      drillLap s e d - (s.settings.timing.lines - 1) * (drillLap s e d / s.settings.timing.lines)
    else drillLap s e d / s.settings.timing.lines

/-- The state once a schedule has moved on. -/
def drillAdvanced (s : State) (e : Entry) (d : DrillSchedule) : State :=
  { s with resolver := { s.resolver with
    lfsr := drillLfsr s e d, drills := s.resolver.drills.set e (some (drillMoved s e d)) } }

theorem drillLapTime_ends (ends : (d.nextLine == 0 && !d.launchDue) = true) (on : (entryRow s e).drillMode ≠ .off) :
    drillLapTime e (d.lap + 1) s =
      ({ s with resolver := { s.resolver with lfsr := drillLfsr s e d } }, drillLap s e d) := by
  unfold drillLapTime drillLap drillLfsr
  dsimp only
  cases mode : (entryRow s e).drillMode with
  | off => exact absurd mode on
  | fixed => simp [ends]
  | ramp => simp [ends]
  | scatter => simp [ends, draw, lfsrStep]

theorem advanceDrill_eq (on : (d.nextLine == 0 && !d.launchDue) = true → (entryRow s e).drillMode ≠ .off) :
    advanceDrill e d s = drillAdvanced s e d := by
  have moved : (if endsLap d then drillLapTime e (d.lap + 1) s else (s, d.lapTime)) =
      ({ s with resolver := { s.resolver with lfsr := drillLfsr s e d } }, drillLap s e d) := by
    by_cases ends : (d.nextLine == 0 && !d.launchDue) = true
    · rw [endsLap, if_pos ends, drillLapTime_ends ends (on ends)]
    · rw [endsLap, if_neg ends, drillLfsr, if_neg fun h => ends h.1, drillLap,
        if_pos (Bool.eq_false_iff.2 ends)]
  unfold advanceDrill
  rw [moved]
  dsimp only
  rw [drillShare_eq]
  rfl

theorem drillDue_done (done : (ctx s e).state = .finished ∨ (ctx s e).state = .retired) :
    drillDue e d s = setDrill e none s := if_pos done

theorem drillDue_delivers (done : ¬((ctx s e).state = .finished ∨ (ctx s e).state = .retired))
    (on : (d.nextLine == 0 && !d.launchDue) = true → (entryRow s e).drillMode ≠ .off) :
    drillDue e d s = deliver (drillReport s e d) (drillAdvanced s e d) :=
  (if_neg done).trans (congrArg _ (advanceDrill_eq on))

/-- A drill crossing is at its own time. -/
theorem deliveryWindow_drillReport (u : State) : deliveryWindow u (drillReport s e d) = drillReport s e d :=
  deliveryWindow_id u _ (Nat.le_refl _) (Nat.sub_le _ _)

theorem deliver_drillReport_held {l : LastCrossing} (last : (ctx s e).last = some l) (role : l.role = .line)
    (line : l.line = d.nextLine) (soon : s.clock.now < l.time + s.settings.timing.lineHoldoff) :
    deliver (drillReport s e d) (drillAdvanced s e d) = drillAdvanced s e d := by
  refine deliver_inHoldoff (x := drillReport s e d) (s := drillAdvanced s e d) last ?_ ?_
  · rw [deliveryWindow_drillReport]
    exact (samePlace_line rfl l).2 ⟨role, line⟩
  · rw [deliveryWindow_drillReport]
    exact soon

/-! The launch of a drill car. -/

/-- Out of caution a placement is charged with no pass (R102). -/
theorem passedBy_calm {m : State} (calm : m.session.state ≠ .caution) (e : Entry) (c : Context) :
    passedBy m e c = [] := by
  unfold passedBy overtaken
  split
  · rfl
  · rw [if_pos calm]

theorem passesCharged_nil (m : State) (c : Context) : passesCharged m c [] = (c, []) := rfl

theorem deliver_drillReport_launches {u : State} (first : (ctx u e).last = none) (running : (ctx u e).state = .running)
    (unlaunched : (ctx u e).progressTime = none) (zero : d.nextLine = 0) :
    deliver (drillReport s e d) u = launch (drillReport s e d) false u := by
  have accepts : acceptCrossing (drillReport s e d) u = runningCrossing (drillReport s e d) u := by
    unfold acceptCrossing
    rw [show (ctx u (drillReport s e d).entry).state = .running from running]
  have line : (drillReport s e d).role ≠ .pitEntry := GateRole.noConfusion
  have fresh : ¬((ctx u (drillReport s e d).entry).progressTime.isSome &&
      isReCross (lines u) (drillReport s e d) (ctx u (drillReport s e d).entry)) = true := by
    rw [show (ctx u (drillReport s e d).entry).progressTime = none from unlaunched]
    exact Bool.false_ne_true
  have counts : (drillReport s e d).countsFor = 0 := (if_pos rfl).trans zero
  rw [deliver_first first, deliveryWindow_drillReport, accepts, runningCrossing]
  refine (if_neg line).trans ((if_neg fresh).trans ?_)
  unfold crossFor
  dsimp only
  rw [show (ctx u (drillReport s e d).entry).progressTime = none from unlaunched, counts]
  rfl

theorem checkFoul_first {x : Report} {u : State} (first : (ctx u x.entry).last = none) : checkFoul x u = u := by
  unfold checkFoul
  dsimp only
  rw [first]

/-- The launch of a drill car out of caution: its context, its place, its LAP record. -/
theorem launch_drillReport {u : State} (calm : u.session.state ≠ .caution) (first : (ctx u e).last = none)
    (running : (ctx u e).state = .running) :
    ∃ neutral : Bool, (neutral = true ↔ NeutralStart u s.clock.now) ∧
      let x := drillReport s e d
      let d1 := launched u x neutral (ctx u e)
      At u e s.clock.now d1 u.pit (placedOrder u e d1) (launch x false u)
        [launchLap u x (u.session.greenTime.map fun y => s.clock.now - y) 0 false (ctx u e)
          (standingOf u e d1 (placedList u e d1))] := by
  obtain ⟨neutral, start, raced, -⟩ := (at_start u e s.clock.now).launch (x := drillReport s e d) (viaPit := false)
    (checkFoul_first first) rfl rfl running rfl
  refine ⟨neutral, start, ?_⟩
  rw [passedBy_calm calm] at raced
  exact (raced (by rw [passesCharged_nil]; exact fun out => nomatch running.symm.trans out)).2

/-- The LAP record of a drill car's launch (R73). -/
def drillLaunchLap (s : State) (e : Entry) (k : Standing) : RecordBody := .lap {
  number := 0
  time := s.session.greenTime.map fun x => s.clock.now - x
  flags := ⟨false, false, false, false, true, false, false⟩
  missed := 0, splits := [], standing := k
  fuel := if s.settings.fuel.cap = 0 then none else some (ctx s e).fuel }

/-- The context of a drill car behind its launch (R73). -/
def drillLaunched (s : State) (e : Entry) (neutral : Bool) : Context :=
  { ctx s e with
    lapStart := some s.clock.now, crossed := [], splits := [], missed := 0
    marks := ⟨neutral, false, false, true⟩
    expected := nextLine s.settings.timing.lines 0
    last := some ⟨s.clock.now, 0, (entryRow s e).drillLane, 0, .line⟩
    progress := 0, progressTime := some s.clock.now, ring := ringed (ctx s e).ring 0 s.clock.now
    deadline := overdueFrom s s.clock.now (nextLine s.settings.timing.lines 0) }

/-- The schedule of a launch moves on without a draw (R64). -/
theorem drillAdvanced_launch (zero : d.nextLine = 0) (launchDue : d.launchDue = true) :
    let L := s.settings.timing.lines
    drillAdvanced s e d = { s with resolver := { s.resolver with drills := s.resolver.drills.set e (some {
      lap := d.lap, lapTime := d.lapTime, launchDue := false, nextLine := nextLine L 0
      remaining := if nextLine L 0 = 0 then d.lapTime - (L - 1) * (d.lapTime / L) else d.lapTime / L }) } } := by
  have stays : (d.nextLine == 0 && !d.launchDue) = false := by rw [launchDue, Bool.not_true, Bool.and_false]
  have lfsr : drillLfsr s e d = s.resolver.lfsr := if_neg fun both => Bool.false_ne_true (stays.symm.trans both.1)
  have lapTime : drillLap s e d = d.lapTime := if_pos stays
  rw [drillAdvanced, drillMoved, lfsr, lapTime, stays, zero]
  rfl

theorem drillDue_launches (high : s.rstnLow = false) (calm : s.session.state ≠ .caution) (zero : d.nextLine = 0)
    (launchDue : d.launchDue = true) (running : (ctx s e).state = .running)
    (unlaunched : (ctx s e).progressTime = none) (first : (ctx s e).last = none) :
    let t := settle (drillDue e d s)
    ∃ neutral : Bool, (neutral = true ↔ NeutralStart s s.clock.now) ∧
      Outputs 0x80 { drillAdvanced s e d with
        contexts := s.contexts.set e (drillLaunched s e neutral), order := { s.order with list := t.order.list } } t ∧
      Placed s t e ∧ Told s t e s.clock.now [drillLaunchLap s e (standing t e)] := by
  have stays : ¬(d.nextLine == 0 && !d.launchDue) = true := by rw [launchDue, Bool.not_true, Bool.and_false]; decide
  have due : drillDue e d s = launch (drillReport s e d) false (drillAdvanced s e d) :=
    (drillDue_delivers (fun done => by rcases done with h | h <;> exact nomatch running.symm.trans h)
      (absurd · stays)).trans (deliver_drillReport_launches first running unlaunched zero)
  intro t
  obtain ⟨neutral, start, at_⟩ := launch_drillReport (s := s) (d := d) (u := drillAdvanced s e d) calm first running
  have context : launched (drillAdvanced s e d) (drillReport s e d) neutral (ctx (drillAdvanced s e d) e) =
      drillLaunched s e neutral :=
    congrArg (fun line => { drillLaunched s e neutral with
      last := some ⟨s.clock.now, line, (entryRow s e).drillLane, 0, .line⟩ }) zero
  dsimp only at at_
  rw [context, ← due] at at_
  have quiet := quiet_settle (drillDue e d s)
  have contexts : t.contexts = (drillAdvanced s e d).contexts.set e (drillLaunched s e neutral) :=
    (outputs_contexts quiet.outputs).trans at_.contexts
  have list : t.order.list = placedList (drillAdvanced s e d) e (drillLaunched s e neutral) :=
    congrArg Order.list ((outputs_order quiet.outputs).trans at_.order)
  have settings : t.settings = (drillAdvanced s e d).settings :=
    (Resets.outputs_settings quiet.outputs).trans at_.settings
  have figures := standing_of list contexts settings (ranks_refl (drillLaunched s e neutral))
  refine ⟨neutral, start, ?_, placed_of list contexts (ranks_refl _), ?_⟩
  · rw [list]
    refine outputs_without (b := .call) (outputs_trans at_.out.out (outputs_zero quiet.outputs)) ?_
    rw [groupSet_outputs quiet.outputs (by simp), at_.call]
    rfl
  · rw [figures]
    exact told_of_emits at_.out rfl high at_.call

end

/-! #### Overdue expiries (R88) -/

/-- Emissions of a state whose car has then been struck. -/
theorem emits_struck {g : Byte} {n : Nat} {s t : State} {L : List Record} (h : Emits g n s t L) (e : Entry)
    (c : Context) (flag : Option Bool) : Emits g n (struck e c flag s) (struck e c flag t) L := by
  obtain ⟨link, clock, mgmt, rfl⟩ : ∃ link clock mgmt, t = { s with link := link, clock := clock, mgmt := mgmt } :=
    ⟨_, _, _, h.out.rest⟩
  have moved := emits_congr h (struck e c flag s).contexts (struck e c flag s).pit (struck e c flag s).order s.resolver
    s.session (struck e c flag s).penalty s.throttle
  cases flag with
  | none => exact moved
  | some _ => exact moved

section
variable {s : State} {e : Entry} {time : Ticks}

theorem exec_overdueExpiry (running : (ctx s e).state = .running)
    (deadline : (ctx s e).deadline = some (.due time)) (reached : time ≤ s.clock.now) :
    exec (.overdueExpiry e) s = .next (settle (match pairOf s e with
      | some p => updCtx e (fun c => { c with deadline := some (.due (p.deadline + 1)) }) s
      | none => goOffTrack e time s)) := by
  have due : dueExpiry s e = some time := by
    rw [dueExpiry, deadline]
    exact if_pos ⟨running, reached⟩
  have frame : exec (.overdueExpiry e) s = complete (match dueExpiry s e with
    | some t =>
      match pairOf s e with
      | some p => updCtx e (fun c => { c with deadline := some (.due (p.deadline + 1)) }) s
      | none => goOffTrack e t s
    | none => s) := rfl
  rw [frame, due]
  rfl

/-- The context of a car that has gone off the track (R88). -/
def offContext (c : Context) : Context := { c with state := .offTrack, deadline := none }

/-- A car that has gone off the track, before its incident. -/
def wentOff (e : Entry) (time : Ticks) (s : State) : State :=
  setGroup .marshal (emit ⟨e.val + 1, time, .overdue (ctx s e).expected⟩ (struck e (offContext (ctx s e)) none s))

theorem goOffTrack_eq : goOffTrack e time s = incident e .offTrack time (wentOff e time s) := rfl

theorem emits_wentOff : Emits 0x90 1 (struck e (offContext (ctx s e)) none s) (wentOff e time s)
    [⟨e.val + 1, time, .overdue (ctx s e).expected⟩] :=
  emits_trans (emits_mono (emits_emit _ _) (by decide)) (emits_mono (emits_group .marshal _) (by decide))

theorem judged_congr {u : State} {kind : IncidentKind} (same : ruleOf u kind = ruleOf s kind) (c : Context) :
    judged u kind c = judged s kind c := by
  unfold judged
  rw [same]

theorem ruleOf_wentOff (kind : IncidentKind) : ruleOf (wentOff e time s) kind = ruleOf s kind := by
  rw [ruleOf, Resets.outputs_penalty (emits_wentOff (s := s) (e := e) (time := time)).out]
  rfl

/-- What a car off the track brings: its records, and a black flag's word to the session controller. -/
structure GoesOff (s : State) (e : Entry) (time : Ticks) (a : State) : Prop where
  plain : ¬FlagsCar (judged s .offTrack (offContext (ctx s e))).2 →
    Emits 0x98 2 (struck e (judged s .offTrack (offContext (ctx s e))).1 none s) a (recordsOf e time
      [.overdue (ctx s e).expected, .call (judged s .offTrack (offContext (ctx s e))).2])
  flagged : FlagsCar (judged s .offTrack (offContext (ctx s e))).2 →
    Emits 0x98 2 (struck e (judged s .offTrack (offContext (ctx s e))).1 (some (ruleOf s .offTrack).enforce) s) a
      (recordsOf e time [.overdue (ctx s e).expected, .call (judged s .offTrack (offContext (ctx s e))).2])
  call : groupSet .call a = ([RecordBody.overdue (ctx s e).expected,
    .call (judged s .offTrack (offContext (ctx s e))).2].any (asksCall s) || groupSet .call s)
  marshal : groupSet .marshal a = true
  out : FlagsCar (judged s .offTrack (offContext (ctx s e))).2 →
    (judged s .offTrack (offContext (ctx s e))).1.state = .retired

open Classical in
theorem goOffTrack_spec (fair : (ctx s e).disqualified = false) : ∃ a, GoesOff s e time a ∧
    goOffTrack e time s =
      if FlagsCar (judged s .offTrack (offContext (ctx s e))).2 then closeTest a else a := by
  have off := emits_wentOff (s := s) (e := e) (time := time)
  have own : ctx (wentOff e time s) e = offContext (ctx s e) := (outputs_ctx off.out e).trans (ctx_struck e _ none s)
  obtain ⟨a, call, plain, flagged, group, kind, out⟩ := incident_spec_of_not_disqualified e .offTrack time
    (wentOff e time s) (by rw [own]; rfl) (by rw [own]; exact fair)
  rw [own, judged_congr (ruleOf_wentOff .offTrack)] at call plain flagged kind out
  rw [ruleOf_wentOff] at flagged group
  have behind {flag : Option Bool} (called : Emits 0x88 1 (struck e (judged s .offTrack (offContext (ctx s e))).1 flag
      (wentOff e time s)) a [⟨e.val + 1, time, .call (judged s .offTrack (offContext (ctx s e))).2⟩]) :
      Emits 0x98 2 (struck e (judged s .offTrack (offContext (ctx s e))).1 flag s) a (recordsOf e time
        [.overdue (ctx s e).expected, .call (judged s .offTrack (offContext (ctx s e))).2]) := by
    have first := emits_struck off e (judged s .offTrack (offContext (ctx s e))).1 flag
    rw [struck_struck] at first
    exact emits_trans (emits_mono first (by decide)) (emits_mono called (by decide))
  have kept {flag : Option Bool} (called : Emits 0x88 1 (struck e (judged s .offTrack (offContext (ctx s e))).1 flag
      (wentOff e time s)) a [⟨e.val + 1, time, .call (judged s .offTrack (offContext (ctx s e))).2⟩]) :
      groupSet .marshal a = true :=
    groupSet_mono ((groupSet_struck ..).trans (groupSet_setGroup .marshal _)) called.out.kept
  refine ⟨a, ⟨fun no => behind (plain no), fun yes => behind (flagged yes), ?_, ?_, out⟩, congrArg Prod.fst call⟩
  · have asks : asksCall s (.call (judged s .offTrack (offContext (ctx s e))).2) = (ruleOf s .offTrack).attention :=
      congrArg (fun k => (ruleOf s k).attention) kind
    rw [group, groupSet_outputs off.out (by decide), groupSet_struck, List.any_cons, List.any_cons, List.any_nil, asks,
      Bool.or_false]
    rfl
  · by_cases flag : FlagsCar (judged s .offTrack (offContext (ctx s e))).2
    · exact kept (flagged flag)
    · exact kept (plain flag)

theorem goesOff_settles {a : State} (off : GoesOff s e time a) :
    let p := judged s .offTrack (offContext (ctx s e))
    let told : List RecordBody := [.overdue (ctx s e).expected, .call p.2]
    let flagged : State := struck e p.1 (some (ruleOf s .offTrack).enforce) s
    ∃ t, t = settle (open Classical in if FlagsCar p.2 then closeTest a else a) ∧ groupSet .marshal t = true ∧
      (¬FlagsCar p.2 → Outputs 0x98 (struck e p.1 none s) t) ∧
      (FlagsCar p.2 → GoesOn s e → Outputs 0x98 flagged t) ∧
      (¬FlagsCar p.2 ∨ GoesOn s e → s.rstnLow = false → Told s t e time told) ∧
      (FlagsCar p.2 → ¬GoesOn s e → s.rstnLow = false →
        HeatCloses 0xD8 flagged t .allFinished (told.map fun b => ⟨e.val + 1, time, b⟩) ∧
        groupSet .call t = (told.any (asksCall s) || groupSet .call s)) := by
  intro p told flagged
  have settled (v : State) : Quiet v (settle v) := quiet_settle v
  by_cases flag : FlagsCar p.2
  · have emits := off.flagged flag
    obtain ⟨stays, closes⟩ := told_flag emits (off.out flag)
    rw [if_pos flag]
    by_cases on : GoesOn s e
    · rw [stays on]
      exact ⟨_, rfl, groupSet_mono off.marshal (settled a).outputs.kept, (absurd flag ·),
        fun _ _ => outputs_trans emits.out (outputs_zero (settled a).outputs),
        fun _ high => told_of_emits emits (struck_link _ _ _ _) ((struck_rstnLow _ _ _ _).trans high) off.call,
        fun _ last => absurd on last⟩
    · rw [closes on]
      obtain ⟨v, closed, -, -, -, -, groups, -, -, kept⟩ := closeHeat_keeps .allFinished a
      rw [closed]
      refine ⟨_, rfl, groupSet_mono (groups .marshal off.marshal) (settled v).outputs.kept, (absurd flag ·),
        fun _ yes => absurd yes on, fun h => absurd (h.resolve_left (absurd flag ·)) on, fun _ _ high => ⟨?_, ?_⟩⟩
      · have close := heatCloses_of (cause := .allFinished) (emits.sends (Nat.le_refl 2))
          ((struck_rstnLow _ _ _ _).trans high)
        rw [closed] at close
        exact (close.mono (by decide)).quiet (settled v)
      · rw [groupSet_outputs (settled v).outputs (by simp), kept .call (by decide), off.call]
  · have emits := off.plain flag
    rw [if_neg flag]
    exact ⟨_, rfl, groupSet_mono off.marshal (settled a).outputs.kept,
      fun _ => outputs_trans emits.out (outputs_zero (settled a).outputs), (absurd · flag),
      fun _ high => told_of_emits emits (struck_link _ _ _ _) ((struck_rstnLow _ _ _ _).trans high) off.call,
      (absurd · flag)⟩

end

/-- Settles O60: each event is carried out as it falls due; deliveries, launches and incidents by their own lemmas. -/
theorem timedCrossings : Obligations.TimedCrossings := by
  intro s e
  refine ⟨fun p stands high only reached => ?_,
    fun d high races drilled due => ⟨fun done => ?_, fun running here => ?_, ?_⟩,
    fun time running deadline reached => ⟨fun p held => ?_, fun free fair => ?_⟩⟩
  · obtain ⟨gates, raised, released⟩ := releasePair_eq p s
    refine ⟨gates, raised, ?_⟩
    intro u
    have ends {v w : State} (same : v = w) : (.next (settle v) : Host.Outcome State Fault Refusal) = .next (settle w) :=
      same ▸ rfl
    have run : exec (.pairDeadline e) s = .next (settle (deliver (heldAlone p) u)) :=
      (exec_pairDeadline stands high only reached).trans (ends released)
    refine ⟨run, fun l last => ?_⟩
    have owner : p.entry = e := (only p stands).2 rfl
    subst owner
    obtain ⟨dropped, recorded⟩ := deliver_heldAlone (u := u) (p := p) last
    exact ⟨fun role line soon => ⟨_, run.trans (ends (dropped role line soon)), quiet_settle u⟩,
      fun clear later done => ⟨_, run.trans (ends (recorded clear later done)), quiet_settle _⟩⟩
  · refine ⟨_, (exec_drillCrossingDue high races drilled due).trans ?_, quiet_settle (setDrill e none s)⟩
    rw [drillDue_done done]
  · intro row L ends on v lfsr lapTime line u
    have run := (exec_drillCrossingDue high races drilled due).trans
      (congrArg (fun v => Host.Outcome.next (settle v)) (drillDue_delivers (not_or.2 ⟨running, here⟩) on))
    refine ⟨run, fun ⟨l, last, role, line, soon⟩ => ⟨_, run.trans ?_, quiet_settle u⟩⟩
    exact congrArg (fun v => Host.Outcome.next (settle v)) (deliver_drillReport_held last role line soon)
  · intro calm zero launchDue running unlaunched first c now L line
    obtain ⟨neutral, start, outputs, placed, told⟩ :=
      drillDue_launches (s := s) (e := e) (d := d) high calm zero launchDue running unlaunched first
    refine ⟨_, neutral, exec_drillCrossingDue high races drilled due, start, ?_, placed, told⟩
    rw [drillAdvanced_launch zero launchDue] at outputs
    exact outputs
  · refine ⟨_, (exec_overdueExpiry running deadline reached).trans ?_,
      quiet_settle (updCtx e (fun c => { c with deadline := some (.due (p.deadline + 1)) }) s)⟩
    rw [show pairOf s e = some p from held]
  · obtain ⟨a, off, work⟩ := goOffTrack_spec (time := time) fair
    obtain ⟨t, settled, rest⟩ := goesOff_settles off
    refine ⟨t, (exec_overdueExpiry running deadline reached).trans ?_, rest⟩
    rw [pairOf_none rfl free]
    dsimp only
    rw [work, settled]

end Sys2Proof.Proofs.TimedCrossings

/-! ### Proofs: accepted crossings

What an accepted crossing does in each state of its car (R54, R70 to R79, R85, R89 to R92, R97, R102, R144). -/

namespace Sys2Proof.Proofs.AcceptedCrossings

open Sys2Proof Machine Safety CrossingPath TimedCrossings

/-! #### How the work of a crossing ends -/

/-- The part behind the mirror step of an accepted crossing, whose command ends with what is made of it. -/
structure Crossing (s : State) (g : GateId) (code : Byte) (count : Count) (i : Instr) (T m : State) : Prop where
  same : SameAs s m
  emits : Emits 1 0 (mirrored s g code count) m []
  records : RecordsKept s m
  high : s.rstnLow = false
  run : exec i s = .next (settle T)

section
variable {s m T : State} {g : GateId} {code : Byte} {count : Count} {i : Instr} {e : Entry} {time : Ticks}
  (h : Crossing s g code count i T m)
include h

/-- Stages that no black flag ends. -/
theorem Crossing.settles {d : Context} {P : Pit} {O : Order} {l : List RecordBody} (stage : At m e time d P O T l) :
    Outputs 0x89 { mirrored s g code count with contexts := s.contexts.set e d, pit := P, order := O } (settle T) ∧
    Told s (settle T) e time l := by
  obtain ⟨t, run, outputs, told, -⟩ := stage.done h.same h.emits h.high h.run
  cases Host.Outcome.next.inj (h.run.symm.trans run)
  exact ⟨outputs, told⟩

/-- Stages that a black flag ends. -/
theorem Crossing.flags {u : Context} {f : Bool} {P : Pit} {O : Order} {l : List RecordBody}
    (stage : FlaggedAt m e time u P O f T l) :
    FlagEnds s (struck e u (some f) { mirrored s g code count with pit := P, order := O }) (settle T) e time l := by
  obtain ⟨t, run, ends⟩ := flag_done stage h.same h.emits h.high h.run
  cases Host.Outcome.next.inj (h.run.symm.trans run)
  exact ends

end

theorem mirrored_put (s : State) (g : GateId) (code : Byte) (count : Count) (C : Vector Context 16) (P : Pit) :
    ({ mirrored s g code count with contexts := C, pit := P, order := s.order } : State) =
      { mirrored s g code count with contexts := C, pit := P } := by
  unfold mirrored; split <;> rfl

theorem mirrored_set (s : State) (g : GateId) (code : Byte) (count : Count) (C : Vector Context 16) :
    ({ mirrored s g code count with contexts := C, pit := s.pit, order := s.order } : State) =
      { mirrored s g code count with contexts := C } := by
  unfold mirrored; split <;> rfl

theorem mirrored_self (s : State) (g : GateId) (code : Byte) (count : Count) :
    ({ mirrored s g code count with pit := s.pit, order := s.order } : State) = mirrored s g code count := by
  unfold mirrored; split <;> rfl

theorem struck_mirrored (s : State) (g : GateId) (code : Byte) (count : Count) (e : Entry) (c : Context) (P : Pit)
    (O : Order) : struck e c none { mirrored s g code count with pit := P, order := O } =
      { mirrored s g code count with contexts := s.contexts.set e c, pit := P, order := O } := by
  unfold mirrored; split <;> rfl

/-- A crossing that is accepted, on its way through the lap engine. -/
theorem crossing_of_accepts {s : State} {g : GateId} {code : Byte} {count : Count} {arrival : Ticks} {e : Entry}
    {inferred : Bool} (h : Accepts s g code count arrival e inferred) : ∃ m,
    Crossing s g code count (.xingReceived (BitVec.ofNat 8 (g.val + 1)) code count arrival)
      (acceptCrossing (singleReport s g code count arrival e inferred) m) m := by
  obtain ⟨m, run, same, emits, records⟩ := exec_accepted h
  exact ⟨m, same, emits, records, h.high, run⟩

section
variable {s m : State} {g : GateId} {code : Byte} {count : Count} {i : Instr} {C : Vector Context 16}

/-- A crossing that only touches contexts leaves its copy beside them. -/
theorem Crossing.puts (h : Crossing s g code count i { m with contexts := C } m) :
    let t := settle { m with contexts := C }
    Outputs 0x01 { mirrored s g code count with contexts := C } t ∧ RecordsKept s t ∧ LampKept s t := by
  have emits := emits_ctx h.emits C
  have quiet := quiet_settle { m with contexts := C }
  exact ⟨outputs_trans emits.out (outputs_zero quiet.outputs), drawn_trans h.records quiet.records,
    lampKept_of_mirrored (drawn_trans h.emits.lamp quiet.lamp)⟩

end

section
variable {m : State} {x : Report}

/-! #### A car that has left the running, and a car on its grid (R70, R71) -/

theorem acceptCrossing_grid (grid : (ctx m x.entry).state = .grid) :
    acceptCrossing x m = recordLast x (jumpStart x.entry x.time m) := by
  unfold acceptCrossing
  rw [grid]

theorem acceptCrossing_records (out : (ctx m x.entry).state = .finished ∨ (ctx m x.entry).state = .retired ∨
    ((ctx m x.entry).state = .grid ∧ (ctx m x.entry).jumpFlagged = true)) :
    acceptCrossing x m =
      { m with contexts := m.contexts.set x.entry { ctx m x.entry with last := some x.toLast } } := by
  rcases out with finished | retired | ⟨grid, flagged⟩
  · exact acceptCrossing_done (.inl finished)
  · exact acceptCrossing_done (.inr retired)
  · rw [acceptCrossing_grid grid, jumpStart_of_flagged flagged]
    rfl

section
variable {e : Entry} {time : Ticks} (hx : x.entry = e) (ht : x.time = time)
include hx ht

/-- A jump start is charged and then recorded, as the part stands behind the mirror step. -/
theorem acceptCrossing_jumps (grid : (ctx m e).state = .grid) (unflagged : (ctx m e).jumpFlagged = false) :
    acceptCrossing x m = updCtx e (fun c => { c with last := some x.toLast })
      (incident e .jumpStart time (updCtx e (fun c => { c with jumpFlagged := true }) m)) := by
  subst hx ht
  rw [acceptCrossing_grid grid, jumpStart, if_neg (by rw [unflagged]; exact Bool.false_ne_true)]
  rfl

theorem jump_plain (grid : (ctx m e).state = .grid) (unflagged : (ctx m e).jumpFlagged = false)
    (plain : ¬FlagsCar (judged m .jumpStart { ctx m e with jumpFlagged := true }).2) :
    let p := judged m .jumpStart { ctx m e with jumpFlagged := true }
    At m e time { p.1 with last := some x.toLast } m.pit m.order (acceptCrossing x m) [.call p.2] := by
  rw [acceptCrossing_jumps hx ht grid unflagged]
  exact (((at_start m e time).updCtx fun c => { c with jumpFlagged := true }).incident
    (show takesIncidents (ctx m e).state = true by rw [grid]; rfl) plain).updCtx
      fun c => { c with last := some x.toLast }

theorem jump_flagged (grid : (ctx m e).state = .grid) (unflagged : (ctx m e).jumpFlagged = false)
    (fair : (ctx m e).disqualified = false)
    (flag : FlagsCar (judged m .jumpStart { ctx m e with jumpFlagged := true }).2) :
    let p := judged m .jumpStart { ctx m e with jumpFlagged := true }
    FlaggedAt m e time { p.1 with last := some x.toLast } m.pit m.order (ruleOf m .jumpStart).enforce
      (acceptCrossing x m) [.call p.2] := by
  rw [acceptCrossing_jumps hx ht grid unflagged]
  exact (((at_start m e time).updCtx fun c => { c with jumpFlagged := true }).flag
    (show takesIncidents (ctx m e).state = true by rw [grid]; rfl) flag fair).last (some x.toLast)

end

/-! #### A repeat of the pit entry (R85, R92) -/

theorem checkFoul_clean (clean : ¬FoulAt m x) : checkFoul x m = m := by
  unfold checkFoul
  dsimp only
  split
  · rfl
  · next l last =>
    rw [if_neg]
    rintro ⟨-, lane, held, zone⟩
    exact clean ⟨l, last, lane, held, zone⟩

theorem checkFoul_charges (pit : (ctx m x.entry).state = .inPit) (foul : FoulAt m x) :
    checkFoul x m = incident x.entry .changeFoul x.time m := by
  obtain ⟨l, last, lane, held, zone⟩ := foul
  unfold checkFoul
  dsimp only
  rw [last]
  exact if_pos ⟨.inr (.inl pit), lane, held, zone⟩

theorem acceptCrossing_repeats (pit : (ctx m x.entry).state = .inPit) (role : x.role = .pitEntry) :
    acceptCrossing x m = recordLast x (checkFoul x m) := by
  unfold acceptCrossing
  rw [pit]
  exact if_pos role

section
variable {e : Entry} {time : Ticks} (hx : x.entry = e) (ht : x.time = time) (pit : (ctx m e).state = .inPit)
  (role : x.role = .pitEntry)
include hx pit role

theorem repeat_clean (clean : ¬FoulAt m x) :
    At m e time { ctx m e with last := some x.toLast } m.pit m.order (acceptCrossing x m) [] := by
  subst hx
  rw [acceptCrossing_repeats pit role, checkFoul_clean clean]
  exact (at_start m x.entry time).updCtx fun c => { c with last := some x.toLast }

include ht

theorem repeat_plain (foul : FoulAt m x) (plain : ¬FlagsCar (judged m .changeFoul (ctx m e)).2) :
    let p := judged m .changeFoul (ctx m e)
    At m e time { p.1 with last := some x.toLast } m.pit m.order (acceptCrossing x m) [.call p.2] := by
  subst hx ht
  rw [acceptCrossing_repeats pit role, checkFoul_charges pit foul]
  exact ((at_start m x.entry x.time).incident (by rw [pit]; rfl) plain).updCtx fun c => { c with last := some x.toLast }

theorem repeat_flagged (foul : FoulAt m x) (fair : (ctx m e).disqualified = false)
    (flag : FlagsCar (judged m .changeFoul (ctx m e)).2) :
    let p := judged m .changeFoul (ctx m e)
    FlaggedAt m e time { p.1 with last := some x.toLast } m.pit m.order (ruleOf m .changeFoul).enforce
      (acceptCrossing x m) [.call p.2] := by
  subst hx ht
  rw [acceptCrossing_repeats pit role, checkFoul_charges pit foul]
  exact ((at_start m x.entry x.time).flag (by rw [pit]; rfl) flag fair).last (some x.toLast)

end

/-! #### A re-cross of the last line (R77) -/

theorem acceptCrossing_onTrack (on : (ctx m x.entry).state = .running ∨ (ctx m x.entry).state = .offTrack) :
    acceptCrossing x m = runningCrossing x (struck x.entry { ctx m x.entry with state := .running } none m) := by
  unfold acceptCrossing
  rcases on with running | offTrack
  · rw [running]
    have same : ({ ctx m x.entry with state := .running } : Context) = ctx m x.entry := by rw [← running]
    rw [same, DirectorCalls.struck_self]
  · rw [offTrack]
    rfl

theorem isReCross_iff (L : Nat) (x : Report) (c : Context) : isReCross L x c = true ↔
    2 ≤ L ∧ x.role = .line ∧ ∃ l, c.last = some l ∧ l.role = .line ∧ l.line = x.line := by
  unfold isReCross
  cases c.last with
  | none => simp
  | some l => simp [and_assoc]

/-- The context of a re-cross (R77). -/
def reCrossed (x : Report) (c : Context) : Context := { c with last := some x.toLast, marks := joinMarks x c.marks }

theorem reCross_eq (out : (ctx m x.entry).state ≠ .inPit) : reCross x m = struck x.entry { ctx m x.entry with
    last := some x.toLast, marks := joinMarks x (ctx m x.entry).marks
    deadline := overdueFrom m x.time (ctx m x.entry).expected } none m := by
  have own : ctx (struck x.entry (reCrossed x (ctx m x.entry)) none m) x.entry = reCrossed x (ctx m x.entry) :=
    ctx_struck _ _ _ _
  have marked : reCross x m = setOverdue x (struck x.entry (reCrossed x (ctx m x.entry)) none m) := rfl
  rw [marked, setOverdue_eq (v := struck x.entry (reCrossed x (ctx m x.entry)) none m) (s := m) rfl rfl rfl
    (by rw [own]; exact out), own, struck_struck]
  rfl

theorem runningCrossing_reCrosses (raced : (ctx m x.entry).progressTime.isSome = true)
    (again : isReCross (lines m) x (ctx m x.entry) = true) : runningCrossing x m = reCross x m := by
  have line : x.role ≠ .pitEntry := fun h => by
    obtain ⟨-, role, -⟩ := (isReCross_iff _ _ _).1 again
    exact nomatch role.symm.trans h
  exact (if_neg line).trans (if_pos (Bool.and_eq_true_iff.2 ⟨raced, again⟩))

theorem acceptCrossing_reCrosses {e : Entry} (hx : x.entry = e)
    (on : (ctx m e).state = .running ∨ (ctx m e).state = .offTrack) (raced : (ctx m e).progressTime.isSome = true)
    (again : isReCross (lines m) x (ctx m e) = true) :
    acceptCrossing x m = { m with contexts := m.contexts.set e { ctx m e with
      state := .running, last := some x.toLast, marks := joinMarks x (ctx m e).marks
      deadline := overdueFrom m x.time (ctx m e).expected } } := by
  subst hx
  generalize back : struck x.entry { ctx m x.entry with state := .running } none m = w
  have own : ctx w x.entry = { ctx m x.entry with state := .running } := by rw [← back, ctx_struck]
  have again' : isReCross (lines w) x (ctx w x.entry) = true := by
    rw [own, ← back]
    exact again
  rw [acceptCrossing_onTrack on, back,
    runningCrossing_reCrosses (by rw [own]; exact raced) again', reCross_eq (by rw [own]; exact CarState.noConfusion),
    own, ← back, struck_struck]
  rfl

end

/-! #### A car that is placed (R97, R102) -/

/-- What a command leaves once its crossing places the car with a context and charges its passes; `after` and `told`
complete the context and the records, behind those of `work`. -/
def Placing (s : State) (g : GateId) (code : Byte) (count : Count) (i : Instr) (e : Entry) (time : Ticks)
    (work : List RecordBody) (d : Context) (after : Context → Context) (told : State → List RecordBody) : Prop :=
  ∃ (t : State) (k : List Entry), exec i s = .next t ∧
    let w := placedAs s e d k
    let p := passesCharged s d (overtaken s w e)
    let ordered : State :=
      { mirrored s g code count with pit := pitBegun s e, order := { s.order with list := k } }
    Placed s w e ∧
    (p.1.state ≠ .retired → Outputs 0x89 (struck e (after p.1) none ordered) t ∧
      Told s t e time (work ++ p.2 ++ told w)) ∧
    (p.1.state = .retired → (ctx s e).disqualified = false →
      FlagEnds s (struck e p.1 (some (ruleOf s .cautionPass).enforce) ordered) t e time (work ++ p.2))

section
variable {s m : State} (same : SameAs s m) (e : Entry) (d : Context)
include same

/-- The state with the car placed, as the crossing's statement reads it. -/
theorem placed_placedAs : Placed s (placedAs s e d (placedList m e d)) e :=
  same_placed same (placed_of (m := m) (d := d) (d' := d) rfl
    (congrArg (fun C : Vector Context 16 => C.set e d) same.contexts.symm) (ranks_refl d))

theorem passesCharged_placedAs :
    passesCharged m d (passedBy m e d) = passesCharged s d (overtaken s (placedAs s e d (placedList m e d)) e) := by
  rw [same_passesCharged same, ← same_overtaken same]
  exact congrArg (passesCharged s d) (passedBy_eq (t := placedAs s e d (placedList m e d)) rfl).symm

theorem standing_placedAs :
    standing (placedAs s e d (placedList m e d)) e = standingOf m e d (placedList m e d) :=
  standing_of (m := m) (d := d) (d' := d) rfl
    (congrArg (fun C : Vector Context 16 => C.set e d) same.contexts.symm) same.settings.symm (ranks_refl d)

theorem same_placedOrder : placedOrder m e d = { s.order with list := placedList m e d } := by
  rw [placedOrder, same.order]

end

section
variable {s m T : State} {g : GateId} {code : Byte} {count : Count} {i : Instr} {e : Entry} {time : Ticks}
  (h : Crossing s g code count i T m)
include h

/-- A car is placed with a context and its passes are charged: the work goes on, or ends at a black flag. -/
theorem Crossing.places {d : Context} {after : Context → Context} {told : State → List RecordBody}
    {l : List RecordBody}
    (raced : (passesCharged m d (passedBy m e d)).1.state ≠ .retired →
      At m e time (after (passesCharged m d (passedBy m e d)).1) (pitBegun m e) (placedOrder m e d) T
        (l ++ (passesCharged m d (passedBy m e d)).2 ++ told (placedAs s e d (placedList m e d))))
    (flagged : (passesCharged m d (passedBy m e d)).1.state = .retired → (ctx s e).disqualified = false →
      FlaggedAt m e time (passesCharged m d (passedBy m e d)).1 (pitBegun m e) (placedOrder m e d)
        (ruleOf m .cautionPass).enforce T (l ++ (passesCharged m d (passedBy m e d)).2)) :
    Placing s g code count i e time l d after told := by
  rw [passesCharged_placedAs h.same, same_placedOrder h.same, same_pitBegun h.same] at raced flagged
  rw [same_ruleOf h.same] at flagged
  refine ⟨settle T, placedList m e d, h.run, placed_placedAs h.same e d, fun on => ?_,
    fun out ok => h.flags (flagged out ok)⟩
  rw [struck_mirrored]
  exact h.settles (raced on)

end

/-! #### The report of a gate as the lap engine reads it -/

section
variable {s : State} {g : GateId} {code : Byte} {count : Count} {arrival : Ticks} {e : Entry} {inferred : Bool}

theorem joinMarks_singleReport (k : LapMarks) : joinMarks (singleReport s g code count arrival e inferred) k =
    ⟨k.neutral, k.lowConf || (converted s g count arrival).2, k.inferred || inferred, k.drill⟩ :=
  congrArg (LapMarks.mk _ _ _) (Bool.or_false _)

theorem judged_marks (s : State) (k : IncidentKind) (c : Context) : (judged s k c).1.marks = c.marks := by
  unfold judged sanctioned
  dsimp only
  repeat' split
  all_goals rfl

theorem begun_marks {foul : Bool} (on : (ctx s e).state = .running ∨ (ctx s e).state = .offTrack) :
    (begun s e foul).1.marks = (ctx s e).marks := by
  rw [begun_entry on]
  cases foul with
  | false => rfl
  | true => exact judged_marks s .changeFoul _

theorem line_of_zoneLine (j : zoneLine s g ≠ 0) : (gate s g).role = .line ∧ (gate s g).line = zoneLine s g := by
  unfold zoneLine at j ⊢
  split at j
  · next line => exact ⟨line, (if_pos line).symm⟩
  · exact absurd rfl j

end

/-- The LAP record of a launch or a lost launch. -/
def lapZero (s : State) (e : Entry) (low inferred : Bool) (w : State) (time : Option Ticks) (missed : Nat) :
    RecordBody :=
  .lap {
    number := 0
    time := time
    flags := ⟨false, false, low, inferred, false, decide ((ctx s e).state = .inPit), false⟩
    missed := missed, splits := [], standing := standing w e
    fuel := if s.settings.fuel.cap = 0 then none else some (ctx s e).fuel }

theorem ring_of_began {c d : Context} (ran : Began c d) : d.ring = c.ring := congrArg (·.ring) ran.same

theorem laps_of_began {c d : Context} (ran : Began c d) : d.laps = c.laps := congrArg (·.laps) ran.same

theorem fuel_of_began {c d : Context} (ran : Began c d) : d.fuel = c.fuel := congrArg (·.fuel) ran.same

theorem missed_of_began {c d : Context} (ran : Began c d) : d.missed = c.missed := congrArg (·.missed) ran.same

theorem marks_of_began {c d : Context} (ran : Began c d) : d.marks = c.marks := congrArg (·.marks) ran.same

theorem lapStart_of_began {c d : Context} (ran : Began c d) : d.lapStart = c.lapStart :=
  congrArg (·.lapStart) ran.same

theorem bestLap_of_began {c d : Context} (ran : Began c d) : d.bestLap = c.bestLap := congrArg (·.bestLap) ran.same

theorem splits_of_began {c d : Context} (ran : Began c d) : d.splits = c.splits := congrArg (·.splits) ran.same

theorem last_of_began {c d : Context} (ran : Began c d) : d.last = c.last := congrArg (·.last) ran.same

theorem expected_of_began {c d : Context} (ran : Began c d) : d.expected = c.expected :=
  congrArg (·.expected) ran.same

theorem charged_of_began {c d : Context} (ran : Began c d) : d.charged = c.charged := congrArg (·.charged) ran.same

theorem fair_of_began {c d : Context} (ran : Began c d) : d.disqualified = c.disqualified :=
  congrArg (·.disqualified) ran.same

theorem progress_of_began {c d : Context} (ran : Began c d) : d.progressTime = c.progressTime :=
  congrArg (·.progressTime) ran.same

/-- The contexts of a car that crosses a line, by what its context was before the work of the crossing began. -/
theorem lineCrossed_lapOpened {c d : Context} (ran : Began c d) (x : Report) (neutral : Bool) :
    lineCrossed s x (x.line.val - 1) none (lapOpened x none neutral d) = { d with
      lapStart := none, crossed := [x.line], splits := [], missed := x.line.val - 1
      marks := ⟨neutral, x.lowConf, x.inferred, x.drill⟩
      expected := nextLine s.settings.timing.lines x.line, last := some x.toLast
      progress := c.laps * s.settings.timing.lines + x.line.val, progressTime := some x.time
      ring := ringed c.ring (c.laps * s.settings.timing.lines + x.line.val) x.time } := by
  rw [← laps_of_began ran, ← ring_of_began ran]
  simp [lineCrossed, lapOpened]

theorem lineCrossed_began {c d : Context} (ran : Began c d) (x : Report) (n : Nat) (split : Option Ticks) :
    lineCrossed s x n split d = { d with
      missed := c.missed + n
      crossed := c.crossed ++ [x.line]
      splits := c.splits ++ (split.map fun t => (x.line, t)).toList
      marks := joinMarks x c.marks
      expected := nextLine s.settings.timing.lines x.line, last := some x.toLast
      progress := c.laps * s.settings.timing.lines + x.line.val, progressTime := some x.time
      ring := ringed c.ring (c.laps * s.settings.timing.lines + x.line.val) x.time } := by
  rw [ran.same]
  rfl

section
variable {x : Report} {v : State} {viaPit : Bool}

theorem crossFor_launches (fresh : (ctx v x.entry).progressTime = none) (zero : x.countsFor = 0) :
    crossFor x viaPit v = launch x viaPit v := by
  unfold crossFor
  dsimp only
  rw [fresh]
  exact if_pos zero

theorem crossFor_loses (fresh : (ctx v x.entry).progressTime = none) (other : x.countsFor ≠ 0) :
    crossFor x viaPit v = lostLaunch x viaPit v := by
  unfold crossFor
  dsimp only
  rw [fresh]
  exact if_neg other

theorem crossFor_crosses (raced : (ctx v x.entry).progressTime.isSome = true) (other : x.countsFor ≠ 0)
    (kept : (0 : Line) ∉ missedLines (lines v) (ctx v x.entry).expected x.countsFor) :
    crossFor x viaPit v = ordinaryCrossing x v := by
  unfold crossFor
  dsimp only
  rw [Option.isNone_eq_false_iff.2 raced, if_neg Bool.false_ne_true, if_neg other, if_neg kept]

end

/-! #### The clauses of the statement that end before a placement -/

section
variable {s m : State} {g : GateId} {code : Byte} {count : Count} {arrival : Ticks} {e : Entry}
  {inferred foul : Bool} {i : Instr}
  (h : Crossing s g code count i (acceptCrossing (singleReport s g code count arrival e inferred) m) m)
include h

/-- A crossing that keeps the pit places and the order. -/
theorem Crossing.settlesAlone {d : Context} {l : List RecordBody} {time : Ticks}
    (stage : At m e time d m.pit m.order (acceptCrossing (singleReport s g code count arrival e inferred) m) l) :
    ∃ t, exec i s = .next t ∧ Outputs 0x89 { mirrored s g code count with contexts := s.contexts.set e d } t ∧
      Told s t e time l := by
  rw [h.same.pit, h.same.order] at stage
  obtain ⟨outputs, told⟩ := h.settles stage
  exact ⟨_, h.run, (mirrored_set s g code count _) ▸ outputs, told⟩

/-- A black flag in a crossing that keeps the order. -/
theorem Crossing.flagsAlone {u : Context} {f : Bool} {l : List RecordBody} {time : Ticks}
    (stage : FlaggedAt m e time u m.pit m.order f (acceptCrossing (singleReport s g code count arrival e inferred) m)
      l) :
    ∃ t, exec i s = .next t ∧ FlagEnds s (struck e u (some f) (mirrored s g code count)) t e time l := by
  rw [h.same.pit, h.same.order] at stage
  exact ⟨_, h.run, (mirrored_self s g code count) ▸ h.flags stage⟩

/-- A car that has left the running, or has its jump start charged already. -/
theorem Crossing.leaves (out : (ctx s e).state = .finished ∨ (ctx s e).state = .retired ∨
    ((ctx s e).state = .grid ∧ (ctx s e).jumpFlagged = true)) :
    ∃ t, exec i s = .next t ∧ Outputs 0x01 { mirrored s g code count with contexts := s.contexts.set e { ctx s e with
      last := some (crossingOf s g (converted s g count arrival).1) } } t ∧ RecordsKept s t ∧ LampKept s t := by
  rw [← same_ctx h.same] at out
  rw [acceptCrossing_records (x := singleReport s g code count arrival e inferred) out] at h
  rw [← same_ctx h.same, ← h.same.contexts]
  exact ⟨_, h.run, h.puts⟩

/-- A car on its grid that is charged with a jump start. -/
theorem Crossing.jumps (grid : (ctx s e).state = .grid) (unflagged : (ctx s e).jumpFlagged = false)
    (fair : (ctx s e).disqualified = false) :
    let time := (converted s g count arrival).1
    let p := judged s .jumpStart { ctx s e with jumpFlagged := true }
    let u : Context := { p.1 with last := some (crossingOf s g time) }
    ∃ t, exec i s = .next t ∧
      (¬FlagsCar p.2 → Outputs 0x89 { mirrored s g code count with contexts := s.contexts.set e u } t ∧
        Told s t e time [.call p.2]) ∧
      (FlagsCar p.2 → FlagEnds s (struck e u (some (ruleOf s .jumpStart).enforce) (mirrored s g code count)) t e time
        [.call p.2]) := by
  rw [← same_ctx h.same] at grid unflagged fair
  have plain := jump_plain (x := singleReport s g code count arrival e inferred) rfl rfl grid unflagged
  have flagged := jump_flagged (x := singleReport s g code count arrival e inferred) rfl rfl grid unflagged fair
  rw [same_judged h.same, same_ctx h.same] at plain flagged
  rw [same_ruleOf h.same] at flagged
  by_cases flag : FlagsCar (judged s .jumpStart { ctx s e with jumpFlagged := true }).2
  · obtain ⟨t, run, ends⟩ := h.flagsAlone (flagged flag)
    exact ⟨t, run, fun no => absurd flag no, fun _ => ends⟩
  · obtain ⟨t, run, ends⟩ := h.settlesAlone (plain flag)
    exact ⟨t, run, fun _ => ends, fun yes => absurd yes flag⟩

/-- A car that repeats its pit entry. -/
theorem Crossing.repeats (charged : foul = true ↔ Foul s g e) (pit : (ctx s e).state = .inPit)
    (role : (gate s g).role = .pitEntry) :
    let time := (converted s g count arrival).1
    let p := judged s .changeFoul (ctx s e)
    let last := some (crossingOf s g time)
    let set (c : Context) : State := { mirrored s g code count with contexts := s.contexts.set e c }
    (foul = false → ∃ t, exec i s = .next t ∧ Told s t e time [] ∧
      Outputs 0x89 (set { ctx s e with last := last }) t) ∧
    (foul = true → (ctx s e).disqualified = false → ∃ t, exec i s = .next t ∧
      (¬FlagsCar p.2 → Told s t e time [.call p.2] ∧ Outputs 0x89 (set { p.1 with last := last }) t) ∧
      (FlagsCar p.2 →
        FlagEnds s (struck e { p.1 with last := last } (some (ruleOf s .changeFoul).enforce) (mirrored s g code count))
          t e time [.call p.2])) := by
  have foulAt := same_foul h.same g code count arrival e inferred
  rw [← same_ctx h.same] at pit
  have clean := repeat_clean (x := singleReport s g code count arrival e inferred)
    (time := (converted s g count arrival).1) rfl pit role
  have plain := repeat_plain (x := singleReport s g code count arrival e inferred) rfl rfl pit role
  have flagged := repeat_flagged (x := singleReport s g code count arrival e inferred) rfl rfl pit role
  rw [same_judged h.same, same_ctx h.same] at plain flagged
  rw [same_ctx h.same] at clean
  rw [same_ruleOf h.same] at flagged
  rw [foulAt, ← charged] at clean plain flagged
  refine ⟨fun no => ?_, fun yes fair => ?_⟩
  · obtain ⟨t, run, outputs, told⟩ := h.settlesAlone (clean (by rw [no]; exact Bool.false_ne_true))
    exact ⟨t, run, told, outputs⟩
  · by_cases flag : FlagsCar (judged s .changeFoul (ctx s e)).2
    · obtain ⟨t, run, ends⟩ := h.flagsAlone (flagged yes fair flag)
      exact ⟨t, run, fun no => absurd flag no, fun _ => ends⟩
    · obtain ⟨t, run, outputs, told⟩ := h.settlesAlone (plain yes flag)
      exact ⟨t, run, fun _ => ⟨told, outputs⟩, fun yes => absurd yes flag⟩

/-- A car that enters the pit lane. -/
theorem Crossing.entersPit (charged : foul = true ↔ Foul s g e)
    (on : (ctx s e).state = .running ∨ (ctx s e).state = .offTrack) (role : (gate s g).role = .pitEntry) :
    let c := ctx s e
    let time := (converted s g count arrival).1
    let work := begun s e foul
    let d : Context := { work.1 with
      missed := c.missed + if c.progressTime = none then 0
        else (missedLines s.settings.timing.lines c.expected (zoneLine s g)).length
      expected := 0, last := some (crossingOf s g time) }
    (Spared work.2 → ∃ t, exec i s = .next t ∧ Told s t e time work.2 ∧
      Outputs 0x89 { mirrored s g code count with
        contexts := s.contexts.set e { d with
          state := .inPit, deadline := none
          marks := ⟨c.marks.neutral, c.marks.lowConf || (converted s g count arrival).2, c.marks.inferred || inferred,
            c.marks.drill⟩
          transit := some ⟨time, 0, !d.owed.isEmpty⟩
          owed := d.owed.modifyHead fun o => { o with inService := true } }
        pit := if d.owed = [] then s.pit else { s.pit with marks := s.pit.marks.set e none } } t) ∧
    (c.disqualified = false → ∀ b, RecordBody.call b ∈ work.2 → FlagsCar b →
      ∃ t, exec i s = .next t ∧
        FlagEnds s (struck e d (some (ruleOf s b.kind).enforce) (mirrored s g code count)) t e time work.2) := by
  have foulAt := charged.trans (same_foul h.same g code count arrival e inferred).symm
  have zone : zoneLine s g = 0 := if_neg (by rw [role]; exact GateRole.noConfusion)
  rw [← same_ctx h.same] at on
  have clean := pitEntry_at (e := e) (x := singleReport s g code count arrival e inferred) rfl rfl role on foul foulAt
  have flagged := fun fair b => pitEntry_flagged (e := e) (x := singleReport s g code count arrival e inferred) rfl rfl
    role on foul foulAt fair (b := b)
  rw [same_begun h.same, same_ctx h.same, h.same.settings] at clean flagged
  have marks := begun_marks (foul := foul) (by rw [same_ctx h.same] at on; exact on)
  rw [zone]
  intro c time work d
  refine ⟨fun spared => ?_, fun fair b told flag => ?_⟩
  · obtain ⟨outputs, told⟩ := h.settles (clean spared)
    rw [h.same.pit, h.same.order, mirrored_put, joinMarks_singleReport, marks] at outputs
    exact ⟨_, h.run, told, outputs⟩
  · have stage := flagged fair b told flag
    rw [same_ruleOf h.same] at stage
    exact h.flagsAlone stage

/-! #### The moving car (R73, R74, R76, R89, R91) -/

/-- The crossing of a moving car, as the statement says it. -/
def MovingCar (s : State) (g : GateId) (e : Entry) : Prop :=
  ((ctx s e).state = .running ∨ (ctx s e).state = .offTrack ∨ (ctx s e).state = .inPit) ∧
  (gate s g).role ≠ .pitEntry ∧
  ¬((ctx s e).state ≠ .inPit ∧ (ctx s e).progressTime.isSome = true ∧ 2 ≤ s.settings.timing.lines ∧
    (gate s g).role = .line ∧ ∃ l, (ctx s e).last = some l ∧ l.role = .line ∧ l.line = zoneLine s g)

theorem Crossing.moving (moving : MovingCar s g e) : Moving m (singleReport s g code count arrival e inferred) where
  state := by rw [same_ctx h.same]; exact moving.1
  role := moving.2.1
  fresh := by
    rw [same_ctx h.same, same_lines h.same]
    intro out raced
    rw [← Bool.not_eq_true, isReCross_iff]
    rintro ⟨two, role, l, last, line, same⟩
    have zone : zoneLine s g = (gate s g).line := if_pos role
    exact moving.2.2 ⟨out, raced, two, role, l, last, line, same.trans zone.symm⟩

/-- A lane foul or a short stop that costs the moving car a black flag. -/
theorem Crossing.movesOut (charged : foul = true ↔ Foul s g e) (moving : MovingCar s g e)
    (fair : (ctx s e).disqualified = false) (b : CallBody) (told : RecordBody.call b ∈ (begun s e foul).2)
    (flag : FlagsCar b) :
    ∃ t, exec i s = .next t ∧
      FlagEnds s (struck e { (begun s e foul).1 with last := some (crossingOf s g (converted s g count arrival).1) }
        (some (ruleOf s b.kind).enforce) (mirrored s g code count)) t e (converted s g count arrival).1
        (begun s e foul).2 := by
  have foulAt := charged.trans (same_foul h.same g code count arrival e inferred).symm
  have stage := moving_flagged (e := e) (h.moving moving) rfl rfl foul foulAt (b := b)
  rw [same_begun h.same, same_ctx h.same, same_ruleOf h.same] at stage
  exact h.flagsAlone (stage fair told flag)

/-- The state before the lane check of a moving car's crossing, from which the crossing of its line begins. -/
theorem Crossing.begins (charged : foul = true ↔ Foul s g e) (moving : MovingCar s g e)
    (spared : Spared (begun s e foul).2) :
    let x := singleReport s g code count arrival e inferred
    ∃ v, acceptCrossing x m = crossFor x (decide ((ctx s e).state = .inPit)) v ∧ Began (ctx s e) (ctx v e) ∧
      lines v = s.settings.timing.lines ∧
      At m e (converted s g count arrival).1 (begun s e foul).1 (pitBegun m e) m.order (checkFoul x v)
        (begun s e foul).2 ∧
      Began (ctx s e) (begun s e foul).1 := by
  have foulAt := charged.trans (same_foul h.same g code count arrival e inferred).symm
  have stage := moving_begun (e := e) (h.moving moving) rfl rfl foul foulAt
  rw [same_begun h.same, same_ctx h.same, h.same.settings] at stage
  obtain ⟨v, d, run, rfl, began, numbered, start, ran⟩ := stage spared
  exact ⟨v, run, began, numbered, start, ran⟩

theorem Crossing.launched_eq (x : Report) (neutral : Bool) (d : Context) :
    launched m x neutral d = launched s x neutral d := by
  unfold launched
  dsimp only
  rw [same_overdueFrom h.same, h.same.settings]

theorem Crossing.lineCrossed_eq (x : Report) (n : Nat) (split : Option Ticks) (d : Context) :
    lineCrossed m x n split d = lineCrossed s x n split d := by
  unfold lineCrossed
  rw [h.same.settings]

theorem Crossing.withDeadline_eq (time : Ticks) (j : Line) : withDeadline m time j = withDeadline s time j := by
  unfold withDeadline
  rw [same_overdueFrom h.same]

theorem Crossing.launchLap_eq {d : Context} (ran : Began (ctx s e) d) (D : Context) (time : Option Ticks)
    (missed : Nat) :
    launchLap m (singleReport s g code count arrival e inferred) time missed (decide ((ctx s e).state = .inPit)) d
        (standingOf m e D (placedList m e D)) =
      lapZero s e (converted s g count arrival).2 inferred (placedAs s e D (placedList m e D)) time missed := by
  unfold launchLap lapZero
  rw [standing_placedAs h.same, h.same.settings, fuel_of_began ran]
  rfl

/-- The launch of a moving car. -/
theorem Crossing.launches (charged : foul = true ↔ Foul s g e) (moving : MovingCar s g e)
    (spared : Spared (begun s e foul).2) (fresh : (ctx s e).progressTime = none) (zero : zoneLine s g = 0) :
    let time := (converted s g count arrival).1
    let low := (converted s g count arrival).2
    let L := s.settings.timing.lines
    ∃ neutral : Bool, (neutral = true ↔ NeutralStart s time) ∧
      Placing s g code count i e time (begun s e foul).2 { (begun s e foul).1 with
        lapStart := some time, crossed := [], splits := [], missed := 0
        marks := ⟨neutral, low, inferred, false⟩
        expected := nextLine L 0, last := some (crossingOf s g time)
        progress := 0, progressTime := some time, ring := ringed (ctx s e).ring 0 time
        deadline := overdueFrom s time (nextLine L 0) } id
        fun w => [lapZero s e low inferred w (s.session.greenTime.map fun x => time - x) 0] := by
  obtain ⟨v, run, began, -, start, ran⟩ := h.begins charged moving spared
  have launch := crossFor_launches (x := singleReport s g code count arrival e inferred)
    (viaPit := decide ((ctx s e).state = .inPit)) ((progress_of_began began).trans fresh) zero
  obtain ⟨neutral, marked, work⟩ := start.launch (viaPit := decide ((ctx s e).state = .inPit)) rfl rfl rfl ran.running
    ((charged_of_began ran).trans (congrArg _ (same_ctx h.same e).symm))
  rw [← launch, ← run, h.launched_eq] at work
  rw [← ring_of_began ran]
  refine ⟨neutral, marked.trans (same_neutralStart h.same _), h.places (fun on => ?_) fun out fair => ?_⟩
  · dsimp only
    rw [← h.launchLap_eq ran, ← h.same.session]
    exact (work.1 on).2
  · exact work.2 out ((fair_of_began ran).trans fair)

/-- The lost launch of a moving car. -/
theorem Crossing.losesLaunch (charged : foul = true ↔ Foul s g e) (moving : MovingCar s g e)
    (spared : Spared (begun s e foul).2) (fresh : (ctx s e).progressTime = none) (other : zoneLine s g ≠ 0) :
    let time := (converted s g count arrival).1
    let low := (converted s g count arrival).2
    let L := s.settings.timing.lines
    let j := zoneLine s g
    ∃ neutral : Bool, (neutral = true ↔ NeutralStart s s.clock.now) ∧
      Placing s g code count i e time (begun s e foul).2 { (begun s e foul).1 with
        lapStart := none, crossed := [j], splits := [], missed := j.val - 1
        marks := ⟨neutral, low, inferred, false⟩
        expected := nextLine L j, last := some (crossingOf s g time)
        progress := (ctx s e).laps * L + j.val, progressTime := some time
        ring := ringed (ctx s e).ring ((ctx s e).laps * L + j.val) time }
        (withDeadline s time (nextLine L j))
        fun w => [lapZero s e low inferred w none 1, .sector j (gate s g).lane none (j.val + 1)] := by
  obtain ⟨v, run, began, -, start, ran⟩ := h.begins charged moving spared
  have lose := crossFor_loses (x := singleReport s g code count arrival e inferred)
    (viaPit := decide ((ctx s e).state = .inPit)) ((progress_of_began began).trans fresh) other
  obtain ⟨neutral, marked, work⟩ := start.lostLaunch (viaPit := decide ((ctx s e).state = .inPit)) rfl rfl rfl
    ran.running ((charged_of_began ran).trans (congrArg _ (same_ctx h.same e).symm))
  rw [← lose, ← run, h.lineCrossed_eq, lineCrossed_lapOpened ran, h.same.settings, h.withDeadline_eq] at work
  rw [← (line_of_zoneLine other).2]
  refine ⟨neutral, marked.trans ((same_neutralStart h.same _).trans (by rw [h.same.now])),
    h.places (fun on => ?_) fun out fair => ?_⟩
  · dsimp only
    rw [← h.launchLap_eq ran]
    exact (work.1 on).2
  · exact work.2 out ((fair_of_began ran).trans fair)

/-- A moving car that crosses another line than line 0, without having missed that. -/
theorem Crossing.crossesLine (charged : foul = true ↔ Foul s g e) (moving : MovingCar s g e)
    (spared : Spared (begun s e foul).2) (raced : (ctx s e).progressTime.isSome = true) (other : zoneLine s g ≠ 0)
    (kept : (0 : Line) ∉ missedLines s.settings.timing.lines (ctx s e).expected (zoneLine s g)) :
    let c := ctx s e
    let time := (converted s g count arrival).1
    let low := (converted s g count arrival).2
    let L := s.settings.timing.lines
    let j := zoneLine s g
    let missed := missedLines L c.expected j
    let split := c.last.map fun l => time - l.time
    Placing s g code count i e time (begun s e foul).2 { (begun s e foul).1 with
        missed := c.missed + missed.length
        crossed := c.crossed ++ [j]
        splits := c.splits ++ (split.map fun x => (j, x)).toList
        marks := ⟨c.marks.neutral, c.marks.lowConf || low, c.marks.inferred || inferred, c.marks.drill⟩
        expected := nextLine L j, last := some (crossingOf s g time)
        progress := c.laps * L + j.val, progressTime := some time
        ring := ringed c.ring (c.laps * L + j.val) time }
      (withDeadline s time (nextLine L j))
      fun _ => [.sector j (gate s g).lane split (missed.length + 1)] := by
  obtain ⟨v, run, began, numbered, start, ran⟩ := h.begins charged moving spared
  rw [← numbered, ← expected_of_began began] at kept
  have cross := crossFor_crosses (x := singleReport s g code count arrival e inferred)
    (viaPit := decide ((ctx s e).state = .inPit)) ((congrArg _ (progress_of_began began)).trans raced) other kept
  have work := start.ordinaryCrossing rfl rfl rfl
    ran.running ((charged_of_began ran).trans (congrArg _ (same_ctx h.same e).symm))
  dsimp only at work
  rw [← cross, ← run, h.lineCrossed_eq, lineCrossed_began ran, h.same.settings, h.withDeadline_eq,
    joinMarks_singleReport, expected_of_began ran, last_of_began ran] at work
  rw [← (line_of_zoneLine other).2]
  exact h.places (fun on => (work.1 on).2) fun out fair => work.2 out ((fair_of_began ran).trans fair)

/-- A car that crosses its last line again. -/
theorem Crossing.crossesAgain (on : (ctx s e).state = .running ∨ (ctx s e).state = .offTrack)
    (raced : (ctx s e).progressTime.isSome = true)
    (again : 2 ≤ s.settings.timing.lines ∧ (gate s g).role = .line ∧
      ∃ l, (ctx s e).last = some l ∧ l.role = .line ∧ l.line = zoneLine s g) :
    let c := ctx s e
    let time := (converted s g count arrival).1
    ∃ t, exec i s = .next t ∧
      Outputs 0x01 { mirrored s g code count with contexts := s.contexts.set e { c with
        state := .running, last := some (crossingOf s g time)
        marks := ⟨c.marks.neutral, c.marks.lowConf || (converted s g count arrival).2, c.marks.inferred || inferred,
          c.marks.drill⟩
        deadline := overdueFrom s time c.expected } } t ∧
      RecordsKept s t ∧ LampKept s t := by
  obtain ⟨two, role, l, last, line, same⟩ := again
  have zone : zoneLine s g = (gate s g).line := if_pos role
  have reCross : isReCross s.settings.timing.lines (singleReport s g code count arrival e inferred) (ctx s e) = true :=
    (isReCross_iff _ _ _).2 ⟨two, role, l, last, line, same.trans zone⟩
  rw [← same_ctx h.same] at on raced reCross
  rw [← same_lines h.same] at reCross
  rw [acceptCrossing_reCrosses (e := e) rfl on raced reCross, joinMarks_singleReport, same_overdueFrom h.same,
    same_ctx h.same] at h
  rw [← h.same.contexts]
  exact ⟨_, h.run, h.puts⟩

end

/-- Settles O58, a clause per state of the car: each is the end of its stages behind the mirror step. -/
theorem crossingsAreTaken : Obligations.CrossingsAreTaken := by
  refine ⟨missedLines_facts, fun s g code count arrival e inferred foul accepts charged => ?_⟩
  obtain ⟨m, h⟩ := crossing_of_accepts accepts
  exact ⟨h.leaves, h.jumps, h.entersPit charged, h.repeats charged,
    fun moving fair b => h.movesOut charged moving fair b,
    h.launches charged, h.losesLaunch charged, h.crossesLine charged, h.crossesAgain⟩

end Sys2Proof.Proofs.AcceptedCrossings

/-! ### Proofs: lap closes

The figures of a placed car, and what a crossing does that closes a lap (R80 to R86, R102 to R105, R121 to R124). -/

namespace Sys2Proof.Proofs.LapCloses

open Sys2Proof Machine Safety CrossingPath TimedCrossings AcceptedCrossings

/-! #### The figures of a placed car (R103 to R105) -/

theorem idxOf_split {α : Type} [DecidableEq α] {pre post : List α} {a : α} (fresh : a ∉ pre) :
    (pre ++ a :: post).idxOf a = pre.length := by
  rw [List.idxOf_append_of_notMem fresh, List.idxOf_cons_self, Nat.add_zero]

section
variable {s : State} {e b : Entry} {pre post : List Entry}

theorem standing_gap_of_behind (order : s.order.list = pre ++ b :: e :: post) (fresh : e ∉ pre) (other : b ≠ e) :
    (standing s e).gap =
      (newestAt (ctx s b).ring (ctx s e).progress).map fun t => (ctx s e).progressTime.getD 0 - t := by
  have place : s.order.list.idxOf e = pre.length + 1 := by
    rw [order, List.append_cons, idxOf_split (by simp [fresh, other.symm]), List.length_append, List.length_singleton]
  have ahead : s.order.list[pre.length]? = some b := by rw [order]; simp
  unfold standing
  dsimp only
  rw [place, if_neg (Nat.succ_ne_zero _), Nat.add_sub_cancel, ahead]
  rfl

theorem newestAt_eq_none {ring : List (Nat × Ticks)} {p : Nat} (none_at : ∀ x ∈ ring, x.1 ≠ p) :
    newestAt ring p = none := by
  unfold newestAt
  rw [List.find?_eq_none.2 fun x here => by simpa using none_at x (List.mem_reverse.1 here)]
  rfl

theorem newestAt_split {older newer : List (Nat × Ticks)} {p : Nat} {t : Ticks} (none_at : ∀ x ∈ newer, x.1 ≠ p) :
    newestAt (older ++ (p, t) :: newer) p = some t := by
  unfold newestAt
  rw [List.reverse_append, List.reverse_cons, List.append_assoc, List.find?_append,
    List.find?_eq_none.2 fun x here => by simpa using none_at x (List.mem_reverse.1 here)]
  simp

/-- The figures of a car are those of its place, of the ring ahead of it and of the leader. -/
theorem stands_standing (s : State) (e : Entry) : Stands s e (standing s e) where
  position pre post order fresh := by
    rw [show (standing s e).position = s.order.list.idxOf e + 1 from rfl, order, idxOf_split fresh]
  leads first := by
    obtain ⟨rest, order⟩ := List.head?_eq_some_iff.1 first
    have place : s.order.list.idxOf e = 0 := by rw [order, List.idxOf_cons_self]
    exact if_pos place
  apart pre b post order fresh other none_at := by
    rw [standing_gap_of_behind order fresh other, newestAt_eq_none none_at]
    rfl
  gap pre b post older newer t time order fresh other ring none_at at_time := by
    rw [standing_gap_of_behind order fresh other, ring, newestAt_split none_at, at_time]
    split
    · next early => exact congrArg some (Nat.sub_eq_zero_of_le early.le)
    · rfl
  lapsDown h first := by
    unfold standing
    rw [first]
    rfl

end

/-! #### A closing crossing (R80 to R84) -/

/-- A crossing that closes a lap: the gate and its report, the car, and whether a lane foul has been made. -/
structure LapClose where
  s : State
  g : GateId
  count : Count
  arrival : Ticks
  e : Entry
  inferred : Bool
  foul : Bool

namespace LapClose

section
variable (K : LapClose)

def c : Context := ctx K.s K.e
def time : Ticks := (converted K.s K.g K.count K.arrival).1
def low : Bool := (converted K.s K.g K.count K.arrival).2
def L : Nat := K.s.settings.timing.lines
def j : Line := zoneLine K.s K.g
def missed : List Line := missedLines K.L K.c.expected K.j
def work : Context × List RecordBody := begun K.s K.e K.foul

/-- The marks of the closed lap (R76). -/
def marks : LapMarks :=
  ⟨K.c.marks.neutral, K.c.marks.lowConf || K.low, K.c.marks.inferred || K.inferred, K.c.marks.drill⟩

/-- The misses that close the lap; those behind line 0 open the next (R80). -/
def closing : Nat := if K.j = 0 then K.missed.length else (K.missed.takeWhile fun k => k ≠ 0).length + 1

def misses : Nat := K.c.missed + K.closing
def counted : Bool := decide (K.misses ≤ K.s.settings.timing.missTol)
def laps : Nat := if K.counted then min 9999 (K.c.laps + 1) else K.c.laps
def lapTime : Option Ticks := if K.j = 0 then K.c.lapStart.map fun x => K.time - x else none
def viaPit : Bool := decide (K.c.state = .inPit)

/-- The lap is a new best (R83). -/
def best : Bool := isNewBest K.c.bestLap K.lapTime (eligible K.counted K.marks K.viaPit)

/-- The context up to the lap's count (R82). -/
def ran : Context := { K.work.1 with missed := K.misses, marks := K.marks, laps := K.laps }

/-- The same with the LINE_MISS of a lap that is not counted. -/
def judge : Context × List RecordBody := if K.counted then (K.ran, []) else charge K.s .lineMiss (K.ran, [])

/-- The context with the lap's time. -/
def closed : Context :=
  { K.judge.1 with lastLap := K.lapTime, bestLap := if K.best then K.lapTime else K.c.bestLap }

/-- The LAP record (R84). -/
def record (w : State) : RecordBody :=
  .lap {
    number := K.c.laps + 1
    time := K.lapTime
    flags := ⟨K.counted, K.marks.neutral, K.marks.lowConf, K.marks.inferred, K.marks.drill, K.viaPit, K.best⟩
    missed := K.misses, splits := K.c.splits, standing := standing w K.e
    fuel := if K.s.settings.fuel.cap = 0 then none else some K.c.fuel }

/-- The SECTOR record of a close at line 0 itself. -/
def sector : List RecordBody :=
  if K.j = 0 then [.sector 0 (gate K.s K.g).lane (K.c.last.map fun l => K.time - l.time) (K.missed.length + 1)] else []

/-- The SECTOR record of the line that reveals a missed line 0. -/
def revealing : List RecordBody :=
  if K.j = 0 then [] else [.sector K.j (gate K.s K.g).lane none (K.missed.length + 1)]

/-- The records in front of the placement. -/
def front : List RecordBody := K.work.2 ++ K.sector ++ K.judge.2

/-- The context with which the car races on. -/
def next (neutral : Bool) : Context := { K.closed with
  lapStart := if K.j = 0 then some K.time else none
  crossed := if K.j = 0 then [] else [K.j]
  splits := [], missed := if K.j = 0 then 0 else K.missed.length - K.closing
  marks := ⟨neutral, K.low, K.inferred, false⟩
  expected := nextLine K.L K.j, last := some (crossingOf K.s K.g K.time)
  progress := K.laps * K.L + K.j.val, progressTime := some K.time
  ring := ringed K.c.ring (K.laps * K.L + K.j.val) K.time }

/-- The context with which the car has finished. -/
def finish : Context := { K.closed with
  state := .finished, finishTime := some K.time, deadline := none, owed := []
  penaltySeconds := K.closed.owed.foldl (fun x o => min 65535 (x + o.fallback)) K.closed.penaltySeconds
  expected := nextLine K.L K.j, last := some (crossingOf K.s K.g K.time)
  progress := K.laps * K.L, progressTime := some K.time, ring := ringed K.c.ring (K.laps * K.L) K.time }

/-- The records of the finish. -/
def arrives (w : State) : List RecordBody :=
  (K.closed.owed.map fun o => .serve .converted o.sanction none) ++ [K.record w] ++ K.revealing

/-- The crossing closes a lap, and the work in front of it has cost no black flag. -/
structure Closes : Prop where
  charged : K.foul = true ↔ Foul K.s K.g K.e
  state : K.c.state = .running ∨ K.c.state = .offTrack ∨ K.c.state = .inPit
  role : (gate K.s K.g).role ≠ .pitEntry
  raced : K.c.progressTime.isSome = true
  zero : K.j = 0 ∨ (0 : Line) ∈ K.missed
  fresh : K.c.state ≠ .inPit → 2 ≤ K.L → (gate K.s K.g).role = .line →
    ∀ l, K.c.last = some l → l.role = .line → l.line ≠ K.j
  spared : Spared K.work.2

end

end LapClose

theorem crossFor_closes {x : Report} {v : State} {viaPit : Bool} (raced : (ctx v x.entry).progressTime.isSome = true)
    (zero : x.countsFor = 0 ∨ (0 : Line) ∈ missedLines (lines v) (ctx v x.entry).expected x.countsFor) :
    crossFor x viaPit v = closeLap x x.countsFor viaPit v := by
  unfold crossFor
  dsimp only
  rw [Option.isNone_eq_false_iff.2 raced, if_neg Bool.false_ne_true]
  by_cases at_zero : x.countsFor = 0
  · rw [if_pos at_zero, at_zero]
  · rw [if_neg at_zero, if_pos (zero.resolve_left at_zero)]

section
variable {K : LapClose}

theorem LapClose.Closes.moving (k : K.Closes) : MovingCar K.s K.g K.e :=
  ⟨k.state, k.role, fun ⟨out, _, two, line, l, last, atLine, same⟩ => k.fresh out two line l last atLine same⟩

/-- The misses of the lap, as the lap engine counts them. -/
theorem LapClose.Closes.closing_eq (k : K.Closes) : (closingMisses K.missed).length = K.closing := by
  unfold LapClose.closing
  by_cases at_zero : K.j = 0
  · have none_zero : (0 : Line) ∉ K.missed := by
      unfold LapClose.missed
      rw [at_zero]
      exact missedFrom_not_mem _ _ _ _
    rw [if_pos at_zero, closingMisses_all _ none_zero]
  · rw [if_neg at_zero]
    exact closingMisses_length _ (k.zero.resolve_left at_zero)

end

/-! #### The close up to its placement (R80 to R83) -/

/-- The law of a close, by names for its figures. -/
theorem closeLap_at {m v0 : State} {x : Report} {e : Entry} {time : Ticks} {d : Context} {P : Pit}
    {l sector : List RecordBody} {j : Line} {missed : List Line} {closing n : Nat} {counted viaPit best : Bool}
    {p : Context × List RecordBody} {lapTime : Option Ticks} (h : At m e time d P m.order (checkFoul x v0) l)
    (entry : x.entry = e) (at_time : x.time = time) (running : d.state = .running)
    (missed_eq : missedLines m.settings.timing.lines d.expected j = missed)
    (closing_eq : (closingMisses missed).length = closing) (n_eq : d.missed + closing = n)
    (counted_eq : decide (n ≤ m.settings.timing.missTol) = counted) (p_eq : lapJudged m x n counted d = p)
    (time_eq : (if j = 0 then d.lapStart.map fun k => time - k else none) = lapTime)
    (best_eq : isNewBest d.bestLap lapTime (eligible counted (lapEnded x n counted d).marks viaPit) = best)
    (sector_eq : (if j = 0 then [.sector 0 x.lane (d.last.map fun k => time - k.time) (missed.length + 1)] else []) =
      sector) :
    (¬Spared p.2 → d.disqualified = false →
      FlaggedAt m e time { p.1 with last := some x.toLast } P m.order (ruleOf m .lineMiss).enforce
        (closeLap x j viaPit v0) (l ++ sector ++ p.2)) ∧
    (Spared p.2 →
      Charged (lapEnded x n counted d) p.1 ∧
      ∃ y, closeLap x j viaPit v0 = closeRest x j (missed.length - closing) (missed.length + 1)
          (closingLap x n counted viaPit lapTime best d) y ∧
        At m e time { p.1 with lastLap := lapTime, bestLap := if best then lapTime else p.1.bestLap } P m.order y
          (l ++ sector ++ p.2)) := by
  subst missed_eq closing_eq n_eq counted_eq p_eq time_eq best_eq sector_eq
  exact h.closeLap rfl entry at_time running

/-- The report of the closing crossing. -/
def LapClose.report (K : LapClose) (code : Byte) : Report :=
  singleReport K.s K.g code K.count K.arrival K.e K.inferred

section
variable {K : LapClose} {m : State} {code : Byte} {i : Instr}

theorem LapClose.marks_eq (ran : Began K.c K.work.1) : joinMarks (K.report code) K.work.1.marks = K.marks := by
  rw [marks_of_began ran]
  exact joinMarks_singleReport _

theorem LapClose.lapEnded_eq (ran : Began K.c K.work.1) :
    lapEnded (K.report code) K.misses K.counted K.work.1 = K.ran := by
  have laps : (if K.counted then min 9999 (K.work.1.laps + 1) else K.work.1.laps) = K.laps := by
    rw [laps_of_began ran]
    rfl
  rw [LapClose.ran, ← K.marks_eq (code := code) ran, ← laps]
  rfl

/-- The body of the LAP record, but for its figures. -/
def LapClose.body (K : LapClose) (code : Byte) : LapBody :=
  closingLap (K.report code) K.misses K.counted K.viaPit K.lapTime K.best K.work.1

theorem LapClose.closes_stage (h : Crossing K.s K.g code K.count i (acceptCrossing (K.report code) m) m)
    (k : K.Closes) :
    Began K.c K.work.1 ∧
    (¬Spared K.judge.2 → K.c.disqualified = false →
      FlaggedAt m K.e K.time { K.judge.1 with last := some (crossingOf K.s K.g K.time) } m.pit m.order
        (ruleOf m .lineMiss).enforce (acceptCrossing (K.report code) m) K.front) ∧
    (Spared K.judge.2 → Charged K.ran K.judge.1 ∧
      ∃ y, acceptCrossing (K.report code) m = closeRest (K.report code) K.j (K.missed.length - K.closing)
          (K.missed.length + 1) (K.body code) y ∧
        At m K.e K.time K.closed (pitBegun m K.e) m.order y K.front) := by
  obtain ⟨v, run, began, numbered, start, ran⟩ := h.begins k.charged k.moving k.spared
  have close : crossFor (K.report code) K.viaPit v = closeLap (K.report code) K.j K.viaPit v := by
    refine crossFor_closes ((congrArg _ (progress_of_began began)).trans k.raced) (k.zero.imp_right fun zero => ?_)
    rw [numbered, show (ctx v (K.report code).entry).expected = _ from expected_of_began began]
    exact zero
  have atEnd := K.lapEnded_eq (code := code) ran
  obtain ⟨flagged, closed⟩ := closeLap_at (x := K.report code) (j := K.j) (missed := K.missed) (closing := K.closing)
    (n := K.misses) (counted := K.counted) (viaPit := K.viaPit) (best := K.best) (p := K.judge) (lapTime := K.lapTime)
    (sector := K.sector) start rfl rfl ran.running
    (by rw [h.same.settings, expected_of_began ran]; rfl)
    k.closing_eq
    (by rw [missed_of_began ran]; rfl)
    (by rw [h.same.settings]; rfl)
    (by rw [lapJudged, same_charge h.same, show lapEnded _ _ _ (begun K.s K.e K.foul).1 = K.ran from atEnd]; rfl)
    (by rw [lapStart_of_began ran]; rfl)
    (by rw [bestLap_of_began ran, show lapEnded _ _ _ (begun K.s K.e K.foul).1 = K.ran from atEnd]; rfl)
    (by rw [last_of_began ran]; rfl)
  rw [← close, show crossFor (K.report code) K.viaPit v = _ from run.symm] at flagged closed
  refine ⟨ran, fun out fair => (flagged out ((fair_of_began ran).trans fair)).pit, fun on => ?_⟩
  obtain ⟨charged, y, rest, stage⟩ := closed on
  rw [show lapEnded _ _ _ (begun K.s K.e K.foul).1 = K.ran from atEnd] at charged
  refine ⟨charged, y, rest, ?_⟩
  have best : K.judge.1.bestLap = K.c.bestLap := by
    rw [charged.same]
    exact (bestLap_of_began ran : K.work.1.bestLap = K.c.bestLap)
  rw [best] at stage
  exact stage

end

/-! #### The rest of a close where the car races on (R82, R102, R161) -/

section
variable {s m T : State} {g : GateId} {code : Byte} {count : Count} {i : Instr} {e : Entry} {time : Ticks}
  (h : Crossing s g code count i T m) {S : Session} {d : Context} {P : Pit} {O : Order} {l : List RecordBody}
include h

/-- Stages that no black flag ends, behind a move of held-from. -/
theorem settlesIn (stage : At { m with session := S } e time d P O T l) :
    Outputs 0x89 { mirrored s g code count with contexts := s.contexts.set e d, pit := P, order := O, session := S }
      (settle T) ∧ Told s (settle T) e time l := by
  obtain ⟨t, run, outputs, told, -⟩ := stage.doneIn h.same h.emits h.high h.run
  cases Host.Outcome.next.inj (h.run.symm.trans run)
  exact ⟨outputs, told⟩

/-- Stages that a black flag ends outside CHEQUERED, behind a move of held-from. -/
theorem flagsIn {f : Bool} (on : S.state ≠ .chequered) (stays : s.session.state ≠ .chequered)
    (stage : FlaggedAt { m with session := S } e time d P O f T l) :
    FlagEnds s (struck e d (some f) { mirrored s g code count with pit := P, order := O, session := S }) (settle T) e
      time l := by
  have mirror := sameAs_mirrored s g code count
  let B := struck e d (some f) { s with pit := P, order := O }
  have copied := emits_congr h.emits B.contexts B.pit B.order s.resolver S B.penalty s.throttle
  have front : ({ mirrored s g code count with
      contexts := B.contexts, pit := B.pit, order := B.order, resolver := s.resolver, session := S
      penalty := B.penalty, throttle := s.throttle } : State) =
      struck e d (some f) { mirrored s g code count with pit := P, order := O, session := S } := by
    unfold B struck
    dsimp only
    rw [mirror.contexts, mirror.penalty, ← mirror.resolver, ← mirror.throttle]
  have back : ({ m with
      contexts := B.contexts, pit := B.pit, order := B.order, resolver := s.resolver, session := S
      penalty := B.penalty, throttle := s.throttle } : State) =
      struck e d (some f) { ({ m with session := S } : State) with pit := P, order := O } := by
    unfold B struck
    dsimp only
    rw [h.same.contexts, h.same.penalty, ← h.same.resolver, ← h.same.throttle]
  rw [front, back] at copied
  obtain ⟨t, run, outputs, told, -⟩ := crossing_done h.same h.emits h.high h.run
    (B0 := struck e d (some f) { mirrored s g code count with pit := P, order := O, session := S })
    (struck_link _ _ _ _) (by rw [struck_rstnLow]; exact mirror.rstnLow) copied (stage.stays (goesOn_of on)) stage.call
  cases Host.Outcome.next.inj (h.run.symm.trans run)
  exact ⟨fun _ => ⟨outputs, told⟩, fun ends => absurd (goesOn_of stays) ends⟩

end

theorem judged_charged (s : State) (k : IncidentKind) (c : Context) : (judged s k c).1.charged = c.charged := by
  unfold judged sanctioned
  dsimp only
  repeat' split
  all_goals rfl

namespace LapClose

section
variable {K : LapClose}

theorem closed_charged (ran : Began K.c K.work.1) : K.closed.charged = K.c.charged := by
  have judge : K.judge.1.charged = K.ran.charged := by
    unfold judge
    cases K.counted with
    | true => rfl
    | false => exact judged_charged K.s .lineMiss K.ran
  exact judge.trans (charged_of_began ran : K.work.1.charged = K.c.charged)

/-- What the close leaves of the car's context, where no black flag ends it. -/
structure Kept (K : LapClose) : Prop where
  running : K.closed.state = .running
  fair : K.closed.disqualified = K.c.disqualified
  laps : K.closed.laps = K.laps
  ring : K.closed.ring = K.c.ring
  fuel : K.closed.fuel = K.c.fuel
  charged : K.closed.charged = K.c.charged

theorem kept_of_charged (ran : Began K.c K.work.1) (judged : Charged K.ran K.judge.1) : K.Kept where
  running := (congrArg (·.state) judged.same).trans ran.running
  fair := (congrArg (·.disqualified) judged.same).trans (fair_of_began ran)
  laps := congrArg (·.laps) judged.same
  ring := (congrArg (·.ring) judged.same).trans (ring_of_began ran)
  fuel := (congrArg (·.fuel) judged.same).trans (fuel_of_began ran)
  charged := closed_charged ran

/-- The part with the car placed and its crossing's pit work done, in a session. -/
def base (K : LapClose) (code : Byte) (S : Session) (k : List Entry) : State :=
  { mirrored K.s K.g code K.count with
    pit := pitBegun K.s K.e, order := { K.s.order with list := k }, session := S }

theorem struck_base (code : Byte) (S : Session) (k : List Entry) (d : Context) :
    struck K.e d none (K.base code S k) = { mirrored K.s K.g code K.count with
      contexts := K.s.contexts.set K.e d, pit := pitBegun K.s K.e, order := { K.s.order with list := k }
      session := S } := by
  unfold base mirrored
  split <;> rfl

/-- The car races on with its next lap, in a session. -/
def RacesOn (K : LapClose) (code : Byte) (i : Instr) (S : Session) : Prop :=
  ∃ (t : State) (k : List Entry) (neutral : Bool), exec i K.s = .next t ∧
    (neutral = true ↔ NeutralStart K.s (if K.j = 0 then K.time else K.s.clock.now)) ∧
    let w := placedAs K.s K.e (K.next neutral) k
    let p := passesCharged K.s (K.next neutral) (overtaken K.s w K.e)
    let u := if K.counted then deadlinesChecked K.s p.1 else (p.1, [])
    let told := K.front ++ p.2 ++ [K.record w] ++ K.revealing ++ u.2
    Placed K.s w K.e ∧
    (p.1.state = .retired → K.c.disqualified = false →
      FlagEnds K.s (struck K.e p.1 (some (ruleOf K.s .cautionPass).enforce) (K.base code S k)) t K.e K.time
        (K.front ++ p.2)) ∧
    (p.1.state ≠ .retired → u.1.state = .retired → K.c.disqualified = false →
      FlagEnds K.s (struck K.e u.1 (some (ruleOf K.s .unserved).enforce) (K.base code S k)) t K.e K.time told) ∧
    (p.1.state ≠ .retired → u.1.state ≠ .retired →
      Outputs 0x89 (struck K.e { u.1 with deadline := overdueFrom K.s K.time (nextLine K.L K.j) } none
        (K.base code S k)) t ∧
      Told K.s t K.e K.time told)

variable {m : State} {code : Byte} {i : Instr}

theorem lapBegun_eq (kept : K.Kept) {m : State} (settings : m.settings = K.s.settings) (neutral : Bool) :
    lapBegun m (K.report code) K.j (K.missed.length - K.closing) neutral K.closed = K.next neutral := by
  rw [next, ← kept.laps, ← kept.ring, lapBegun, settings]
  rfl

theorem lapShown_eq (ran : Began K.c K.work.1) (settings : m.settings = K.s.settings) {k : Standing} {w : State}
    (figures : standing w K.e = k) : lapShown m (K.body code) K.c.fuel k = K.record w := by
  rw [record, ← K.marks_eq (code := code) ran, figures, ← settings, ← laps_of_began ran, ← splits_of_began ran]
  rfl

end

end LapClose

section
variable {s m : State} (same : SameAs s m) (S : Session) (e : Entry) (d : Context)

include same

/-- Two states that agree, their sessions replaced by one. -/
theorem sameAs_in : SameAs { s with session := S } { m with session := S } :=
  ⟨same.gates, same.now, same.contexts, rfl, same.settings, same.throttle, same.penalty, same.resolver, same.order,
    same.pit, same.rstnLow⟩

variable {S}

theorem passes_in (state : S.state = s.session.state) :
    passesCharged { m with session := S } d (passedBy { m with session := S } e d) =
      passesCharged s d (overtaken s (placedAs s e d (placedList { m with session := S } e d)) e) := by
  have calm : overtaken { s with session := S } (placedAs { s with session := S } e d
      (placedList { m with session := S } e d)) e =
      overtaken s (placedAs s e d (placedList { m with session := S } e d)) e := by
    unfold overtaken
    dsimp only
    rw [state]
    rfl
  rw [passesCharged_placedAs (sameAs_in same S), calm]
  rfl

theorem withDeadline_in (state : S.state = s.session.state) (time : Ticks) (j : Line) :
    withDeadline { m with session := S } time j = withDeadline s time j := by
  funext c
  unfold withDeadline
  rw [same_overdueFrom (sameAs_in same S)]
  unfold overdueFrom
  rw [state]
  rfl

end

section
variable {K : LapClose} {m : State} {code : Byte} {i : Instr}
  (h : Crossing K.s K.g code K.count i (acceptCrossing (K.report code) m) m)
include h

/-- The car races on where the session is told of nothing but held-from. -/
theorem LapClose.races (ran : Began K.c K.work.1) (kept : K.Kept) {y : State} {S : Session}
    (rest : acceptCrossing (K.report code) m = closeRest (K.report code) K.j (K.missed.length - K.closing)
      (K.missed.length + 1) (K.body code) y)
    (stage : At m K.e K.time K.closed (pitBegun m K.e) m.order y K.front)
    (state : S.state = K.s.session.state) (periods : S.periods = K.s.session.periods)
    (on : K.s.session.state ≠ .chequered)
    (tells : tellClose (ctx y K.e).laps y = { y with session := S }) : K.RacesOn code i S := by
  rw [same_pitBegun h.same] at stage
  have same := sameAs_in h.same S
  have line : K.j ≠ 0 → (K.report code).line = K.j := fun other => (line_of_zoneLine other).2
  have charged : K.closed.charged = (ctx m K.e).charged := by
    rw [kept.charged, same_ctx h.same]
    rfl
  obtain ⟨neutral, marked, flagged, raced, unserved⟩ := (stage.setSession S).closeOn (j := K.j)
    (after := K.missed.length - K.closing) (spanned := K.missed.length + 1) (lap := K.body code) (x := K.report code)
    tells rfl rfl kept.running line (state.trans_ne on) charged
  have begun_ := K.lapBegun_eq (code := code) kept same.settings neutral
  have shown := K.lapShown_eq (code := code) ran same.settings
    (standing_placedAs same K.e (K.next neutral) : standing (placedAs K.s K.e (K.next neutral) _) K.e = _)
  have ordered := same_placedOrder same K.e (K.next neutral)
  have numbered : m.settings.timing.lines = K.L := congrArg (·.timing.lines) h.same.settings
  dsimp only at flagged raced unserved
  rw [begun_, passes_in h.same K.e _ state, same_ruleOf same, ← rest, ordered] at flagged
  rw [begun_, passes_in h.same K.e _ state, same_deadlinesChecked same, ← rest, kept.fuel, shown,
    withDeadline_in h.same state, numbered, ordered] at raced
  rw [begun_, passes_in h.same K.e _ state, same_deadlinesChecked same, ← rest, kept.fuel, shown,
    same_ruleOf same, ordered] at unserved
  refine ⟨settle (acceptCrossing (K.report code) m), placedList { m with session := S } K.e (K.next neutral), neutral,
    h.run, ?_, placed_placedAs same K.e (K.next neutral), fun out fair => ?_, fun raceOn out fair => ?_,
    fun raceOn stays => ?_⟩
  · rw [marked, same_neutralStart same, same.now]
    unfold NeutralStart
    rw [periods]
  · exact flagsIn h (state.trans_ne on) on (flagged out (kept.fair.trans fair))
  · exact flagsIn h (state.trans_ne on) on (unserved raceOn out (kept.fair.trans fair))
  · obtain ⟨outputs, told⟩ := settlesIn h (raced raceOn stays).2
    rw [K.struck_base]
    exact ⟨outputs, told⟩

end

/-! #### The rest of a close where the car finishes (R82, R123, R162) -/

section
variable {s m z : State} {g : GateId} {code : Byte} {count : Count} {i : Instr} {e : Entry} {time : Ticks}
  {d : Context} {P : Pit} {O : Order} {l : List RecordBody}

theorem groupSet_behind (copied : Emits 1 0 (mirrored s g code count) m []) : groupSet .call m = groupSet .call s := by
  obtain ⟨link, mirror, -⟩ := mirrored_link s g code count
  rw [groupSet_outputs copied.out (by decide), mirror]
  rfl

/-- The work of a crossing, told from the state behind the mirror step. -/
theorem emits_behind (same : SameAs s m) (copied : Emits 1 0 (mirrored s g code count) m [])
    (stage : At m e time d P O z l) :
    Emits 0x89 l.length { mirrored s g code count with contexts := s.contexts.set e d, pit := P, order := O } z
      (recordsOf e time l) := by
  obtain ⟨link, mirror, -⟩ := mirrored_link s g code count
  have front := emits_congr copied (s.contexts.set e d) P O s.resolver s.session s.penalty s.throttle
  have back : ({ m with
      contexts := s.contexts.set e d, pit := P, order := O, resolver := s.resolver, session := s.session
      penalty := s.penalty, throttle := s.throttle } : State) =
      { m with contexts := m.contexts.set e d, pit := P, order := O } := by
    rw [same.contexts, ← same.resolver, ← same.session, ← same.penalty, ← same.throttle]
  rw [back] at front
  rw [mirror] at front ⊢
  have all := emits_trans (emits_mono front (g' := 0x89) (by decide)) (emits_mono stage.out (g' := 0x89) (by decide))
  rwa [List.nil_append, Nat.zero_add] at all

/-- The heat closes behind a car that finishes. -/
theorem closesHeat (h : Crossing s g code count i (closeHeat .allFinished false z) m)
    (stage : At m e time d P O z l) :
    HeatCloses 0xC9 { mirrored s g code count with contexts := s.contexts.set e d, pit := P, order := O }
      (settle (closeHeat .allFinished false z)) .allFinished (recordsOf e time l) ∧
    groupSet .call (settle (closeHeat .allFinished false z)) = (l.any (asksCall s) || groupSet .call s) := by
  have mirror := sameAs_mirrored s g code count
  have sends := (emits_behind h.same h.emits stage).sends (Nat.le_of_eq (List.length_map _).symm)
  have closes := (heatCloses_of (cause := .allFinished) sends (mirror.rstnLow.trans h.high)).quiet (quiet_settle _)
  refine ⟨closes, ?_⟩
  obtain ⟨v, closed, -, -, -, -, -, -, -, groups⟩ := closeHeat_keeps .allFinished z
  rw [groupSet_outputs (quiet_settle _).outputs (by simp), closed, groups _ (by decide), stage.call,
    same_asksCall h.same, groupSet_behind h.emits]

end

theorem open_of_endsHeat {s : State} {laps : Nat} (ends : EndsHeat s laps) : s.session.state ≠ .chequered := by
  rcases ends.2 with state | state | ⟨state, -⟩ <;> rw [state] <;> exact SessionState.noConfusion

/-- Another car is afield (R123). -/
def LapClose.Others (K : LapClose) : Prop :=
  ∃ f : Entry, f ≠ K.e ∧
    ((ctx K.s f).state = .running ∨ (ctx K.s f).state = .offTrack ∨ (ctx K.s f).state = .inPit)

/-- The part with the car placed and its crossing's pit work done. -/
def LapClose.ordered (K : LapClose) (code : Byte) (k : List Entry) : State :=
  { mirrored K.s K.g code K.count with pit := pitBegun K.s K.e, order := { K.s.order with list := k } }

section
variable {K : LapClose} {m z : State} {code : Byte} {i : Instr}

theorem LapClose.afield_iff (contexts : z.contexts = K.s.contexts.set K.e K.finish) : Afield z ↔ K.Others := by
  have own : (ctx z K.e).state = .finished := by
    rw [show ctx z K.e = K.finish by unfold ctx; rw [contexts]; exact get_set _ _ _]
    rfl
  have other {f : Entry} (ne : f ≠ K.e) : ctx z f = ctx K.s f := by
    unfold ctx
    rw [contexts]
    exact get_set_ne _ _ ne
  constructor
  · rintro ⟨f, afield⟩
    have ne : f ≠ K.e := fun same => by
      rw [same, own] at afield
      simp at afield
    rw [other ne] at afield
    exact ⟨f, ne, afield.imp_right Or.symm⟩
  · rintro ⟨f, ne, afield⟩
    rw [← other ne] at afield
    exact ⟨f, afield.imp_right Or.symm⟩

theorem LapClose.finishedAt_eq (kept : K.Kept) (settings : m.settings = K.s.settings) :
    finishedAt m (K.report code) K.j K.closed = K.finish := by
  rw [LapClose.finish, ← kept.laps, ← kept.ring, finishedAt, settings]
  rfl

/-- The car finishes in CHEQUERED, up to the close test. -/
theorem LapClose.finishes_chequered (ran : Began K.c K.work.1) (kept : K.Kept) {y : State}
    (h : Crossing K.s K.g code K.count i (acceptCrossing (K.report code) m) m)
    (rest : acceptCrossing (K.report code) m = closeRest (K.report code) K.j (K.missed.length - K.closing)
      (K.missed.length + 1) (K.body code) y)
    (stage : At m K.e K.time K.closed (pitBegun m K.e) m.order y K.front) (state : K.s.session.state = .chequered) :
    ∃ z k, acceptCrossing (K.report code) m = closeTest z ∧ Placed K.s (placedAs K.s K.e K.finish k) K.e ∧
      At m K.e K.time K.finish (pitBegun K.s K.e) { K.s.order with list := k } z
        (K.front ++ K.arrives (placedAs K.s K.e K.finish k)) := by
  rw [← h.same.session] at state
  have tells : tellClose (ctx y K.e).laps y = y := (tellClose_eq _ _).1 fun ends =>
    open_of_endsHeat ends (by rw [stage.session]; exact state)
  obtain ⟨z, test, stage⟩ := stage.closeFinish (j := K.j) (after := K.missed.length - K.closing)
    (spanned := K.missed.length + 1) (lap := K.body code) (x := K.report code) tells rfl rfl state
  have shown := K.lapShown_eq (code := code) ran h.same.settings (standing_placedAs h.same K.e K.finish)
  rw [K.finishedAt_eq kept h.same.settings, same_placedOrder h.same, same_pitBegun h.same, kept.fuel, shown] at stage
  refine ⟨z, placedList m K.e K.finish, rest.trans test, placed_placedAs h.same K.e K.finish, ?_⟩
  rw [LapClose.arrives, ← List.append_assoc, ← List.append_assoc]
  exact stage

end

section
variable {K : LapClose} {m : State} {code : Byte} {i : Instr}

theorem LapClose.arrives_calm (K : LapClose) (s w : State) : (K.arrives w).any (asksCall s) = false := by
  rw [List.any_eq_false]
  intro b told
  unfold LapClose.arrives LapClose.revealing at told
  rcases List.mem_append.1 told with told | told
  · rcases List.mem_append.1 told with told | told
    · obtain ⟨o, -, rfl⟩ := List.mem_map.1 told
      exact Bool.false_ne_true
    · rw [List.mem_singleton.1 told]
      exact Bool.false_ne_true
  · split at told
    · exact absurd told List.not_mem_nil
    · rw [List.mem_singleton.1 told]
      exact Bool.false_ne_true

theorem LapClose.front_call (K : LapClose) (w : State) :
    (K.front ++ K.arrives w).any (asksCall K.s) = K.front.any (asksCall K.s) := by
  rw [List.any_append, K.arrives_calm, Bool.or_false]

/-- The car finishes with this crossing, and the command ends so. -/
def LapClose.Finishes (K : LapClose) (i : Instr) (after : State → List Entry → State → Prop) : Prop :=
  ∃ (t : State) (k : List Entry), exec i K.s = .next t ∧ Placed K.s (placedAs K.s K.e K.finish k) K.e ∧
    groupSet .call t = (K.front.any (asksCall K.s) || groupSet .call K.s) ∧ after t k (placedAs K.s K.e K.finish k)

section
variable (ran : Began K.c K.work.1) (kept : K.Kept) {y : State}
  (h : Crossing K.s K.g code K.count i (acceptCrossing (K.report code) m) m)
  (rest : acceptCrossing (K.report code) m = closeRest (K.report code) K.j (K.missed.length - K.closing)
    (K.missed.length + 1) (K.body code) y)
  (stage : At m K.e K.time K.closed (pitBegun m K.e) m.order y K.front)
include ran kept h rest stage

theorem LapClose.finishes_among (state : K.s.session.state = .chequered) (others : K.Others) :
    K.Finishes i fun t k w => Outputs 0x89 (struck K.e K.finish none (K.ordered code k)) t ∧
      Told K.s t K.e K.time (K.front ++ K.arrives w) := by
  obtain ⟨z, k, test, placed, stage⟩ := K.finishes_chequered ran kept h rest stage state
  have contexts : z.contexts = K.s.contexts.set K.e K.finish := by rw [stage.contexts, h.same.contexts]
  rw [test, closeTest_stay (.inr ((K.afield_iff contexts).2 others))] at h
  obtain ⟨outputs, told⟩ := h.settles stage
  refine ⟨settle z, k, h.run, placed, by rw [told.call, K.front_call], ?_, told⟩
  rw [LapClose.ordered, struck_mirrored]
  exact outputs

theorem LapClose.finishes_last (state : K.s.session.state = .chequered) (last : ¬K.Others) :
    K.Finishes i fun t k w => HeatCloses 0xC9 (struck K.e K.finish none (K.ordered code k)) t .allFinished
      (recordsOf K.e K.time (K.front ++ K.arrives w)) := by
  obtain ⟨z, k, test, placed, stage⟩ := K.finishes_chequered ran kept h rest stage state
  have contexts : z.contexts = K.s.contexts.set K.e K.finish := by rw [stage.contexts, h.same.contexts]
  have chequered : z.session.state = .chequered := by rw [stage.session, h.same.session, state]
  rw [test, closeTest_close chequered (mt (K.afield_iff contexts).1 last)] at h
  obtain ⟨closes, call⟩ := closesHeat h stage
  refine ⟨_, k, h.run, placed, by rw [call, K.front_call], ?_⟩
  dsimp only
  rw [LapClose.ordered, struck_mirrored]
  exact closes

end

end

/-! #### The finish of the car whose laps end the heat (R121, R122) -/

section
variable {K : LapClose} {m y : State} {code : Byte} {i : Instr}

/-- The part once the car whose laps end the heat has finished. -/
def LapClose.chequered (K : LapClose) (code : Byte) (k : List Entry) : State :=
  { struck K.e K.finish none (K.ordered code k) with
    order := { list := k, snapshot := none }
    session := { K.s.session with
      state := .chequered, grace := some (K.s.settings.heat.finishGrace * 100000)
      periods := ended K.s.clock.now K.s.session.periods } }

/-- All the records of the command. -/
def LapClose.ending (K : LapClose) (w : State) : List Record :=
  recordsOf K.e K.time K.front ++ [⟨0, K.s.clock.now, .session .chequered .lapsDone K.s.session.heatClock⟩] ++
    recordsOf K.e K.time (K.arrives w)

theorem placed_of_list {s v t : State} {e : Entry} (list : v.order.list = s.order.list) (placed : Placed v t e) :
    Placed s t e := by
  unfold Placed
  rw [← list]
  exact placed

/-- What stands when the move to CHEQUERED has been announced in front of the finish. -/
structure LapClose.Ended (K : LapClose) (v : State) : Prop where
  contexts : v.contexts = K.s.contexts.set K.e K.closed
  pit : v.pit = pitBegun K.s K.e
  order : v.order = { K.s.order with snapshot := none }
  session : v.session = { K.s.session with
    state := .chequered, grace := some (K.s.settings.heat.finishGrace * 100000)
    periods := ended K.s.clock.now K.s.session.periods }
  resolver : v.resolver = K.s.resolver
  penalty : v.penalty = K.s.penalty
  throttle : v.throttle = K.s.throttle
  settings : v.settings = K.s.settings

theorem LapClose.ended_announce (same : SameAs K.s m)
    (stage : At m K.e K.time K.closed (pitBegun m K.e) m.order y K.front) :
    K.Ended (announce .lapsDone (HeatMoves.chequered y)) := by
  have out := outputs_announce .lapsDone (HeatMoves.chequered y)
  exact {
    contexts := by rw [outputs_contexts out, ← same.contexts]; exact stage.contexts
    pit := by rw [outputs_pit out, ← same_pitBegun same]; exact stage.pit
    order := by rw [outputs_order out, ← same.order, ← stage.order]; rfl
    session := by
      rw [outputs_session out, HeatMoves.chequered, stage.session, stage.now, stage.settings, same.session, same.now,
        same.settings]
    resolver := by rw [out.rest, ← same.resolver]; exact stage.resolver
    penalty := by rw [out.rest, ← same.penalty]; exact stage.penalty
    throttle := by rw [out.rest, ← same.throttle]; exact stage.throttle
    settings := by rw [out.rest, ← same.settings]; exact stage.settings }

/-- The records of the command, up to the finish itself. -/
theorem LapClose.sends_ended (h : Crossing K.s K.g code K.count i (acceptCrossing (K.report code) m) m)
    (stage : At m K.e K.time K.closed (pitBegun m K.e) m.order y K.front) (k : List Entry) :
    let v := announce .lapsDone (HeatMoves.chequered y)
    Sends 0xC9 (K.chequered code k) { v with
        contexts := K.s.contexts.set K.e K.finish, order := { list := k, snapshot := none } }
      (recordsOf K.e K.time K.front ++
        [⟨0, K.s.clock.now, .session .chequered .lapsDone K.s.session.heatClock⟩]) := by
  intro v
  have atEnd := K.ended_announce h.same stage
  have front := (emits_behind h.same h.emits stage).sends (Nat.le_of_eq (List.length_map _).symm)
  have move := (emitsMove_announce .lapsDone (HeatMoves.chequered y)).sends (Nat.le_refl 1)
  have record : (⟨0, (HeatMoves.chequered y).clock.now, .session (HeatMoves.chequered y).session.state .lapsDone
      (HeatMoves.chequered y).session.heatClock⟩ : Record) =
      ⟨0, K.s.clock.now, .session .chequered .lapsDone K.s.session.heatClock⟩ := by
    rw [← h.same.now, ← h.same.session, ← stage.session, ← stage.now]
    rfl
  rw [record] at move
  let S := (K.chequered code k).session
  let C := K.s.contexts.set K.e K.finish
  let O : Order := { list := k, snapshot := none }
  have all := sends_trans
    (sends_mono (sends_congr front C (pitBegun K.s K.e) O K.s.resolver S K.s.penalty K.s.throttle) (g' := 0xC9)
      (by decide))
    (sends_mono (sends_congr move C (pitBegun K.s K.e) O K.s.resolver S K.s.penalty K.s.throttle) (g' := 0xC9)
      (by decide))
  have back : ({ v with
      contexts := C, pit := pitBegun K.s K.e, order := O, resolver := K.s.resolver, session := S
      penalty := K.s.penalty, throttle := K.s.throttle } : State) = { v with contexts := C, order := O } := by
    rw [← atEnd.pit, ← atEnd.resolver, ← atEnd.penalty, ← atEnd.throttle, show S = v.session from atEnd.session.symm]
  have start : K.chequered code k = { mirrored K.s K.g code K.count with
      contexts := C, pit := pitBegun K.s K.e, order := O, resolver := K.s.resolver, session := S
      penalty := K.s.penalty, throttle := K.s.throttle } := by
    obtain ⟨link, mirror, -⟩ := mirrored_link K.s K.g code K.count
    unfold LapClose.chequered LapClose.ordered
    rw [mirror]
    rfl
  rw [back] at all
  rw [start]
  exact all

end

/-- A finish that has ended the heat, up to the close test. -/
structure LapClose.EndsAt (K : LapClose) (code : Byte) (k : List Entry) (z : State) : Prop where
  placed : Placed K.s (placedAs K.s K.e K.finish k) K.e
  sends : Sends 0xC9 (K.chequered code k) z (K.ending (placedAs K.s K.e K.finish k))
  lamp : Shows z ⟨.chequer, 0⟩
  group : groupSet .session z = true
  call : groupSet .call z = (K.front.any (asksCall K.s) || groupSet .call K.s)
  contexts : z.contexts = K.s.contexts.set K.e K.finish
  session : z.session.state = .chequered

section
variable {K : LapClose} {m y : State} {code : Byte} {i : Instr} (ran : Began K.c K.work.1) (kept : K.Kept)
  (h : Crossing K.s K.g code K.count i (acceptCrossing (K.report code) m) m)
  (rest : acceptCrossing (K.report code) m = closeRest (K.report code) K.j (K.missed.length - K.closing)
    (K.missed.length + 1) (K.body code) y)
  (stage : At m K.e K.time K.closed (pitBegun m K.e) m.order y K.front)
include ran kept h rest stage

theorem LapClose.endsAt (tells : tellClose (ctx y K.e).laps y = enterChequered .lapsDone y) :
    ∃ z k, acceptCrossing (K.report code) m = closeTest z ∧ K.EndsAt code k z := by
  have atEnd := K.ended_announce h.same stage
  have front := fun k => K.sends_ended h stage k
  have low : (HeatMoves.chequered y).rstnLow = false := by
    rw [show (HeatMoves.chequered y).rstnLow = y.rstnLow from rfl, stage.out.out.rest]
    exact h.same.rstnLow.trans h.high
  have lamp := shows_announce low .lapsDone
  have group := group_announce .lapsDone (HeatMoves.chequered y)
  have call : groupSet .call (announce .lapsDone (HeatMoves.chequered y)) =
      (K.front.any (asksCall K.s) || groupSet .call K.s) := by
    rw [groupSet_outputs (outputs_announce _ _) (by decide), ← groupSet_behind h.emits, ← same_asksCall h.same,
      ← stage.call]
    rfl
  rw [enterChequered_eq] at tells
  have tells' : tellClose (ctx y K.e).laps y = announce .lapsDone (HeatMoves.chequered y) := tells
  generalize announce .lapsDone (HeatMoves.chequered y) = v at *
  have own : ctx v K.e = K.closed := by
    unfold ctx
    rw [atEnd.contexts]
    exact get_set _ _ _
  have state : v.session.state = .chequered := by rw [atEnd.session]
  obtain ⟨z, test, finish⟩ := (at_start v K.e K.time).closeFinish (j := K.j) (after := K.missed.length - K.closing)
    (spanned := K.missed.length + 1) (lap := K.body code) (x := K.report code) tells' rfl rfl state
  have twice : v.contexts.set K.e K.finish = K.s.contexts.set K.e K.finish := by rw [atEnd.contexts, set_set]
  have figures : standing (placedAs K.s K.e K.finish (placedList v K.e K.finish)) K.e =
      standingOf v K.e K.finish (placedList v K.e K.finish) :=
    standing_of (m := v) (d := K.finish) (d' := K.finish) rfl twice.symm atEnd.settings.symm (ranks_refl _)
  have ordered : placedOrder v K.e K.finish = { list := placedList v K.e K.finish, snapshot := none } := by
    rw [placedOrder, atEnd.order]
  rw [own, K.finishedAt_eq kept atEnd.settings, kept.fuel, K.lapShown_eq (code := code) ran atEnd.settings figures,
    ordered] at finish
  have finish : At v K.e K.time K.finish v.pit { list := placedList v K.e K.finish, snapshot := none } z
      (K.arrives (placedAs K.s K.e K.finish (placedList v K.e K.finish))) := finish
  have told := finish.out
  rw [twice] at told
  have arrives := told.sends (Nat.le_of_eq (List.length_map _).symm)
  refine ⟨z, placedList v K.e K.finish, rest.trans test, ?_⟩
  exact {
    placed := placed_of_list (by rw [atEnd.order])
      (placed_of (m := v) (d := K.finish) (d' := K.finish) rfl twice.symm (ranks_refl _))
    sends := sends_trans (front _) (sends_mono arrives (by decide))
    lamp := told.shows _ lamp
    group := groupSet_mono group told.out.kept
    call := by rw [finish.call, K.arrives_calm, Bool.false_or, call]
    contexts := finish.contexts.trans twice
    session := by rw [finish.session, state] }

end

theorem mirrored_station (s : State) (g : GateId) (code : Byte) (count : Count) :
    (mirrored s g code count).link.records = s.link.records ∧
      (mirrored s g code count).link.stationTx = s.link.stationTx := by
  unfold mirrored
  split <;> exact ⟨rfl, rfl⟩

section
variable {K : LapClose} {m z : State} {code : Byte} {i : Instr} {k : List Entry} (kept : K.EndsAt code k z)
include kept

theorem LapClose.EndsAt.goesOn (h : Crossing K.s K.g code K.count i (closeTest z) m) (others : K.Others) :
    K.Finishes i fun t k w => Outputs 0xC9 (K.chequered code k) t ∧ groupSet .session t = true ∧
      Shows t ⟨.chequer, 0⟩ ∧ Joined K.s t (K.ending w) ∧
      (K.s.link.records.length + (K.ending w).length ≤ 64 → ∀ r ∈ K.ending w, Recorded t r) := by
  rw [closeTest_stay (.inr ((K.afield_iff kept.contexts).2 others))] at h
  have low : (K.chequered code k).rstnLow = false := (sameAs_mirrored K.s K.g code K.count).rstnLow.trans h.high
  obtain ⟨records, busy⟩ := mirrored_station K.s K.g code K.count
  have quiet := quiet_settle z
  have sends := sends_settle kept.sends
  refine ⟨settle z, k, h.run, kept.placed, ?_, sends.out, ?_, shows_kept quiet.lamp kept.lamp, ?_, ?_⟩
  · rw [groupSet_outputs quiet.outputs (by simp), kept.call]
  · rw [groupSet_outputs quiet.outputs (by simp), kept.group]
  · intro waits room
    rw [← busy] at waits
    rw [← records] at room ⊢
    exact (sends.queue low waits room).1
  · intro room
    rw [← records] at room
    exact (sends.room low room).2

theorem LapClose.EndsAt.closes (h : Crossing K.s K.g code K.count i (closeTest z) m) (last : ¬K.Others) :
    K.Finishes i fun t k w => HeatCloses 0xC9 (K.chequered code k) t .allFinished (K.ending w) := by
  rw [closeTest_close kept.session (mt (K.afield_iff kept.contexts).1 last)] at h
  obtain ⟨v, closed, -, -, -, -, -, -, -, groups⟩ := closeHeat_keeps .allFinished z
  have low : (K.chequered code k).rstnLow = false := (sameAs_mirrored K.s K.g code K.count).rstnLow.trans h.high
  refine ⟨_, k, h.run, kept.placed, ?_,
    (heatCloses_of (cause := .allFinished) kept.sends low).quiet (quiet_settle _)⟩
  rw [groupSet_outputs (quiet_settle _).outputs (by simp), closed, groups _ (by decide), kept.call]

end

/-! #### The close as the statement reads it -/

/-- The car's laps end a LAPS heat (R121). -/
def LapClose.Done (K : LapClose) : Prop :=
  K.s.settings.heat.raceKind = .laps ∧ K.s.settings.heat.raceLaps ≤ K.laps

/-- The session stands in, or is held from, a state that the end of the laps leaves (R121). -/
def LapClose.HeldOpen (K : LapClose) : Prop :=
  K.s.session.heldFrom = some .green ∨ K.s.session.heldFrom = some .caution

section
variable {K : LapClose} {m : State} {code : Byte} {i : Instr}
  (h : Crossing K.s K.g code K.count i (acceptCrossing (K.report code) m) m) (k : K.Closes)
include h k

theorem LapClose.flags (flag : ¬Spared K.judge.2) (fair : K.c.disqualified = false) :
    ∃ t, exec i K.s = .next t ∧
      FlagEnds K.s (struck K.e { K.judge.1 with last := some (crossingOf K.s K.g K.time) }
        (some (ruleOf K.s .lineMiss).enforce) (mirrored K.s K.g code K.count)) t K.e K.time K.front := by
  have stage := (K.closes_stage h k).2.1 flag fair
  rw [same_ruleOf h.same] at stage
  exact h.flagsAlone stage

/-- The close up to what it tells the session controller. -/
theorem LapClose.tells (on : Spared K.judge.2) : Began K.c K.work.1 ∧ K.Kept ∧
    ∃ y, acceptCrossing (K.report code) m = closeRest (K.report code) K.j (K.missed.length - K.closing)
        (K.missed.length + 1) (K.body code) y ∧
      At m K.e K.time K.closed (pitBegun m K.e) m.order y K.front ∧
      y.session = K.s.session ∧
      (EndsHeat y (ctx y K.e).laps ↔ EndsHeat K.s K.laps) := by
  obtain ⟨ran, -, closed⟩ := K.closes_stage h k
  obtain ⟨charged, y, rest, stage⟩ := closed on
  have kept := LapClose.kept_of_charged ran charged
  have session : y.session = K.s.session := stage.session.trans h.same.session
  have settings : y.settings = K.s.settings := stage.settings.trans h.same.settings
  refine ⟨ran, kept, y, rest, stage, session, ?_⟩
  unfold EndsHeat
  rw [stage.ctx, kept.laps, session, settings]

theorem LapClose.racesOn (on : Spared K.judge.2) (state : K.s.session.state ≠ .chequered)
    (more : ¬EndsHeat K.s K.laps) : K.RacesOn code i K.s.session := by
  obtain ⟨ran, kept, y, rest, stage, session, ends⟩ := K.tells h k on
  refine K.races h ran kept rest stage rfl rfl state ?_
  rw [← session]
  exact (tellClose_eq _ _).1 (mt ends.1 more)

theorem LapClose.racesOnHeld (on : Spared K.judge.2) (done : K.Done) (held : K.s.session.state = .held)
    (isOpen : K.HeldOpen) : K.RacesOn code i { K.s.session with heldFrom := some .chequered } := by
  obtain ⟨ran, kept, y, rest, stage, session, ends⟩ := K.tells h k on
  refine K.races h ran kept rest stage rfl rfl (by rw [held]; exact SessionState.noConfusion) ?_
  rw [← session] at held ⊢
  exact (tellClose_eq _ _).2.1 (ends.2 ⟨done, .inr (.inr ⟨by rw [← session]; exact held, isOpen⟩)⟩) held

theorem LapClose.finishesAmong (on : Spared K.judge.2) (state : K.s.session.state = .chequered) (others : K.Others) :
    K.Finishes i fun t k w => Outputs 0x89 (struck K.e K.finish none (K.ordered code k)) t ∧
      Told K.s t K.e K.time (K.front ++ K.arrives w) := by
  obtain ⟨ran, kept, y, rest, stage, -⟩ := K.tells h k on
  exact K.finishes_among ran kept h rest stage state others

theorem LapClose.finishesLast (on : Spared K.judge.2) (state : K.s.session.state = .chequered) (last : ¬K.Others) :
    K.Finishes i fun t k w => HeatCloses 0xC9 (struck K.e K.finish none (K.ordered code k)) t .allFinished
      (recordsOf K.e K.time (K.front ++ K.arrives w)) := by
  obtain ⟨ran, kept, y, rest, stage, -⟩ := K.tells h k on
  exact K.finishes_last ran kept h rest stage state last

theorem LapClose.finishesDone (on : Spared K.judge.2) (done : K.Done)
    (state : K.s.session.state = .green ∨ K.s.session.state = .caution) :
    ∃ z order, Crossing K.s K.g code K.count i (closeTest z) m ∧ K.EndsAt code order z := by
  obtain ⟨ran, kept, y, rest, stage, session, ends⟩ := K.tells h k on
  have ends := ends.2 ⟨done, state.imp_right .inl⟩
  have moving : y.session.state ≠ .held := by
    rw [session]
    rcases state with state | state <;> rw [state] <;> exact SessionState.noConfusion
  obtain ⟨z, order, test, atEnd⟩ := K.endsAt ran kept h rest stage ((tellClose_eq _ _).2.2 ends moving)
  exact ⟨z, order, test ▸ h, atEnd⟩

end

/-- Settles O59: the close up to its placement, and behind it what the session controller makes of the car's laps. -/
theorem lapsAreClosed : Obligations.LapsAreClosed := by
  refine ⟨stands_standing, fun L k j lineK lineJ few missed => by rw [missed_to_zero L k j lineK lineJ few missed],
    fun s g code count arrival e inferred foul accepts charged => ?_⟩
  obtain ⟨m, h⟩ := crossing_of_accepts accepts
  let K : LapClose := ⟨s, g, count, arrival, e, inferred, foul⟩
  have h : Crossing K.s K.g code K.count _ (acceptCrossing (K.report code) m) m := h
  intro i copied c time low last joined L j missed work viaPit closing n counted laps lapTime eligible best ran judge
    closed record sector revealing served others done next finish ordered entered front racesOn arrives ending
    chequered finishes state role raced zero fresh spared
  -- the contexts of the statement are those of the close, taken over one by one
  clear_value (judge_eq : judge = K.judge)
  subst judge_eq
  clear_value (closed_eq : closed = K.closed)
  subst closed_eq
  have k : K.Closes := ⟨charged, state, role, raced, zero, fresh, spared⟩
  exact ⟨K.flags h k, fun on => ⟨fun moving => ⟨K.racesOn h k on moving, K.racesOnHeld h k on⟩,
    K.finishesAmong h k on, K.finishesLast h k on,
    fun done state others =>
      have ⟨_, _, test, atEnd⟩ := K.finishesDone h k on done state
      atEnd.goesOn test others,
    fun done state last =>
      have ⟨_, _, test, atEnd⟩ := K.finishesDone h k on done state
      atEnd.closes test last⟩⟩

end Sys2Proof.Proofs.LapCloses
